-- ==== Sys2Proof/Word.lean ====
section
/-! DEFINITION. The word types of the hardware kernel (spec 00_scope.md rule R8): a byte, a 16-bit port address or
register, a 32-bit port value. -/

namespace Sys2Proof

/-- `u8` of rule R8. -/
abbrev Byte := BitVec 8

/-- `u16` of rule R8: a port address (R70), a CPU register of the default `RegSpec` (R58). -/
abbrev Half := BitVec 16

/-- The carrier of a port value of 1, 2 or 4 bytes; a narrower value is zero-extended (R111 (c)). -/
abbrev Long := BitVec 32

end Sys2Proof
end

