-- ==== Sys2Proof/Syntax.lean ====
section
/-! DEFINITION. The operations of the hardware kernel as syntax: one constructor of `Instr` for each row of
spec/opcode_table.json (rule R112), and the types of their operands. -/

namespace Sys2Proof

/-- Port access width: 1, 2 or 4 bytes (R71). -/
inductive Width where
  | byte
  | word
  | dword
deriving DecidableEq, Repr, Inhabited

/-- Port attribute of `BUS.registerPort` (R22, R121). -/
inductive Attr where
  | rw
  | readOnly
  | writeOnly
deriving DecidableEq, Repr, Inhabited

/-- A controller of the cascaded pair: master `M` or slave `S` (R24). -/
inductive Ctrl where
  | M
  | S
deriving DecidableEq, Repr, Inhabited

/-- Device identifier (R22): the PIC, an ATA channel, or any other device by its `DeviceModel` index. -/
inductive Device where
  | pic
  | ata (ch : Nat)
  | ext (d : Nat)
deriving DecidableEq, Repr, Inhabited

/-- A module of the lifecycle contract (R340, R346): the five components and every external device. -/
inductive Module where
  | bus
  | pic
  | clk
  | ata (ch : Nat)
  | cpu
  | ext (d : Nat)
deriving DecidableEq, Repr, Inhabited

/-- Drive-type tag, also the carrier type of `ATA.insert` (R45, R247). -/
inductive Carrier where
  | none
  | hardDisk
  | cdrom
deriving DecidableEq, Repr, Inhabited

/-- A drive selector: the number `2 * channel + drive`, or a drive name as its bytes (R249). -/
inductive DriveSel where
  | index (n : Nat)
  | name (bytes : List Byte)
deriving DecidableEq, Repr, Inhabited

/-- The four parameter registers of the task file, offsets 2 to 5 (R289, R290). -/
inductive ParamReg where
  | sectorCount
  | sectorNumber
  | cylLow
  | cylHigh
deriving DecidableEq, Repr, Inhabited

/-- The operations of rule R112. A CALL row carries the arguments of its rule; a PORT row is the device register
command of that row at controller `c` or channel `ch` (R97). A field of a command byte that its layout ignores in
every mode (R99, R104, R105, R107, R110) is not an operand; a data-port byte of the PIC is kept whole, because which
command it is depends on `initState` (R116 (a)). -/
inductive Instr where
  -- I/O Bus
  | busRegisterPort (a : Half) (d : Device) (attr : Attr)
  | busReadPort (a : Half) (w : Width)
  | busWritePort (a : Half) (w : Width) (v : Long)
  -- interrupt controller, CALL
  | picAssertIRQ (n : Nat)
  | picClearIRQ (n : Nat)
  | picAcknowledge
  | picEndOfInterrupt (c : Ctrl) (line : Option (Fin 8)) (rotate : Bool)
  | picRequestIRQNumber (caller : Device)
  | picFreeIRQNumber (caller : Device)
  | picReset
  -- interrupt controller, PORT
  | picICW1 (c : Ctrl) (ltim sngl ic4 : Bool)
  | picICW2 (c : Ctrl) (b : Byte)
  | picICW3 (c : Ctrl) (b : Byte)
  | picICW4 (c : Ctrl) (b : Byte)
  | picOCW1 (c : Ctrl) (b : Byte)
  | picOCW2EOI (c : Ctrl) (r sl : Bool) (l : Fin 8)
  | picOCW2RotAutoSet (c : Ctrl)
  | picOCW2RotAutoClr (c : Ctrl)
  | picOCW2SetPrio (c : Ctrl) (l : Fin 8)
  | picOCW2Nop (c : Ctrl) (l : Fin 8)
  | picOCW3 (c : Ctrl) (esmm smm p rr ris : Bool)
  | picRdCmd (c : Ctrl)
  | picRdData (c : Ctrl)
  -- Clock / Timer
  | clkRegisterDevice (d : Device) (us : Nat) (continuous : Bool)
  | clkPulse
  | clkResetTimer (d : Device) (us : Nat)
  | clkSetTimerActiveState (d : Device) (active : Bool)
  | clkSignalPulse
  -- ATA channel, CALL
  | ataReset (ch : Nat)
  | ataSetSelectedDriveIndex (ch k : Nat)
  | ataInsert (sel : DriveSel) (carrier : Carrier) (image : Nat) (writeProtected : Bool)
  | ataEject (sel : DriveSel)
  | ataUpdate (ch : Nat)
  -- ATA channel, PORT
  | ataRdData (ch : Nat) (w : Width)
  | ataWrData (ch : Nat) (w : Width) (v : Long)
  | ataRdError (ch : Nat)
  | ataWrFeatures (ch : Nat) (b : Byte)
  | ataRdParam (ch : Nat) (o : ParamReg)
  | ataWrParam (ch : Nat) (o : ParamReg) (b : Byte)
  | ataRdDrvHead (ch : Nat)
  | ataWrDrvHead (ch : Nat) (lba drv : Bool) (head : BitVec 4)
  | ataRdStatus (ch : Nat)
  | ataWrCommand (ch : Nat) (b : Byte)
  | ataRdAltStatus (ch : Nat)
  | ataWrDevCtl (ch : Nat) (srst nien : Bool)
  | ataRdDrvAddr (ch : Nat)
  | ataWrDrvAddr (ch : Nat) (b : Byte)
  -- CPU loop
  | cpuStep
  | cpuGetRegister (name : List Byte)
  | cpuSetRegister (name bytes : List Byte)
  | cpuSetHoldRequest (d : Device) (on : Bool)
  | cpuStart
  | cpuStop
  | cpuReset
  -- lifecycle
  | modReset (m : Module)
  | modStart (m : Module)
  | modStop (m : Module)
  | modGetDump (m : Module)
  | modIsConnected (m : Module)
  -- ROM store
  | romSetSystemBIOS (bytes : List Byte)
  | romReadSystemBIOS
deriving DecidableEq, Repr

end Sys2Proof
end

