-- ==== Sys2Proof/WellFormed.lean ====
section
/-! DEFINITION. When an operation can be issued as a packet: a port value has exactly `8*w` bits (R97, R122, R123)
and every unbounded operand fits its packet field (log entry 2). A meaning does not rest on this predicate: an IRQ
line above 15 or an unknown name is well-formed and has the condition its rule names (R115). -/

namespace Sys2Proof

/-- How many bits a port value of width `w` has (R71). -/
def Width.bits : Width → Nat
  | .byte => 8
  | .word => 16
  | .dword => 32

/-- A port value has exactly `8*w` bits (R97). -/
def valueFits (w : Width) (v : Long) : Bool := decide (v.toNat < 2 ^ w.bits)

/-- A natural-number operand fits the four bytes of its packet field (log entry 2). -/
def natFits (n : Nat) : Bool := decide (n < 2 ^ 32)

/-- A channel index fits the unit byte of a packet (log entry 2). -/
def chanFits (ch : Nat) : Bool := decide (ch < 2 ^ 8)

/-- A name or a short byte sequence fits its packet field (log entry 2). -/
def nameFits (bytes : List Byte) : Bool := decide (bytes.length < 2 ^ 8)

/-- A byte blob fits its packet field (log entry 2). -/
def blobFits (bytes : List Byte) : Bool := decide (bytes.length < 2 ^ 32)

/-- A device index fits its packet field. -/
def deviceFits : Device → Bool
  | .pic => true
  | .ata ch => natFits ch
  | .ext d => natFits d

/-- A module index fits its packet field. -/
def moduleFits : Module → Bool
  | .bus | .pic | .clk | .cpu => true
  | .ata ch => natFits ch
  | .ext d => natFits d

/-- A drive selector fits its packet field. -/
def selFits : DriveSel → Bool
  | .index n => natFits n
  | .name bytes => nameFits bytes

/-- The operation can be issued as a packet. -/
def Instr.wellFormed : Instr → Bool
  | .busRegisterPort _ d _ => deviceFits d
  | .busReadPort _ _ => true
  | .busWritePort _ w v => valueFits w v
  | .picAssertIRQ n => natFits n
  | .picClearIRQ n => natFits n
  | .picAcknowledge => true
  | .picEndOfInterrupt _ _ _ => true
  | .picRequestIRQNumber d => deviceFits d
  | .picFreeIRQNumber d => deviceFits d
  | .picReset => true
  | .picICW1 _ _ _ _ => true
  | .picICW2 _ _ => true
  | .picICW3 _ _ => true
  | .picICW4 _ _ => true
  | .picOCW1 _ _ => true
  | .picOCW2EOI _ _ _ _ => true
  | .picOCW2RotAutoSet _ => true
  | .picOCW2RotAutoClr _ => true
  | .picOCW2SetPrio _ _ => true
  | .picOCW2Nop _ _ => true
  | .picOCW3 _ _ _ _ _ _ => true
  | .picRdCmd _ => true
  | .picRdData _ => true
  | .clkRegisterDevice d us _ => deviceFits d && natFits us
  | .clkPulse => true
  | .clkResetTimer d us => deviceFits d && natFits us
  | .clkSetTimerActiveState d _ => deviceFits d
  | .clkSignalPulse => true
  | .ataReset ch => chanFits ch
  | .ataSetSelectedDriveIndex ch k => chanFits ch && natFits k
  | .ataInsert sel _ image _ => selFits sel && natFits image
  | .ataEject sel => selFits sel
  | .ataUpdate ch => chanFits ch
  | .ataRdData ch _ => chanFits ch
  | .ataWrData ch w v => chanFits ch && valueFits w v
  | .ataRdError ch => chanFits ch
  | .ataWrFeatures ch _ => chanFits ch
  | .ataRdParam ch _ => chanFits ch
  | .ataWrParam ch _ _ => chanFits ch
  | .ataRdDrvHead ch => chanFits ch
  | .ataWrDrvHead ch _ _ _ => chanFits ch
  | .ataRdStatus ch => chanFits ch
  | .ataWrCommand ch _ => chanFits ch
  | .ataRdAltStatus ch => chanFits ch
  | .ataWrDevCtl ch _ _ => chanFits ch
  | .ataRdDrvAddr ch => chanFits ch
  | .ataWrDrvAddr ch _ => chanFits ch
  | .cpuStep => true
  | .cpuGetRegister name => nameFits name
  | .cpuSetRegister name bytes => nameFits name && nameFits bytes
  | .cpuSetHoldRequest d _ => deviceFits d
  | .cpuStart => true
  | .cpuStop => true
  | .cpuReset => true
  | .modReset m => moduleFits m
  | .modStart m => moduleFits m
  | .modStop m => moduleFits m
  | .modGetDump m => moduleFits m
  | .modIsConnected m => moduleFits m
  | .romSetSystemBIOS bytes => blobFits bytes
  | .romReadSystemBIOS => true

end Sys2Proof
end

