-- ==== Sys2Proof/Decode.lean ====
section
/-! DEFINITION. Decoding and encoding of operations. The command bytes are those of spec 30_encoding.md rules R99 to
R110 and the opcode table; a CALL operation has no bit pattern in the spec (R96), so the packet around the command
byte is the model's own serial form (log entries 1 and 2):

  byte 0  the command byte of a PORT write row (the table's eight bits), else 0
  byte 1  the selector: which port or which CALL operation
  byte 2  the unit: controller 0 = M, 1 = S, or the channel index, else 0
  then the remaining operands, in order, numbers least significant byte first.

A packet whose selector is 0 is a write of byte 0 to `PIC_PORT_CMD[c]`, and the operation is read from its bits (R182). -/

namespace Sys2Proof

/-- Why a packet is no operation. -/
inductive DecodeError where
  /-- fewer than the three header bytes -/
  | tooShort
  /-- a selector that names no operation -/
  | unknownSelector (sel : Byte)
  /-- a header byte the operation does not use is not zero -/
  | headerNotZero
  /-- the unit byte names no controller -/
  | badController (u : Byte)
  /-- the operands end too early -/
  | truncated
  /-- bytes are left after the last operand -/
  | trailingBytes
  /-- a tag byte of an operand names no alternative -/
  | badTag (t : Byte)
  /-- a port value has bits above its width -/
  | valueTooWide
deriving DecidableEq, Repr

/-- The selectors: `picCmd` stands for the seven command-port writes of the PIC, every other one for one operation. -/
inductive Sel where
  | picCmd
  | picICW2
  | picICW3
  | picICW4
  | picOCW1
  | picRdCmd
  | picRdData
  | picAssertIRQ
  | picClearIRQ
  | picAcknowledge
  | picEndOfInterrupt
  | picRequestIRQNumber
  | picFreeIRQNumber
  | picReset
  | busRegisterPort
  | busReadPort
  | busWritePort
  | clkRegisterDevice
  | clkPulse
  | clkResetTimer
  | clkSetTimerActiveState
  | clkSignalPulse
  | ataReset
  | ataSetSelectedDriveIndex
  | ataInsert
  | ataEject
  | ataUpdate
  | ataRdData
  | ataWrData
  | ataRdError
  | ataWrFeatures
  | ataRdParam
  | ataWrParam
  | ataRdDrvHead
  | ataWrDrvHead
  | ataRdStatus
  | ataWrCommand
  | ataRdAltStatus
  | ataWrDevCtl
  | ataRdDrvAddr
  | ataWrDrvAddr
  | cpuStep
  | cpuGetRegister
  | cpuSetRegister
  | cpuSetHoldRequest
  | cpuStart
  | cpuStop
  | cpuReset
  | modReset
  | modStart
  | modStop
  | modGetDump
  | modIsConnected
  | romSetSystemBIOS
  | romReadSystemBIOS
deriving DecidableEq, Repr

/-- The selector byte of each selector (log entry 1). -/
def Sel.code : Sel → Byte
  | .picCmd => 0x00
  | .picICW2 => 0x01
  | .picICW3 => 0x02
  | .picICW4 => 0x03
  | .picOCW1 => 0x04
  | .picRdCmd => 0x05
  | .picRdData => 0x06
  | .picAssertIRQ => 0x08
  | .picClearIRQ => 0x09
  | .picAcknowledge => 0x0A
  | .picEndOfInterrupt => 0x0B
  | .picRequestIRQNumber => 0x0C
  | .picFreeIRQNumber => 0x0D
  | .picReset => 0x0E
  | .busRegisterPort => 0x10
  | .busReadPort => 0x11
  | .busWritePort => 0x12
  | .clkRegisterDevice => 0x18
  | .clkPulse => 0x19
  | .clkResetTimer => 0x1A
  | .clkSetTimerActiveState => 0x1B
  | .clkSignalPulse => 0x1C
  | .ataReset => 0x20
  | .ataSetSelectedDriveIndex => 0x21
  | .ataInsert => 0x22
  | .ataEject => 0x23
  | .ataUpdate => 0x24
  | .ataRdData => 0x30
  | .ataWrData => 0x31
  | .ataRdError => 0x32
  | .ataWrFeatures => 0x33
  | .ataRdParam => 0x34
  | .ataWrParam => 0x35
  | .ataRdDrvHead => 0x36
  | .ataWrDrvHead => 0x37
  | .ataRdStatus => 0x38
  | .ataWrCommand => 0x39
  | .ataRdAltStatus => 0x3A
  | .ataWrDevCtl => 0x3B
  | .ataRdDrvAddr => 0x3C
  | .ataWrDrvAddr => 0x3D
  | .cpuStep => 0x40
  | .cpuGetRegister => 0x41
  | .cpuSetRegister => 0x42
  | .cpuSetHoldRequest => 0x43
  | .cpuStart => 0x44
  | .cpuStop => 0x45
  | .cpuReset => 0x46
  | .modReset => 0x48
  | .modStart => 0x49
  | .modStop => 0x4A
  | .modGetDump => 0x4B
  | .modIsConnected => 0x4C
  | .romSetSystemBIOS => 0x50
  | .romReadSystemBIOS => 0x51

/-- Every selector, in the order of the codes. -/
def Sel.all : List Sel :=
  [.picCmd, .picICW2, .picICW3, .picICW4, .picOCW1,
   .picRdCmd, .picRdData, .picAssertIRQ, .picClearIRQ, .picAcknowledge,
   .picEndOfInterrupt, .picRequestIRQNumber, .picFreeIRQNumber, .picReset, .busRegisterPort,
   .busReadPort, .busWritePort, .clkRegisterDevice, .clkPulse, .clkResetTimer,
   .clkSetTimerActiveState, .clkSignalPulse, .ataReset, .ataSetSelectedDriveIndex, .ataInsert,
   .ataEject, .ataUpdate, .ataRdData, .ataWrData, .ataRdError,
   .ataWrFeatures, .ataRdParam, .ataWrParam, .ataRdDrvHead, .ataWrDrvHead,
   .ataRdStatus, .ataWrCommand, .ataRdAltStatus, .ataWrDevCtl, .ataRdDrvAddr,
   .ataWrDrvAddr, .cpuStep, .cpuGetRegister, .cpuSetRegister, .cpuSetHoldRequest,
   .cpuStart, .cpuStop, .cpuReset, .modReset, .modStart,
   .modStop, .modGetDump, .modIsConnected, .romSetSystemBIOS, .romReadSystemBIOS]

/-- The selector of a selector byte. -/
def Sel.ofByte (b : Byte) : Option Sel := Sel.all.find? fun x => x.code == b

/-! ### Operands -/

/-- What a field reader answers: the operand and the bytes after it. -/
abbrev Field (α : Type) := Except DecodeError (α × List Byte)

/-- Two bytes, low byte first. -/
def putHalf (v : Half) : List Byte := [v.extractLsb' 0 8, v.extractLsb' 8 8]

/-- Reads `putHalf`. -/
def getHalf : List Byte → Field Half
  | x :: y :: rest => .ok (y ++ x, rest)
  | _ => .error .truncated

/-- Four bytes, low byte first. -/
def putLong (v : Long) : List Byte :=
  [v.extractLsb' 0 8, v.extractLsb' 8 8, v.extractLsb' 16 8, v.extractLsb' 24 8]

/-- Reads `putLong`. -/
def getLong : List Byte → Field Long
  | x :: y :: z :: t :: rest => .ok (t ++ (z ++ (y ++ x)), rest)
  | _ => .error .truncated

/-- A natural number below 2^32 as four bytes. -/
def putNat (n : Nat) : List Byte := putLong (BitVec.ofNat 32 n)

/-- Reads `putNat`. -/
def getNat (l : List Byte) : Field Nat :=
  match getLong l with
  | .ok (v, rest) => .ok (v.toNat, rest)
  | .error e => .error e

/-- A Boolean as one byte, 0 or 1. -/
def putBool : Bool → List Byte
  | false => [0]
  | true => [1]

/-- Reads `putBool`. -/
def getBool : List Byte → Field Bool
  | t :: rest => if t = 0 then .ok (false, rest) else if t = 1 then .ok (true, rest) else .error (.badTag t)
  | [] => .error .truncated

/-- A width as its number of bytes. -/
def putWidth : Width → List Byte
  | .byte => [1]
  | .word => [2]
  | .dword => [4]

/-- Reads `putWidth`; no other width exists (R71). -/
def getWidth : List Byte → Field Width
  | t :: rest =>
    if t = 1 then .ok (.byte, rest) else if t = 2 then .ok (.word, rest) else if t = 4 then .ok (.dword, rest)
    else .error (.badTag t)
  | [] => .error .truncated

/-- A port attribute as one byte. -/
def putAttr : Attr → List Byte
  | .rw => [0]
  | .readOnly => [1]
  | .writeOnly => [2]

/-- Reads `putAttr`. -/
def getAttr : List Byte → Field Attr
  | t :: rest =>
    if t = 0 then .ok (.rw, rest) else if t = 1 then .ok (.readOnly, rest) else if t = 2 then .ok (.writeOnly, rest)
    else .error (.badTag t)
  | [] => .error .truncated

/-- A carrier type as one byte. -/
def putCarrier : Carrier → List Byte
  | .none => [0]
  | .hardDisk => [1]
  | .cdrom => [2]

/-- Reads `putCarrier`. -/
def getCarrier : List Byte → Field Carrier
  | t :: rest =>
    if t = 0 then .ok (.none, rest) else if t = 1 then .ok (.hardDisk, rest) else if t = 2 then .ok (.cdrom, rest)
    else .error (.badTag t)
  | [] => .error .truncated

/-- A parameter register as its task-file offset, 2 to 5 (R289). -/
def putParamReg : ParamReg → List Byte
  | .sectorCount => [2]
  | .sectorNumber => [3]
  | .cylLow => [4]
  | .cylHigh => [5]

/-- Reads `putParamReg`. -/
def getParamReg : List Byte → Field ParamReg
  | t :: rest =>
    if t = 2 then .ok (.sectorCount, rest) else if t = 3 then .ok (.sectorNumber, rest)
    else if t = 4 then .ok (.cylLow, rest) else if t = 5 then .ok (.cylHigh, rest)
    else .error (.badTag t)
  | [] => .error .truncated

/-- A device identifier: a tag byte, then the index where there is one. -/
def putDevice : Device → List Byte
  | .pic => [0]
  | .ata ch => 1 :: putNat ch
  | .ext d => 2 :: putNat d

/-- Reads a number and wraps it. -/
def getIndexed {α : Type} (f : Nat → α) (l : List Byte) : Field α :=
  match getNat l with
  | .ok (n, rest) => .ok (f n, rest)
  | .error e => .error e

/-- Reads `putDevice`. -/
def getDevice : List Byte → Field Device
  | t :: rest =>
    if t = 0 then .ok (.pic, rest) else if t = 1 then getIndexed .ata rest else if t = 2 then getIndexed .ext rest
    else .error (.badTag t)
  | [] => .error .truncated

/-- A module: a tag byte, then the index where there is one. -/
def putModule : Module → List Byte
  | .bus => [0]
  | .pic => [1]
  | .clk => [2]
  | .cpu => [3]
  | .ata ch => 4 :: putNat ch
  | .ext d => 5 :: putNat d

/-- Reads `putModule`. -/
def getModule : List Byte → Field Module
  | t :: rest =>
    if t = 0 then .ok (.bus, rest) else if t = 1 then .ok (.pic, rest) else if t = 2 then .ok (.clk, rest)
    else if t = 3 then .ok (.cpu, rest) else if t = 4 then getIndexed .ata rest
    else if t = 5 then getIndexed .ext rest else .error (.badTag t)
  | [] => .error .truncated

/-- The first `n` bytes and the rest, if there are that many. -/
def splitBytes (n : Nat) (l : List Byte) : Field (List Byte) :=
  if n ≤ l.length then .ok (l.take n, l.drop n) else .error .truncated

/-- A byte sequence of less than 256 bytes: its length, then the bytes. -/
def putName (bytes : List Byte) : List Byte := BitVec.ofNat 8 bytes.length :: bytes

/-- Reads `putName`. -/
def getName : List Byte → Field (List Byte)
  | n :: rest => splitBytes n.toNat rest
  | [] => .error .truncated

/-- A byte blob: its length in four bytes, then the bytes. -/
def putBlob (bytes : List Byte) : List Byte := putNat bytes.length ++ bytes

/-- Reads `putBlob`. -/
def getBlob (l : List Byte) : Field (List Byte) :=
  match getNat l with
  | .ok (n, rest) => splitBytes n rest
  | .error e => .error e

/-- A drive selector: a tag byte, then the number or the name. -/
def putSel : DriveSel → List Byte
  | .index n => 0 :: putNat n
  | .name bytes => 1 :: putName bytes

/-- Reads `putSel`. -/
def getSel : List Byte → Field DriveSel
  | t :: rest =>
    if t = 0 then getIndexed .index rest
    else if t = 1 then
      match getName rest with
      | .ok (bytes, r) => .ok (.name bytes, r)
      | .error e => .error e
    else .error (.badTag t)
  | [] => .error .truncated

/-- An optional local line: 0 for none, `1 + l` for line `l`. -/
def putLine : Option (Fin 8) → List Byte
  | none => [0]
  | some l => [BitVec.ofNat 8 (l.val + 1)]

/-- Reads `putLine`. -/
def getLine : List Byte → Field (Option (Fin 8))
  | t :: rest =>
    if t = 0 then .ok (none, rest)
    else if h : t.toNat - 1 < 8 then .ok (some ⟨t.toNat - 1, h⟩, rest)
    else .error (.badTag t)
  | [] => .error .truncated

/-- A controller as the unit byte. -/
def putCtrl : Ctrl → Byte
  | .M => 0
  | .S => 1

/-- Reads `putCtrl`. -/
def getCtrl (u : Byte) : Except DecodeError Ctrl :=
  if u = 0 then .ok .M else if u = 1 then .ok .S else .error (.badController u)

/-! ### Command bytes -/

/-- Bits 2:0 of a command byte as a local line (R104, R111 (g)). -/
def lineOfByte (b : Byte) : Fin 8 := ⟨b.toNat % 8, Nat.mod_lt _ (by decide)⟩

/-- A Boolean as bit `k` of a byte. -/
def bitAt (k : Nat) (x : Bool) : Byte := if x then BitVec.twoPow 8 k else 0

/-- The operation of a byte written to the command port of controller `c`: ICW1 if bit 4 is set, else OCW2 if bit 3 is
clear, else OCW3 (R182), with OCW2 told apart by bits 7:5 (R104, R191, R192). -/
def decodePicCmd (c : Ctrl) (b : Byte) : Instr :=
  if b.getLsbD 4 then .picICW1 c (b.getLsbD 3) (b.getLsbD 1) (b.getLsbD 0)
  else if b.getLsbD 3 then
    .picOCW3 c (b.getLsbD 6) (b.getLsbD 5) (b.getLsbD 2) (b.getLsbD 1) (b.getLsbD 0)
  else if b.getLsbD 5 then .picOCW2EOI c (b.getLsbD 7) (b.getLsbD 6) (lineOfByte b)
  else if b.getLsbD 7 then
    if b.getLsbD 6 then .picOCW2SetPrio c (lineOfByte b) else .picOCW2RotAutoSet c
  else if b.getLsbD 6 then .picOCW2Nop c (lineOfByte b) else .picOCW2RotAutoClr c

/-- The byte of an ICW1 (R99): `---1L-SI`, ignored bits 0. -/
def byteICW1 (ltim sngl ic4 : Bool) : Byte := 0x10 ||| bitAt 3 ltim ||| bitAt 1 sngl ||| bitAt 0 ic4

/-- The byte of an OCW2 end of interrupt (R104): `RS100LLL`. -/
def byteOCW2EOI (r sl : Bool) (l : Fin 8) : Byte := 0x20 ||| bitAt 7 r ||| bitAt 6 sl ||| BitVec.ofNat 8 l.val

/-- The byte of an OCW3 (R105): `-es01PrR`, bit 7 written 0. -/
def byteOCW3 (esmm smm p rr ris : Bool) : Byte :=
  0x08 ||| bitAt 6 esmm ||| bitAt 5 smm ||| bitAt 2 p ||| bitAt 1 rr ||| bitAt 0 ris

/-- The byte of a drive/head write (R107): `-L-DHHHH`, ignored bits 0. -/
def byteDrvHead (lba drv : Bool) (head : BitVec 4) : Byte :=
  bitAt 6 lba ||| bitAt 4 drv ||| BitVec.ofNat 8 head.toNat

/-- The byte of a device-control write (R110): `-----SN-`, ignored bits 0. -/
def byteDevCtl (srst nien : Bool) : Byte := bitAt 2 srst ||| bitAt 1 nien

/-! ### Packets -/

/-- Nothing may follow the last operand. -/
def endOfPacket (i : Instr) : List Byte → Except DecodeError Instr
  | [] => .ok i
  | _ => .error .trailingBytes

/-- Reads the last operand of a packet. -/
def lastField {α : Type} (f : Field α) (k : α → Instr) : Except DecodeError Instr :=
  match f with
  | .ok (x, rest) => endOfPacket (k x) rest
  | .error e => .error e

/-- Reads an operand with more to come. -/
def nextField {α : Type} (f : Field α) (k : α → List Byte → Except DecodeError Instr) : Except DecodeError Instr :=
  match f with
  | .ok (x, rest) => k x rest
  | .error e => .error e

/-- Reads a port value of width `w` as the last operand; it must fit its width (R97). -/
def valueField (w : Width) (r : List Byte) (k : Long → Instr) : Except DecodeError Instr :=
  nextField (getLong r) fun v r => if valueFits w v then endOfPacket (k v) r else .error .valueTooWide

/-- The operation continues only if the named header byte is zero. -/
def headerZero (b : Byte) (k : Except DecodeError Instr) : Except DecodeError Instr :=
  if b = 0 then k else .error .headerNotZero

/-- A register command of controller `u`: nothing after the header. -/
def ctrlCommand (u : Byte) (rest : List Byte) (k : Ctrl → Instr) : Except DecodeError Instr :=
  match getCtrl u with
  | .ok c => endOfPacket (k c) rest
  | .error e => .error e

/-- The operation of a packet with command byte `b`, selector `x`, unit `u` and operand bytes `r`. -/
def decodeBody (b : Byte) (x : Sel) (u : Byte) (r : List Byte) : Except DecodeError Instr :=
  match x with
  | .picCmd => ctrlCommand u r fun c => decodePicCmd c b
  | .picICW2 => ctrlCommand u r fun c => .picICW2 c b
  | .picICW3 => ctrlCommand u r fun c => .picICW3 c b
  | .picICW4 => ctrlCommand u r fun c => .picICW4 c b
  | .picOCW1 => ctrlCommand u r fun c => .picOCW1 c b
  | .picRdCmd => headerZero b (ctrlCommand u r .picRdCmd)
  | .picRdData => headerZero b (ctrlCommand u r .picRdData)
  | .picAssertIRQ => headerZero b (headerZero u (lastField (getNat r) .picAssertIRQ))
  | .picClearIRQ => headerZero b (headerZero u (lastField (getNat r) .picClearIRQ))
  | .picAcknowledge => headerZero b (headerZero u (endOfPacket .picAcknowledge r))
  | .picEndOfInterrupt => headerZero b (
      match getCtrl u with
      | .ok c => nextField (getLine r) fun l r => lastField (getBool r) fun rot => .picEndOfInterrupt c l rot
      | .error e => .error e)
  | .picRequestIRQNumber => headerZero b (headerZero u (lastField (getDevice r) .picRequestIRQNumber))
  | .picFreeIRQNumber => headerZero b (headerZero u (lastField (getDevice r) .picFreeIRQNumber))
  | .picReset => headerZero b (headerZero u (endOfPacket .picReset r))
  | .busRegisterPort => headerZero b (headerZero u (
      nextField (getHalf r) fun a r => nextField (getDevice r) fun d r => lastField (getAttr r) fun t =>
        .busRegisterPort a d t))
  | .busReadPort => headerZero b (headerZero u (
      nextField (getHalf r) fun a r => lastField (getWidth r) fun w => .busReadPort a w))
  | .busWritePort => headerZero b (headerZero u (
      nextField (getHalf r) fun a r => nextField (getWidth r) fun w r => valueField w r fun v => .busWritePort a w v))
  | .clkRegisterDevice => headerZero b (headerZero u (
      nextField (getDevice r) fun d r => nextField (getNat r) fun us r => lastField (getBool r) fun k =>
        .clkRegisterDevice d us k))
  | .clkPulse => headerZero b (headerZero u (endOfPacket .clkPulse r))
  | .clkResetTimer => headerZero b (headerZero u (
      nextField (getDevice r) fun d r => lastField (getNat r) fun us => .clkResetTimer d us))
  | .clkSetTimerActiveState => headerZero b (headerZero u (
      nextField (getDevice r) fun d r => lastField (getBool r) fun k => .clkSetTimerActiveState d k))
  | .clkSignalPulse => headerZero b (headerZero u (endOfPacket .clkSignalPulse r))
  | .ataReset => headerZero b (endOfPacket (.ataReset u.toNat) r)
  | .ataSetSelectedDriveIndex => headerZero b (lastField (getNat r) fun k => .ataSetSelectedDriveIndex u.toNat k)
  | .ataInsert => headerZero b (headerZero u (
      nextField (getSel r) fun s r => nextField (getCarrier r) fun t r => nextField (getNat r) fun im r =>
        lastField (getBool r) fun wp => .ataInsert s t im wp))
  | .ataEject => headerZero b (headerZero u (lastField (getSel r) .ataEject))
  | .ataUpdate => headerZero b (endOfPacket (.ataUpdate u.toNat) r)
  | .ataRdData => headerZero b (lastField (getWidth r) fun w => .ataRdData u.toNat w)
  | .ataWrData => headerZero b (
      nextField (getWidth r) fun w r => valueField w r fun v => .ataWrData u.toNat w v)
  | .ataRdError => headerZero b (endOfPacket (.ataRdError u.toNat) r)
  | .ataWrFeatures => endOfPacket (.ataWrFeatures u.toNat b) r
  | .ataRdParam => headerZero b (lastField (getParamReg r) fun o => .ataRdParam u.toNat o)
  | .ataWrParam => lastField (getParamReg r) fun o => .ataWrParam u.toNat o b
  | .ataRdDrvHead => headerZero b (endOfPacket (.ataRdDrvHead u.toNat) r)
  | .ataWrDrvHead => endOfPacket (.ataWrDrvHead u.toNat (b.getLsbD 6) (b.getLsbD 4) (b.extractLsb' 0 4)) r
  | .ataRdStatus => headerZero b (endOfPacket (.ataRdStatus u.toNat) r)
  | .ataWrCommand => endOfPacket (.ataWrCommand u.toNat b) r
  | .ataRdAltStatus => headerZero b (endOfPacket (.ataRdAltStatus u.toNat) r)
  | .ataWrDevCtl => endOfPacket (.ataWrDevCtl u.toNat (b.getLsbD 2) (b.getLsbD 1)) r
  | .ataRdDrvAddr => headerZero b (endOfPacket (.ataRdDrvAddr u.toNat) r)
  | .ataWrDrvAddr => endOfPacket (.ataWrDrvAddr u.toNat b) r
  | .cpuStep => headerZero b (headerZero u (endOfPacket .cpuStep r))
  | .cpuGetRegister => headerZero b (headerZero u (lastField (getName r) .cpuGetRegister))
  | .cpuSetRegister => headerZero b (headerZero u (
      nextField (getName r) fun n r => lastField (getName r) fun v => .cpuSetRegister n v))
  | .cpuSetHoldRequest => headerZero b (headerZero u (
      nextField (getDevice r) fun d r => lastField (getBool r) fun k => .cpuSetHoldRequest d k))
  | .cpuStart => headerZero b (headerZero u (endOfPacket .cpuStart r))
  | .cpuStop => headerZero b (headerZero u (endOfPacket .cpuStop r))
  | .cpuReset => headerZero b (headerZero u (endOfPacket .cpuReset r))
  | .modReset => headerZero b (headerZero u (lastField (getModule r) .modReset))
  | .modStart => headerZero b (headerZero u (lastField (getModule r) .modStart))
  | .modStop => headerZero b (headerZero u (lastField (getModule r) .modStop))
  | .modGetDump => headerZero b (headerZero u (lastField (getModule r) .modGetDump))
  | .modIsConnected => headerZero b (headerZero u (lastField (getModule r) .modIsConnected))
  | .romSetSystemBIOS => headerZero b (headerZero u (lastField (getBlob r) .romSetSystemBIOS))
  | .romReadSystemBIOS => headerZero b (headerZero u (endOfPacket .romReadSystemBIOS r))

/-- The operation of a packet, or why it is none. Total on any bytes. -/
def decode : List Byte → Except DecodeError Instr
  | b :: x :: u :: rest =>
    match Sel.ofByte x with
    | some sel => decodeBody b sel u rest
    | none => .error (.unknownSelector x)
  | _ => .error .tooShort

/-- A packet: header, then operands. -/
def packet (b : Byte) (x : Sel) (u : Byte) (operands : List Byte) : List Byte := b :: x.code :: u :: operands

/-- The unit byte of a channel. -/
def putChan (ch : Nat) : Byte := BitVec.ofNat 8 ch

/-- The packet of a well-formed operation. -/
def encode : Instr → List Byte
  | .busRegisterPort a d t => packet 0 .busRegisterPort 0 (putHalf a ++ (putDevice d ++ putAttr t))
  | .busReadPort a w => packet 0 .busReadPort 0 (putHalf a ++ putWidth w)
  | .busWritePort a w v => packet 0 .busWritePort 0 (putHalf a ++ (putWidth w ++ putLong v))
  | .picAssertIRQ n => packet 0 .picAssertIRQ 0 (putNat n)
  | .picClearIRQ n => packet 0 .picClearIRQ 0 (putNat n)
  | .picAcknowledge => packet 0 .picAcknowledge 0 []
  | .picEndOfInterrupt c l rot => packet 0 .picEndOfInterrupt (putCtrl c) (putLine l ++ putBool rot)
  | .picRequestIRQNumber d => packet 0 .picRequestIRQNumber 0 (putDevice d)
  | .picFreeIRQNumber d => packet 0 .picFreeIRQNumber 0 (putDevice d)
  | .picReset => packet 0 .picReset 0 []
  | .picICW1 c ltim sngl ic4 => packet (byteICW1 ltim sngl ic4) .picCmd (putCtrl c) []
  | .picICW2 c b => packet b .picICW2 (putCtrl c) []
  | .picICW3 c b => packet b .picICW3 (putCtrl c) []
  | .picICW4 c b => packet b .picICW4 (putCtrl c) []
  | .picOCW1 c b => packet b .picOCW1 (putCtrl c) []
  | .picOCW2EOI c r sl l => packet (byteOCW2EOI r sl l) .picCmd (putCtrl c) []
  | .picOCW2RotAutoSet c => packet 0x80 .picCmd (putCtrl c) []
  | .picOCW2RotAutoClr c => packet 0x00 .picCmd (putCtrl c) []
  | .picOCW2SetPrio c l => packet (0xC0 ||| BitVec.ofNat 8 l.val) .picCmd (putCtrl c) []
  | .picOCW2Nop c l => packet (0x40 ||| BitVec.ofNat 8 l.val) .picCmd (putCtrl c) []
  | .picOCW3 c esmm smm p rr ris => packet (byteOCW3 esmm smm p rr ris) .picCmd (putCtrl c) []
  | .picRdCmd c => packet 0 .picRdCmd (putCtrl c) []
  | .picRdData c => packet 0 .picRdData (putCtrl c) []
  | .clkRegisterDevice d us k => packet 0 .clkRegisterDevice 0 (putDevice d ++ (putNat us ++ putBool k))
  | .clkPulse => packet 0 .clkPulse 0 []
  | .clkResetTimer d us => packet 0 .clkResetTimer 0 (putDevice d ++ putNat us)
  | .clkSetTimerActiveState d k => packet 0 .clkSetTimerActiveState 0 (putDevice d ++ putBool k)
  | .clkSignalPulse => packet 0 .clkSignalPulse 0 []
  | .ataReset ch => packet 0 .ataReset (putChan ch) []
  | .ataSetSelectedDriveIndex ch k => packet 0 .ataSetSelectedDriveIndex (putChan ch) (putNat k)
  | .ataInsert s t im wp => packet 0 .ataInsert 0 (putSel s ++ (putCarrier t ++ (putNat im ++ putBool wp)))
  | .ataEject s => packet 0 .ataEject 0 (putSel s)
  | .ataUpdate ch => packet 0 .ataUpdate (putChan ch) []
  | .ataRdData ch w => packet 0 .ataRdData (putChan ch) (putWidth w)
  | .ataWrData ch w v => packet 0 .ataWrData (putChan ch) (putWidth w ++ putLong v)
  | .ataRdError ch => packet 0 .ataRdError (putChan ch) []
  | .ataWrFeatures ch b => packet b .ataWrFeatures (putChan ch) []
  | .ataRdParam ch o => packet 0 .ataRdParam (putChan ch) (putParamReg o)
  | .ataWrParam ch o b => packet b .ataWrParam (putChan ch) (putParamReg o)
  | .ataRdDrvHead ch => packet 0 .ataRdDrvHead (putChan ch) []
  | .ataWrDrvHead ch lba drv head => packet (byteDrvHead lba drv head) .ataWrDrvHead (putChan ch) []
  | .ataRdStatus ch => packet 0 .ataRdStatus (putChan ch) []
  | .ataWrCommand ch b => packet b .ataWrCommand (putChan ch) []
  | .ataRdAltStatus ch => packet 0 .ataRdAltStatus (putChan ch) []
  | .ataWrDevCtl ch srst nien => packet (byteDevCtl srst nien) .ataWrDevCtl (putChan ch) []
  | .ataRdDrvAddr ch => packet 0 .ataRdDrvAddr (putChan ch) []
  | .ataWrDrvAddr ch b => packet b .ataWrDrvAddr (putChan ch) []
  | .cpuStep => packet 0 .cpuStep 0 []
  | .cpuGetRegister n => packet 0 .cpuGetRegister 0 (putName n)
  | .cpuSetRegister n v => packet 0 .cpuSetRegister 0 (putName n ++ putName v)
  | .cpuSetHoldRequest d k => packet 0 .cpuSetHoldRequest 0 (putDevice d ++ putBool k)
  | .cpuStart => packet 0 .cpuStart 0 []
  | .cpuStop => packet 0 .cpuStop 0 []
  | .cpuReset => packet 0 .cpuReset 0 []
  | .modReset m => packet 0 .modReset 0 (putModule m)
  | .modStart m => packet 0 .modStart 0 (putModule m)
  | .modStop m => packet 0 .modStop 0 (putModule m)
  | .modGetDump m => packet 0 .modGetDump 0 (putModule m)
  | .modIsConnected m => packet 0 .modIsConnected 0 (putModule m)
  | .romSetSystemBIOS bytes => packet 0 .romSetSystemBIOS 0 (putBlob bytes)
  | .romReadSystemBIOS => packet 0 .romReadSystemBIOS 0 []

/-! ### The host's words -/

/-- The packet of a table word: its `nbits` bits as bytes, least significant byte first, the rest of the header 0. -/
def wordPacket (nbits w : Nat) : List Byte :=
  (List.range (max 3 ((nbits + 7) / 8))).map fun k => BitVec.ofNat 8 (w % 2 ^ nbits / 256 ^ k)

/-- The operation the decoder reads from a table word. -/
def decodeTableWord (nbits w : Nat) : Option Instr :=
  match decode (wordPacket nbits w) with
  | .ok i => some i
  | .error _ => none

end Sys2Proof
end

