-- ==== Sys2Proof/Config.lean ====
section
/-! DEFINITION. The parameters of rule R6 and the types they speak of. A decided parameter stands here with the value
R6 gives it; an OPEN one is an opaque constant with no body, so a claim holds whatever it is (log entries 6, 8, 9, 10,
11, 12). Every machine function takes the parameters as an argument `P : Params`, as R6 asks; the machine itself uses
`Config.params`. -/

namespace Sys2Proof

/-- The registers of the default `RegSpec`, by name (R58). -/
inductive Reg where
  | ax | bx | cx | dx | sp | bp | si | di | cs | ds | es | ss | ip | flags
deriving DecidableEq, Repr, Inhabited

/-- The register file of the default `RegSpec`: fourteen 16-bit registers (R52, R58). -/
structure Regs where
  ax : Half
  bx : Half
  cx : Half
  dx : Half
  sp : Half
  bp : Half
  si : Half
  di : Half
  cs : Half
  ds : Half
  es : Half
  ss : Half
  ip : Half
  flags : Half
deriving DecidableEq, Repr, Inhabited

/-- Direction of a port access (R97). -/
inductive Dir where
  | R
  | W
deriving DecidableEq, Repr, Inhabited

/-- The closed list of conditions (R360). -/
inductive Cond where
  | unknownPort
  | writeOnlyPort
  | readOnlyPort
  | invalidIrqLine
  | irqExhausted
  | timerCapacityExceeded
  | noSuchTimer
  | noSuchDrive
  | attachInvalid
  | driveBusy
  | slotOccupied
  | driveAbsent
  | unknownRegister
  | writeDisallowed
  | romSizeMismatch
deriving DecidableEq, Repr, Inhabited

/-- One entry `(K, info)` of the diagnostic log, with the info column of R360. -/
inductive Diagnostic where
  | unknownPort (dir : Dir) (a : Half) (w : Width)
  | writeOnlyPort (a : Half) (w : Width) (owner : Device)
  | readOnlyPort (a : Half) (w : Width) (owner : Device)
  | invalidIrqLine (n : Nat)
  | irqExhausted (caller : Device)
  | timerCapacityExceeded (d : Device)
  | noSuchTimer (d : Device)
  | noSuchDriveIndex (ch k : Nat)
  | noSuchDrive (sel : DriveSel)
  | attachInvalid (sel : DriveSel)
  | driveBusy (sel : DriveSel)
  | slotOccupied (sel : DriveSel)
  | driveAbsent (sel : DriveSel)
  | unknownRegister (name : List Byte)
  | writeDisallowed (name : List Byte)
  | romSizeMismatch (length : Nat)
deriving DecidableEq, Repr, Inhabited

/-- The value a result carries (R11; the "result" column of the opcode table). -/
inductive Value where
  | unit
  | success
  | failure
  | port (w : Width) (v : Long)
  | vector (v : Byte)
  | line (n : Int)
  | bytes (l : List Byte)
  | text (l : List Byte)
  | bool (b : Bool)
  | stopped
  | stalled
  | executed (iv : Option Byte)
deriving DecidableEq, Repr, Inhabited

/-- The result of an operation: `ok(v)`, `cond(K, v)`, or a failure with no condition of its own (R11, R360). -/
inductive Result where
  | ok (v : Value)
  | cond (k : Cond) (v : Value)
  | failed
deriving DecidableEq, Repr, Inhabited

/-- Where pulses come from (R210). -/
inductive PulseSource where
  | instructionCount
  | realTime
deriving DecidableEq, Repr, Inhabited

/-- Role of a drive, fixed by its slot (R45). -/
inductive Role where
  | master
  | slave
deriving DecidableEq, Repr, Inhabited

/-- The partial register assignment `r` of R291. -/
structure RegPatch where
  error : Option Byte
  sectorCount : Option Byte
  sectorNumber : Option Byte
  cylLow : Option Byte
  cylHigh : Option Byte
  head : Option (BitVec 4)
  err : Option Bool
  seekComplete : Option Bool
deriving DecidableEq, Repr, Inhabited

/-- What `AtaCommandSemantics.start` answers (R291). -/
inductive Plan where
  | abort
  | done (r : RegPatch)
  | dataIn (bytes : List Byte) (r : RegPatch)
  | dataOut (n : Nat) (tag : Nat)
deriving DecidableEq, Repr, Inhabited

/-- What `AtaCommandSemantics.finish` answers (R291). -/
inductive FinishPlan where
  | abort
  | done (r : RegPatch)
deriving DecidableEq, Repr, Inhabited

/-- `DriveView` of R291. -/
structure DriveView where
  type : Carrier
  role : Role
  image : Option Nat
  writeProtected : Bool
deriving DecidableEq, Repr, Inhabited

/-- `Regs` of R291: the task registers a command reads. -/
structure TaskRegs where
  features : Byte
  sectorCount : Byte
  sectorNumber : Byte
  cylLow : Byte
  cylHigh : Byte
  head : BitVec 4
  lba : Bool
deriving DecidableEq, Repr, Inhabited

/-- One instruction as `ExecOne` performs it: any finite number of accesses through the four primitives, each seeing
the state the one before left, then the register file it leaves (R304 (b) to (e); log entry 9). -/
inductive Guest where
  | done (x : Regs)
  | memRead (addr n : Nat) (k : Nat → Guest)
  | memWrite (addr n v : Nat) (k : Guest)
  | portRead (a : Half) (w : Width) (k : Long → Guest)
  | portWrite (a : Half) (w : Width) (v : Long) (k : Guest)
deriving Inhabited

/-- The operations a device may invoke (R390). -/
inductive DevOp where
  | registerPort (a : Half) (d : Device) (attr : Attr)
  | assertIRQ (n : Nat)
  | clearIRQ (n : Nat)
  | requestIRQNumber (caller : Device)
  | freeIRQNumber (caller : Device)
  | registerDevice (d : Device) (us : Nat) (continuous : Bool)
  | resetTimer (d : Device) (us : Nat)
  | setTimerActiveState (d : Device) (active : Bool)
  | setHoldRequest (d : Device) (on : Bool)
deriving DecidableEq, Repr, Inhabited

/-- A handler of a `DeviceModel`: finitely many device operations, each completing before the next (R125, R322), then
an answer and the hidden state it leaves (log entry 10). -/
inductive DevProg (α : Type) where
  | ret (a : α) (world : Nat)
  | call (op : DevOp) (k : Result → DevProg α)
deriving Inhabited

/-- The handlers of one entry of `DeviceModel` and the lifecycle calls of R340, each started from the hidden state. -/
structure DeviceModel where
  portRead : Nat → Half → Width → DevProg Long
  portWrite : Nat → Half → Width → Long → DevProg Unit
  update : Nat → DevProg Unit
  reset : Nat → DevProg Bool
  start : Nat → DevProg Unit
  stop : Nat → DevProg Unit
deriving Inhabited

/-- The default `RESET_ORDER`: BUS, PIC, CLK, the ATA channels ascending, the external devices in `DeviceModel` order,
CPU (R401). -/
def defaultResetOrder (channels : Nat) (externals : List Nat) : List Module :=
  [.bus, .pic, .clk] ++ (List.range channels).map .ata ++ externals.map .ext ++ [.cpu]

/-- The configuration of the model (R6). Rows fixed by a type are not fields: `PORT_BITS`, `NUM_PIC`,
`LINES_PER_PIC`; `NUM_ATA_CHANNELS` is the length of `ataBases`. `irqWired` gives the lines the machine builder wires at construction
(R33), `externals` the external devices in `DeviceModel` order (R401). -/
structure Params where
  pulseSource : PulseSource
  sleepUs : Nat
  ips : Nat
  ataCmdDelayUs : Nat
  vgaBiosSize : Nat
  memSize : Nat
  minPulsePeriodUs : Option Nat := none
  maxTimers : Nat := 10
  biosSize : Nat := 65536
  ataBases : List (Half × Half) := [(0x1F0, 0x3F0)]
  fdcOwned : List Half := []
  picPortCmdM : Half := 0x20
  picPortDataM : Half := 0x21
  picPortCmdS : Half := 0xA0
  picPortDataS : Half := 0xA1
  picOffsetInitM : Byte := 0x08
  picOffsetInitS : Byte := 0x70
  cascadeLine : Fin 8 := 2
  irqReserved : List Nat := [cascadeLine.val]
  readOnlyRegs : List Reg := []
  irqWired : Nat → Option Device := fun _ => none
  externals : List Nat
  resetOrder : List Module := defaultResetOrder ataBases.length externals
  driveNames : List Byte → Option Nat
  imageAddressable : Nat → Carrier → Role → Nat → Bool
  ataStart : Nat → Byte → DriveView → TaskRegs → Plan × Nat
  ataFinish : Nat → Nat → List Byte → DriveView → TaskRegs → FinishPlan × Nat
  execOne : Regs → Byte → Guest
  device : Device → DeviceModel
  outsideRead : Nat → Nat → Byte × Nat
  outsideWrite : Nat → Nat → Byte → List (Nat × Byte) → List (Nat × Byte) × Nat
  connected : Module → Bool

namespace Config

/-- `PULSE_SOURCE`, left open so that both sources are covered; R6's default is InstructionCount (log entry 12). -/
opaque pulseSource : PulseSource

/-- One less than `SLEEP_US`, which is OPEN and positive (R6; log entry 11). -/
opaque sleepUsPred : Nat

/-- One less than `IPS`, which is OPEN and positive (R6; log entry 11). -/
opaque ipsPred : Nat

/-- `ATA_CMD_DELAY_US`, OPEN (R6; log entry 11). -/
opaque ataCmdDelayUs : Nat

/-- `VGA_BIOS_SIZE`, OPEN and used by no operation (R352; log entry 11). -/
opaque vgaBiosSize : Nat

/-- The platform-defined size of guest memory (R72; log entry 8). -/
opaque memSize : Nat

/-- `DriveNames`, OPEN: the selector number of a drive name, if it knows the name (R249; log entry 6). -/
opaque driveNames : List Byte → Option Nat

/-- `ImageAddressable`, OPEN, on the hidden state, carrier, role and image handle (R247; log entry 6). -/
opaque imageAddressable : Nat → Carrier → Role → Nat → Bool

/-- `AtaCommandSemantics.start`, OPEN: hidden state, command byte, drive view, registers; plan and new hidden state
(R291; log entry 6). -/
opaque ataStart : Nat → Byte → DriveView → TaskRegs → Plan × Nat

/-- `AtaCommandSemantics.finish`, OPEN: hidden state, tag, bytes, drive view, registers; outcome and new hidden state
(R291; log entry 6). -/
opaque ataFinish : Nat → Nat → List Byte → DriveView → TaskRegs → FinishPlan × Nat

/-- `ExecOne`, OPEN: the register file and the byte at the fetch address, and the accesses it then makes (R304; log
entry 9). -/
opaque execOne : Regs → Byte → Guest

/-- `DeviceModel[d]`, OPEN for every device other than PIC and ATA (R6; log entry 10). -/
opaque device : Device → DeviceModel

/-- The external devices of the machine, in `DeviceModel` order; OPEN, as `DeviceModel` is (R6, R401; log entry 30). -/
opaque externals : List Nat

/-- What a guest read beyond the memory's size answers, and the hidden state it leaves; R72 leaves it open (log
entry 8). -/
opaque outsideRead : Nat → Nat → Byte × Nat

/-- What a guest write beyond the memory's size leaves in memory and in the hidden state; R72 leaves it open (log
entry 8). -/
opaque outsideWrite : Nat → Nat → Byte → List (Nat × Byte) → List (Nat × Byte) × Nat

/-- Whether an external device is connected, a construction parameter (R345; log entry 21). -/
opaque connected : Module → Bool

/-- The configuration the machine runs with. -/
def params : Params where
  pulseSource := pulseSource
  sleepUs := sleepUsPred + 1
  ips := ipsPred + 1
  ataCmdDelayUs := ataCmdDelayUs
  vgaBiosSize := vgaBiosSize
  memSize := memSize
  driveNames := driveNames
  imageAddressable := imageAddressable
  ataStart := ataStart
  ataFinish := ataFinish
  execOne := execOne
  device := device
  externals := externals
  outsideRead := outsideRead
  outsideWrite := outsideWrite
  connected := connected

/-- The configuration of the machine with no external device: the one the table of R402 is for. -/
def noExternals : Params := { params with externals := [], resetOrder := defaultResetOrder params.ataBases.length [] }

end Config

end Sys2Proof
end

