-- ==== Sys2Proof/Machine/Time.lean ====
section
/-! DEFINITION. Virtual time: the pulse quantum and the conversion of microseconds into pulses
(spec 43_clock_timer.md rules R211, R212, R220). -/

namespace Sys2Proof.Machine

/-- The pulse quantum Q: instructions per pulse (R220). -/
def pulseQuantum (minPulsePeriodUs : Option Nat) (ips : Nat) : Nat :=
  match minPulsePeriodUs with
  | none => 1
  | some m => max 1 ((m * ips + 999999) / 1000000)

/-- `pulseDue(counter)`, tested after the counter's increment (R220). -/
def pulseDue (quantum counter : Nat) : Bool := counter % quantum == 0

/-- `toPulses(us)`: an interval in microseconds as a count of pulses, at least 1 (R212). -/
def toPulses (source : PulseSource) (sleepUs ips quantum us : Nat) : Nat :=
  match source with
  | .instructionCount => max 1 (us * ips / (1000000 * quantum))
  | .realTime => max 1 (us / sleepUs)

end Sys2Proof.Machine
end

