-- ==== Sys2Proof/Machine/State.lean ====
section
/-! DEFINITION. The machine state (spec 10_state.md rule R20): the components' fields, guest memory beside them (R64),
and three fields of the model's own (`world`, `inbox`, `result`: log entries 3, 5, 6). The reasons a step can stop, the
construction state (R400) and the state after the first machine reset (R402). -/

namespace Sys2Proof.Machine

/-- Guest main memory: address and byte, in one canonical form (R72, R405; log entry 7). -/
abbrev Memory := List Host.Cell

/-- A port entry `(owner, attr)` (R22). -/
structure PortEntry where
  owner : Device
  attr : Attr
deriving DecidableEq, Repr, Inhabited

/-- Where a controller stands in the initialisation sequence (R32, R185). -/
inductive InitState where
  | ready
  | expectICW2
  | expectICW3
  | expectICW4
deriving DecidableEq, Repr, Inhabited

/-- One interrupt controller (R25 to R32). -/
structure Pic where
  imr : Byte
  irr : Byte
  isr : Byte
  pin : Byte
  cascadeMode : Bool
  levelTriggered : Bool
  sfnm : Bool
  buffered : Bool
  autoEOI : Bool
  rotateOnAutoEOI : Bool
  specialMask : Bool
  polled : Bool
  interruptOffset : Byte
  lowestPriorityIRQ : Fin 8
  currentIRQ : Fin 8
  initState : InitState
  requiresICW4 : Bool
  readSelectISR : Bool
  icw3 : Byte
deriving DecidableEq, Repr, Inhabited

/-- One timer slot in use (R39). -/
structure Timer where
  owner : Device
  interval : Nat
  countdown : Nat
  active : Bool
  continuous : Bool
deriving DecidableEq, Repr, Inhabited

/-- The Clock (R38, R41, R42); `clk.count` is the length of `timers` (log entry 24). -/
structure Clk where
  timers : List Timer
  pendingRtPulses : Nat
  running : Bool
deriving DecidableEq, Repr, Inhabited

/-- The plan a busy drive is carrying out (R46, R280, R286). -/
inductive BusyPlan where
  | abort
  | done (r : RegPatch)
  | dataIn (bytes : List Byte) (r : RegPatch)
  | finish (tag : Nat) (bytes : List Byte)
deriving DecidableEq, Repr, Inhabited

/-- The phase of a drive (R46, R292). -/
inductive Phase where
  | idle
  | busy (plan : BusyPlan)
  | dataIn
  | dataOut (n : Nat) (tag : Nat)
deriving DecidableEq, Repr, Inhabited

/-- One drive with its own copy of every task register (R45, R46, R273). -/
structure Drive where
  type : Carrier
  image : Option Nat
  writeProtected : Bool
  ready : Bool
  error : Byte
  features : Byte
  sectorCount : Byte
  sectorNumber : Byte
  cylLow : Byte
  cylHigh : Byte
  head : BitVec 4
  lba : Bool
  err : Bool
  seekComplete : Bool
  phase : Phase
  buffer : List Byte
  bufPos : Nat
deriving DecidableEq, Repr, Inhabited

/-- One ATA channel (R44, R46). -/
structure Channel where
  drive0 : Drive
  drive1 : Drive
  selected : Fin 2
  ioBase1 : Half
  ioBase2 : Half
  irqNumber : Int
  nIEN : Bool
  srst : Bool
  irqRaised : Bool
  timerRegistered : Bool
deriving DecidableEq, Repr, Inhabited

/-- The CPU loop's state (R52, R55, R56, R57). -/
structure Cpu where
  x : Regs
  instrCounter : Nat
  ips : Nat
  minPulsePeriodUs : Option Nat
  running : Bool
  holdSet : List Device
deriving DecidableEq, Repr, Inhabited

/-- The whole machine (R20), with guest memory and the model's own three fields. -/
structure State where
  bus : List (Nat × PortEntry)
  picM : Pic
  picS : Pic
  irqOwner : List (Nat × Device)
  clk : Clk
  ata : List Channel
  cpu : Cpu
  rom : Option (List Byte)
  log : List Diagnostic
  mem : Memory
  world : Nat
  inbox : List (List Byte)
  result : Result
deriving DecidableEq, Repr, Inhabited

/-- Why the machine stops with a fault: never. The block raises no exception, and no rule of the spec ends in a stop (R11,
R360). -/
inductive Fault where
deriving DecidableEq, Repr

/-- Why there is no meaning to run. -/
inductive Refusal where
  /-- Raised by `exec` for an instruction that has no meaning yet. Safe. -/
  | notModelled (mnemonic : String)
  /-- Raised by `step` for a packet that is no operation. Safe (log entry 1). -/
  | undecodable (e : DecodeError)
deriving DecidableEq, Repr

/-- What a dump of a module reads: its own state fields (R344). -/
inductive ModuleView where
  | bus (map : List (Nat × PortEntry))
  | pic (m s : Pic) (owners : List (Nat × Device))
  | clk (c : Clk)
  | ata (c : Channel)
  | cpu (c : Cpu)
  | ext (m : Module) (world : Nat)
deriving DecidableEq, Repr

/-! ### Construction (R400) -/

/-- A controller at construction (R25 to R32), with its vector base. -/
def constructedPic (offset : Byte) : Pic where
  imr := 0xFF
  irr := 0x00
  isr := 0x00
  pin := 0x00
  cascadeMode := true
  levelTriggered := false
  sfnm := false
  buffered := false
  autoEOI := false
  rotateOnAutoEOI := false
  specialMask := false
  polled := false
  interruptOffset := offset
  lowestPriorityIRQ := 7
  currentIRQ := 0
  initState := .ready
  requiresICW4 := false
  readSelectISR := false
  icw3 := 0x00

/-- An empty drive slot at construction: task registers as after a drive reset (R49, R246). -/
def emptyDrive : Drive where
  type := .none
  image := none
  writeProtected := false
  ready := false
  error := 0x01
  features := 0x00
  sectorCount := 0x01
  sectorNumber := 0x01
  cylLow := 0x00
  cylHigh := 0x00
  head := 0
  lba := false
  err := false
  seekComplete := false
  phase := .idle
  buffer := []
  bufPos := 0

/-- A channel at construction (R49), with its default I/O bases. -/
def constructedChannel (bases : Half × Half) : Channel where
  drive0 := emptyDrive
  drive1 := emptyDrive
  selected := 0
  ioBase1 := bases.1
  ioBase2 := bases.2
  irqNumber := -1
  nIEN := false
  srst := false
  irqRaised := false
  timerRegistered := false

/-- The register file after `CPU.reset` (R58, R60). -/
def resetRegs : Regs where
  ax := 0x0000
  bx := 0x0000
  cx := 0x0000
  dx := 0x0000
  sp := 0x0000
  bp := 0x0000
  si := 0x0000
  di := 0x0000
  cs := 0xF000
  ds := 0x0000
  es := 0x0000
  ss := 0x0000
  ip := 0xFFF0
  flags := 0x0002

/-- The lines the machine builder has wired, but for the reserved ones, which have no owner (R33). -/
def wiredLines (P : Params) : List (Nat × Device) :=
  (List.range 16).filterMap fun n => if P.irqReserved.contains n then none else (P.irqWired n).map fun d => (n, d)

/-- The machine as built, before any reset (R400), for a configuration. Registers hold their reset values (log
entry 4). -/
def constructed (P : Params) : State where
  bus := []
  picM := constructedPic P.picOffsetInitM
  picS := constructedPic P.picOffsetInitS
  irqOwner := wiredLines P
  clk := { timers := [], pendingRtPulses := 0, running := false }
  ata := P.ataBases.map constructedChannel
  cpu :=
    { x := resetRegs, instrCounter := 0, ips := P.ips, minPulsePeriodUs := P.minPulsePeriodUs, running := false,
      holdSet := [] }
  rom := none
  log := []
  mem := []
  world := 0
  inbox := []
  result := .ok .unit

/-! ### Reset (R402) -/

/-- A port owned read-write, as a row of the port map. -/
def rwPort (d : Device) (a : Nat) : Nat × PortEntry := (a, { owner := d, attr := .rw })

/-- The pulses of the ATA command delay at the reset rate (R212, R402). -/
def resetAtaDelay : Nat :=
  toPulses Config.params.pulseSource Config.params.sleepUs Config.params.ips
    (pulseQuantum Config.params.minPulsePeriodUs Config.params.ips) Config.params.ataCmdDelayUs

/-- The machine after construction and the first `MACHINE.reset`, with the default parameters: the table of R402. -/
def State.reset : State where
  bus :=
    [0x20, 0x21, 0xA0, 0xA1].map (rwPort .pic) ++
      [0x1F0, 0x1F1, 0x1F2, 0x1F3, 0x1F4, 0x1F5, 0x1F6, 0x1F7, 0x3F6, 0x3F7].map (rwPort (.ata 0))
  picM := constructedPic 0x08
  picS := constructedPic 0x70
  irqOwner := [(0, .ata 0)]
  clk :=
    { timers :=
        [{ owner := .ata 0, interval := resetAtaDelay, countdown := resetAtaDelay, active := false,
           continuous := false }]
      pendingRtPulses := 0
      running := false }
  ata :=
    [{ drive0 := emptyDrive, drive1 := emptyDrive, selected := 0, ioBase1 := 0x1F0, ioBase2 := 0x3F0, irqNumber := 0,
       nIEN := false, srst := false, irqRaised := false, timerRegistered := true }]
  cpu :=
    { x := resetRegs, instrCounter := 0, ips := Config.params.ips, minPulsePeriodUs := none, running := false,
      holdSet := [] }
  rom := none
  log := []
  mem := []
  world := 0
  inbox := []
  result := .ok .unit

end Sys2Proof.Machine

namespace Sys2Proof.Config

/-- The text of a dump, a function of the module's own fields; no format is fixed (R344; log entry 21). -/
opaque dumpText : Machine.ModuleView → List Byte

end Sys2Proof.Config
end

