-- ==== Sys2Proof/Machine/Flags.lean ====
section
/-! DEFINITION. Everything the block computes from its flag bits: the priority resolver and the INT output of a
controller (spec 41_pic.md rules R143, R144, R148), the ATA status byte (45_ata_taskfile.md rule R273), the CPU's
interrupt enable (10_state.md rule R54), and the derived views of R47 and R140. -/

namespace Sys2Proof.Machine

/-! ### The priority resolver -/

/-- The eight local lines. -/
def allLines : List (Fin 8) := [0, 1, 2, 3, 4, 5, 6, 7]

/-- Bit `l` of a controller register. -/
def lineBit (v : Byte) (l : Fin 8) : Bool := v.getLsbD l.val

/-- `prio(c, l)`: 0 is highest, 7 lowest; subtraction is modulo 8 (R143). -/
def prio (p : Pic) (l : Fin 8) : Fin 8 := l - p.lowestPriorityIRQ - 1

/-- The line whose priority is `k`: the inverse of `prio` (R31, R143). -/
def lineAt (p : Pic) (k : Fin 8) : Fin 8 := p.lowestPriorityIRQ + 1 + k

/-- The eight lines in priority order, highest first (R143, R365). -/
def priorityOrder (p : Pic) : List (Fin 8) := allLines.map (lineAt p)

/-- `pending(c)`: requested and not masked (R143). -/
def pendingSet (p : Pic) : Byte := p.irr &&& ~~~p.imr

/-- `prio(c, l) < top(c)`: the line has a higher priority than every line in service (R143). -/
def aboveInService (p : Pic) (l : Fin 8) : Bool :=
  allLines.all fun k => !lineBit p.isr k || decide (prio p l < prio p k)

/-- `eligible(c, l)` (R143). -/
def eligible (p : Pic) (l : Fin 8) : Bool :=
  lineBit (pendingSet p) l &&
    (if p.specialMask then !lineBit p.isr l
     else if p.isr = 0 then true
     else if p.sfnm then aboveInService p l
     else false)

/-- `selected(c)`: the eligible line with the least priority number, or none (R143). -/
def selected (p : Pic) : Option (Fin 8) := (priorityOrder p).find? (eligible p)

/-- `intReq(c)`, the INT output of a controller (R144). -/
def intReq (p : Pic) : Bool := (selected p).isSome

/-- The in-service line an implicit end of interrupt takes: the one with the least priority number (R150). -/
def topInService (p : Pic) : Option (Fin 8) := (priorityOrder p).find? (lineBit p.isr)

/-- The vector of line `l` (R148). -/
def vectorOf (p : Pic) (l : Fin 8) : Byte := p.interruptOffset + BitVec.ofNat 8 l.val

/-- The vector of an acknowledge with nothing selected (R149). -/
def spuriousVector (p : Pic) : Byte := vectorOf p 7

/-- The poll byte of a line (R106, R196). -/
def pollByte : Option (Fin 8) → Byte
  | none => 0x00
  | some l => 0x80 ||| BitVec.ofNat 8 l.val

/-- The view of one line (R140). -/
inductive LineState where
  | idle
  | requested
  | inService
deriving DecidableEq, Repr

/-- Whether a line is idle, requested or in service (R140). -/
def lineState (p : Pic) (l : Fin 8) : LineState :=
  if lineBit p.isr l then .inService else if lineBit p.irr l then .requested else .idle

/-! ### ATA -/

/-- Drive `k` of a channel (R44). -/
def driveOf (c : Channel) (k : Fin 2) : Drive := if k = 0 then c.drive0 else c.drive1

/-- The drive that answers the task file: the selected one (R273). -/
def selectedDrive (c : Channel) : Drive := driveOf c c.selected

/-- The fixed role of slot `k` (R45). -/
def roleOf (k : Fin 2) : Role := if k = 0 then .master else .slave

/-- `phase = Busy(_)`. -/
def Drive.isBusy (d : Drive) : Bool :=
  match d.phase with
  | .busy _ => true
  | _ => false

/-- `phase` in {DataIn, DataOut}, the DRQ bit (R108). -/
def Drive.drq (d : Drive) : Bool :=
  match d.phase with
  | .dataIn => true
  | .dataOut _ _ => true
  | _ => false

/-- A Boolean as the bit `v` of the status byte. -/
def flagBit (v : Byte) (x : Bool) : Byte := if x then v else 0x00

/-- `status(ch, k)` of a drive under the channel's `srst` (R108, R273). -/
def statusByte (srst : Bool) (d : Drive) : Byte :=
  if d.type = .none then 0x00
  else
    flagBit 0x80 (d.isBusy || srst) ||| flagBit 0x40 d.ready ||| flagBit 0x10 d.seekComplete ||| flagBit 0x08 d.drq |||
      flagBit 0x01 d.err

/-- Whether a write to the command block is ignored (R274). -/
def writeIgnored (c : Channel) : Bool := c.srst || (selectedDrive c).isBusy

/-- The byte read at the drive/head register (R107, R278). -/
def drvHeadByte (c : Channel) : Byte :=
  0xA0 ||| flagBit 0x40 (selectedDrive c).lba ||| flagBit 0x10 (decide (c.selected = 1)) |||
    (selectedDrive c).head.setWidth 8

/-- The view of one drive (R47). -/
inductive DriveState where
  | absent
  | presentIdle
  | selected
  | busy
deriving DecidableEq, Repr

/-- The derived state of drive `k` (R47), computed in the order the rule gives. -/
def driveState (c : Channel) (k : Fin 2) : DriveState :=
  if (driveOf c k).type = .none then .absent
  else if (driveOf c k).phase ≠ .idle then .busy
  else if c.selected = k then .selected
  else .presentIdle

/-! ### CPU -/

/-- `InterruptsEnabled(regs)`: FLAGS bit 9 (R54). -/
def interruptsEnabled (x : Regs) : Bool := x.flags.getLsbD 9

/-- FLAGS as an interrupt entry leaves it: bits 9 and 8 cleared (R307). -/
def entryFlags (f : Half) : Half := f &&& 0xFCFF

end Sys2Proof.Machine
end

