-- ==== Sys2Proof/Machine/Operands.lean ====
section
/-! DEFINITION. How operands are read: port widths and fillers (spec 20_memory.md rules R71, R75, R77), global IRQ
lines and drive selectors (30_encoding.md rule R111), register names (10_state.md rule R58) and the byte sequences of the
register-access contract (R76). -/

namespace Sys2Proof.Machine

/-! ### Port values -/

/-- Bytes of a width (R71). -/
def widthBytes : Width → Nat
  | .byte => 1
  | .word => 2
  | .dword => 4

/-- `FILLER(w)`: all ones of width w (R6, R122). -/
def filler : Width → Long
  | .byte => 0xFF
  | .word => 0xFFFF
  | .dword => 0xFFFFFFFF

/-- The `8*w` bits of a port value. -/
def clip (w : Width) (v : Long) : Long := v &&& filler w

/-- A byte-wide device register read at width `w`: the byte in bits 7:0 and ones above it (R77, R181). -/
def widen (w : Width) (b : Byte) : Long := clip w (0xFFFFFF00 ||| b.setWidth 32)

/-- Bits 7:0, all a byte-wide register takes from a write (R77, R182). -/
def lowByte (v : Long) : Byte := v.setWidth 8

/-- Bytes joined least significant first (R75). -/
def joinLE : List Byte → Nat
  | [] => 0
  | b :: rest => b.toNat + 256 * joinLE rest

/-- The low `n` bytes of a number, least significant first (R75). -/
def splitLE : Nat → Nat → List Byte
  | 0, _ => []
  | n + 1, v => BitVec.ofNat 8 v :: splitLE n (v / 256)

/-! ### Lines and selectors -/

/-- The controller of global line `n` (R24, R111 (a)). -/
def ctrlOfLine (n : Nat) : Ctrl := if n < 8 then .M else .S

/-- The local line of global line `n` (R24, R111 (a)). -/
def localLine (n : Nat) : Fin 8 := ⟨n % 8, Nat.mod_lt _ (by decide)⟩

/-- The channel of a numeric selector (R249). -/
def selChannel (n : Nat) : Nat := n / 2

/-- The drive of a numeric selector (R249). -/
def selDrive (n : Nat) : Fin 2 := ⟨n % 2, Nat.mod_lt _ (by decide)⟩

/-- A drive index 0 or 1 as the slot it names. -/
def slotOfBool (x : Bool) : Fin 2 := if x then 1 else 0

/-! ### Registers -/

/-- The names of the default `RegSpec` as bytes, upper case (R58; log entry 20). -/
def regName : Reg → List Byte
  | .ax => [0x41, 0x58]
  | .bx => [0x42, 0x58]
  | .cx => [0x43, 0x58]
  | .dx => [0x44, 0x58]
  | .sp => [0x53, 0x50]
  | .bp => [0x42, 0x50]
  | .si => [0x53, 0x49]
  | .di => [0x44, 0x49]
  | .cs => [0x43, 0x53]
  | .ds => [0x44, 0x53]
  | .es => [0x45, 0x53]
  | .ss => [0x53, 0x53]
  | .ip => [0x49, 0x50]
  | .flags => [0x46, 0x4C, 0x41, 0x47, 0x53]

/-- The rows of the default `RegSpec` (R58). -/
def allRegs : List Reg := [.ax, .bx, .cx, .dx, .sp, .bp, .si, .di, .cs, .ds, .es, .ss, .ip, .flags]

/-- The register of a name, matched exactly (R58, R310). -/
def regOfName (name : List Byte) : Option Reg := allRegs.find? fun r => regName r == name

/-- `x[r]` (R9). -/
def regGet (x : Regs) : Reg → Half
  | .ax => x.ax
  | .bx => x.bx
  | .cx => x.cx
  | .dx => x.dx
  | .sp => x.sp
  | .bp => x.bp
  | .si => x.si
  | .di => x.di
  | .cs => x.cs
  | .ds => x.ds
  | .es => x.es
  | .ss => x.ss
  | .ip => x.ip
  | .flags => x.flags

/-- `x[r] <- v` (R9). -/
def regSet (x : Regs) (r : Reg) (v : Half) : Regs :=
  match r with
  | .ax => { x with ax := v }
  | .bx => { x with bx := v }
  | .cx => { x with cx := v }
  | .dx => { x with dx := v }
  | .sp => { x with sp := v }
  | .bp => { x with bp := v }
  | .si => { x with si := v }
  | .di => { x with di := v }
  | .cs => { x with cs := v }
  | .ds => { x with ds := v }
  | .es => { x with es := v }
  | .ss => { x with ss := v }
  | .ip => { x with ip := v }
  | .flags => { x with flags := v }

/-- Every register of the default `RegSpec` is two bytes wide (R58). -/
def regWidth : Reg → Nat := fun _ => 2

/-- A register value as its byte sequence, most significant byte first (R76). -/
def regBytes (v : Half) : List Byte := [v.extractLsb' 8 8, v.extractLsb' 0 8]

/-- The number whose big-endian bytes are given, as a register value (R76, R311). -/
def regOfBytes (bytes : List Byte) : Half := BitVec.ofNat 16 (bytes.foldl (fun n b => n * 256 + b.toNat) 0)

/-- A real-mode address: `(seg * 16 + off) mod 2^20` (R53, R307). -/
def linear (seg off : Half) : Nat := (seg.toNat * 16 + off.toNat) % 2 ^ 20

end Sys2Proof.Machine
end

