-- ==== Sys2Proof/Machine/Ops.lean ====
section
/-! DEFINITION. The named operations over the state: controller bits, maps, guest memory, components, the diagnostic
log, the port map (`BUS.registerPort`), the hold set, the register-access contract, and the one transfer of guest
control, interrupt entry (spec 46_cpu_loop.md rule R307, 48_laws.md rule R321). There is no return operation beside it:
the guest handler returns by its own instructions, inside `ExecOne` (60_exceptions.md rule R368). -/

namespace Sys2Proof.Machine

/-- What an operation answers: the state it leaves and its result (R11). -/
abbrev Answer := State × Result

/-- The outcome of a meaning: the state it leaves, holding its result (log entry 5). -/
def reply (r : Answer) : Host.Outcome State Fault Refusal := .next { r.1 with result := r.2 }

/-- The success of an operation whose result is success or failure (R11). -/
def success : Result := .ok .success

/-- The result `ok(())`. -/
def okUnit : Result := .ok .unit

/-- The result of a byte-wide register read (R97). -/
def portByte (b : Byte) : Result := .ok (.port .byte (b.setWidth 32))

/-! ### Bits of a controller register -/

/-- Bit `l` of a controller register set to `x`. -/
def setLine (v : Byte) (l : Fin 8) (x : Bool) : Byte :=
  if x then v ||| BitVec.twoPow 8 l.val else v &&& ~~~(BitVec.twoPow 8 l.val)

/-! ### Finite maps with keys in rising order -/

/-- The value at a key. -/
def mapGet {α : Type} : List (Nat × α) → Nat → Option α
  | [], _ => none
  | (k, x) :: rest, a => if k = a then some x else mapGet rest a

/-- The map with a key bound to a value. -/
def mapPut {α : Type} : List (Nat × α) → Nat → α → List (Nat × α)
  | [], a, x => [(a, x)]
  | (k, y) :: rest, a, x =>
    if a < k then (a, x) :: (k, y) :: rest
    else if a = k then (a, x) :: rest
    else (k, y) :: mapPut rest a x

/-- The map without a key. -/
def mapErase {α : Type} (m : List (Nat × α)) (a : Nat) : List (Nat × α) := m.filter fun e => e.1 != a

/-- The keys of a map rise strictly. -/
def mapWf {α : Type} : List (Nat × α) → Bool
  | [] => true
  | [_] => true
  | (k, _) :: (k', y) :: rest => decide (k < k') && mapWf ((k', y) :: rest)

/-- An element of a list replaced by its image; nothing where the index is past the end. -/
def modifyAt {α : Type} : List α → Nat → (α → α) → List α
  | [], _, _ => []
  | x :: rest, 0, f => f x :: rest
  | x :: rest, n + 1, f => x :: modifyAt rest n f

/-! ### Guest memory (R72, R75, R405) -/

/-- What an address that is not listed reads as (log entry 7). -/
def unlistedByte : Byte := 0x00

/-- One byte of guest memory. -/
def memByte : Memory → Nat → Byte
  | [], _ => unlistedByte
  | (k, b) :: rest, a => if k = a then b else memByte rest a

/-- Guest memory with one byte written, in the canonical form. -/
def memStore : Memory → Nat → Byte → Memory
  | [], a, b => if b = unlistedByte then [] else [(a, b)]
  | (k, c) :: rest, a, b =>
    if a < k then (if b = unlistedByte then (k, c) :: rest else (a, b) :: (k, c) :: rest)
    else if a = k then (if b = unlistedByte then rest else (a, b) :: rest)
    else (k, c) :: memStore rest a b

/-- The canonical form: addresses strictly rising, no entry equal to what an unlisted address reads as. -/
def Memory.wf (m : Memory) : Bool := mapWf m && m.all fun e => e.2 != unlistedByte

/-- The canonical memory with the bytes of a list of cells, a later cell winning. -/
def memOfCells (cells : List Host.Cell) : Memory := cells.foldl (fun m e => memStore m e.1 e.2) []

/-- One byte read by the guest; beyond the memory's size the value is open (R72; log entry 8). -/
def readByte (P : Params) (a : Nat) (s : State) : Byte × State :=
  if a < P.memSize then (memByte s.mem a, s)
  else ((P.outsideRead s.world a).1, { s with world := (P.outsideRead s.world a).2 })

/-- One byte written by the guest; beyond the memory's size the effect on memory is open (R72; log entry 8). -/
def writeByte (P : Params) (a : Nat) (b : Byte) (s : State) : State :=
  if a < P.memSize then { s with mem := memStore s.mem a b }
  else
    { s with
      mem := memOfCells (P.outsideWrite s.world a b s.mem).1
      world := (P.outsideWrite s.world a b s.mem).2 }

/-- `n` bytes read from `addr` upwards. -/
def readBytes (P : Params) : Nat → Nat → State → List Byte × State
  | 0, _, s => ([], s)
  | n + 1, addr, s =>
    let first := readByte P addr s
    let more := readBytes P n (addr + 1) first.2
    (first.1 :: more.1, more.2)

/-- Bytes written from `addr` upwards. -/
def writeBytes (P : Params) : List Byte → Nat → State → State
  | [], _, s => s
  | b :: rest, addr, s => writeBytes P rest (addr + 1) (writeByte P addr b s)

/-- `MemRead(addr, n)`, little-endian (R10, R75). -/
def memRead (P : Params) (addr n : Nat) (s : State) : Nat × State :=
  (joinLE (readBytes P n addr s).1, (readBytes P n addr s).2)

/-- `MemWrite(addr, n, v)`, little-endian (R10, R75). -/
def memWrite (P : Params) (addr n v : Nat) (s : State) : State := writeBytes P (splitLE n v) addr s

/-! ### Components -/

/-- `pic[c]` (R9). -/
def picOf (s : State) : Ctrl → Pic
  | .M => s.picM
  | .S => s.picS

/-- `pic[c]` replaced. -/
def setPic (c : Ctrl) (p : Pic) (s : State) : State :=
  match c with
  | .M => { s with picM := p }
  | .S => { s with picS := p }

/-- The machine has channel `ch`: it is below `NUM_ATA_CHANNELS`. -/
def hasChannel (s : State) (ch : Nat) : Bool := decide (ch < s.ata.length)

/-- `ata[ch]` (R9); the channel exists wherever an operation reads it. -/
def chan (s : State) (ch : Nat) : Channel := (s.ata[ch]?).getD default

/-- The outcome of an operation of channel `ch`. Where the machine has no such channel the operation answers `absent`
and changes nothing (R115; log entry 16). -/
def onChannel (ch : Nat) (s : State) (absent : Result) (r : Answer) : Host.Outcome State Fault Refusal :=
  reply (if hasChannel s ch then r else (s, absent))

/-- `ata[ch]` changed. -/
def modChan (ch : Nat) (f : Channel → Channel) (s : State) : State := { s with ata := modifyAt s.ata ch f }

/-- `ata[ch].drive[k]` changed, in the channel. -/
def onDrive (k : Fin 2) (f : Drive → Drive) (c : Channel) : Channel :=
  if k = 0 then { c with drive0 := f c.drive0 } else { c with drive1 := f c.drive1 }

/-- `ata[ch].drive[k]` changed. -/
def modDrive (ch : Nat) (k : Fin 2) (f : Drive → Drive) (s : State) : State := modChan ch (onDrive k f) s

/-- Both drives of a channel changed. -/
def onBothDrives (f : Drive → Drive) (c : Channel) : Channel := { c with drive0 := f c.drive0, drive1 := f c.drive1 }

/-- `cpu.x` replaced. -/
def setRegs (x : Regs) (s : State) : State := { s with cpu := { s.cpu with x := x } }

/-- The timer table replaced. -/
def setTimers (ts : List Timer) (s : State) : State := { s with clk := { s.clk with timers := ts } }

/-- The pulse quantum of the machine (R220). -/
def quantum (s : State) : Nat := pulseQuantum s.cpu.minPulsePeriodUs s.cpu.ips

/-- `toPulses(us)` at the machine's present rate (R212). -/
def pulsesOf (P : Params) (us : Nat) (s : State) : Nat := toPulses P.pulseSource P.sleepUs s.cpu.ips (quantum s) us

/-! ### Conditions -/

/-- The condition of a diagnostic (R360). -/
def condOf : Diagnostic → Cond
  | .unknownPort _ _ _ => .unknownPort
  | .writeOnlyPort _ _ _ => .writeOnlyPort
  | .readOnlyPort _ _ _ => .readOnlyPort
  | .invalidIrqLine _ => .invalidIrqLine
  | .irqExhausted _ => .irqExhausted
  | .timerCapacityExceeded _ => .timerCapacityExceeded
  | .noSuchTimer _ => .noSuchTimer
  | .noSuchDriveIndex _ _ => .noSuchDrive
  | .noSuchDrive _ => .noSuchDrive
  | .attachInvalid _ => .attachInvalid
  | .driveBusy _ => .driveBusy
  | .slotOccupied _ => .slotOccupied
  | .driveAbsent _ => .driveAbsent
  | .unknownRegister _ => .unknownRegister
  | .writeDisallowed _ => .writeDisallowed
  | .romSizeMismatch _ => .romSizeMismatch

/-- The code of a condition (R360). -/
def condCode : Cond → Nat
  | .unknownPort => 1
  | .writeOnlyPort => 2
  | .readOnlyPort => 3
  | .invalidIrqLine => 4
  | .irqExhausted => 5
  | .timerCapacityExceeded => 6
  | .noSuchTimer => 7
  | .noSuchDrive => 8
  | .attachInvalid => 9
  | .driveBusy => 10
  | .slotOccupied => 11
  | .driveAbsent => 12
  | .unknownRegister => 13
  | .writeDisallowed => 14
  | .romSizeMismatch => 15

/-- A diagnostic appended to `S.log` (R23). -/
def logged (d : Diagnostic) (s : State) : State := { s with log := s.log ++ [d] }

/-- `raise K(info)` with value `v`: the diagnostic is appended and the condition returned, nothing else (R11, R360). -/
def raise (d : Diagnostic) (v : Value) (s : State) : Answer := (logged d s, .cond (condOf d) v)

/-- `fail K(info)` (R11). -/
def fail (d : Diagnostic) (s : State) : Answer := raise d .failure s

/-! ### The port map and the hold set -/

/-- The entry of the port map at an address (R21). -/
def portEntry (s : State) (a : Half) : Option PortEntry := mapGet s.bus a.toNat

/-- `BUS.registerPort(a, d, attr)` (R121): the same owner keeps its entry, another owner takes the port over. -/
def registerPort (a : Half) (d : Device) (attr : Attr) (s : State) : State :=
  match portEntry s a with
  | none => { s with bus := mapPut s.bus a.toNat { owner := d, attr := attr } }
  | some e => if e.owner = d then s else { s with bus := mapPut s.bus a.toNat { owner := d, attr := attr } }

/-- Several ports registered in turn, read-write. -/
def registerPorts (ports : List Half) (d : Device) (s : State) : State :=
  ports.foldl (fun s a => registerPort a d .rw s) s

/-- `CPU.setHoldRequest(d, on)` (R309). -/
def setHold (d : Device) (on : Bool) (s : State) : State :=
  { s with
    cpu := { s.cpu with
      holdSet :=
        if on then (if s.cpu.holdSet.contains d then s.cpu.holdSet else s.cpu.holdSet ++ [d])
        else s.cpu.holdSet.filter fun e => e != d } }

/-! ### Interrupt entry -/

/-- `push(u)`: SP lowered by two, then the word stored at SS:SP (R307). -/
def push (P : Params) (u : Half) (s : State) : State :=
  let sp := s.cpu.x.sp - 2
  memWrite P (linear s.cpu.x.ss sp) 2 u.toNat (setRegs { s.cpu.x with sp := sp } s)

/-- FLAGS pushed, then its enable and trap bits cleared (R307). -/
def entryPushFlags (P : Params) (s : State) : State :=
  let t := push P s.cpu.x.flags s
  setRegs { t.cpu.x with flags := entryFlags t.cpu.x.flags } t

/-- CS, then IP pushed: the address of the instruction not yet executed (R307, R321). -/
def entryPushReturn (P : Params) (s : State) : State :=
  let t := push P s.cpu.x.cs s
  push P t.cpu.x.ip t

/-- IP, then CS loaded from the 4-byte table entry at `4 * v` (R307). -/
def entryLoadVector (P : Params) (v : Byte) (s : State) : State :=
  let ip := memRead P (4 * v.toNat) 2 s
  let t := setRegs { ip.2.cpu.x with ip := BitVec.ofNat 16 ip.1 } ip.2
  let cs := memRead P (4 * v.toNat + 2) 2 t
  setRegs { cs.2.cpu.x with cs := BitVec.ofNat 16 cs.1 } cs.2

/-- `InterruptEntry(v)`, the default real-mode entry (R307). -/
def interruptEntry (P : Params) (v : Byte) (s : State) : State :=
  entryLoadVector P v (entryPushReturn P (entryPushFlags P s))

end Sys2Proof.Machine
end

