-- ==== Sys2Proof/Machine/ClockOps.lean ====
section
/-! DEFINITION. The timer table of the Clock: registration, reconfiguration and the real-time pulse signal
(spec 43_clock_timer.md rules R213, R216 to R219). -/

namespace Sys2Proof.Machine

/-- `lookup(device)`: the least slot the device owns (R218). -/
def lookupTimer (s : State) (d : Device) : Option Nat := s.clk.timers.findIdx? fun t => t.owner == d

/-- One slot changed. -/
def modTimer (i : Nat) (f : Timer → Timer) (s : State) : State := setTimers (modifyAt s.clk.timers i f) s

/-- `CLK.registerDevice(device, intervalMicroseconds, continuous)` (R213). -/
def registerDevice (P : Params) (d : Device) (us : Nat) (continuous : Bool) (s : State) : Answer :=
  if P.maxTimers ≤ s.clk.timers.length then fail (.timerCapacityExceeded d) s
  else
    (setTimers
      (s.clk.timers ++
        [{ owner := d, interval := pulsesOf P us s, countdown := pulsesOf P us s, active := true,
           continuous := continuous }]) s,
     success)

/-- `CLK.resetTimer(device, intervalMicroseconds)` (R216). -/
def resetTimer (P : Params) (d : Device) (us : Nat) (s : State) : Answer :=
  match lookupTimer s d with
  | none => fail (.noSuchTimer d) s
  | some i => (modTimer i (fun t => { t with interval := pulsesOf P us s, countdown := pulsesOf P us s }) s, success)

/-- A slot made active or inactive; a spent countdown is reloaded on activation (R217). -/
def setActive (active : Bool) (t : Timer) : Timer :=
  { t with
    countdown := if active && t.countdown == 0 then t.interval else t.countdown
    active := active }

/-- `CLK.setTimerActiveState(device, state)` (R217). -/
def setTimerActiveState (d : Device) (active : Bool) (s : State) : Answer :=
  match lookupTimer s d with
  | none => fail (.noSuchTimer d) s
  | some i => (modTimer i (setActive active) s, success)

/-- `CLK.signalPulse()` (R219). -/
def signalPulse (P : Params) (s : State) : State :=
  if P.pulseSource = .realTime ∧ s.clk.running = true then
    { s with clk := { s.clk with pendingRtPulses := s.clk.pendingRtPulses + 1 } }
  else s

end Sys2Proof.Machine
end

