-- ==== Sys2Proof/Machine/PicOps.lean ====
section
/-! DEFINITION. The interrupt controller pair: inputs, cascade, acknowledge, end of interrupt, line allocation, reset
(spec 41_pic.md) and the port-level commands and reads (42_pic_ports.md). -/

namespace Sys2Proof.Machine

/-! ### Inputs (R141, R142) -/

/-- `inputRaise` on one controller (R141). -/
def inputRaise (l : Fin 8) (p : Pic) : Pic :=
  if !lineBit p.pin l then { p with pin := setLine p.pin l true, irr := setLine p.irr l true }
  else if p.levelTriggered then { p with irr := setLine p.irr l true }
  else p

/-- `inputLower` on one controller (R142). -/
def inputLower (l : Fin 8) (p : Pic) : Pic :=
  if p.levelTriggered then { p with pin := setLine p.pin l false, irr := setLine p.irr l false }
  else { p with pin := setLine p.pin l false }

/-- The master after the slave's INT output `lvl` has reached its cascade input (R146). -/
def followSlave (P : Params) (lvl : Bool) (m : Pic) : Pic :=
  if lvl && !lineBit m.pin P.cascadeLine then inputRaise P.cascadeLine m
  else if !lvl && lineBit m.pin P.cascadeLine then inputLower P.cascadeLine m
  else m

/-- `settle()` (R146). -/
def settle (P : Params) (s : State) : State := { s with picM := followSlave P (intReq s.picS) s.picM }

/-- Global line `n` is no device line: above 15, or the cascade input (R141, R145). -/
def lineRefused (P : Params) (n : Nat) : Bool := decide (15 < n) || decide (n = P.cascadeLine.val)

/-- `PIC.assertIRQ(n)` (R141). -/
def assertIRQ (P : Params) (n : Nat) (s : State) : Answer :=
  if lineRefused P n then raise (.invalidIrqLine n) .unit s
  else (settle P (setPic (ctrlOfLine n) (inputRaise (localLine n) (picOf s (ctrlOfLine n))) s), okUnit)

/-- `PIC.clearIRQ(n)` (R142). -/
def clearIRQ (P : Params) (n : Nat) (s : State) : Answer :=
  if lineRefused P n then raise (.invalidIrqLine n) .unit s
  else (settle P (setPic (ctrlOfLine n) (inputLower (localLine n) (picOf s (ctrlOfLine n))) s), okUnit)

/-! ### Acknowledge (R147, R196) -/

/-- The automatic end of interrupt of a line just acknowledged (R151). -/
def autoEnd (l : Fin 8) (p : Pic) : Pic :=
  if p.autoEOI then
    { p with
      isr := setLine p.isr l false
      lowestPriorityIRQ := if p.rotateOnAutoEOI then l else p.lowestPriorityIRQ }
  else p

/-- Line `l` moved from requested to in service, `currentIRQ` noted, then the automatic end of interrupt (R147). -/
def takeLine (l : Fin 8) (p : Pic) : Pic :=
  autoEnd l
    { p with
      isr := setLine p.isr l true
      irr := setLine p.irr l (p.levelTriggered && lineBit p.pin l)
      currentIRQ := l }

/-- `ack(S)` (R147, R149). -/
def ackSlave (s : State) : Byte × State :=
  match selected s.picS with
  | none => (spuriousVector s.picS, s)
  | some l => (vectorOf s.picS l, { s with picS := takeLine l s.picS })

/-- `ack(M)`: a cascade request is resolved by the slave, and the cascade input then falls (R145, R147, R149). -/
def ackMaster (P : Params) (s : State) : Byte × State :=
  match selected s.picM with
  | none => (spuriousVector s.picM, s)
  | some l =>
    let t := { s with picM := takeLine l s.picM }
    if l = P.cascadeLine ∧ s.picM.cascadeMode = true then
      let r := ackSlave t
      (r.1, { r.2 with picM := inputLower P.cascadeLine r.2.picM })
    else (vectorOf s.picM l, t)

/-- `PIC.acknowledgeHighestPriority()`: the vector and the state after `settle` (R147). -/
def acknowledge (P : Params) (s : State) : Byte × State := ((ackMaster P s).1, settle P (ackMaster P s).2)

/-! ### End of interrupt (R150) -/

/-- Line `l` ended, and made the lowest priority if `rotate` (R150). -/
def endLine (l : Fin 8) (rotate : Bool) (p : Pic) : Pic :=
  { p with isr := setLine p.isr l false, lowestPriorityIRQ := if rotate then l else p.lowestPriorityIRQ }

/-- `PIC.endOfInterrupt(c, line, rotate)`: an implicit end with nothing in service changes nothing (R150). -/
def endOfInterrupt (P : Params) (c : Ctrl) (line : Option (Fin 8)) (rotate : Bool) (s : State) : State :=
  match line with
  | some l => settle P (setPic c (endLine l rotate (picOf s c)) s)
  | none =>
    match topInService (picOf s c) with
    | none => s
    | some l => settle P (setPic c (endLine l rotate (picOf s c)) s)

/-! ### Line allocation (R152, R153) -/

/-- The lines a device owns, ascending. -/
def linesOf (s : State) (d : Device) : List Nat := (s.irqOwner.filter fun e => e.2 == d).map (·.1)

/-- The lowest line that is neither reserved nor owned (R152). -/
def freeLine (P : Params) (s : State) : Option Nat :=
  (List.range 16).find? fun n => !P.irqReserved.contains n && (mapGet s.irqOwner n).isNone

/-- `PIC.requestIRQNumber(caller)` (R152). -/
def requestIRQNumber (P : Params) (d : Device) (s : State) : Answer :=
  match linesOf s d with
  | n :: _ => (s, .ok (.line n))
  | [] =>
    match freeLine P s with
    | some n => ({ s with irqOwner := mapPut s.irqOwner n d }, .ok (.line n))
    | none => raise (.irqExhausted d) (.line (-1)) s

/-- Line `n` cleared, then taken from its owner (R153). -/
def releaseLine (P : Params) (n : Nat) (s : State) : State :=
  let t := (clearIRQ P n s).1
  { t with irqOwner := mapErase t.irqOwner n }

/-- `PIC.freeIRQNumber(caller)` (R153). -/
def freeIRQNumber (P : Params) (d : Device) (s : State) : State :=
  (linesOf s d).foldl (fun s n => releaseLine P n s) s

/-! ### Reset (R36, R154) -/

/-- A controller after `PIC.reset`: offset, cascade and trigger mode kept (R36). -/
def picResetOf (p : Pic) : Pic :=
  { constructedPic p.interruptOffset with cascadeMode := p.cascadeMode, levelTriggered := p.levelTriggered }

/-- The four ports of the PIC (R180). -/
def picPorts (P : Params) : List Half := [P.picPortCmdM, P.picPortDataM, P.picPortCmdS, P.picPortDataS]

/-- `PIC.reset()` (R154). -/
def picReset (P : Params) (s : State) : State :=
  registerPorts (picPorts P) .pic { s with picM := picResetOf s.picM, picS := picResetOf s.picS }

/-! ### Port-level commands (42_pic_ports.md) -/

/-- A change of one controller followed by `settle`: every PIC port write ends so (R182). -/
def picCommand (P : Params) (c : Ctrl) (f : Pic → Pic) (s : State) : State :=
  settle P (setPic c (f (picOf s c)) s)

/-- ICW1 (R184). -/
def applyICW1 (ltim sngl ic4 : Bool) (p : Pic) : Pic :=
  { p with
    initState := .expectICW2
    requiresICW4 := ic4
    cascadeMode := !sngl
    levelTriggered := ltim
    imr := 0x00
    isr := 0x00
    irr := if ltim then p.pin else 0x00
    lowestPriorityIRQ := 7
    specialMask := false
    readSelectISR := false
    polled := false
    sfnm := false
    buffered := false
    autoEOI := false
    rotateOnAutoEOI := false }

/-- Where the sequence goes once ICW3 is not awaited (R185). -/
def afterICW3 (p : Pic) : InitState := if p.requiresICW4 then .expectICW4 else .ready

/-- ICW2 (R186). -/
def applyICW2 (b : Byte) (p : Pic) : Pic :=
  { p with interruptOffset := b &&& 0xF8, initState := if p.cascadeMode then .expectICW3 else afterICW3 p }

/-- ICW3 (R187). -/
def applyICW3 (b : Byte) (p : Pic) : Pic := { p with icw3 := b, initState := afterICW3 p }

/-- ICW4 (R188). -/
def applyICW4 (b : Byte) (p : Pic) : Pic :=
  { p with sfnm := b.getLsbD 4, buffered := b.getLsbD 3, autoEOI := b.getLsbD 1, initState := .ready }

/-- OCW1 (R190). -/
def applyOCW1 (b : Byte) (p : Pic) : Pic := { p with imr := b }

/-- OCW3 (R193). -/
def applyOCW3 (esmm smm pl rr ris : Bool) (p : Pic) : Pic :=
  { p with
    specialMask := if esmm then smm else p.specialMask
    polled := if pl then true else p.polled
    readSelectISR := if rr then ris else p.readSelectISR }

/-- OCW2 rotate-in-automatic-EOI mode set or cleared (R199, R200). -/
def setRotateOnAutoEOI (on : Bool) (p : Pic) : Pic := { p with rotateOnAutoEOI := on }

/-- OCW2 set priority (R201). -/
def setLowestPriority (l : Fin 8) (p : Pic) : Pic := { p with lowestPriorityIRQ := l }

/-- A byte written to the data port, told apart by `initState` (R116 (a), R182, R185). -/
def applyData (b : Byte) (p : Pic) : Pic :=
  match p.initState with
  | .expectICW2 => applyICW2 b p
  | .expectICW3 => applyICW3 b p
  | .expectICW4 => applyICW4 b p
  | .ready => applyOCW1 b p

/-- A write of `b` to `PIC_PORT_DATA[c]` (R182). -/
def writeData (P : Params) (c : Ctrl) (b : Byte) (s : State) : State := picCommand P c (applyData b) s

/-- The end of interrupt of an OCW2 (R191). -/
def ocw2End (P : Params) (c : Ctrl) (r sl : Bool) (l : Fin 8) (s : State) : State :=
  endOfInterrupt P c (if sl then some l else none) r s

/-- The operation a command-port byte stands for, performed on controller `c` (R182, R184, R191 to R193, R199 to R202);
`decodePicCmd` reads the byte. -/
def performCmd (P : Params) (i : Instr) (s : State) : State :=
  match i with
  | .picICW1 c ltim sngl ic4 => picCommand P c (applyICW1 ltim sngl ic4) s
  | .picOCW2EOI c r sl l => ocw2End P c r sl l s
  | .picOCW2RotAutoSet c => picCommand P c (setRotateOnAutoEOI true) s
  | .picOCW2RotAutoClr c => picCommand P c (setRotateOnAutoEOI false) s
  | .picOCW2SetPrio c l => picCommand P c (setLowestPriority l) s
  | .picOCW3 c esmm smm pl rr ris => picCommand P c (applyOCW3 esmm smm pl rr ris) s
  | .picOCW2Nop c _ => picCommand P c id s
  | _ => s

/-- A write of `b` to `PIC_PORT_CMD[c]` (R182). -/
def writeCmd (P : Params) (c : Ctrl) (b : Byte) (s : State) : State := performCmd P (decodePicCmd c b) s

/-- The poll read: an acknowledge of controller `c` alone (R196). -/
def pollRead (P : Params) (c : Ctrl) (s : State) : Byte × State :=
  let p := { picOf s c with polled := false }
  match selected p with
  | none => (pollByte none, settle P (setPic c p s))
  | some l => (pollByte (some l), settle P (setPic c (takeLine l p) s))

/-- A read of the command port (R194). -/
def readCmd (P : Params) (c : Ctrl) (s : State) : Byte × State :=
  if (picOf s c).polled then pollRead P c s
  else (if (picOf s c).readSelectISR then (picOf s c).isr else (picOf s c).irr, s)

/-- A read of the data port (R195). -/
def readData (P : Params) (c : Ctrl) (s : State) : Byte × State :=
  if (picOf s c).polled then pollRead P c s else ((picOf s c).imr, s)

/-- A register of the PIC as its port addresses it (R180). -/
inductive PicPort where
  | cmd (c : Ctrl)
  | data (c : Ctrl)
deriving DecidableEq, Repr

/-- Which of the four ports an address is (R181). -/
def picPortAt (P : Params) (a : Half) : Option PicPort :=
  if a = P.picPortCmdM then some (.cmd .M)
  else if a = P.picPortDataM then some (.data .M)
  else if a = P.picPortCmdS then some (.cmd .S)
  else if a = P.picPortDataS then some (.data .S)
  else none

/-- `PIC.portRead` at one of the four ports, the byte before it is widened (R181). -/
def picPortRead (P : Params) (port : PicPort) (s : State) : Byte × State :=
  match port with
  | .cmd c => readCmd P c s
  | .data c => readData P c s

/-- `PIC.portWrite` at one of the four ports, of bits 7:0 (R182). -/
def picPortWrite (P : Params) (port : PicPort) (b : Byte) (s : State) : State :=
  match port with
  | .cmd c => writeCmd P c b s
  | .data c => writeData P c b s

end Sys2Proof.Machine
end

