-- ==== Sys2Proof/Machine/External.lean ====
section
/-! DEFINITION. External devices: a handler of `DeviceModel` is a program of device operations (spec 00_scope.md rule
R6, 40_iobus.md rule R125, 60_exceptions.md rule R390); this file performs it (log entry 10). -/

namespace Sys2Proof.Machine

/-- One operation a device invokes, with its result (R390). -/
def runDevOp (P : Params) (op : DevOp) (s : State) : Answer :=
  match op with
  | .registerPort a d attr => (registerPort a d attr s, okUnit)
  | .assertIRQ n => assertIRQ P n s
  | .clearIRQ n => clearIRQ P n s
  | .requestIRQNumber d => requestIRQNumber P d s
  | .freeIRQNumber d => (freeIRQNumber P d s, okUnit)
  | .registerDevice d us k => registerDevice P d us k s
  | .resetTimer d us => resetTimer P d us s
  | .setTimerActiveState d k => setTimerActiveState d k s
  | .setHoldRequest d k => (setHold d k s, okUnit)

/-- A handler performed to completion: each operation on the state the one before left, a condition it raises logged and
given to the handler, inside `CPU.step` too (R85, R125, R361 (c); log entry 32). -/
def runDevProg {α : Type} (P : Params) : DevProg α → State → α × State
  | .ret a world, s => (a, { s with world := world })
  | .call op k, s => runDevProg P (k (runDevOp P op s).2) (runDevOp P op s).1

/-- `DeviceModel[d].portRead` (R122). -/
def extRead (P : Params) (d : Device) (a : Half) (w : Width) (s : State) : Long × State :=
  runDevProg P ((P.device d).portRead s.world a w) s

/-- `DeviceModel[d].portWrite` (R123). -/
def extWrite (P : Params) (d : Device) (a : Half) (w : Width) (v : Long) (s : State) : State :=
  (runDevProg P ((P.device d).portWrite s.world a w v) s).2

/-- `DeviceModel[d].update` (R215). -/
def extUpdate (P : Params) (d : Device) (s : State) : State := (runDevProg P ((P.device d).update s.world) s).2

/-- `DeviceModel[d].reset()` (R341). -/
def extReset (P : Params) (d : Device) (s : State) : Answer :=
  let r := runDevProg P ((P.device d).reset s.world) s
  (r.2, if r.1 then success else .failed)

/-- `DeviceModel[d]` at `start()` (R342). -/
def extStart (P : Params) (d : Device) (s : State) : State := (runDevProg P ((P.device d).start s.world) s).2

/-- `DeviceModel[d]` at `stop()` (R340, R343; log entry 22). -/
def extStop (P : Params) (d : Device) (s : State) : State := (runDevProg P ((P.device d).stop s.world) s).2

end Sys2Proof.Machine
end

