-- ==== Sys2Proof/Machine/AtaOps.lean ====
section
/-! DEFINITION. The ATA channel: reset, selection, attach and detach (spec 44_ata.md) and the task-register protocol
(45_ata_taskfile.md). An operation here is called for a channel the machine has. -/

namespace Sys2Proof.Machine

/-! ### Interrupt line and timer of the channel (R280, R287) -/

/-- The channel's present line as the operand of a PIC operation. -/
def irqLine (c : Channel) : Nat := c.irqNumber.toNat

/-- `raiseIrq(ch)` (R287). -/
def raiseIrq (P : Params) (ch : Nat) (s : State) : State :=
  if !(chan s ch).nIEN && decide (0 ≤ (chan s ch).irqNumber) then
    modChan ch (fun c => { c with irqRaised := true }) (assertIRQ P (irqLine (chan s ch)) s).1
  else s

/-- `lowerIrq(ch)` (R287). -/
def lowerIrq (P : Params) (ch : Nat) (s : State) : State :=
  if (chan s ch).irqRaised then
    modChan ch (fun c => { c with irqRaised := false }) (clearIRQ P (irqLine (chan s ch)) s).1
  else s

/-- `arm(ch)`: the command delay restarted and running; a missing timer is logged and the results dropped (R280,
R414; log entries 18 and, inside `CPU.step`, 32). -/
def armTimer (P : Params) (ch : Nat) (s : State) : State :=
  (setTimerActiveState (.ata ch) true (resetTimer P (.ata ch) P.ataCmdDelayUs s).1).1

/-- The channel's timer made inactive, the result dropped (R241, R284; log entry 18). -/
def parkTimer (ch : Nat) (s : State) : State := (setTimerActiveState (.ata ch) false s).1

/-! ### Drive reset and selection (R245, R246) -/

/-- `driveReset` on one drive (R246). -/
def driveResetOf (d : Drive) : Drive :=
  { d with
    phase := .idle
    buffer := []
    bufPos := 0
    err := false
    ready := decide (d.type ≠ .none)
    seekComplete := decide (d.type ≠ .none)
    error := 0x01
    features := 0x00
    sectorCount := 0x01
    sectorNumber := 0x01
    cylLow := if d.type = .cdrom then 0x14 else 0x00
    cylHigh := if d.type = .cdrom then 0xEB else 0x00
    head := 0
    lba := false }

/-- `ATA.setSelectedDriveIndex(ch, k)`: an index above 1, or a channel the machine does not have, is no drive (R115,
R245, R360; log entry 16). -/
def setSelectedDriveIndex (ch k : Nat) (s : State) : Answer :=
  if h : k < 2 then
    if hasChannel s ch then (modChan ch (fun c => { c with selected := ⟨k, h⟩ }) s, okUnit)
    else raise (.noSuchDriveIndex ch k) .unit s
  else raise (.noSuchDriveIndex ch k) .unit s

/-! ### Channel reset (R241) -/

/-- The number a request for a line carries: the line, or -1 (R152, R241). -/
def lineResult : Result → Int
  | .ok (.line n) => n
  | .cond _ (.line n) => n
  | _ => -1

/-- Step 1: the default I/O bases (R241). -/
def ataResetBases (P : Params) (ch : Nat) (s : State) : State :=
  modChan ch
    (fun c => { c with
      ioBase1 := ((P.ataBases[ch]?).map (·.1)).getD c.ioBase1
      ioBase2 := ((P.ataBases[ch]?).map (·.2)).getD c.ioBase2 }) s

/-- Step 2: the line requested from the interrupt controller, and whether one was had (R241, R243). -/
def ataResetLine (P : Params) (ch : Nat) (s : State) : State × Bool :=
  let r := requestIRQNumber P (.ata ch) s
  (modChan ch (fun c => { c with irqNumber := lineResult r.2 }) r.1, decide (0 ≤ lineResult r.2))

/-- The ports a channel occupies: the command block, and of the control block offsets 6 and 7 unless the floppy
controller owns them (R242). -/
def channelPorts (P : Params) (c : Channel) : List Half :=
  ([0, 1, 2, 3, 4, 5, 6, 7].map fun k => c.ioBase1 + k) ++
    (([6, 7].map fun k => c.ioBase2 + k).filter fun p => !P.fdcOwned.contains p)

/-- Step 3: the ports registered (R241, R242). -/
def ataResetPorts (P : Params) (ch : Nat) (s : State) : State :=
  registerPorts (channelPorts P (chan s ch)) (.ata ch) s

/-- Step 4: the one-shot timer registered once and parked, and whether the channel has it (R241, R244). -/
def ataResetTimer (P : Params) (ch : Nat) (s : State) : State × Bool :=
  if (chan s ch).timerRegistered then (parkTimer ch s, true)
  else
    let r := registerDevice P (.ata ch) P.ataCmdDelayUs false s
    if r.2 = success then (parkTimer ch (modChan ch (fun c => { c with timerRegistered := true }) r.1), true)
    else (r.1, false)

/-- Step 5: the pending interrupt lowered and the channel flags cleared (R241). -/
def ataResetIrq (P : Params) (ch : Nat) (s : State) : State :=
  let c := chan s ch
  let t := if c.irqRaised && decide (0 ≤ c.irqNumber) then (clearIRQ P (irqLine c) s).1 else s
  modChan ch (fun c => { c with irqRaised := false, nIEN := false, srst := false }) t

/-- Steps 6 and 7: the master selected and each drive reset (R241, R246). -/
def ataResetDrives (ch : Nat) (s : State) : State :=
  modChan ch (fun c => onBothDrives driveResetOf { c with selected := 0 }) s

/-- `ATA.reset(ch)`: a failed step does not stop the later ones (R241). -/
def ataReset (P : Params) (ch : Nat) (s : State) : Answer :=
  let line := ataResetLine P ch (ataResetBases P ch s)
  let timer := ataResetTimer P ch (ataResetPorts P ch line.1)
  (ataResetDrives ch (ataResetIrq P ch timer.1), if line.2 && timer.2 then success else .failed)

/-! ### Attach and detach (R247, R248, R249) -/

/-- `resolve(sel)`: channel and drive, if the machine has the channel (R249). -/
def resolveSel (P : Params) (sel : DriveSel) (s : State) : Option (Nat × Fin 2) :=
  let number := match sel with
    | .index n => some n
    | .name bytes => P.driveNames bytes
  match number with
  | some n => if hasChannel s (selChannel n) then some (selChannel n, selDrive n) else none
  | none => none

/-- A drive populated by an attach (R247). -/
def attach (carrier : Carrier) (image : Nat) (writeProtected : Bool) (d : Drive) : Drive :=
  { d with
    type := carrier
    image := some image
    writeProtected := writeProtected
    ready := true
    seekComplete := true }

/-- A drive emptied by an eject (R248). -/
def detach (d : Drive) : Drive :=
  { d with type := .none, image := none, writeProtected := false, ready := false, seekComplete := false }

/-- `ATA.insert(sel, carrierType, image, writeProtected)`, checks in the rule's order (R247). -/
def ataInsert (P : Params) (sel : DriveSel) (carrier : Carrier) (image : Nat) (writeProtected : Bool) (s : State) :
    Answer :=
  match resolveSel P sel s with
  | none => fail (.noSuchDrive sel) s
  | some (ch, k) =>
    if carrier = .none then fail (.attachInvalid sel) s
    else if (chan s ch).drive0.phase ≠ .idle ∨ (chan s ch).drive1.phase ≠ .idle then fail (.driveBusy sel) s
    else if (driveOf (chan s ch) k).type ≠ .none then fail (.slotOccupied sel) s
    else if !P.imageAddressable s.world carrier (roleOf k) image then fail (.attachInvalid sel) s
    else (modDrive ch k (attach carrier image writeProtected) s, success)

/-- `ATA.eject(sel)` (R248). -/
def ataEject (P : Params) (sel : DriveSel) (s : State) : Answer :=
  match resolveSel P sel s with
  | none => fail (.noSuchDrive sel) s
  | some (ch, k) =>
    if (driveOf (chan s ch) k).type = .none then fail (.driveAbsent sel) s
    else if (driveOf (chan s ch) k).phase ≠ .idle then fail (.driveBusy sel) s
    else (modDrive ch k detach s, success)

/-! ### Commands (R280, R286, R291) -/

/-- The drive as `AtaCommandSemantics` sees it (R291). -/
def viewOf (k : Fin 2) (d : Drive) : DriveView :=
  { type := d.type, role := roleOf k, image := d.image, writeProtected := d.writeProtected }

/-- The registers `AtaCommandSemantics` reads (R291). -/
def taskRegsOf (d : Drive) : TaskRegs :=
  { features := d.features, sectorCount := d.sectorCount, sectorNumber := d.sectorNumber, cylLow := d.cylLow,
    cylHigh := d.cylHigh, head := d.head, lba := d.lba }

/-- `apply(k, r)`: each register that `r` gives a value for (R286). -/
def applyPatch (r : RegPatch) (d : Drive) : Drive :=
  { d with
    error := r.error.getD d.error
    sectorCount := r.sectorCount.getD d.sectorCount
    sectorNumber := r.sectorNumber.getD d.sectorNumber
    cylLow := r.cylLow.getD d.cylLow
    cylHigh := r.cylHigh.getD d.cylHigh
    head := r.head.getD d.head
    err := r.err.getD d.err
    seekComplete := r.seekComplete.getD d.seekComplete }

/-- `fail(k)`: ERR set, error 0x04 (R109, R286). -/
def abortCommand (d : Drive) : Drive := { d with err := true, error := 0x04, phase := .idle }

/-- A command with no data phase completed (R286). -/
def completeDone (r : RegPatch) (d : Drive) : Drive := { applyPatch r d with phase := .idle }

/-- A data-in command completed: the bytes are presented, or there are none (R286). -/
def completeDataIn (bytes : List Byte) (r : RegPatch) (d : Drive) : Drive :=
  if bytes = [] then { applyPatch r d with phase := .idle }
  else { applyPatch r d with buffer := bytes, bufPos := 0, phase := .dataIn }

/-- The transfer buffer emptied. -/
def clearBuffer (d : Drive) : Drive := { d with buffer := [], bufPos := 0 }

/-- The outcome `finish` gives a data-out command (R286). -/
def completeFinish (plan : FinishPlan) (d : Drive) : Drive :=
  match plan with
  | .abort => clearBuffer (abortCommand d)
  | .done r => clearBuffer (completeDone r d)

/-- Drive `k` completed by the channel's timer, and whether it had a command to complete (R286). -/
def completeDrive (P : Params) (ch : Nat) (k : Fin 2) (s : State) : State × Bool :=
  match (driveOf (chan s ch) k).phase with
  | .busy .abort => (modDrive ch k abortCommand s, true)
  | .busy (.done r) => (modDrive ch k (completeDone r) s, true)
  | .busy (.dataIn bytes r) => (modDrive ch k (completeDataIn bytes r) s, true)
  | .busy (.finish tag bytes) =>
    let d := driveOf (chan s ch) k
    let r := P.ataFinish s.world tag bytes (viewOf k d) (taskRegsOf d)
    (modDrive ch k (completeFinish r.1) { s with world := r.2 }, true)
  | _ => (s, false)

/-- `ATA.update(ch)` (R286). -/
def ataUpdate (P : Params) (ch : Nat) (s : State) : State :=
  let r0 := completeDrive P ch 0 s
  let r1 := completeDrive P ch 1 r0.1
  if r0.2 || r1.2 then raiseIrq P ch r1.1 else r1.1

/-- A drive at the start of a command (R280). -/
def clearForCommand (d : Drive) : Drive := { d with err := false, error := 0x00, buffer := [], bufPos := 0 }

/-- The phase a plan puts the drive in, and whether the timer is armed (R280, R292). -/
def planPhase : Plan → Phase × Bool
  | .abort => (.busy .abort, true)
  | .done r => (.busy (.done r), true)
  | .dataIn bytes r => (.busy (.dataIn bytes r), true)
  | .dataOut 0 tag => (.busy (.finish tag []), true)
  | .dataOut (n + 1) tag => (.dataOut (n + 1) tag, false)

/-- The plan of a command put into effect on drive `k` (R280). -/
def startPlan (P : Params) (ch : Nat) (k : Fin 2) (plan : Plan) (s : State) : State :=
  let t := modDrive ch k (fun d => { d with phase := (planPhase plan).1 }) s
  if (planPhase plan).2 then armTimer P ch t else t

/-- The command handed to `AtaCommandSemantics.start`, and its plan put into effect (R280, R291). -/
def startCommand (P : Params) (ch : Nat) (k : Fin 2) (b : Byte) (s : State) : State :=
  let d := driveOf (chan s ch) k
  let r := P.ataStart s.world b (viewOf k d) (taskRegsOf d)
  startPlan P ch k r.1 { s with world := r.2 }

/-- `ATA.WR_COMMAND(b)` (R280). -/
def writeCommand (P : Params) (ch : Nat) (b : Byte) (s : State) : State :=
  let c := chan s ch
  if writeIgnored c || decide ((selectedDrive c).type = .none) then s
  else startCommand P ch c.selected b (modDrive ch c.selected clearForCommand (lowerIrq P ch s))

/-! ### Data register (R281, R282) -/

/-- The next `n` bytes of a buffer from a position, a missing byte reading 0xFF, and the position after them (R281). -/
def takeBytes : Nat → List Byte → Nat → List Byte × Nat
  | 0, _, pos => ([], pos)
  | n + 1, buffer, pos =>
    match buffer[pos]? with
    | some b => (b :: (takeBytes n buffer (pos + 1)).1, (takeBytes n buffer (pos + 1)).2)
    | none => (0xFF :: (takeBytes n buffer pos).1, (takeBytes n buffer pos).2)

/-- A drive whose transfer has reached a position: the end of the buffer ends the transfer (R281). -/
def advanceTransfer (pos : Nat) (d : Drive) : Drive :=
  if pos = d.buffer.length then { d with phase := .idle, buffer := [], bufPos := 0 } else { d with bufPos := pos }

/-- `ATA.RD_DATA(w)` (R281). -/
def readDataReg (ch : Nat) (w : Width) (s : State) : Long × State :=
  let c := chan s ch
  let d := selectedDrive c
  if d.type = .none ∨ d.phase ≠ .dataIn then (filler w, s)
  else
    let r := takeBytes (widthBytes w) d.buffer d.bufPos
    (BitVec.ofNat 32 (joinLE r.1), modDrive ch c.selected (advanceTransfer r.2) s)

/-- `ATA.WR_DATA(w, v)` (R282). -/
def writeDataReg (P : Params) (ch : Nat) (w : Width) (v : Long) (s : State) : State :=
  let c := chan s ch
  let d := selectedDrive c
  if writeIgnored c then s
  else
    match d.phase with
    | .dataOut n tag =>
      let buffer := d.buffer ++ (splitLE (widthBytes w) v.toNat).take (n - d.buffer.length)
      if buffer.length = n then
        armTimer P ch
          (modDrive ch c.selected (fun d => { d with buffer := buffer, phase := .busy (.finish tag buffer) }) s)
      else modDrive ch c.selected (fun d => { d with buffer := buffer }) s
    | _ => s

/-! ### Byte registers of the command block (R275 to R279, R289, R290) -/

/-- The parameter register a drive holds (R289). -/
def paramOf (d : Drive) : ParamReg → Byte
  | .sectorCount => d.sectorCount
  | .sectorNumber => d.sectorNumber
  | .cylLow => d.cylLow
  | .cylHigh => d.cylHigh

/-- A parameter register set (R290). -/
def setParam (o : ParamReg) (b : Byte) (d : Drive) : Drive :=
  match o with
  | .sectorCount => { d with sectorCount := b }
  | .sectorNumber => { d with sectorNumber := b }
  | .cylLow => { d with cylLow := b }
  | .cylHigh => { d with cylHigh := b }

/-- A change of both drives by a command-block write, unless it is ignored (R274, R276, R290). -/
def writeBoth (ch : Nat) (f : Drive → Drive) (s : State) : State :=
  if writeIgnored (chan s ch) then s else modChan ch (onBothDrives f) s

/-- `ATA.WR_FEATURES(b)` (R276). -/
def writeFeatures (ch : Nat) (b : Byte) (s : State) : State := writeBoth ch (fun d => { d with features := b }) s

/-- `ATA.WR_PARAM(o, b)` (R290). -/
def writeParam (ch : Nat) (o : ParamReg) (b : Byte) (s : State) : State := writeBoth ch (setParam o b) s

/-- `ATA.WR_DRVHEAD` (R277): head and addressing of both drives, then the selection. -/
def writeDrvHead (ch : Nat) (lba drv : Bool) (head : BitVec 4) (s : State) : State :=
  if writeIgnored (chan s ch) then s
  else
    (setSelectedDriveIndex ch (slotOfBool drv).val
      (modChan ch (onBothDrives fun d => { d with head := head, lba := lba }) s)).1

/-- The status byte of the selected drive (R273). -/
def channelStatus (s : State) (ch : Nat) : Byte := statusByte (chan s ch).srst (selectedDrive (chan s ch))

/-- `ATA.RD_STATUS`: the status, and the interrupt lowered (R279). -/
def readStatus (P : Params) (ch : Nat) (s : State) : Byte × State := (channelStatus s ch, lowerIrq P ch s)

/-! ### Control block (R284) -/

/-- A command in flight dropped (R284). -/
def dropCommand (d : Drive) : Drive := { d with phase := .idle, buffer := [], bufPos := 0 }

/-- The interrupt-disable bit written; setting it lowers the line (R284). -/
def writeNIEN (P : Params) (ch : Nat) (nien : Bool) (s : State) : State :=
  let t := modChan ch (fun c => { c with nIEN := nien }) s
  if nien then lowerIrq P ch t else t

/-- The software reset bit written: its rising edge drops commands, its fall resets the drives (R284). -/
def writeSRST (P : Params) (ch : Nat) (srst : Bool) (s : State) : State :=
  if srst && !(chan s ch).srst then
    modChan ch (onBothDrives dropCommand)
      (parkTimer ch (lowerIrq P ch (modChan ch (fun c => { c with srst := true }) s)))
  else if !srst && (chan s ch).srst then
    modChan ch (fun c => onBothDrives driveResetOf { c with srst := false, selected := 0 }) s
  else s

/-- `ATA.WR_DEVCTL` (R284). -/
def writeDevCtl (P : Params) (ch : Nat) (srst nien : Bool) (s : State) : State :=
  writeSRST P ch srst (writeNIEN P ch nien s)

/-! ### Dispatch (R271, R272) -/

/-- A register of the channel as its port addresses it. -/
inductive AtaPort where
  | data
  | errorFeatures
  | param (o : ParamReg)
  | drvHead
  | statusCommand
  | altStatusDevCtl
  | drvAddr
deriving DecidableEq, Repr

/-- The command-block register at an offset from `ioBase1` (R271). -/
def commandPort : Nat → Option AtaPort
  | 0 => some .data
  | 1 => some .errorFeatures
  | 2 => some (.param .sectorCount)
  | 3 => some (.param .sectorNumber)
  | 4 => some (.param .cylLow)
  | 5 => some (.param .cylHigh)
  | 6 => some .drvHead
  | 7 => some .statusCommand
  | _ => none

/-- The control-block register at an offset from `ioBase2` (R271). -/
def controlPort : Nat → Option AtaPort
  | 6 => some .altStatusDevCtl
  | 7 => some .drvAddr
  | _ => none

/-- Which register an address is, the command block tested first (R271, R272). -/
def ataPortAt (c : Channel) (a : Half) : Option AtaPort :=
  match commandPort (a - c.ioBase1).toNat with
  | some p => some p
  | none => controlPort (a - c.ioBase2).toNat

/-- `ATA(ch).portRead(a, w)` (R271). -/
def ataPortRead (P : Params) (ch : Nat) (a : Half) (w : Width) (s : State) : Long × State :=
  match ataPortAt (chan s ch) a with
  | some .data => readDataReg ch w s
  | some .errorFeatures => (widen w (selectedDrive (chan s ch)).error, s)
  | some (.param o) => (widen w (paramOf (selectedDrive (chan s ch)) o), s)
  | some .drvHead => (widen w (drvHeadByte (chan s ch)), s)
  | some .statusCommand => (widen w (readStatus P ch s).1, (readStatus P ch s).2)
  | some .altStatusDevCtl => (widen w (channelStatus s ch), s)
  | some .drvAddr => (widen w 0xFF, s)
  | none => (filler w, s)

/-- `ATA(ch).portWrite(a, w, v)` (R272). -/
def ataPortWrite (P : Params) (ch : Nat) (a : Half) (w : Width) (v : Long) (s : State) : State :=
  match ataPortAt (chan s ch) a with
  | some .data => writeDataReg P ch w v s
  | some .errorFeatures => writeFeatures ch (lowByte v) s
  | some (.param o) => writeParam ch o (lowByte v) s
  | some .drvHead => writeDrvHead ch ((lowByte v).getLsbD 6) ((lowByte v).getLsbD 4) ((lowByte v).extractLsb' 0 4) s
  | some .statusCommand => writeCommand P ch (lowByte v) s
  | some .altStatusDevCtl => writeDevCtl P ch ((lowByte v).getLsbD 2) ((lowByte v).getLsbD 1) s
  | some .drvAddr => s
  | none => s

end Sys2Proof.Machine
end

