-- ==== Sys2Proof/Machine/BusOps.lean ====
section
/-! DEFINITION. Port dispatch: one look-up per access and the owner called with the width unchanged (spec 40_iobus.md
rules R120, R122, R123), and the update callback of a device (43_clock_timer.md rule R215). -/

namespace Sys2Proof.Machine

/-- The read handler of a device (R122). A PIC port that is none of its four is handled as an external device's
(log entry 15); a channel the machine does not have has no register (R271; log entry 16). -/
def deviceRead (P : Params) (d : Device) (a : Half) (w : Width) (s : State) : Long × State :=
  match d with
  | .pic =>
    match picPortAt P a with
    | some port => (widen w (picPortRead P port s).1, (picPortRead P port s).2)
    | none => extRead P .pic a w s
  | .ata ch => if hasChannel s ch then ataPortRead P ch a w s else (filler w, s)
  | .ext n => extRead P (.ext n) a w s

/-- The write handler of a device (R123; log entries 15, 16). -/
def deviceWrite (P : Params) (d : Device) (a : Half) (w : Width) (v : Long) (s : State) : State :=
  match d with
  | .pic =>
    match picPortAt P a with
    | some port => picPortWrite P port (lowByte v) s
    | none => extWrite P .pic a w v s
  | .ata ch => if hasChannel s ch then ataPortWrite P ch a w v s else s
  | .ext n => extWrite P (.ext n) a w v s

/-- `BUS.readPort(a, w)` (R122). -/
def busRead (P : Params) (a : Half) (w : Width) (s : State) : Answer :=
  match portEntry s a with
  | none => raise (.unknownPort .R a w) (.port w (filler w)) s
  | some e =>
    if e.attr = .writeOnly then raise (.writeOnlyPort a w e.owner) (.port w (filler w)) s
    else ((deviceRead P e.owner a w s).2, .ok (.port w (clip w (deviceRead P e.owner a w s).1)))

/-- `BUS.writePort(a, w, v)`, of the `8*w` bits of v (R123). -/
def busWrite (P : Params) (a : Half) (w : Width) (v : Long) (s : State) : Answer :=
  match portEntry s a with
  | none => raise (.unknownPort .W a w) .unit s
  | some e =>
    if e.attr = .readOnly then raise (.readOnlyPort a w e.owner) .unit s
    else (deviceWrite P e.owner a w (clip w v) s, okUnit)

/-- The port value a result carries, whether it came as `ok` or with a condition (R305). -/
def portValue : Result → Long
  | .ok (.port _ v) => v
  | .cond _ (.port _ v) => v
  | _ => 0

/-- `PortRead(a, w)` as `ExecOne` is given it: the value alone (R126, R305). -/
def portRead (P : Params) (a : Half) (w : Width) (s : State) : Long × State :=
  (portValue (busRead P a w s).2, (busRead P a w s).1)

/-- `PortWrite(a, w, v)` as `ExecOne` is given it: the result discarded (R126, R305). -/
def portWrite (P : Params) (a : Half) (w : Width) (v : Long) (s : State) : State := (busWrite P a w v s).1

/-- `update(d)`; a channel the machine does not have has nothing to update (R12, R215; log entry 16). -/
def updateDevice (P : Params) (d : Device) (s : State) : State :=
  match d with
  | .ata ch => if hasChannel s ch then ataUpdate P ch s else s
  | .pic => extUpdate P .pic s
  | .ext n => extUpdate P (.ext n) s

end Sys2Proof.Machine
end

