-- ==== Sys2Proof/Machine/Pulse.lean ====
section
/-! DEFINITION. `CLK.pulse` (spec 43_clock_timer.md rule R214): the slots in ascending order, each test read from the
live table, the callback first, then the re-arm or the deactivation. -/

namespace Sys2Proof.Machine

/-- A slot after its callback: re-armed if continuous, else made inactive (R214). -/
def rearm (t : Timer) : Timer := if t.continuous then { t with countdown := t.interval } else { t with active := false }

/-- One slot visited by a pulse (R214). -/
def pulseSlot (P : Params) (i : Nat) (s : State) : State :=
  match s.clk.timers[i]? with
  | none => s
  | some t =>
    if !t.active then s
    else
      let u := modTimer i (fun t => { t with countdown := t.countdown - 1 }) s
      if t.countdown - 1 = 0 then modTimer i rearm (updateDevice P t.owner u) else u

/-- `CLK.pulse()` (R214). -/
def pulse (P : Params) (s : State) : State := (List.range P.maxTimers).foldl (fun s i => pulseSlot P i s) s

/-- `n` pulses (R118, R301). -/
def pulses (P : Params) : Nat → State → State
  | 0, s => s
  | n + 1, s => pulses P n (pulse P s)

end Sys2Proof.Machine
end

