-- ==== Sys2Proof/Machine/CpuOps.lean ====
section
/-! DEFINITION. The CPU loop: one boundary and at most one instruction (spec 46_cpu_loop.md rule R301), the guest's
instruction as the parameter `ExecOne` (R304, R305), and the register-access contract (R310, R311). -/

namespace Sys2Proof.Machine

/-- The accesses of one instruction performed in its order, then its registers written (R304, R305). A condition raised on
the way, a device's or the Clock's too, is only in the log (R361 (c); log entry 32). -/
def runGuest (P : Params) : Guest → State → State
  | .done x, s => setRegs x s
  | .memRead addr n k, s => runGuest P (k (memRead P addr n s).1) (memRead P addr n s).2
  | .memWrite addr n v k, s => runGuest P k (memWrite P addr n v s)
  | .portRead a w k, s => runGuest P (k (portRead P a w s).1) (portRead P a w s).2
  | .portWrite a w v k, s => runGuest P k (portWrite P a w v s)

/-- The fetch address (R53). -/
def fetchAddress (x : Regs) : Nat := linear x.cs x.ip

/-- B4: the instruction at the fetch address, fetched and executed (R301, R304; log entry 9). -/
def execInstruction (P : Params) (s : State) : State :=
  let f := readByte P (fetchAddress s.cpu.x) s
  runGuest P (P.execOne s.cpu.x f.1) f.2

/-- B2: the queued real-time pulses (R301). -/
def drainPulses (P : Params) (s : State) : State :=
  if P.pulseSource = .realTime then
    pulses P s.clk.pendingRtPulses { s with clk := { s.clk with pendingRtPulses := 0 } }
  else s

/-- The CPU takes an interrupt at this boundary: pending and unmasked in the PIC, and not masked by the CPU (R303). -/
def interruptDue (s : State) : Bool := intReq s.picM && interruptsEnabled s.cpu.x

/-- B3: the interrupt taken at this boundary, if any (R301, R303). -/
def pollInterrupt (P : Params) (s : State) : State × Option Byte :=
  if interruptDue s then (interruptEntry P (acknowledge P s).1 (acknowledge P s).2, some (acknowledge P s).1)
  else (s, none)

/-- B5: the instruction counted (R55, R301). -/
def countInstruction (s : State) : State :=
  { s with cpu := { s.cpu with instrCounter := s.cpu.instrCounter + 1 } }

/-- B6: the instruction-count pulse, if it is due (R301, R308). -/
def instructionPulse (P : Params) (s : State) : State :=
  if P.pulseSource = .instructionCount ∧ pulseDue (quantum s) s.cpu.instrCounter = true then pulse P s else s

/-- `CPU.step()` (R301): run flag, hold, queued pulses, interrupt, instruction, counter, pulse. -/
def cpuStep (P : Params) (s : State) : Answer :=
  if !s.cpu.running then (s, .ok .stopped)
  else if s.cpu.holdSet ≠ [] then (s, .ok .stalled)
  else
    let polled := pollInterrupt P (drainPulses P s)
    (instructionPulse P (countInstruction (execInstruction P polled.1)), .ok (.executed polled.2))

/-- `CPU.getRegister(name)` (R310). -/
def getRegister (name : List Byte) (s : State) : Answer :=
  match regOfName name with
  | none => raise (.unknownRegister name) (.bytes []) s
  | some r => (s, .ok (.bytes (regBytes (regGet s.cpu.x r))))

/-- `CPU.setRegister(name, bytes)`: the name test comes first (R311, R366). -/
def setRegister (P : Params) (name bytes : List Byte) (s : State) : Answer :=
  match regOfName name with
  | none => raise (.unknownRegister name) .unit s
  | some r =>
    if P.readOnlyRegs.contains r || bytes.length != regWidth r then raise (.writeDisallowed name) .unit s
    else (setRegs (regSet s.cpu.x r (regOfBytes bytes)) s, okUnit)

/-- The run flag written (R312, R313). -/
def setRunning (on : Bool) (s : State) : State := { s with cpu := { s.cpu with running := on } }

/-- `CPU.reset()` (R60, R314). -/
def cpuReset (s : State) : State := { s with cpu := { s.cpu with x := resetRegs, instrCounter := 0, holdSet := [] } }

end Sys2Proof.Machine
end

