-- ==== Sys2Proof/Machine/ModuleOps.lean ====
section
/-! DEFINITION. The module lifecycle contract and the ROM store (spec 47_lifecycle_rom.md), and the reset of the whole
block (70_reset_and_hazards.md rule R401). -/

namespace Sys2Proof.Machine

/-- `MOD.reset(m)` (R341, R346); of a channel the machine does not have it is a failure (log entry 16). -/
def moduleReset (P : Params) (m : Module) (s : State) : Answer :=
  match m with
  | .bus => (s, success)
  | .pic => (picReset P s, success)
  | .clk => (s, success)
  | .ata ch => if hasChannel s ch then ataReset P ch s else (s, .failed)
  | .cpu => (cpuReset s, success)
  | .ext n => extReset P (.ext n) s

/-- The Clock's run state written (R42, R222). -/
def setClockRunning (on : Bool) (s : State) : State := { s with clk := { s.clk with running := on } }

/-- `MOD.start(m)` (R342, R346). -/
def moduleStart (P : Params) (m : Module) (s : State) : State :=
  match m with
  | .bus => s
  | .pic => s
  | .clk => setClockRunning true s
  | .ata _ => s
  | .cpu => setRunning true s
  | .ext n => extStart P (.ext n) s

/-- `MOD.stop(m)` (R343, R346; an external device by R340, log entry 22). -/
def moduleStop (P : Params) (m : Module) (s : State) : State :=
  match m with
  | .bus => s
  | .pic => s
  | .clk => setClockRunning false s
  | .ata _ => s
  | .cpu => setRunning false s
  | .ext n => extStop P (.ext n) s

/-- The fields of a module that its dump may show (R344). -/
def moduleView (m : Module) (s : State) : ModuleView :=
  match m with
  | .bus => .bus s.bus
  | .pic => .pic s.picM s.picS s.irqOwner
  | .clk => .clk s.clk
  | .ata ch => if hasChannel s ch then .ata (chan s ch) else .ext (.ata ch) s.world
  | .cpu => .cpu s.cpu
  | .ext n => .ext (.ext n) s.world

/-- `MOD.isConnected(m)`: true of every component of the block; of an external device as the machine was built
(R345; log entry 21). -/
def moduleConnected (P : Params) (m : Module) (s : State) : Bool :=
  match m with
  | .bus => true
  | .pic => true
  | .clk => true
  | .cpu => true
  | .ata ch => hasChannel s ch || P.connected (.ata ch)
  | .ext n => P.connected (.ext n)

/-- The modules reset in turn, a failure of one not stopping the others, and whether all succeeded (R401). -/
def resetModules (P : Params) : List Module → State → State × Bool
  | [], s => (s, true)
  | m :: rest, s =>
    let r := moduleReset P m s
    let more := resetModules P rest r.1
    (more.1, decide (r.2 = success) && more.2)

/-- `MACHINE.reset` in the order `RESET_ORDER` (R118, R401). -/
def machineReset (P : Params) (s : State) : Answer :=
  let r := resetModules P P.resetOrder s
  (r.1, if r.2 then success else .failed)

/-- `ROM.setSystemBIOS(bytes)` (R350). -/
def setSystemBIOS (P : Params) (bytes : List Byte) (s : State) : Answer :=
  if bytes.length ≠ P.biosSize then fail (.romSizeMismatch bytes.length) s
  else ({ s with rom := some bytes }, success)

/-- `ROM.readSystemBIOS()`: the whole image, or the empty list if unset (R351). -/
def readSystemBIOS (s : State) : Answer := (s, .ok (.bytes (s.rom.getD [])))

end Sys2Proof.Machine
end

