-- ==== Sys2Proof/Machine/Ata.lean ====
section
/-! DEFINITION. The meanings of the ATA channel's CALL operations (spec 44_ata.md rules R241 to R248, 45_ata_taskfile.md
rule R286). An operation naming a channel the machine does not have changes nothing (R115; log entry 16). -/

namespace Sys2Proof.Machine

open Sys2Proof.Config (params)

/-- `ATA.reset`; of a channel the machine does not have it is a failure (R115, R241; log entry 16). -/
def execAtaReset (ch : Nat) (s : State) : Host.Outcome State Fault Refusal :=
  onChannel ch s .failed (ataReset params ch s)

/-- `ATA.setSelectedDriveIndex` (R245). -/
def execAtaSetSelectedDriveIndex (ch k : Nat) (s : State) : Host.Outcome State Fault Refusal :=
  reply (setSelectedDriveIndex ch k s)

/-- `ATA.insert` (R247). -/
def execAtaInsert (sel : DriveSel) (carrier : Carrier) (image : Nat) (writeProtected : Bool) (s : State) :
    Host.Outcome State Fault Refusal :=
  reply (ataInsert params sel carrier image writeProtected s)

/-- `ATA.eject` (R248). -/
def execAtaEject (sel : DriveSel) (s : State) : Host.Outcome State Fault Refusal := reply (ataEject params sel s)

/-- `ATA.update` (R286). -/
def execAtaUpdate (ch : Nat) (s : State) : Host.Outcome State Fault Refusal :=
  onChannel ch s okUnit (ataUpdate params ch s, okUnit)

end Sys2Proof.Machine
end

