-- ==== Sys2Proof/Machine/AtaTaskFile.lean ====
section
/-! DEFINITION. The meanings of the task-register accesses of one ATA channel (spec 45_ata_taskfile.md rules R275 to
R290). An access naming a channel the machine does not have matches no register of R271 or R272: a
read answers all ones, a write is ignored (log entry 16). -/

namespace Sys2Proof.Machine

open Sys2Proof.Config (params)

/-- `ATA.RD_DATA` (R281). -/
def execAtaRdData (ch : Nat) (w : Width) (s : State) : Host.Outcome State Fault Refusal :=
  onChannel ch s (.ok (.port w (filler w))) ((readDataReg ch w s).2, .ok (.port w (readDataReg ch w s).1))

/-- `ATA.WR_DATA`, of the `8*w` bits of the value (R282). -/
def execAtaWrData (ch : Nat) (w : Width) (v : Long) (s : State) : Host.Outcome State Fault Refusal :=
  onChannel ch s okUnit (writeDataReg params ch w (clip w v) s, okUnit)

/-- `ATA.RD_ERROR` (R275). -/
def execAtaRdError (ch : Nat) (s : State) : Host.Outcome State Fault Refusal :=
  onChannel ch s (portByte 0xFF) (s, portByte (selectedDrive (chan s ch)).error)

/-- `ATA.WR_FEATURES` (R276). -/
def execAtaWrFeatures (ch : Nat) (b : Byte) (s : State) : Host.Outcome State Fault Refusal :=
  onChannel ch s okUnit (writeFeatures ch b s, okUnit)

/-- `ATA.RD_PARAM` (R289). -/
def execAtaRdParam (ch : Nat) (o : ParamReg) (s : State) : Host.Outcome State Fault Refusal :=
  onChannel ch s (portByte 0xFF) (s, portByte (paramOf (selectedDrive (chan s ch)) o))

/-- `ATA.WR_PARAM` (R290). -/
def execAtaWrParam (ch : Nat) (o : ParamReg) (b : Byte) (s : State) : Host.Outcome State Fault Refusal :=
  onChannel ch s okUnit (writeParam ch o b s, okUnit)

/-- `ATA.RD_DRVHEAD` (R278). -/
def execAtaRdDrvHead (ch : Nat) (s : State) : Host.Outcome State Fault Refusal :=
  onChannel ch s (portByte 0xFF) (s, portByte (drvHeadByte (chan s ch)))

/-- `ATA.WR_DRVHEAD` (R277). -/
def execAtaWrDrvHead (ch : Nat) (lba drv : Bool) (head : BitVec 4) (s : State) : Host.Outcome State Fault Refusal :=
  onChannel ch s okUnit (writeDrvHead ch lba drv head s, okUnit)

/-- `ATA.RD_STATUS` (R279). -/
def execAtaRdStatus (ch : Nat) (s : State) : Host.Outcome State Fault Refusal :=
  onChannel ch s (portByte 0xFF) ((readStatus params ch s).2, portByte (readStatus params ch s).1)

/-- `ATA.WR_COMMAND` (R280). -/
def execAtaWrCommand (ch : Nat) (b : Byte) (s : State) : Host.Outcome State Fault Refusal :=
  onChannel ch s okUnit (writeCommand params ch b s, okUnit)

/-- `ATA.RD_ALTSTATUS` (R283). -/
def execAtaRdAltStatus (ch : Nat) (s : State) : Host.Outcome State Fault Refusal :=
  onChannel ch s (portByte 0xFF) (s, portByte (channelStatus s ch))

/-- `ATA.WR_DEVCTL` (R284). -/
def execAtaWrDevCtl (ch : Nat) (srst nien : Bool) (s : State) : Host.Outcome State Fault Refusal :=
  onChannel ch s okUnit (writeDevCtl params ch srst nien s, okUnit)

/-- `ATA.RD_DRVADDR` (R285). -/
def execAtaRdDrvAddr (ch : Nat) (s : State) : Host.Outcome State Fault Refusal :=
  onChannel ch s (portByte 0xFF) (s, portByte 0xFF)

/-- `ATA.WR_DRVADDR`: the byte is ignored (R288). -/
def execAtaWrDrvAddr (ch : Nat) (_b : Byte) (s : State) : Host.Outcome State Fault Refusal :=
  onChannel ch s okUnit (s, okUnit)

end Sys2Proof.Machine
end

