-- ==== Sys2Proof/Machine/Bus.lean ====
section
/-! DEFINITION. The meanings of the I/O Bus operations (spec 40_iobus.md rules R121 to R123). -/

namespace Sys2Proof.Machine

open Sys2Proof.Config (params)

/-- `BUS.registerPort` (R121). -/
def execBusRegisterPort (a : Half) (d : Device) (attr : Attr) (s : State) : Host.Outcome State Fault Refusal :=
  reply (registerPort a d attr s, okUnit)

/-- `BUS.readPort` (R122). -/
def execBusReadPort (a : Half) (w : Width) (s : State) : Host.Outcome State Fault Refusal :=
  reply (busRead params a w s)

/-- `BUS.writePort` (R123). -/
def execBusWritePort (a : Half) (w : Width) (v : Long) (s : State) : Host.Outcome State Fault Refusal :=
  reply (busWrite params a w v s)

end Sys2Proof.Machine
end

