-- ==== Sys2Proof/Machine/Clock.lean ====
section
/-! DEFINITION. The meanings of the Clock's operations (spec 43_clock_timer.md rules R213 to R219). -/

namespace Sys2Proof.Machine

open Sys2Proof.Config (params)

/-- `CLK.registerDevice` (R213). -/
def execClkRegisterDevice (d : Device) (us : Nat) (continuous : Bool) (s : State) : Host.Outcome State Fault Refusal :=
  reply (registerDevice params d us continuous s)

/-- `CLK.pulse` (R214). -/
def execClkPulse (s : State) : Host.Outcome State Fault Refusal := reply (pulse params s, okUnit)

/-- `CLK.resetTimer` (R216). -/
def execClkResetTimer (d : Device) (us : Nat) (s : State) : Host.Outcome State Fault Refusal :=
  reply (resetTimer params d us s)

/-- `CLK.setTimerActiveState` (R217). -/
def execClkSetTimerActiveState (d : Device) (active : Bool) (s : State) : Host.Outcome State Fault Refusal :=
  reply (setTimerActiveState d active s)

/-- `CLK.signalPulse` (R219). -/
def execClkSignalPulse (s : State) : Host.Outcome State Fault Refusal := reply (signalPulse params s, okUnit)

end Sys2Proof.Machine
end

