-- ==== Sys2Proof/Machine/CpuLoop.lean ====
section
/-! DEFINITION. The meanings of the CPU loop's operations (spec 46_cpu_loop.md rules R301 to R314). -/

namespace Sys2Proof.Machine

open Sys2Proof.Config (params)

/-- `CPU.step` (R301). -/
def execCpuStep (s : State) : Host.Outcome State Fault Refusal := reply (cpuStep params s)

/-- `CPU.getRegister` (R310). -/
def execCpuGetRegister (name : List Byte) (s : State) : Host.Outcome State Fault Refusal := reply (getRegister name s)

/-- `CPU.setRegister` (R311). -/
def execCpuSetRegister (name bytes : List Byte) (s : State) : Host.Outcome State Fault Refusal :=
  reply (setRegister params name bytes s)

/-- `CPU.setHoldRequest` (R309). -/
def execCpuSetHoldRequest (d : Device) (on : Bool) (s : State) : Host.Outcome State Fault Refusal :=
  reply (setHold d on s, okUnit)

/-- `CPU.start` (R312). -/
def execCpuStart (s : State) : Host.Outcome State Fault Refusal := reply (setRunning true s, okUnit)

/-- `CPU.stop` (R313). -/
def execCpuStop (s : State) : Host.Outcome State Fault Refusal := reply (setRunning false s, okUnit)

/-- `CPU.reset` (R314). -/
def execCpuReset (s : State) : Host.Outcome State Fault Refusal := reply (cpuReset s, success)

end Sys2Proof.Machine
end

