-- ==== Sys2Proof/Machine/Lifecycle.lean ====
section
/-! DEFINITION. The meanings of the lifecycle and ROM operations (spec 47_lifecycle_rom.md). -/

namespace Sys2Proof.Machine

open Sys2Proof.Config (params)

/-- `MOD.reset` (R341). -/
def execModReset (m : Module) (s : State) : Host.Outcome State Fault Refusal := reply (moduleReset params m s)

/-- `MOD.start` (R342). -/
def execModStart (m : Module) (s : State) : Host.Outcome State Fault Refusal := reply (moduleStart params m s, okUnit)

/-- `MOD.stop` (R343). -/
def execModStop (m : Module) (s : State) : Host.Outcome State Fault Refusal := reply (moduleStop params m s, okUnit)

/-- `MOD.getDump` (R344). -/
def execModGetDump (m : Module) (s : State) : Host.Outcome State Fault Refusal :=
  reply (s, .ok (.text (Config.dumpText (moduleView m s))))

/-- `MOD.isConnected` (R345). -/
def execModIsConnected (m : Module) (s : State) : Host.Outcome State Fault Refusal :=
  reply (s, .ok (.bool (moduleConnected params m s)))

/-- `ROM.setSystemBIOS` (R350). -/
def execRomSetSystemBIOS (bytes : List Byte) (s : State) : Host.Outcome State Fault Refusal :=
  reply (setSystemBIOS params bytes s)

/-- `ROM.readSystemBIOS` (R351). -/
def execRomReadSystemBIOS (s : State) : Host.Outcome State Fault Refusal := reply (readSystemBIOS s)

end Sys2Proof.Machine
end

