-- ==== Sys2Proof/Machine/Pic.lean ====
section
/-! DEFINITION. The meanings of the CALL operations of the interrupt controller pair (spec 41_pic.md rules R141 to
R154). -/

namespace Sys2Proof.Machine

open Sys2Proof.Config (params)

/-- `PIC.assertIRQ` (R141). -/
def execPicAssertIRQ (n : Nat) (s : State) : Host.Outcome State Fault Refusal := reply (assertIRQ params n s)

/-- `PIC.clearIRQ` (R142). -/
def execPicClearIRQ (n : Nat) (s : State) : Host.Outcome State Fault Refusal := reply (clearIRQ params n s)

/-- `PIC.acknowledgeHighestPriority` (R147). -/
def execPicAcknowledge (s : State) : Host.Outcome State Fault Refusal :=
  reply ((acknowledge params s).2, .ok (.vector (acknowledge params s).1))

/-- `PIC.endOfInterrupt` (R150). -/
def execPicEndOfInterrupt (c : Ctrl) (line : Option (Fin 8)) (rotate : Bool) (s : State) :
    Host.Outcome State Fault Refusal :=
  reply (endOfInterrupt params c line rotate s, okUnit)

/-- `PIC.requestIRQNumber` (R152). -/
def execPicRequestIRQNumber (caller : Device) (s : State) : Host.Outcome State Fault Refusal :=
  reply (requestIRQNumber params caller s)

/-- `PIC.freeIRQNumber` (R153). -/
def execPicFreeIRQNumber (caller : Device) (s : State) : Host.Outcome State Fault Refusal :=
  reply (freeIRQNumber params caller s, okUnit)

/-- `PIC.reset` (R154). -/
def execPicReset (s : State) : Host.Outcome State Fault Refusal := reply (picReset params s, success)

end Sys2Proof.Machine
end

