-- ==== Sys2Proof/Machine/PicPorts.lean ====
section
/-! DEFINITION. The meanings of the port-level commands and reads of one controller (spec 42_pic_ports.md). A write row
is a port write on the row's port (R182), so a data-port byte is taken by the controller's `initState` whichever row
names it (log entry 14). -/

namespace Sys2Proof.Machine

open Sys2Proof.Config (params)

/-- `PIC.ICW1` (R184). -/
def execPicICW1 (c : Ctrl) (ltim sngl ic4 : Bool) (s : State) : Host.Outcome State Fault Refusal :=
  reply (picCommand params c (applyICW1 ltim sngl ic4) s, okUnit)

/-- `PIC.ICW2`, a byte to the data port (R186). -/
def execPicICW2 (c : Ctrl) (b : Byte) (s : State) : Host.Outcome State Fault Refusal :=
  reply (writeData params c b s, okUnit)

/-- `PIC.ICW3`, a byte to the data port (R187). -/
def execPicICW3 (c : Ctrl) (b : Byte) (s : State) : Host.Outcome State Fault Refusal :=
  reply (writeData params c b s, okUnit)

/-- `PIC.ICW4`, a byte to the data port (R188). -/
def execPicICW4 (c : Ctrl) (b : Byte) (s : State) : Host.Outcome State Fault Refusal :=
  reply (writeData params c b s, okUnit)

/-- `PIC.OCW1`, a byte to the data port (R190). -/
def execPicOCW1 (c : Ctrl) (b : Byte) (s : State) : Host.Outcome State Fault Refusal :=
  reply (writeData params c b s, okUnit)

/-- `PIC.OCW2.EOI` (R191). -/
def execPicOCW2EOI (c : Ctrl) (r sl : Bool) (l : Fin 8) (s : State) : Host.Outcome State Fault Refusal :=
  reply (ocw2End params c r sl l s, okUnit)

/-- `PIC.OCW2.ROTAUTO_SET` (R199). -/
def execPicOCW2RotAutoSet (c : Ctrl) (s : State) : Host.Outcome State Fault Refusal :=
  reply (picCommand params c (setRotateOnAutoEOI true) s, okUnit)

/-- `PIC.OCW2.ROTAUTO_CLR` (R200). -/
def execPicOCW2RotAutoClr (c : Ctrl) (s : State) : Host.Outcome State Fault Refusal :=
  reply (picCommand params c (setRotateOnAutoEOI false) s, okUnit)

/-- `PIC.OCW2.SETPRIO` (R201). -/
def execPicOCW2SetPrio (c : Ctrl) (l : Fin 8) (s : State) : Host.Outcome State Fault Refusal :=
  reply (picCommand params c (setLowestPriority l) s, okUnit)

/-- `PIC.OCW2.NOP`: the line is ignored (R202). -/
def execPicOCW2Nop (c : Ctrl) (_l : Fin 8) (s : State) : Host.Outcome State Fault Refusal :=
  reply (picCommand params c id s, okUnit)

/-- `PIC.OCW3` (R193). -/
def execPicOCW3 (c : Ctrl) (esmm smm p rr ris : Bool) (s : State) : Host.Outcome State Fault Refusal :=
  reply (picCommand params c (applyOCW3 esmm smm p rr ris) s, okUnit)

/-- `PIC.RD_CMD` (R194, R196). -/
def execPicRdCmd (c : Ctrl) (s : State) : Host.Outcome State Fault Refusal :=
  reply ((readCmd params c s).2, portByte (readCmd params c s).1)

/-- `PIC.RD_DATA` (R195, R196). -/
def execPicRdData (c : Ctrl) (s : State) : Host.Outcome State Fault Refusal :=
  reply ((readData params c s).2, portByte (readData params c s).1)

end Sys2Proof.Machine
end

