-- ==== Sys2Proof/Machine/Dispatch.lean ====
section
/-! DEFINITION. The meaning of each operation: one arm per row of spec/opcode_table.json (rule R112). -/

namespace Sys2Proof.Machine

def exec (i : Instr) (s : State) : Host.Outcome State Fault Refusal :=
  match i with
  | .busRegisterPort a d attr => Sys2Proof.Machine.execBusRegisterPort a d attr s
  | .busReadPort a w => Sys2Proof.Machine.execBusReadPort a w s
  | .busWritePort a w v => Sys2Proof.Machine.execBusWritePort a w v s
  | .picAssertIRQ n => Sys2Proof.Machine.execPicAssertIRQ n s
  | .picClearIRQ n => Sys2Proof.Machine.execPicClearIRQ n s
  | .picAcknowledge => Sys2Proof.Machine.execPicAcknowledge s
  | .picEndOfInterrupt c line rotate => Sys2Proof.Machine.execPicEndOfInterrupt c line rotate s
  | .picRequestIRQNumber caller => Sys2Proof.Machine.execPicRequestIRQNumber caller s
  | .picFreeIRQNumber caller => Sys2Proof.Machine.execPicFreeIRQNumber caller s
  | .picReset => Sys2Proof.Machine.execPicReset s
  | .picICW1 c ltim sngl ic4 => Sys2Proof.Machine.execPicICW1 c ltim sngl ic4 s
  | .picICW2 c b => Sys2Proof.Machine.execPicICW2 c b s
  | .picICW3 c b => Sys2Proof.Machine.execPicICW3 c b s
  | .picICW4 c b => Sys2Proof.Machine.execPicICW4 c b s
  | .picOCW1 c b => Sys2Proof.Machine.execPicOCW1 c b s
  | .picOCW2EOI c r sl l => Sys2Proof.Machine.execPicOCW2EOI c r sl l s
  | .picOCW2RotAutoSet c => Sys2Proof.Machine.execPicOCW2RotAutoSet c s
  | .picOCW2RotAutoClr c => Sys2Proof.Machine.execPicOCW2RotAutoClr c s
  | .picOCW2SetPrio c l => Sys2Proof.Machine.execPicOCW2SetPrio c l s
  | .picOCW2Nop c l => Sys2Proof.Machine.execPicOCW2Nop c l s
  | .picOCW3 c esmm smm p rr ris => Sys2Proof.Machine.execPicOCW3 c esmm smm p rr ris s
  | .picRdCmd c => Sys2Proof.Machine.execPicRdCmd c s
  | .picRdData c => Sys2Proof.Machine.execPicRdData c s
  | .clkRegisterDevice d us continuous => Sys2Proof.Machine.execClkRegisterDevice d us continuous s
  | .clkPulse => Sys2Proof.Machine.execClkPulse s
  | .clkResetTimer d us => Sys2Proof.Machine.execClkResetTimer d us s
  | .clkSetTimerActiveState d active => Sys2Proof.Machine.execClkSetTimerActiveState d active s
  | .clkSignalPulse => Sys2Proof.Machine.execClkSignalPulse s
  | .ataReset ch => Sys2Proof.Machine.execAtaReset ch s
  | .ataSetSelectedDriveIndex ch k => Sys2Proof.Machine.execAtaSetSelectedDriveIndex ch k s
  | .ataInsert sel carrier image writeProtected => Sys2Proof.Machine.execAtaInsert sel carrier image writeProtected s
  | .ataEject sel => Sys2Proof.Machine.execAtaEject sel s
  | .ataUpdate ch => Sys2Proof.Machine.execAtaUpdate ch s
  | .ataRdData ch w => Sys2Proof.Machine.execAtaRdData ch w s
  | .ataWrData ch w v => Sys2Proof.Machine.execAtaWrData ch w v s
  | .ataRdError ch => Sys2Proof.Machine.execAtaRdError ch s
  | .ataWrFeatures ch b => Sys2Proof.Machine.execAtaWrFeatures ch b s
  | .ataRdParam ch o => Sys2Proof.Machine.execAtaRdParam ch o s
  | .ataWrParam ch o b => Sys2Proof.Machine.execAtaWrParam ch o b s
  | .ataRdDrvHead ch => Sys2Proof.Machine.execAtaRdDrvHead ch s
  | .ataWrDrvHead ch lba drv head => Sys2Proof.Machine.execAtaWrDrvHead ch lba drv head s
  | .ataRdStatus ch => Sys2Proof.Machine.execAtaRdStatus ch s
  | .ataWrCommand ch b => Sys2Proof.Machine.execAtaWrCommand ch b s
  | .ataRdAltStatus ch => Sys2Proof.Machine.execAtaRdAltStatus ch s
  | .ataWrDevCtl ch srst nien => Sys2Proof.Machine.execAtaWrDevCtl ch srst nien s
  | .ataRdDrvAddr ch => Sys2Proof.Machine.execAtaRdDrvAddr ch s
  | .ataWrDrvAddr ch b => Sys2Proof.Machine.execAtaWrDrvAddr ch b s
  | .cpuStep => Sys2Proof.Machine.execCpuStep s
  | .cpuGetRegister name => Sys2Proof.Machine.execCpuGetRegister name s
  | .cpuSetRegister name bytes => Sys2Proof.Machine.execCpuSetRegister name bytes s
  | .cpuSetHoldRequest d on => Sys2Proof.Machine.execCpuSetHoldRequest d on s
  | .cpuStart => Sys2Proof.Machine.execCpuStart s
  | .cpuStop => Sys2Proof.Machine.execCpuStop s
  | .cpuReset => Sys2Proof.Machine.execCpuReset s
  | .modReset m => Sys2Proof.Machine.execModReset m s
  | .modStart m => Sys2Proof.Machine.execModStart m s
  | .modStop m => Sys2Proof.Machine.execModStop m s
  | .modGetDump m => Sys2Proof.Machine.execModGetDump m s
  | .modIsConnected m => Sys2Proof.Machine.execModIsConnected m s
  | .romSetSystemBIOS bytes => Sys2Proof.Machine.execRomSetSystemBIOS bytes s
  | .romReadSystemBIOS => Sys2Proof.Machine.execRomReadSystemBIOS s

end Sys2Proof.Machine
end

