-- ==== Sys2Proof/Machine/Fetch.lean ====
section
/-! DEFINITION. Which operation the machine performs next. The agents' operations form one total order (spec
20_memory.md rule R85); `inbox` holds the ones issued and not yet performed, as packets. With none waiting the host's
run loop calls `CPU.step` (46_cpu_loop.md rule R316; log entry 3). -/

namespace Sys2Proof.Machine

/-- The next operation, and the state with its packet taken. -/
def fetchOperation (s : State) : Except DecodeError (Instr × State) :=
  match s.inbox with
  | [] => .ok (.cpuStep, s)
  | p :: rest =>
    match decode p with
    | .ok i => .ok (i, { s with inbox := rest })
    | .error e => .error e

/-- A packet put where the next operation is taken from. -/
def putPacket (p : List Byte) (s : State) : State := { s with inbox := p :: s.inbox }

end Sys2Proof.Machine
end

