-- ==== Sys2Proof/Machine/Step.lean ====
section
/-! DEFINITION. One step of the machine: the next operation, performed to completion (spec 20_memory.md rules R80,
R85). -/

namespace Sys2Proof.Machine

/-- One step: the operation `fetchOperation` gives, on the state without its packet. -/
def step (s : State) : Host.Outcome State Fault Refusal :=
  match fetchOperation s with
  | .ok (i, t) => exec i t
  | .error e => .refused (.undecodable e)

/-- The state in which the next step performs the operation of a table word (log entry 3). -/
def State.withFetchWord (s : State) (nbits w : Nat) : State := putPacket (wordPacket nbits w) s

end Sys2Proof.Machine
end

