-- ==== Sys2Proof/Machine/Pseudo.lean ====
section
/-! DEFINITION. The pseudo-operations of spec 30_encoding.md rule R118, each as the operations it expands into, and the
performance of a list of operations in order (20_memory.md rule R85). No operation of the machine calls them. -/

namespace Sys2Proof.Machine

/-- A byte written to a port. -/
def outByte (a : Half) (b : Byte) : Instr := .busWritePort a .byte (b.setWidth 32)

/-- A byte read from a port. -/
def inByte (a : Half) : Instr := .busReadPort a .byte

/-- `PIC_PORT_CMD[c]` (R180). -/
def cmdPort (P : Params) : Ctrl → Half
  | .M => P.picPortCmdM
  | .S => P.picPortCmdS

/-- `PIC_PORT_DATA[c]` (R180). -/
def dataPort (P : Params) : Ctrl → Half
  | .M => P.picPortDataM
  | .S => P.picPortDataS

/-- `PIC.init(c, icw1, icw2, icw3, icw4)` (R118). -/
def pseudoPicInit (P : Params) (c : Ctrl) (icw1 icw2 icw3 icw4 : Byte) : List Instr :=
  [outByte (cmdPort P c) icw1, outByte (dataPort P c) icw2] ++
    (if icw1.getLsbD 1 then [] else [outByte (dataPort P c) icw3]) ++
    (if icw1.getLsbD 0 then [outByte (dataPort P c) icw4] else [])

/-- `PIC.setMask(c, m)` (R118). -/
def pseudoPicSetMask (P : Params) (c : Ctrl) (m : Byte) : List Instr := [outByte (dataPort P c) m]

/-- `PIC.eoi(c)` and `PIC.eoi(c, l)` (R118). -/
def pseudoPicEoi (P : Params) (c : Ctrl) (line : Option (Fin 8)) : List Instr :=
  match line with
  | none => [outByte (cmdPort P c) 0x20]
  | some l => [outByte (cmdPort P c) (0x60 + BitVec.ofNat 8 l.val)]

/-- `PIC.readISR(c)` (R118). -/
def pseudoPicReadISR (P : Params) (c : Ctrl) : List Instr := [outByte (cmdPort P c) 0x0B, inByte (cmdPort P c)]

/-- `PIC.readIRR(c)` (R118). -/
def pseudoPicReadIRR (P : Params) (c : Ctrl) : List Instr := [outByte (cmdPort P c) 0x0A, inByte (cmdPort P c)]

/-- `ATA.select(ch, k)`, at the channel's present base (R118). -/
def pseudoAtaSelect (s : State) (ch : Nat) (k : Fin 2) : List Instr :=
  [outByte ((chan s ch).ioBase1 + 6) (0xA0 + 16 * BitVec.ofNat 8 k.val)]

/-- `MACHINE.reset` (R118, R401). -/
def pseudoMachineReset (P : Params) : List Instr := P.resetOrder.map .modReset

/-- `CLK.pulses(n)` (R118). -/
def pseudoClkPulses (n : Nat) : List Instr := List.replicate n .clkPulse

/-- Operations performed in order; the first that faults or is refused ends the sequence. -/
def performAll : List Instr → State → Host.Outcome State Fault Refusal
  | [], s => .next s
  | i :: rest, s =>
    match exec i s with
    | .next t => performAll rest t
    | .fault f => .fault f
    | .refused r => .refused r

end Sys2Proof.Machine
end

