-- ==== Sys2Proof/Safety.lean ====
section
/-! DEFINITION. What claims about the machine speak of: which agent may invoke which operation (spec 60_exceptions.md
rule R390), the invariants of the state (10_state.md rules R33, R34, R40, R45, R62; 44_ata.md rule R251; 45_ata_taskfile.md rule R287), and
the canonical forms of the model's own data. -/

namespace Sys2Proof.Machine

/-! ### Agents (R13, R390) -/

/-- Who invokes an operation: the guest, the CPU inside its step, a device, the Clock, the host, or a test, which may
invoke any operation. -/
inductive Agent where
  | guest
  | cpu
  | device
  | clock
  | host
  | test
deriving DecidableEq, Repr

/-- The operations a device may invoke (R390). -/
def deviceMay : Instr → Bool
  | .busRegisterPort _ _ _ => true
  | .picAssertIRQ _ => true
  | .picClearIRQ _ => true
  | .picRequestIRQNumber _ => true
  | .picFreeIRQNumber _ => true
  | .clkRegisterDevice _ _ _ => true
  | .clkResetTimer _ _ => true
  | .clkSetTimerActiveState _ _ => true
  | .cpuSetHoldRequest _ _ => true
  | _ => false

/-- The operations the host may invoke, outside a test (R390). -/
def hostMay : Instr → Bool
  | .modReset _ => true
  | .modStart _ => true
  | .modStop _ => true
  | .modGetDump _ => true
  | .modIsConnected _ => true
  | .picReset => true
  | .ataReset _ => true
  | .cpuReset => true
  | .cpuStart => true
  | .cpuStop => true
  | .ataInsert _ _ _ _ => true
  | .ataEject _ => true
  | .ataSetSelectedDriveIndex _ _ => true
  | .cpuGetRegister _ => true
  | .cpuSetRegister _ _ => true
  | .romSetSystemBIOS _ => true
  | .romReadSystemBIOS => true
  | .clkSignalPulse => true
  | _ => false

/-- The table of R390. The guest's own port accesses are inside `CPU.step`; the CPU's acknowledge and pulse, and the
Clock's `update`, are the operations a step makes. -/
def mayInvoke (a : Agent) (i : Instr) : Bool :=
  match a with
  | .guest => decide (i = .cpuStep)
  | .cpu => decide (i = .picAcknowledge) || decide (i = .clkPulse)
  | .device => deviceMay i
  | .clock => match i with
    | .ataUpdate _ => true
    | _ => false
  | .host => hostMay i
  | .test => true

/-- A step of an agent (R13): one of its operations, completed. -/
def agentStep (a : Agent) (s t : State) : Prop := ∃ i, mayInvoke a i = true ∧ exec i s = .next t

/-! ### Canonical forms of the model's data -/

/-- The port map and the owner map have their keys in rising order and in range, and no reserved line is owned
(R21, R33). -/
def MapsOk (s : State) : Prop :=
  mapWf s.bus = true ∧ (∀ e ∈ s.bus, e.1 < 65536) ∧
    mapWf s.irqOwner = true ∧ (∀ e ∈ s.irqOwner, e.1 < 16 ∧ e.1 ∉ Config.params.irqReserved)

/-! ### Invariants the spec names -/

/-- With level-sensed inputs the request register follows the pins (R34 (c)). -/
def LevelFollows (p : Pic) : Prop := p.levelTriggered = true → p.irr = p.pin

/-- The master's cascade input is the slave's INT output (R34 (d)). -/
def CascadeFollows (s : State) : Prop := lineBit s.picM.pin Config.params.cascadeLine = intReq s.picS

/-- The invariants of the controller pair that hold after every operation (R34 (c), (d)). -/
def PicOk (s : State) : Prop := LevelFollows s.picM ∧ LevelFollows s.picS ∧ CascadeFollows s

/-- At most one line of a controller is in service, as the invariant has it of a controller with both special modes off
(R34 (a), read by C3 of 90_conflicts.md; log entry 17). -/
def OneInService (p : Pic) : Prop := ∀ k l : Fin 8, lineBit p.isr k = true → lineBit p.isr l = true → k = l

/-- A timer slot in use (R39, R40). -/
def TimerOk (t : Timer) : Prop := 1 ≤ t.interval ∧ t.countdown ≤ t.interval ∧ (t.active = true → 1 ≤ t.countdown)

/-- The timer table (R38, R40). -/
def TimersOk (s : State) : Prop := s.clk.timers.length ≤ Config.params.maxTimers ∧ ∀ t ∈ s.clk.timers, TimerOk t

/-- A drive holds an image exactly when it has a type, and an open transfer is not at its end (R45, R281, R282). -/
def DriveOk (d : Drive) : Prop :=
  (d.type = .none ↔ d.image = none) ∧ (d.phase = .dataIn → d.bufPos < d.buffer.length) ∧
    ∀ n tag, d.phase = .dataOut n tag → d.buffer.length < n

/-- A channel (R44, R45, R287). -/
def ChannelOk (c : Channel) : Prop :=
  DriveOk c.drive0 ∧ DriveOk c.drive1 ∧ -1 ≤ c.irqNumber ∧ c.irqNumber < 16 ∧ c.irqNumber ≠ 2 ∧
    (c.irqRaised = true → 0 ≤ c.irqNumber)

/-- Every channel (R44, R45, R287). -/
def ChannelsOk (s : State) : Prop := ∀ c ∈ s.ata, ChannelOk c

/-- Every channel has no line, or one that the line map gives it (R44, R251 (c); log entry 31). -/
def LinesOwned (s : State) : Prop :=
  ∀ (ch : Nat) (c : Channel), s.ata[ch]? = some c →
    c.irqNumber = -1 ∨ ∃ n : Nat, c.irqNumber = n ∧ mapGet s.irqOwner n = some (.ata ch)

/-- No channel loses a line in the line map: only `PIC.freeIRQNumber` takes one away (R153). -/
def LinesKept (s t : State) : Prop :=
  ∀ ch n : Nat, mapGet s.irqOwner n = some (.ata ch) → mapGet t.irqOwner n = some (.ata ch)

/-- The ROM store is unset or holds an image of exactly `BIOS_SIZE` bytes (R62). -/
def RomOk (s : State) : Prop := ∀ bytes, s.rom = some bytes → bytes.length = Config.params.biosSize

/-! ### The inputs of the controllers -/

/-- The level of global line `n` as its controller remembers it (R28). -/
def linePin (s : State) (n : Nat) : Bool := lineBit (picOf s (ctrlOfLine n)).pin (localLine n)

/-- The request bit of global line `n` (R26). -/
def lineIrr (s : State) (n : Nat) : Bool := lineBit (picOf s (ctrlOfLine n)).irr (localLine n)

/-- Nothing of a controller has changed but its pins and its request register. -/
def SameButInputs (p q : Pic) : Prop := q = { p with pin := q.pin, irr := q.irr }

/-- The master's cascade input after the slave's INT output is `lvl` (R146): the pin takes the level; a rise requests,
and a fall withdraws the request in level mode. -/
def CascadeInput (m m' : Pic) (lvl : Bool) : Prop :=
  lineBit m'.pin 2 = lvl ∧
    lineBit m'.irr 2 =
      (if lvl then lineBit m.irr 2 || !lineBit m.pin 2
       else lineBit m.irr 2 && !(lineBit m.pin 2 && m.levelTriggered))

/-- The master after `settle()` (R146): only its cascade input has followed the slave. -/
def MasterFollows (m m' : Pic) (lvl : Bool) : Prop :=
  SameButInputs m m' ∧ CascadeInput m m' lvl ∧
    ∀ k : Fin 8, k ≠ 2 → lineBit m'.pin k = lineBit m.pin k ∧ lineBit m'.irr k = lineBit m.irr k

/-- Controller `c` has become `q`, `settle()` has run, the result is `r`, and nothing else has changed (R146, R182). -/
def SettledAfter (c : Ctrl) (q : Pic) (r : Result) (s t : State) : Prop :=
  match c with
  | .M => t = { s with picM := t.picM, result := r } ∧ MasterFollows q t.picM (intReq s.picS)
  | .S => t = { s with picM := t.picM, picS := q, result := r } ∧ MasterFollows s.picM t.picM (intReq q)

/-- Controller `q` is `p` with line `l` acknowledged: in service unless the end of interrupt is automatic, its request
cleared unless a level keeps it (R147, R151, R196). -/
def LineTaken (p q : Pic) (l : Fin 8) : Prop :=
  q = { p with
    isr := q.isr
    irr := q.irr
    currentIRQ := l
    lowestPriorityIRQ := if p.autoEOI && p.rotateOnAutoEOI then l else p.lowestPriorityIRQ } ∧
  (∀ k : Fin 8, lineBit q.isr k = if k = l then !p.autoEOI else lineBit p.isr k) ∧
  ∀ k : Fin 8, lineBit q.irr k = if k = l then p.levelTriggered && lineBit p.pin l else lineBit p.irr k

/-- Controller `q` is `p` with line `l` ended (R150). -/
def LineEnded (p q : Pic) (l : Fin 8) (rotate : Bool) : Prop :=
  q = { p with isr := q.isr, lowestPriorityIRQ := if rotate then l else p.lowestPriorityIRQ } ∧
  ∀ k : Fin 8, lineBit q.isr k = if k = l then false else lineBit p.isr k

/-! ### Port accesses -/

/-- A byte-wide register's byte in a read of width `w`: ones above it (R77). -/
def wideByte : Width → Long → Long
  | .byte, b => b
  | .word, b => 0xFF00 ||| b
  | .dword, b => 0xFFFFFF00 ||| b

/-- A read of port `a` is the register command `row`, its byte widened to the access (R77, R181, R271). -/
def ReadsAs (a : Half) (row : Instr) (s : State) : Prop :=
  ∃ t b, exec row s = .next t ∧ t.result = .ok (.port .byte b) ∧
    ∀ w, exec (.busReadPort a w) s = .next { t with result := .ok (.port w (wideByte w b)) }

/-- What the port map holds at a port after a registration (R121). -/
def portAfter (old : Option PortEntry) (d : Device) (attr : Attr) : Option PortEntry :=
  match old with
  | some e => if e.owner = d then some e else some { owner := d, attr := attr }
  | none => some { owner := d, attr := attr }

/-! ### Accesses of a guest instruction -/

/-- How an instruction's memory accesses are performed (R72, R75, R304 (c)): an access of no byte reads 0 or does nothing;
a longer one is that of its lowest byte and then that of the rest, least significant first; a byte within the memory is read
and written as it stands, and beyond it the byte read and what a write leaves are open (log entry 8). -/
def GuestMemory (P : Params) : Prop :=
  ∀ (addr n v : Nat) (s : State),
    (∀ k, runGuest P (.memRead addr 0 k) s = runGuest P (k 0) s) ∧
    (∀ k, runGuest P (.memRead addr (n + 1) k) s =
      runGuest P (.memRead addr 1 fun low => .memRead (addr + 1) n fun rest => k (low + 256 * rest)) s) ∧
    (addr < P.memSize → ∀ k, runGuest P (.memRead addr 1 k) s = runGuest P (k (memByte s.mem addr).toNat) s) ∧
    (P.memSize ≤ addr → ∃ (b : Byte) (w : Nat), ∀ k,
      runGuest P (.memRead addr 1 k) s = runGuest P (k b.toNat) { s with world := w }) ∧
    (∀ k, runGuest P (.memWrite addr 0 v k) s = runGuest P k s) ∧
    (∀ k, runGuest P (.memWrite addr (n + 1) v k) s =
      runGuest P (.memWrite addr 1 v (.memWrite (addr + 1) n (v / 256) k)) s) ∧
    (addr < P.memSize → Memory.wf s.mem = true → ∃ m : Memory, Memory.wf m = true ∧
      (∀ a, memByte m a = if a = addr then BitVec.ofNat 8 v else memByte s.mem a) ∧
      ∀ k, runGuest P (.memWrite addr 1 v k) s = runGuest P k { s with mem := m }) ∧
    (P.memSize ≤ addr → ∃ (m : Memory) (w : Nat), Memory.wf m = true ∧
      ∀ k, runGuest P (.memWrite addr 1 v k) s = runGuest P k { s with mem := m, world := w })

/-- How an instruction's port accesses are performed (R126, R304 (c), R305): a read is `BUS.readPort` and gives the
instruction its value, whether it came as `ok` or with a condition, all ones from an unmapped port; a write is
`BUS.writePort`, its result dropped. -/
def GuestPorts : Prop :=
  ∀ (a : Half) (w : Width) (s : State),
    (∃ (t : State) (v : Long), exec (.busReadPort a w) s = .next t ∧
      (t.result = .ok (.port w v) ∨ ∃ c, t.result = .cond c (.port w v)) ∧
      ∀ k, runGuest Config.params (.portRead a w k) s = runGuest Config.params (k v) { t with result := s.result }) ∧
    (portEntry s a = none → ∀ k, runGuest Config.params (.portRead a w k) s =
      runGuest Config.params (k (wideByte w 0xFF)) { s with log := s.log ++ [.unknownPort .R a w] }) ∧
    ∀ v, ∃ t, exec (.busWritePort a w v) s = .next t ∧
      ∀ k, runGuest Config.params (.portWrite a w v k) s = runGuest Config.params k { t with result := s.result }

/-! ### Timers -/

/-- Slot `i` of the timer table has become `x`, and nothing else has changed. -/
def SlotBecomes (i : Nat) (x : Timer) (s t : State) : Prop :=
  t = { s with clk := { s.clk with timers := t.clk.timers } } ∧
    ∀ j, t.clk.timers[j]? = if j = i then some x else s.clk.timers[j]?

/-- The update callback of a device has run to completion: `ATA.update` for a channel, the `DeviceModel` entry for an
external device (R12, R215). The PIC is no timer client (R346), and nothing is said of it. -/
def Updated (d : Device) (s t : State) : Prop :=
  match d with
  | .ata ch => ∃ u, exec (.ataUpdate ch) s = .next u ∧ t = { u with result := s.result }
  | .ext n => t = (runDevProg Config.params ((Config.params.device (.ext n)).update s.world) s).2
  | .pic => True

/-- Slot `i` as a pulse finds it in the table at that moment, and as it leaves it (R214): an inactive slot is passed over,
an active one counts down, and one that reaches zero has its owner updated first and is then, as the callback left it,
re-armed or made inactive. An active slot has a countdown of at least 1 (R40). -/
def SlotVisited (i : Nat) (s t : State) : Prop :=
  match s.clk.timers[i]? with
  | none => t = s
  | some x =>
    (x.active = false → t = s) ∧
    (x.active = true → 2 ≤ x.countdown → SlotBecomes i { x with countdown := x.countdown - 1 } s t) ∧
    (x.active = true → x.countdown = 1 → ∃ u v y,
      SlotBecomes i { x with countdown := 0 } s u ∧ Updated x.owner u v ∧ v.clk.timers[i]? = some y ∧
        SlotBecomes i (if y.continuous then { y with countdown := y.interval } else { y with active := false }) v t)

/-! ### ATA -/

/-- Of the channels only `ch` has changed, and it is now `c`. -/
def OnlyChannel (ch : Nat) (c : Channel) (s t : State) : Prop :=
  ∀ j, t.ata[j]? = if j = ch then some c else s.ata[j]?

/-- The controllers after the channel has lowered its line, if it had raised it (R287). -/
def loweredPics (ch : Nat) (s : State) : Pic × Pic :=
  if (chan s ch).irqRaised then
    ((clearIRQ Config.params (irqLine (chan s ch)) s).1.picM, (clearIRQ Config.params (irqLine (chan s ch)) s).1.picS)
  else (s.picM, s.picS)

/-- The channel's timer runs its command delay from the start; where the channel has no timer, both Clock operations
have logged that (R280, R414; log entry 18). -/
def TimersArmed (ch : Nat) (s t : State) : Prop :=
  (∀ i, t.clk.timers[i]? =
    if lookupTimer s (.ata ch) = some i then
      (s.clk.timers[i]?).map fun x =>
        { x with
          interval := pulsesOf Config.params Config.params.ataCmdDelayUs s
          countdown := pulsesOf Config.params Config.params.ataCmdDelayUs s
          active := true }
    else s.clk.timers[i]?) ∧
  t.log = s.log ++ (if lookupTimer s (.ata ch) = none then [.noSuchTimer (.ata ch), .noSuchTimer (.ata ch)] else [])

/-- Timers and log are as they were. -/
def TimersKept (s t : State) : Prop := t.clk.timers = s.clk.timers ∧ t.log = s.log

/-- The status byte of a drive as the sum of its bits (R108, R273). -/
def statusSum (srst : Bool) (d : Drive) : Nat :=
  if d.type = .none then 0
  else
    0x80 * (d.isBusy || srst).toNat + 0x40 * d.ready.toNat + 0x10 * d.seekComplete.toNat + 0x08 * d.drq.toNat +
      d.err.toNat

/-- One drive after `ATA.update`, with the hidden state and whether it had a command to complete (R286). -/
def completion (P : Params) (world : Nat) (k : Fin 2) (d : Drive) : Drive × Nat × Bool :=
  match d.phase with
  | .busy .abort => ({ d with err := true, error := 0x04, phase := .idle }, world, true)
  | .busy (.done r) => ({ applyPatch r d with phase := .idle }, world, true)
  | .busy (.dataIn [] r) => ({ applyPatch r d with phase := .idle }, world, true)
  | .busy (.dataIn (b :: rest) r) =>
    ({ applyPatch r d with phase := .dataIn, buffer := b :: rest, bufPos := 0 }, world, true)
  | .busy (.finish tag bytes) =>
    match P.ataFinish world tag bytes (viewOf k d) (taskRegsOf d) with
    | (.abort, w) => ({ d with err := true, error := 0x04, phase := .idle, buffer := [], bufPos := 0 }, w, true)
    | (.done r, w) => ({ applyPatch r d with phase := .idle, buffer := [], bufPos := 0 }, w, true)
  | _ => (d, world, false)

end Sys2Proof.Machine
end

