-- ==== Sys2Proof/Certificates/Slice0/Obligations.lean ====
section
/-! DEFINITION. The statements for the provers. A statement over all states also covers states no run reaches; where an
invariant of the machine rules such states out, it stands as a premise and is a statement of its own. -/

open Sys2Proof Sys2Proof.Machine Sys2Proof.Config

/-! ### Encoding and step -/

/-- Decoding the packet of a well-formed operation gives it back, for every operand value. The packet form is the
model's own (log entries 1, 2); the command bytes inside it are those of R99 to R110. -/
def Obligations.RoundTrip : Prop := ∀ i : Instr, i.wellFormed = true → decode (encode i) = .ok i

/-- A byte written to a command port is the operation the masks and matches of R99, R104 and R105 give it, and some
packets with command bytes written out from the layouts decode so. The selector byte and the controller or channel byte of
those six packets are the model's own packet form (log entries 1, 2), which no rule of the spec gives. -/
def Obligations.DecodedWords : Prop :=
  (∀ (c : Ctrl) (b : Byte),
    decodePicCmd c b =
      if b &&& 0x10 = 0x10 then .picICW1 c (b.getLsbD 3) (b.getLsbD 1) (b.getLsbD 0)
      else if b &&& 0x38 = 0x20 then .picOCW2EOI c (b.getLsbD 7) (b.getLsbD 6) (lineOfByte b)
      else if b &&& 0xF8 = 0x80 then .picOCW2RotAutoSet c
      else if b &&& 0xF8 = 0x00 then .picOCW2RotAutoClr c
      else if b &&& 0xF8 = 0xC0 then .picOCW2SetPrio c (lineOfByte b)
      else if b &&& 0xF8 = 0x40 then .picOCW2Nop c (lineOfByte b)
      else .picOCW3 c (b.getLsbD 6) (b.getLsbD 5) (b.getLsbD 2) (b.getLsbD 1) (b.getLsbD 0)) ∧
  decode [0x11, 0x00, 0x00] = .ok (.picICW1 .M false false true) ∧
  decode [0x63, 0x00, 0x01] = .ok (.picOCW2EOI .S false true 3) ∧
  decode [0xC3, 0x00, 0x00] = .ok (.picOCW2SetPrio .M 3) ∧
  decode [0x68, 0x00, 0x00] = .ok (.picOCW3 .M true true false false false) ∧
  decode [0xB0, 0x37, 0x00] = .ok (.ataWrDrvHead 0 false true 0) ∧
  decode [0x04, 0x3B, 0x00] = .ok (.ataWrDevCtl 0 true false)

/-- A step performs the operation of the packet at the head of `inbox`, on the state without that packet; with none
waiting it performs `CPU.step` (log entry 3). That a packet which is no operation is refused is the model's own choice: no
rule speaks of packets (log entry 1). -/
def Obligations.StepRunsTheOperation : Prop :=
  (∀ (s : State) (p : List Byte) (rest : List (List Byte)) (i : Instr),
    s.inbox = p :: rest → decode p = .ok i → step s = exec i { s with inbox := rest }) ∧
  (∀ s : State, s.inbox = [] → step s = exec .cpuStep s) ∧
  (∀ (s : State) (p : List Byte) (rest : List (List Byte)) (e : DecodeError),
    s.inbox = p :: rest → decode p = .error e → step s = .refused (.undecodable e))

/-! ### I/O Bus -/

/-- `BUS.registerPort` never fails: an unmapped port gets the entry, the same device keeps its own, another device takes
the port over, and no other port, nothing logged, nothing else changes (R121). -/
def Obligations.RegisterPort : Prop :=
  ∀ (a : Half) (d : Device) (attr : Attr) (s : State),
    ∃ t, exec (.busRegisterPort a d attr) s = .next t ∧
      t = { s with bus := t.bus, result := .ok .unit } ∧
      ∀ b : Half, portEntry t b = if b = a then portAfter (portEntry s a) d attr else portEntry s b

/-- An access to an unmapped port returns all ones of the access's width, discards a write, and changes only the log;
so does a read of a write-only port and a write of a read-only one, under their own conditions (R122, R123). -/
def Obligations.PortConditions : Prop :=
  ∀ (a : Half) (s : State),
    (portEntry s a = none →
      exec (.busReadPort a .byte) s =
        .next { s with log := s.log ++ [.unknownPort .R a .byte], result := .cond .unknownPort (.port .byte 0xFF) } ∧
      exec (.busReadPort a .word) s =
        .next { s with log := s.log ++ [.unknownPort .R a .word], result := .cond .unknownPort (.port .word 0xFFFF) } ∧
      exec (.busReadPort a .dword) s =
        .next { s with
          log := s.log ++ [.unknownPort .R a .dword], result := .cond .unknownPort (.port .dword 0xFFFFFFFF) } ∧
      ∀ w v, exec (.busWritePort a w v) s =
        .next { s with log := s.log ++ [.unknownPort .W a w], result := .cond .unknownPort .unit }) ∧
    (∀ d, portEntry s a = some { owner := d, attr := .writeOnly } →
      ∀ w, exec (.busReadPort a w) s =
        .next { s with
          log := s.log ++ [.writeOnlyPort a w d], result := .cond .writeOnlyPort (.port w (filler w)) }) ∧
    (∀ d, portEntry s a = some { owner := d, attr := .readOnly } →
      ∀ w v, exec (.busWritePort a w v) s =
        .next { s with log := s.log ++ [.readOnlyPort a w d], result := .cond .readOnlyPort .unit })

/-- An access to a port of an external device calls that device's handler once, with the width and the `8*w` bits of the
value, and nothing else (R122, R123, R125). -/
def Obligations.DevicePort : Prop :=
  ∀ (a : Half) (n : Nat) (attr : Attr) (s : State), portEntry s a = some { owner := .ext n, attr := attr } →
    (attr ≠ .writeOnly → ∀ w, exec (.busReadPort a w) s =
      .next { (extRead params (.ext n) a w s).2 with
        result := .ok (.port w ((extRead params (.ext n) a w s).1 &&& filler w)) }) ∧
    (attr ≠ .readOnly → ∀ w v, exec (.busWritePort a w v) s =
      .next { extWrite params (.ext n) a w (v &&& filler w) s with result := .ok .unit })

/-- The PIC's ports 0x20, 0x21, 0xA0, 0xA1 reach its register commands: a read returns the register's byte with ones
above it, a write performs the command of bits 7:0 (R180 to R182). That each of the four data-byte operations, whatever
`initState` its row names, acts as the data byte of the present one is the model's reading (log entry 14). -/
def Obligations.PicPortAccess : Prop :=
  cmdPort params .M = 0x20 ∧ dataPort params .M = 0x21 ∧ cmdPort params .S = 0xA0 ∧ dataPort params .S = 0xA1 ∧
  ∀ (c : Ctrl) (attr : Attr) (s : State),
    (portEntry s (cmdPort params c) = some { owner := .pic, attr := attr } →
      (attr ≠ .writeOnly → ReadsAs (cmdPort params c) (.picRdCmd c) s) ∧
      (attr ≠ .readOnly → ∀ w v,
        exec (.busWritePort (cmdPort params c) w v) s = exec (decodePicCmd c (v.setWidth 8)) s)) ∧
    (portEntry s (dataPort params c) = some { owner := .pic, attr := attr } →
      (attr ≠ .writeOnly → ReadsAs (dataPort params c) (.picRdData c) s) ∧
      (attr ≠ .readOnly → ∀ w v,
        exec (.busWritePort (dataPort params c) w v) s = exec (.picOCW1 c (v.setWidth 8)) s ∧
        exec (.busWritePort (dataPort params c) w v) s = exec (.picICW2 c (v.setWidth 8)) s ∧
        exec (.busWritePort (dataPort params c) w v) s = exec (.picICW3 c (v.setWidth 8)) s ∧
        exec (.busWritePort (dataPort params c) w v) s = exec (.picICW4 c (v.setWidth 8)) s))

/-- A port of an ATA channel reaches the register at its offset from `ioBase1`, or else from `ioBase2` (R271, R272). -/
def Obligations.AtaPortAccess : Prop :=
  ∀ (ch : Nat) (a : Half) (attr : Attr) (s : State), ch < s.ata.length →
    portEntry s a = some { owner := .ata ch, attr := attr } →
    (attr ≠ .writeOnly →
      (a - (chan s ch).ioBase1 = 0 → ∀ w, exec (.busReadPort a w) s = exec (.ataRdData ch w) s) ∧
      (a - (chan s ch).ioBase1 = 1 → ReadsAs a (.ataRdError ch) s) ∧
      (a - (chan s ch).ioBase1 = 2 → ReadsAs a (.ataRdParam ch .sectorCount) s) ∧
      (a - (chan s ch).ioBase1 = 3 → ReadsAs a (.ataRdParam ch .sectorNumber) s) ∧
      (a - (chan s ch).ioBase1 = 4 → ReadsAs a (.ataRdParam ch .cylLow) s) ∧
      (a - (chan s ch).ioBase1 = 5 → ReadsAs a (.ataRdParam ch .cylHigh) s) ∧
      (a - (chan s ch).ioBase1 = 6 → ReadsAs a (.ataRdDrvHead ch) s) ∧
      (a - (chan s ch).ioBase1 = 7 → ReadsAs a (.ataRdStatus ch) s) ∧
      (7 < (a - (chan s ch).ioBase1).toNat → a - (chan s ch).ioBase2 = 6 → ReadsAs a (.ataRdAltStatus ch) s) ∧
      (7 < (a - (chan s ch).ioBase1).toNat → a - (chan s ch).ioBase2 = 7 → ReadsAs a (.ataRdDrvAddr ch) s)) ∧
    (attr ≠ .readOnly → ∀ w v,
      (a - (chan s ch).ioBase1 = 0 → exec (.busWritePort a w v) s = exec (.ataWrData ch w v) s) ∧
      (a - (chan s ch).ioBase1 = 1 → exec (.busWritePort a w v) s = exec (.ataWrFeatures ch (v.setWidth 8)) s) ∧
      (a - (chan s ch).ioBase1 = 2 →
        exec (.busWritePort a w v) s = exec (.ataWrParam ch .sectorCount (v.setWidth 8)) s) ∧
      (a - (chan s ch).ioBase1 = 3 →
        exec (.busWritePort a w v) s = exec (.ataWrParam ch .sectorNumber (v.setWidth 8)) s) ∧
      (a - (chan s ch).ioBase1 = 4 →
        exec (.busWritePort a w v) s = exec (.ataWrParam ch .cylLow (v.setWidth 8)) s) ∧
      (a - (chan s ch).ioBase1 = 5 →
        exec (.busWritePort a w v) s = exec (.ataWrParam ch .cylHigh (v.setWidth 8)) s) ∧
      (a - (chan s ch).ioBase1 = 6 →
        exec (.busWritePort a w v) s =
          exec (.ataWrDrvHead ch (v.getLsbD 6) (v.getLsbD 4) (v.extractLsb' 0 4)) s) ∧
      (a - (chan s ch).ioBase1 = 7 → exec (.busWritePort a w v) s = exec (.ataWrCommand ch (v.setWidth 8)) s) ∧
      (7 < (a - (chan s ch).ioBase1).toNat → a - (chan s ch).ioBase2 = 6 →
        exec (.busWritePort a w v) s = exec (.ataWrDevCtl ch (v.getLsbD 2) (v.getLsbD 1)) s) ∧
      (7 < (a - (chan s ch).ioBase1).toNat → a - (chan s ch).ioBase2 = 7 →
        exec (.busWritePort a w v) s = exec (.ataWrDrvAddr ch (v.setWidth 8)) s))

/-! ### Interrupt controllers -/

/-- `PIC.assertIRQ`: a line above 15 and the cascade line are refused; else the line's pin rises, and its request bit is
set by the rise, or in level mode again; every other device line keeps pin and request, and the master's cascade input
follows the slave (R141, R146). -/
def Obligations.AssertIRQ : Prop :=
  ∀ (n : Nat) (s : State),
    ((15 < n ∨ n = 2) → exec (.picAssertIRQ n) s =
      .next { s with log := s.log ++ [.invalidIrqLine n], result := .cond .invalidIrqLine .unit }) ∧
    (n < 16 → n ≠ 2 →
      ∃ t, exec (.picAssertIRQ n) s = .next t ∧
        t = { s with picM := t.picM, picS := t.picS, result := .ok .unit } ∧
        SameButInputs s.picM t.picM ∧ SameButInputs s.picS t.picS ∧
        CascadeInput s.picM t.picM (intReq t.picS) ∧
        ∀ k, k < 16 → k ≠ 2 →
          linePin t k = (if k = n then true else linePin s k) ∧
          lineIrr t k =
            (if k = n ∧ (linePin s n = false ∨ (picOf s (ctrlOfLine n)).levelTriggered = true) then true
             else lineIrr s k))

/-- `PIC.clearIRQ`: a line above 15 and the cascade line are refused; else the line's pin falls, in level mode its
request is withdrawn and in edge mode it stays; every other device line keeps pin and request (R142, R146). -/
def Obligations.ClearIRQ : Prop :=
  ∀ (n : Nat) (s : State),
    ((15 < n ∨ n = 2) → exec (.picClearIRQ n) s =
      .next { s with log := s.log ++ [.invalidIrqLine n], result := .cond .invalidIrqLine .unit }) ∧
    (n < 16 → n ≠ 2 →
      ∃ t, exec (.picClearIRQ n) s = .next t ∧
        t = { s with picM := t.picM, picS := t.picS, result := .ok .unit } ∧
        SameButInputs s.picM t.picM ∧ SameButInputs s.picS t.picS ∧
        CascadeInput s.picM t.picM (intReq t.picS) ∧
        ∀ k, k < 16 → k ≠ 2 →
          linePin t k = (if k = n then false else linePin s k) ∧
          lineIrr t k =
            (if k = n ∧ (picOf s (ctrlOfLine n)).levelTriggered = true then false else lineIrr s k))

/-- The resolver selects the eligible line of least priority number, or none where no line is eligible; priority counts
up from the line after the rotation pointer, and eligibility is by mask, service and mode (R143). -/
def Obligations.PriorityResolver : Prop :=
  ∀ p : Pic,
    (∀ l : Fin 8, (prio p l).val = (l.val + 15 - p.lowestPriorityIRQ.val) % 8) ∧
    (∀ l : Fin 8, eligible p l = true ↔
      lineBit p.irr l = true ∧ lineBit p.imr l = false ∧
        (if p.specialMask = true then lineBit p.isr l = false
         else if p.isr = 0 then True
         else if p.sfnm = true then ∀ k : Fin 8, lineBit p.isr k = true → (prio p l).val < (prio p k).val
         else False)) ∧
    (∀ l : Fin 8, selected p = some l ↔
      eligible p l = true ∧ ∀ k : Fin 8, eligible p k = true → (prio p l).val ≤ (prio p k).val) ∧
    (selected p = none ↔ ∀ l : Fin 8, eligible p l = false) ∧
    (intReq p = true ↔ ∃ l, selected p = some l)

/-- The three properties of R158: `PIC.reset` leaves both controllers masked, empty and quiet; a masked line is not
selected after it is asserted; the vector acknowledged is offset plus line of the controller that owns the line. -/
def Obligations.ControllerProperties : Prop :=
  (∀ s : State, ∃ t, exec .picReset s = .next t ∧
    ∀ c : Ctrl, (picOf t c).imr = 0xFF ∧ (picOf t c).isr = 0x00 ∧ (picOf t c).irr = 0x00 ∧
      (picOf t c).lowestPriorityIRQ = 7 ∧ intReq (picOf t c) = false) ∧
  (∀ (n : Nat) (s : State), n < 16 → n ≠ 2 → lineBit (picOf s (ctrlOfLine n)).imr (localLine n) = true →
    ∃ t, exec (.picAssertIRQ n) s = .next t ∧ selected (picOf t (ctrlOfLine n)) ≠ some (localLine n)) ∧
  (∀ (l : Fin 8) (s : State), selected s.picM = some l → ¬(l = 2 ∧ s.picM.cascadeMode = true) →
    ∃ t, exec .picAcknowledge s = .next t ∧
      t.result = .ok (.vector (s.picM.interruptOffset + BitVec.ofNat 8 l.val))) ∧
  (∀ (l : Fin 8) (s : State), selected s.picM = some 2 → s.picM.cascadeMode = true → selected s.picS = some l →
    ∃ t, exec .picAcknowledge s = .next t ∧
      t.result = .ok (.vector (s.picS.interruptOffset + BitVec.ofNat 8 l.val)))

/-- `PIC.acknowledgeHighestPriority`: a master line is taken and its vector returned; a cascade request is taken on both
controllers, the slave's vector returned and the cascade input dropped until the slave asks again; with nothing selected
the vector of line 7 comes back and nothing changes, on the slave side too: the spec's own choice, marked as general
knowledge, D18 (R147 to R149). -/
def Obligations.Acknowledge : Prop :=
  (∀ (l : Fin 8) (s : State), CascadeFollows s → selected s.picM = some l →
    ¬(l = 2 ∧ s.picM.cascadeMode = true) →
    ∃ t, exec .picAcknowledge s = .next t ∧
      t = { s with picM := t.picM, result := .ok (.vector (s.picM.interruptOffset + BitVec.ofNat 8 l.val)) } ∧
      LineTaken s.picM t.picM l) ∧
  (∀ (l : Fin 8) (s : State), selected s.picM = some 2 → s.picM.cascadeMode = true → selected s.picS = some l →
    ∃ q t, exec .picAcknowledge s = .next t ∧
      t = { s with
        picM := t.picM, picS := t.picS,
        result := .ok (.vector (s.picS.interruptOffset + BitVec.ofNat 8 l.val)) } ∧
      LineTaken s.picS t.picS l ∧ LineTaken s.picM q 2 ∧ SameButInputs q t.picM ∧
      lineBit t.picM.pin 2 = intReq t.picS ∧ lineBit t.picM.irr 2 = intReq t.picS ∧
      ∀ k : Fin 8, k ≠ 2 → lineBit t.picM.pin k = lineBit q.pin k ∧ lineBit t.picM.irr k = lineBit q.irr k) ∧
  (∀ s : State, selected s.picM = some 2 → s.picM.cascadeMode = true → selected s.picS = none →
    ∃ q t, exec .picAcknowledge s = .next t ∧
      t = { s with picM := t.picM, result := .ok (.vector (s.picS.interruptOffset + 7)) } ∧
      LineTaken s.picM q 2 ∧ SameButInputs q t.picM ∧ lineBit t.picM.pin 2 = false ∧ lineBit t.picM.irr 2 = false ∧
      ∀ k : Fin 8, k ≠ 2 → lineBit t.picM.pin k = lineBit q.pin k ∧ lineBit t.picM.irr k = lineBit q.irr k) ∧
  (∀ s : State, CascadeFollows s → selected s.picM = none →
    exec .picAcknowledge s = .next { s with result := .ok (.vector (s.picM.interruptOffset + 7)) })

/-- `PIC.endOfInterrupt`: an implicit end with nothing in service changes nothing; else the named line, or the line of
least priority number in service, leaves service, and becomes the lowest priority if asked (R150). -/
def Obligations.EndOfInterrupt : Prop :=
  ∀ (c : Ctrl) (line : Option (Fin 8)) (rotate : Bool) (s : State),
    (line = none → (picOf s c).isr = 0 →
      exec (.picEndOfInterrupt c line rotate) s = .next { s with result := .ok .unit }) ∧
    (∀ l : Fin 8,
      (line = some l ∨
        (line = none ∧ lineBit (picOf s c).isr l = true ∧
          ∀ k : Fin 8, lineBit (picOf s c).isr k = true → (prio (picOf s c) l).val ≤ (prio (picOf s c) k).val)) →
      ∃ q t, exec (.picEndOfInterrupt c line rotate) s = .next t ∧
        LineEnded (picOf s c) q l rotate ∧ SettledAfter c q (.ok .unit) s t)

/-- `PIC.requestIRQNumber`: a caller with a line gets its least one again; another gets the least line that is neither
reserved nor owned; with none left it gets -1 and the condition (R152). -/
def Obligations.RequestIRQNumber : Prop :=
  ∀ (d : Device) (s : State), MapsOk s →
    (∀ n, mapGet s.irqOwner n = some d → (∀ m, m < n → mapGet s.irqOwner m ≠ some d) →
      exec (.picRequestIRQNumber d) s = .next { s with result := .ok (.line n) }) ∧
    ((∀ m, mapGet s.irqOwner m ≠ some d) →
      (∀ n, n < 16 → n ≠ 2 → mapGet s.irqOwner n = none →
        (∀ m, m < n → m = 2 ∨ mapGet s.irqOwner m ≠ none) →
        ∃ t, exec (.picRequestIRQNumber d) s = .next t ∧
          t = { s with irqOwner := t.irqOwner, result := .ok (.line n) } ∧
          ∀ k, mapGet t.irqOwner k = if k = n then some d else mapGet s.irqOwner k) ∧
      ((∀ n, n < 16 → n = 2 ∨ mapGet s.irqOwner n ≠ none) →
        exec (.picRequestIRQNumber d) s =
          .next { s with log := s.log ++ [.irqExhausted d], result := .cond .irqExhausted (.line (-1)) }))

/-- `PIC.freeIRQNumber`: every line of the caller is cleared and loses its owner, the master's cascade input follows the
slave; other lines and owners stay; a caller that owns nothing changes nothing (R142, R146, R153). -/
def Obligations.FreeIRQNumber : Prop :=
  ∀ (d : Device) (s : State), MapsOk s →
    ((∀ n, mapGet s.irqOwner n ≠ some d) →
      exec (.picFreeIRQNumber d) s = .next { s with result := .ok .unit }) ∧
    ∃ t, exec (.picFreeIRQNumber d) s = .next t ∧
      t = { s with picM := t.picM, picS := t.picS, irqOwner := t.irqOwner, result := .ok .unit } ∧
      SameButInputs s.picM t.picM ∧ SameButInputs s.picS t.picS ∧
      (CascadeFollows s → CascadeInput s.picM t.picM (intReq t.picS)) ∧
      (∀ n, mapGet t.irqOwner n = if mapGet s.irqOwner n = some d then none else mapGet s.irqOwner n) ∧
      ∀ n, n < 16 → n ≠ 2 →
        linePin t n = (if mapGet s.irqOwner n = some d then false else linePin s n) ∧
        lineIrr t n =
          (if mapGet s.irqOwner n = some d ∧ (picOf s (ctrlOfLine n)).levelTriggered = true then false
           else lineIrr s n)

/-- `PIC.reset`: the reset table of R36 on both controllers, the line owners kept, and the four PIC ports registered. -/
def Obligations.PicReset : Prop :=
  ∀ s : State, ∃ t, exec .picReset s = .next t ∧
    t = { s with picM := t.picM, picS := t.picS, bus := t.bus, result := .ok .success } ∧
    (∀ c : Ctrl, picOf t c =
      { imr := 0xFF, irr := 0x00, isr := 0x00, pin := 0x00,
        cascadeMode := (picOf s c).cascadeMode, levelTriggered := (picOf s c).levelTriggered,
        sfnm := false, buffered := false, autoEOI := false, rotateOnAutoEOI := false, specialMask := false,
        polled := false, interruptOffset := (picOf s c).interruptOffset, lowestPriorityIRQ := 7, currentIRQ := 0,
        initState := .ready, requiresICW4 := false, readSelectISR := false, icw3 := 0x00 }) ∧
    intReq t.picM = false ∧ intReq t.picS = false ∧
    ∀ a : Half, portEntry t a =
      if a = 0x20 ∨ a = 0x21 ∨ a = 0xA0 ∨ a = 0xA1 then portAfter (portEntry s a) .pic .rw else portEntry s a

/-- The initialisation words and OCW1: each writes the fields its rule lists, keeps the others and moves the sequence on as
R185 says (R184, R186 to R188, R190). That each ends with `settle()` is R182 with R146; for ICW2, ICW3 and ICW4, whose own
rules name no settle, it is the model's reading of R182 (log entry 19). -/
def Obligations.InitialisationWords : Prop :=
  ∀ (c : Ctrl) (s : State),
    (∀ ltim sngl ic4, ∃ t, exec (.picICW1 c ltim sngl ic4) s = .next t ∧
      SettledAfter c
        { picOf s c with
          initState := .expectICW2, requiresICW4 := ic4, cascadeMode := !sngl, levelTriggered := ltim,
          imr := 0x00, isr := 0x00, irr := if ltim then (picOf s c).pin else 0x00, lowestPriorityIRQ := 7,
          specialMask := false, readSelectISR := false, polled := false, sfnm := false, buffered := false,
          autoEOI := false, rotateOnAutoEOI := false }
        (.ok .unit) s t) ∧
    (∀ b : Byte, (picOf s c).initState = .expectICW2 → ∃ t, exec (.picICW2 c b) s = .next t ∧
      SettledAfter c
        { picOf s c with
          interruptOffset := b &&& 0xF8
          initState :=
            if (picOf s c).cascadeMode then .expectICW3
            else if (picOf s c).requiresICW4 then .expectICW4 else .ready }
        (.ok .unit) s t) ∧
    (∀ b : Byte, (picOf s c).initState = .expectICW3 → ∃ t, exec (.picICW3 c b) s = .next t ∧
      SettledAfter c
        { picOf s c with
          icw3 := b, initState := if (picOf s c).requiresICW4 then .expectICW4 else .ready }
        (.ok .unit) s t) ∧
    (∀ b : Byte, (picOf s c).initState = .expectICW4 → ∃ t, exec (.picICW4 c b) s = .next t ∧
      SettledAfter c
        { picOf s c with
          sfnm := b.getLsbD 4, buffered := b.getLsbD 3, autoEOI := b.getLsbD 1, initState := .ready }
        (.ok .unit) s t) ∧
    (∀ b : Byte, (picOf s c).initState = .ready → ∃ t, exec (.picOCW1 c b) s = .next t ∧
      SettledAfter c { picOf s c with imr := b } (.ok .unit) s t)

/-- The operation words: the EOI forms of OCW2 are `PIC.endOfInterrupt`, the four others write the field their rule
names or nothing, OCW3 writes the fields its enable bits name; each ends with `settle()` (R191, R193, R199 to R202). -/
def Obligations.OperationWords : Prop :=
  ∀ (c : Ctrl) (s : State),
    (∀ r sl l, ∃ t, exec (.picOCW2EOI c r sl l) s = .next t ∧
      exec (.picEndOfInterrupt c (if sl = true then some l else none) r) s = .next t) ∧
    (∃ t, exec (.picOCW2RotAutoSet c) s = .next t ∧
      SettledAfter c { picOf s c with rotateOnAutoEOI := true } (.ok .unit) s t) ∧
    (∃ t, exec (.picOCW2RotAutoClr c) s = .next t ∧
      SettledAfter c { picOf s c with rotateOnAutoEOI := false } (.ok .unit) s t) ∧
    (∀ l, ∃ t, exec (.picOCW2SetPrio c l) s = .next t ∧
      SettledAfter c { picOf s c with lowestPriorityIRQ := l } (.ok .unit) s t) ∧
    (∀ l, ∃ t, exec (.picOCW2Nop c l) s = .next t ∧ SettledAfter c (picOf s c) (.ok .unit) s t) ∧
    (∀ esmm smm p rr ris, ∃ t, exec (.picOCW3 c esmm smm p rr ris) s = .next t ∧
      SettledAfter c
        { picOf s c with
          specialMask := if esmm = true then smm else (picOf s c).specialMask
          polled := p || (picOf s c).polled
          readSelectISR := if rr = true then ris else (picOf s c).readSelectISR }
        (.ok .unit) s t)

/-- Reads of the two PIC ports: not polled, the command port gives `isr` or `irr` as selected and the data port `imr`,
and nothing changes; polled, either read acknowledges its controller alone and gives the poll byte (R194 to R196). -/
def Obligations.PicReads : Prop :=
  ∀ (c : Ctrl) (s : State),
    ((picOf s c).polled = false →
      exec (.picRdCmd c) s =
        .next { s with
          result := .ok (.port .byte
            ((if (picOf s c).readSelectISR then (picOf s c).isr else (picOf s c).irr).setWidth 32)) } ∧
      exec (.picRdData c) s = .next { s with result := .ok (.port .byte ((picOf s c).imr.setWidth 32)) }) ∧
    ((picOf s c).polled = true →
      exec (.picRdData c) s = exec (.picRdCmd c) s ∧
      (selected (picOf s c) = none → ∃ t, exec (.picRdCmd c) s = .next t ∧
        SettledAfter c { picOf s c with polled := false } (.ok (.port .byte 0x00)) s t) ∧
      ∀ l, selected (picOf s c) = some l → ∃ q t, exec (.picRdCmd c) s = .next t ∧
        LineTaken { picOf s c with polled := false } q l ∧
        SettledAfter c q (.ok (.port .byte (0x80 + BitVec.ofNat 32 l.val))) s t)

/-- Nesting: outside the special modes a controller with a line in service requests nothing and the CPU takes no
interrupt from it, and no operation but a `CPU.step`, whose guest may enter and leave a special mode, puts a second line in
service there; in special-fully-nested mode only a line above every line in service is selected; in special mask mode only
a line not itself in service (R369, R370; what holds of R34 (a) in every state, log entry 17). -/
def Obligations.Nesting : Prop :=
  (∀ p : Pic, p.isr ≠ 0 → p.sfnm = false → p.specialMask = false → intReq p = false) ∧
  (∀ s : State, s.picM.isr ≠ 0 → s.picM.sfnm = false → s.picM.specialMask = false →
    pollInterrupt params s = (s, none)) ∧
  (∀ (p : Pic) (l k : Fin 8), p.sfnm = true → p.specialMask = false → selected p = some l →
    lineBit p.isr k = true → (prio p l).val < (prio p k).val) ∧
  (∀ (p : Pic) (l : Fin 8), p.specialMask = true → selected p = some l → lineBit p.isr l = false) ∧
  (∀ s : State, (∀ c, (picOf s c).sfnm = false ∧ (picOf s c).specialMask = false ∧ OneInService (picOf s c)) →
    ∃ t, exec .picAcknowledge s = .next t ∧ ∀ c, OneInService (picOf t c)) ∧
  (∀ (i : Instr) (s t : State) (c : Ctrl), i ≠ .cpuStep → exec i s = .next t →
    (picOf s c).sfnm = false → (picOf s c).specialMask = false → OneInService (picOf s c) → OneInService (picOf t c))

/-- With the reset rotation, nothing in service, nothing masked and the cascade request pending with the slave's, the
acknowledged line is the first pending one of 0, 1, 8 to 15, 3 to 7 (R365). -/
def Obligations.GlobalPriorityOrder : Prop :=
  ∀ (n : Nat) (s : State),
    (∀ c, (picOf s c).lowestPriorityIRQ = 7 ∧ (picOf s c).isr = 0 ∧ (picOf s c).imr = 0 ∧
      (picOf s c).specialMask = false) →
    s.picM.cascadeMode = true → lineBit s.picM.irr 2 = intReq s.picS →
    [0, 1, 8, 9, 10, 11, 12, 13, 14, 15, 3, 4, 5, 6, 7].find? (lineIrr s) = some n →
    ∃ t, exec .picAcknowledge s = .next t ∧
      t.result =
        .ok (.vector ((picOf s (ctrlOfLine n)).interruptOffset + BitVec.ofNat 8 (localLine n).val))

/-- The invariant of R34 (a) does not survive leaving special mask mode: from reset, the operations of vector P11 end
with two lines in service and both special modes off (log entry 17). -/
def Obligations.SpecialMaskLeavesTwoInService : Prop :=
  ∃ t, performAll
      [.picOCW1 .M 0x00, .picAssertIRQ 3, .picAcknowledge, .picAssertIRQ 5, .picOCW3 .M true true false false false,
       .picAcknowledge, .picOCW3 .M true false false false false] State.reset = .next t ∧
    t.picM.sfnm = false ∧ t.picM.specialMask = false ∧ ¬OneInService t.picM

/-! ### Clock -/

/-- `CLK.registerDevice`: with a slot free the timer is added, active, with its interval converted to pulses at the
present rate; with ten in use it fails and no timer changes (R212, R213, R220). -/
def Obligations.TimerRegistration : Prop :=
  ∀ (d : Device) (us : Nat) (continuous : Bool) (s : State) (quantumOf pulsesIn : Nat),
    quantumOf =
      (match s.cpu.minPulsePeriodUs with
       | none => 1
       | some m => max 1 ((m * s.cpu.ips + (10 ^ 6 - 1)) / 10 ^ 6)) →
    pulsesIn =
      (match params.pulseSource with
       | .instructionCount => max 1 (us * s.cpu.ips / (10 ^ 6 * quantumOf))
       | .realTime => max 1 (us / params.sleepUs)) →
    (s.clk.timers.length < 10 →
      exec (.clkRegisterDevice d us continuous) s =
        .next { s with
          clk := { s.clk with
            timers := s.clk.timers ++
              [{ owner := d, interval := pulsesIn, countdown := pulsesIn, active := true, continuous := continuous }] }
          result := .ok .success }) ∧
    (10 ≤ s.clk.timers.length →
      exec (.clkRegisterDevice d us continuous) s =
        .next { s with
          log := s.log ++ [.timerCapacityExceeded d], result := .cond .timerCapacityExceeded .failure })

/-- `CLK.resetTimer` and `CLK.setTimerActiveState` change the least slot the device owns and no other; a device with no
slot gets the condition (R216 to R218). -/
def Obligations.TimerReconfiguration : Prop :=
  ∀ (d : Device) (s : State),
    (∀ (i : Nat) (x : Timer), s.clk.timers[i]? = some x → x.owner = d →
      (∀ j y, j < i → s.clk.timers[j]? = some y → y.owner ≠ d) →
      (∀ us, ∃ t, exec (.clkResetTimer d us) s = .next t ∧
        t = { s with clk := { s.clk with timers := t.clk.timers }, result := .ok .success } ∧
        ∀ j, t.clk.timers[j]? =
          if j = i then some { x with interval := pulsesOf params us s, countdown := pulsesOf params us s }
          else s.clk.timers[j]?) ∧
      (∀ active, ∃ t, exec (.clkSetTimerActiveState d active) s = .next t ∧
        t = { s with clk := { s.clk with timers := t.clk.timers }, result := .ok .success } ∧
        ∀ j, t.clk.timers[j]? =
          if j = i then
            some { x with
              active := active
              countdown := if active = true ∧ x.countdown = 0 then x.interval else x.countdown }
          else s.clk.timers[j]?)) ∧
    ((∀ x ∈ s.clk.timers, x.owner ≠ d) →
      (∀ us, exec (.clkResetTimer d us) s =
        .next { s with log := s.log ++ [.noSuchTimer d], result := .cond .noSuchTimer .failure }) ∧
      ∀ active, exec (.clkSetTimerActiveState d active) s =
        .next { s with log := s.log ++ [.noSuchTimer d], result := .cond .noSuchTimer .failure })

/-- `CLK.signalPulse` counts a pulse only in real-time mode with the Clock running, and touches no timer (R219). -/
def Obligations.SignalPulse : Prop :=
  ∀ s : State, exec .clkSignalPulse s =
    .next
      (if params.pulseSource = .realTime ∧ s.clk.running = true then
        { s with clk := { s.clk with pendingRtPulses := s.clk.pendingRtPulses + 1 }, result := .ok .unit }
       else { s with result := .ok .unit })

/-- A pulse that lets no timer reach zero lowers the countdown of every active timer by one and changes nothing else
(R214). -/
def Obligations.PulseCountsDown : Prop :=
  ∀ s : State, s.clk.timers.length ≤ 10 → (∀ x ∈ s.clk.timers, x.active = true → 2 ≤ x.countdown) →
    exec .clkPulse s =
      .next { s with
        clk := { s.clk with
          timers := s.clk.timers.map fun x => if x.active then { x with countdown := x.countdown - 1 } else x }
        result := .ok .unit }

/-- A pulse on a table whose only timer is a channel's, due, performs the channel's update once and then re-arms the
timer if it is continuous and stops it if it is one-shot. On any table it visits the slots in ascending order, each as the
callbacks before it left it: a due slot of a channel or of an external device has its owner updated first, and is re-armed
or stopped after (R214, R215). -/
def Obligations.PulseFires : Prop :=
  (∀ (ch : Nat) (x : Timer) (s : State), ch < s.ata.length → s.clk.timers = [x] → x.owner = .ata ch →
    x.active = true → x.countdown = 1 →
    ∃ u, exec (.ataUpdate ch) { s with clk := { s.clk with timers := [{ x with countdown := 0 }] } } = .next u ∧
      exec .clkPulse s =
        .next { u with
          clk := { u.clk with
            timers :=
              [if x.continuous then { x with countdown := x.interval } else { x with countdown := 0, active := false }] }
          result := .ok .unit }) ∧
  ∀ s : State, ∃ visit : Nat → State, visit 0 = s ∧ (∀ i, i < 10 → SlotVisited i (visit i) (visit (i + 1))) ∧
    exec .clkPulse s = .next { visit 10 with result := .ok .unit }

/-- A timer left alone: continuous with interval N it reaches zero at pulses N, 2N, 3N and so on, for ever; one-shot it
reaches zero at pulse N and is inactive from then on (R224 (a)). -/
def Obligations.TimerPeriod : Prop :=
  ∀ (ch N : Nat) (s : State), ch < s.ata.length → 1 ≤ N →
    (chan s ch).drive0.isBusy = false → (chan s ch).drive1.isBusy = false →
    (s.clk.timers =
        [{ owner := .ata ch, interval := N, countdown := N, active := true, continuous := true }] →
      ∀ k, ∃ t, performAll (pseudoClkPulses k) s = .next t ∧
        t.clk.timers =
          [{ owner := .ata ch, interval := N, countdown := N - k % N, active := true, continuous := true }]) ∧
    (s.clk.timers =
        [{ owner := .ata ch, interval := N, countdown := N, active := true, continuous := false }] →
      ∀ k, ∃ t, performAll (pseudoClkPulses k) s = .next t ∧
        t.clk.timers =
          [{ owner := .ata ch, interval := N, countdown := N - k, active := decide (k < N), continuous := false }])

/-! ### ATA channel -/

/-- `ATA.reset` of the one default channel: bases, line, ports, timer, flags, selection and drives as R241's steps say;
an interrupt that the channel had raised is lowered on its new line, a latched request staying in edge mode; each failed
step is logged by the operation that raises it; success exactly when both a line and a timer were had. That a registered
channel with no timer logs NoSuchTimer is the model's reading (log entry 18). -/
def Obligations.AtaReset : Prop :=
  ∀ s : State, 0 < s.ata.length → MapsOk s → ChannelOk (chan s 0) →
    ∃ t, exec (.ataReset 0) s = .next t ∧
      t = { s with
        bus := t.bus, picM := t.picM, picS := t.picS, irqOwner := t.irqOwner,
        clk := { s.clk with timers := t.clk.timers }, ata := t.ata, log := t.log, result := t.result } ∧
      OnlyChannel 0
        { chan s 0 with
          drive0 := driveResetOf (chan s 0).drive0, drive1 := driveResetOf (chan s 0).drive1, selected := 0,
          ioBase1 := 0x1F0, ioBase2 := 0x3F0, irqNumber := lineResult (requestIRQNumber params (.ata 0) s).2,
          nIEN := false, srst := false, irqRaised := false,
          timerRegistered := (chan s 0).timerRegistered || decide (s.clk.timers.length < 10) } s t ∧
      t.irqOwner = (requestIRQNumber params (.ata 0) s).1.irqOwner ∧
      (∀ a : Half, portEntry t a =
        if a ∈ [0x1F0, 0x1F1, 0x1F2, 0x1F3, 0x1F4, 0x1F5, 0x1F6, 0x1F7, 0x3F6, 0x3F7] then
          portAfter (portEntry s a) (.ata 0) .rw
        else portEntry s a) ∧
      ((chan s 0).timerRegistered = false → s.clk.timers.length < 10 →
        ∀ table, table = s.clk.timers ++
            [{ owner := .ata 0, interval := pulsesOf params params.ataCmdDelayUs s,
               countdown := pulsesOf params params.ataCmdDelayUs s, active := true, continuous := false }] →
          ∀ i, t.clk.timers[i]? =
            if table.findIdx? (fun x => x.owner == .ata 0) = some i then
              (table[i]?).map fun x => { x with active := false }
            else table[i]?) ∧
      ((chan s 0).timerRegistered = false → 10 ≤ s.clk.timers.length → t.clk.timers = s.clk.timers) ∧
      ((chan s 0).timerRegistered = true → ∀ i, t.clk.timers[i]? =
        if lookupTimer s (.ata 0) = some i then (s.clk.timers[i]?).map fun x => { x with active := false }
        else s.clk.timers[i]?) ∧
      ((chan s 0).irqRaised = false ∨ (chan t 0).irqNumber < 0 → t.picM = s.picM ∧ t.picS = s.picS) ∧
      (∀ n : Nat, (chan s 0).irqRaised = true → (chan t 0).irqNumber = n →
        (∃ u, exec (.picClearIRQ n) s = .next u ∧ t.picM = u.picM ∧ t.picS = u.picS) ∧
        linePin t n = false ∧
        ((picOf s (ctrlOfLine n)).levelTriggered = false → lineIrr t n = lineIrr s n)) ∧
      t.log = s.log ++
        (if (chan t 0).irqNumber < 0 then [.irqExhausted (.ata 0)] else []) ++
        (if (chan s 0).timerRegistered = true then
          (if lookupTimer s (.ata 0) = none then [.noSuchTimer (.ata 0)] else [])
         else if s.clk.timers.length < 10 then []
         else [.timerCapacityExceeded (.ata 0)]) ∧
      (t.result = .ok .success ↔ 0 ≤ (chan t 0).irqNumber ∧ (chan t 0).timerRegistered = true) ∧
      (t.result ≠ .ok .success → t.result = .failed)

/-- An operation of a channel the machine does not have changes nothing (R115): a selection is refused with the condition
its rule names (R245, R360), a reset fails, a read answers all ones and a write is ignored as in the last rows of R271 and
R272. What each answers is the model's reading (log entry 16). So every operation completes: none faults or is refused. -/
def Obligations.AtaAbsentChannel : Prop :=
  (∀ (ch : Nat) (s : State), s.ata.length ≤ ch →
    exec (.ataReset ch) s = .next { s with result := .failed } ∧
    exec (.modReset (.ata ch)) s = .next { s with result := .failed } ∧
    (∀ k, exec (.ataSetSelectedDriveIndex ch k) s =
      .next { s with log := s.log ++ [.noSuchDriveIndex ch k], result := .cond .noSuchDrive .unit }) ∧
    (∀ i ∈ [Instr.ataRdError ch, .ataRdDrvHead ch, .ataRdStatus ch, .ataRdAltStatus ch, .ataRdDrvAddr ch],
      exec i s = .next { s with result := .ok (.port .byte 0xFF) }) ∧
    (∀ o, exec (.ataRdParam ch o) s = .next { s with result := .ok (.port .byte 0xFF) }) ∧
    (∀ w, exec (.ataRdData ch w) s = .next { s with result := .ok (.port w (filler w)) }) ∧
    exec (.ataUpdate ch) s = .next { s with result := .ok .unit } ∧
    (∀ w v, exec (.ataWrData ch w v) s = .next { s with result := .ok .unit }) ∧
    (∀ o b, exec (.ataWrParam ch o b) s = .next { s with result := .ok .unit }) ∧
    (∀ b, ∀ i ∈ [Instr.ataWrFeatures ch b, .ataWrCommand ch b, .ataWrDrvAddr ch b],
      exec i s = .next { s with result := .ok .unit }) ∧
    (∀ lba drv head, exec (.ataWrDrvHead ch lba drv head) s = .next { s with result := .ok .unit }) ∧
    (∀ srst nien, exec (.ataWrDevCtl ch srst nien) s = .next { s with result := .ok .unit }) ∧
    ∀ (a : Half) (attr : Attr), portEntry s a = some { owner := .ata ch, attr := attr } →
      (attr ≠ .writeOnly → ∀ w, exec (.busReadPort a w) s = .next { s with result := .ok (.port w (filler w)) }) ∧
      (attr ≠ .readOnly → ∀ w v, exec (.busWritePort a w v) s = .next { s with result := .ok .unit })) ∧
  ∀ (i : Instr) (s : State), ∃ t, exec i s = .next t

/-- `ATA.setSelectedDriveIndex` selects slot 0 or 1, attached or not, and touches nothing else; a larger index is refused,
whether or not the machine has the channel (R245). -/
def Obligations.SelectDrive : Prop :=
  ∀ (ch k : Nat) (s : State),
    (ch < s.ata.length → ∀ h : k < 2, ∃ t, exec (.ataSetSelectedDriveIndex ch k) s = .next t ∧
      t = { s with ata := t.ata, result := .ok .unit } ∧
      OnlyChannel ch { chan s ch with selected := ⟨k, h⟩ } s t) ∧
    (2 ≤ k → exec (.ataSetSelectedDriveIndex ch k) s =
      .next { s with log := s.log ++ [.noSuchDriveIndex ch k], result := .cond .noSuchDrive .unit })

/-- A numeric selector `n` is drive `n mod 2` of channel `n div 2`, if the machine has that channel, and a name is the
selector that `DriveNames` gives it, if it knows it; `ATA.insert` and `ATA.eject`: the checks in their order, each with its
condition, and the slot's fields after a success (R247 to R249). -/
def Obligations.AttachDetach : Prop :=
  (∀ (n : Nat) (s : State),
    (∀ (ch : Nat) (k : Fin 2),
      resolveSel params (.index n) s = some (ch, k) ↔ ch = n / 2 ∧ k.val = n % 2 ∧ n / 2 < s.ata.length) ∧
    (resolveSel params (.index n) s = none ↔ s.ata.length ≤ n / 2)) ∧
  (∀ (bytes : List Byte) (s : State),
    (params.driveNames bytes = none → resolveSel params (.name bytes) s = none) ∧
    ∀ n, params.driveNames bytes = some n → resolveSel params (.name bytes) s = resolveSel params (.index n) s) ∧
  ∀ (sel : DriveSel) (s : State),
    (resolveSel params sel s = none →
      (∀ carrier image wp, exec (.ataInsert sel carrier image wp) s =
        .next { s with log := s.log ++ [.noSuchDrive sel], result := .cond .noSuchDrive .failure }) ∧
      exec (.ataEject sel) s =
        .next { s with log := s.log ++ [.noSuchDrive sel], result := .cond .noSuchDrive .failure }) ∧
    ∀ (ch : Nat) (k : Fin 2), resolveSel params sel s = some (ch, k) →
      (∀ carrier image wp,
        exec (.ataInsert sel carrier image wp) s =
          .next
            (if carrier = .none then
              { s with log := s.log ++ [.attachInvalid sel], result := .cond .attachInvalid .failure }
             else if (chan s ch).drive0.phase ≠ .idle ∨ (chan s ch).drive1.phase ≠ .idle then
              { s with log := s.log ++ [.driveBusy sel], result := .cond .driveBusy .failure }
             else if (driveOf (chan s ch) k).type ≠ .none then
              { s with log := s.log ++ [.slotOccupied sel], result := .cond .slotOccupied .failure }
             else if params.imageAddressable s.world carrier (roleOf k) image = true then
              { modDrive ch k
                  (fun d => { d with
                    type := carrier, image := some image, writeProtected := wp, ready := true,
                    seekComplete := true }) s with
                result := .ok .success }
             else { s with log := s.log ++ [.attachInvalid sel], result := .cond .attachInvalid .failure })) ∧
      exec (.ataEject sel) s =
        .next
          (if (driveOf (chan s ch) k).type = .none then
            { s with log := s.log ++ [.driveAbsent sel], result := .cond .driveAbsent .failure }
           else if (driveOf (chan s ch) k).phase ≠ .idle then
            { s with log := s.log ++ [.driveBusy sel], result := .cond .driveBusy .failure }
           else
            { modDrive ch k
                (fun d => { d with
                  type := .none, image := none, writeProtected := false, ready := false, seekComplete := false }) s with
              result := .ok .success })

/-- Round trip: into an absent slot of an idle channel, an attach that the image predicate admits succeeds, and the eject
after it leaves the whole machine as it was (R248). -/
def Obligations.InsertEjectRoundTrip : Prop :=
  ∀ (sel : DriveSel) (ch : Nat) (k : Fin 2) (carrier : Carrier) (image : Nat) (wp : Bool) (s : State),
    resolveSel params sel s = some (ch, k) → carrier ≠ .none →
    (chan s ch).drive0.phase = .idle → (chan s ch).drive1.phase = .idle →
    (driveOf (chan s ch) k).type = .none → (driveOf (chan s ch) k).image = none →
    (driveOf (chan s ch) k).writeProtected = false → (driveOf (chan s ch) k).ready = false →
    (driveOf (chan s ch) k).seekComplete = false →
    ∃ t, exec (.ataInsert sel carrier image wp) s = .next t ∧
      (if params.imageAddressable s.world carrier (roleOf k) image = true then
        t.result = .ok .success ∧ driveState (chan t ch) k ≠ .absent ∧
          exec (.ataEject sel) t = .next { s with result := .ok .success }
       else t.result = .cond .attachInvalid .failure)

/-- `ATA.update`: each drive with a command completes it as its plan says, the other keeps still, and one interrupt is
raised if any completed, interrupts are enabled and the channel has a line (R286, R287). -/
def Obligations.AtaUpdate : Prop :=
  ∀ (ch : Nat) (s : State), ch < s.ata.length →
    ∃ t, exec (.ataUpdate ch) s = .next t ∧
      t = { s with
        picM := t.picM, picS := t.picS, ata := t.ata, log := t.log, world := t.world, result := .ok .unit } ∧
      t.world =
        (completion params (completion params s.world 0 (chan s ch).drive0).2.1 1 (chan s ch).drive1).2.1 ∧
      (if ((completion params s.world 0 (chan s ch).drive0).2.2 ||
            (completion params (completion params s.world 0 (chan s ch).drive0).2.1 1 (chan s ch).drive1).2.2) &&
            !(chan s ch).nIEN &&
            decide (0 ≤ (chan s ch).irqNumber) then
        OnlyChannel ch
          { chan s ch with
            drive0 := (completion params s.world 0 (chan s ch).drive0).1
            drive1 :=
              (completion params (completion params s.world 0 (chan s ch).drive0).2.1 1 (chan s ch).drive1).1
            irqRaised := true } s t ∧
        t.picM = (assertIRQ params (chan s ch).irqNumber.toNat s).1.picM ∧
        t.picS = (assertIRQ params (chan s ch).irqNumber.toNat s).1.picS ∧
        t.log = (assertIRQ params (chan s ch).irqNumber.toNat s).1.log
       else
        OnlyChannel ch
          { chan s ch with
            drive0 := (completion params s.world 0 (chan s ch).drive0).1
            drive1 :=
              (completion params (completion params s.world 0 (chan s ch).drive0).2.1 1 (chan s ch).drive1).1 } s t ∧
        t.picM = s.picM ∧ t.picS = s.picS ∧ t.log = s.log)

/-- `ATA.RD_DATA`: outside a data-in transfer all ones and no change; within it the next bytes of the buffer, low byte
first, 0xFF past its end, and the end of the buffer ends the transfer (R281). -/
def Obligations.ReadData : Prop :=
  ∀ (ch : Nat) (w : Width) (s : State), ch < s.ata.length →
    ((selectedDrive (chan s ch)).type = .none ∨ (selectedDrive (chan s ch)).phase ≠ .dataIn →
      exec (.ataRdData ch w) s = .next { s with result := .ok (.port w (filler w)) }) ∧
    ((selectedDrive (chan s ch)).type ≠ .none → (selectedDrive (chan s ch)).phase = .dataIn →
      (selectedDrive (chan s ch)).bufPos ≤ (selectedDrive (chan s ch)).buffer.length →
      ∃ t v, exec (.ataRdData ch w) s = .next t ∧ t = { s with ata := t.ata, result := .ok (.port w v) } ∧
        v.toNat < 2 ^ w.bits ∧
        (∀ j, j < widthBytes w → v.extractLsb' (8 * j) 8 =
          (selectedDrive (chan s ch)).buffer.getD ((selectedDrive (chan s ch)).bufPos + j) 0xFF) ∧
        OnlyChannel ch
          (onDrive (chan s ch).selected
            (fun d =>
              if d.buffer.length ≤ d.bufPos + widthBytes w then
                { d with phase := .idle, buffer := [], bufPos := 0 }
              else { d with bufPos := d.bufPos + widthBytes w })
            (chan s ch)) s t)

/-- `ATA.WR_DATA`: ignored unless the selected drive wants data; else its bytes, low byte first, are appended as far as
the count wants, and the last one wanted makes the drive busy and arms the timer (R282). That a missing timer is logged
twice, once by each Clock call of `arm`, is the model's reading (log entry 18). -/
def Obligations.WriteData : Prop :=
  ∀ (ch : Nat) (w : Width) (v : Long) (s : State), ch < s.ata.length →
    ((chan s ch).srst = true ∨ (∀ n tag, (selectedDrive (chan s ch)).phase ≠ .dataOut n tag) →
      exec (.ataWrData ch w v) s = .next { s with result := .ok .unit }) ∧
    ∀ (n tag : Nat) (bytes : List Byte), (chan s ch).srst = false →
      (selectedDrive (chan s ch)).phase = .dataOut n tag →
      bytes = (selectedDrive (chan s ch)).buffer ++
        (((List.range (widthBytes w)).map fun j => v.extractLsb' (8 * j) 8).take
          (n - (selectedDrive (chan s ch)).buffer.length)) →
      ∃ t, exec (.ataWrData ch w v) s = .next t ∧
        t = { s with
          ata := t.ata, clk := { s.clk with timers := t.clk.timers }, log := t.log, result := .ok .unit } ∧
        (if bytes.length = n then
          OnlyChannel ch
            (onDrive (chan s ch).selected
              (fun d => { d with buffer := bytes, phase := .busy (.finish tag bytes) }) (chan s ch)) s t ∧
          TimersArmed ch s t
         else
          OnlyChannel ch
            (onDrive (chan s ch).selected (fun d => { d with buffer := bytes }) (chan s ch)) s t ∧
          TimersKept s t)

/-- `ATA.WR_COMMAND`: ignored while the channel is reset or busy or the selected slot is empty; else the interrupt is
lowered, the error state and buffer cleared, and the plan put into effect, with the timer armed unless the command asks
for data (R280). That a missing timer is logged twice, once by each Clock call of `arm`, is the model's reading (log
entry 18). -/
def Obligations.WriteCommand : Prop :=
  ∀ (ch : Nat) (b : Byte) (s : State), ch < s.ata.length → ChannelOk (chan s ch) →
    ((chan s ch).srst = true ∨ (selectedDrive (chan s ch)).isBusy = true ∨
        (selectedDrive (chan s ch)).type = .none →
      exec (.ataWrCommand ch b) s = .next { s with result := .ok .unit }) ∧
    ((chan s ch).srst = false → (selectedDrive (chan s ch)).isBusy = false →
      (selectedDrive (chan s ch)).type ≠ .none →
      ∃ plan world t, exec (.ataWrCommand ch b) s = .next t ∧
        params.ataStart s.world b (viewOf (chan s ch).selected (selectedDrive (chan s ch)))
          (taskRegsOf (selectedDrive (chan s ch))) = (plan, world) ∧
        t = { s with
          picM := (loweredPics ch s).1, picS := (loweredPics ch s).2, ata := t.ata,
          clk := { s.clk with timers := t.clk.timers }, log := t.log, world := world, result := .ok .unit } ∧
        OnlyChannel ch
          (onDrive (chan s ch).selected
            (fun d => { d with
              err := false, error := 0x00, buffer := [], bufPos := 0,
              phase :=
                match plan with
                | .abort => .busy .abort
                | .done r => .busy (.done r)
                | .dataIn bytes r => .busy (.dataIn bytes r)
                | .dataOut 0 tag => .busy (.finish tag [])
                | .dataOut (n + 1) tag => .dataOut (n + 1) tag })
            { chan s ch with irqRaised := false }) s t ∧
        (match plan with
         | .dataOut (_ + 1) _ => TimersKept s t
         | _ => TimersArmed ch s t))

/-- The byte registers that are read without effect: error, the four parameters, drive/head, alternate status and drive
address, each of the selected drive and always answered (R273, R275, R278, R283, R285, R289). -/
def Obligations.TaskRegisterReads : Prop :=
  ∀ (ch : Nat) (s : State), ch < s.ata.length →
    exec (.ataRdError ch) s =
      .next { s with result := .ok (.port .byte ((selectedDrive (chan s ch)).error.setWidth 32)) } ∧
    exec (.ataRdParam ch .sectorCount) s =
      .next { s with result := .ok (.port .byte ((selectedDrive (chan s ch)).sectorCount.setWidth 32)) } ∧
    exec (.ataRdParam ch .sectorNumber) s =
      .next { s with result := .ok (.port .byte ((selectedDrive (chan s ch)).sectorNumber.setWidth 32)) } ∧
    exec (.ataRdParam ch .cylLow) s =
      .next { s with result := .ok (.port .byte ((selectedDrive (chan s ch)).cylLow.setWidth 32)) } ∧
    exec (.ataRdParam ch .cylHigh) s =
      .next { s with result := .ok (.port .byte ((selectedDrive (chan s ch)).cylHigh.setWidth 32)) } ∧
    exec (.ataRdDrvHead ch) s =
      .next { s with
        result := .ok (.port .byte (BitVec.ofNat 32
          (0xA0 + 0x40 * (selectedDrive (chan s ch)).lba.toNat + 0x10 * (chan s ch).selected.val +
            (selectedDrive (chan s ch)).head.toNat))) } ∧
    exec (.ataRdAltStatus ch) s =
      .next { s with
        result := .ok (.port .byte (BitVec.ofNat 32 (statusSum (chan s ch).srst (selectedDrive (chan s ch))))) } ∧
    exec (.ataRdDrvAddr ch) s = .next { s with result := .ok (.port .byte 0xFF) }

/-- `ATA.RD_STATUS` gives the status byte of the selected drive and lowers the channel's interrupt (R279, R287). -/
def Obligations.ReadStatus : Prop :=
  ∀ (ch : Nat) (s : State), ch < s.ata.length → ChannelOk (chan s ch) →
    ∃ t, exec (.ataRdStatus ch) s = .next t ∧
      t = { s with
        picM := (loweredPics ch s).1, picS := (loweredPics ch s).2, ata := t.ata,
        result := .ok (.port .byte (BitVec.ofNat 32 (statusSum (chan s ch).srst (selectedDrive (chan s ch))))) } ∧
      OnlyChannel ch { chan s ch with irqRaised := false } s t

/-- The byte registers that are written: features, the four parameters and drive/head reach both drives, drive/head then
selects; all are ignored while the channel is reset or the selected drive busy; drive address is ignored always (R274,
R276, R277, R288, R290). -/
def Obligations.TaskRegisterWrites : Prop :=
  ∀ (ch : Nat) (s : State), ch < s.ata.length →
    (∀ b, exec (.ataWrDrvAddr ch b) s = .next { s with result := .ok .unit }) ∧
    ((chan s ch).srst = true ∨ (selectedDrive (chan s ch)).isBusy = true →
      (∀ b, exec (.ataWrFeatures ch b) s = .next { s with result := .ok .unit }) ∧
      (∀ o b, exec (.ataWrParam ch o b) s = .next { s with result := .ok .unit }) ∧
      ∀ lba drv head, exec (.ataWrDrvHead ch lba drv head) s = .next { s with result := .ok .unit }) ∧
    ((chan s ch).srst = false → (selectedDrive (chan s ch)).isBusy = false →
      (∀ b, ∃ t, exec (.ataWrFeatures ch b) s = .next t ∧ t = { s with ata := t.ata, result := .ok .unit } ∧
        OnlyChannel ch (onBothDrives (fun d => { d with features := b }) (chan s ch)) s t) ∧
      (∀ b, ∃ t, exec (.ataWrParam ch .sectorCount b) s = .next t ∧ t = { s with ata := t.ata, result := .ok .unit } ∧
        OnlyChannel ch (onBothDrives (fun d => { d with sectorCount := b }) (chan s ch)) s t) ∧
      (∀ b, ∃ t, exec (.ataWrParam ch .sectorNumber b) s = .next t ∧ t = { s with ata := t.ata, result := .ok .unit } ∧
        OnlyChannel ch (onBothDrives (fun d => { d with sectorNumber := b }) (chan s ch)) s t) ∧
      (∀ b, ∃ t, exec (.ataWrParam ch .cylLow b) s = .next t ∧ t = { s with ata := t.ata, result := .ok .unit } ∧
        OnlyChannel ch (onBothDrives (fun d => { d with cylLow := b }) (chan s ch)) s t) ∧
      (∀ b, ∃ t, exec (.ataWrParam ch .cylHigh b) s = .next t ∧ t = { s with ata := t.ata, result := .ok .unit } ∧
        OnlyChannel ch (onBothDrives (fun d => { d with cylHigh := b }) (chan s ch)) s t) ∧
      ∀ lba drv head, ∃ t, exec (.ataWrDrvHead ch lba drv head) s = .next t ∧
        t = { s with ata := t.ata, result := .ok .unit } ∧
        OnlyChannel ch
          { onBothDrives (fun d => { d with head := head, lba := lba }) (chan s ch) with
            selected := if drv = true then 1 else 0 } s t)

/-- `ATA.WR_DEVCTL`: the interrupt disable bit is written and setting it lowers the line; a rising SRST lowers the line,
stops the timer and drops every command; a falling one selects the master and resets both drives (R284). That a rising
SRST of a channel with no timer logs NoSuchTimer is the model's reading (log entry 18). -/
def Obligations.DeviceControl : Prop :=
  ∀ (ch : Nat) (srst nien : Bool) (s : State), ch < s.ata.length → ChannelOk (chan s ch) →
    ∃ t, exec (.ataWrDevCtl ch srst nien) s = .next t ∧
      t = { s with
        picM := t.picM, picS := t.picS, ata := t.ata, clk := { s.clk with timers := t.clk.timers }, log := t.log,
        result := .ok .unit } ∧
      (t.picM, t.picS) =
        (if nien = true ∨ (srst = true ∧ (chan s ch).srst = false) then loweredPics ch s else (s.picM, s.picS)) ∧
      (if srst = true ∧ (chan s ch).srst = false then
        OnlyChannel ch
          (onBothDrives (fun d => { d with phase := .idle, buffer := [], bufPos := 0 })
            { chan s ch with nIEN := nien, irqRaised := false, srst := true }) s t ∧
        (∀ i, t.clk.timers[i]? =
          if lookupTimer s (.ata ch) = some i then (s.clk.timers[i]?).map fun x => { x with active := false }
          else s.clk.timers[i]?) ∧
        t.log = s.log ++ (if lookupTimer s (.ata ch) = none then [.noSuchTimer (.ata ch)] else [])
       else if srst = false ∧ (chan s ch).srst = true then
        OnlyChannel ch
          (onBothDrives driveResetOf
            { chan s ch with
              nIEN := nien, irqRaised := if nien = true then false else (chan s ch).irqRaised, srst := false,
              selected := 0 }) s t ∧
        TimersKept s t
       else
        OnlyChannel ch
          { chan s ch with
            nIEN := nien, irqRaised := if nien = true then false else (chan s ch).irqRaised } s t ∧
        TimersKept s t)

/-- A drive reset gives every task register its signature, drops a command in flight and keeps type, image and write
protection (R246; the values are the spec's own choice, marked as general knowledge, D39). -/
def Obligations.DriveReset : Prop :=
  ∀ d : Drive, driveResetOf d =
    { type := d.type, image := d.image, writeProtected := d.writeProtected,
      ready := decide (d.type ≠ .none), error := 0x01, features := 0x00, sectorCount := 0x01, sectorNumber := 0x01,
      cylLow := if d.type = .cdrom then 0x14 else 0x00, cylHigh := if d.type = .cdrom then 0xEB else 0x00,
      head := 0, lba := false, err := false, seekComplete := decide (d.type ≠ .none), phase := .idle, buffer := [],
      bufPos := 0 }

/-! ### CPU loop -/

/-- A stopped or held CPU changes nothing at all in a step, and the stop is tested before the hold (R301, R302). -/
def Obligations.CpuStoppedOrStalled : Prop :=
  ∀ s : State,
    (s.cpu.running = false → exec .cpuStep s = .next { s with result := .ok .stopped }) ∧
    (s.cpu.running = true → s.cpu.holdSet ≠ [] → exec .cpuStep s = .next { s with result := .ok .stalled })

/-- A running, unheld CPU takes the interrupt that is due after the queued pulses, executes one instruction, adds exactly
one to the counter and then pulses if that is due; run flag, rates and ROM are untouched. The queued pulses are as many
pulses as are pending, in real-time mode, with none left pending; an interrupt is due when the master requests one and
FLAGS bit 9 is set; the instruction is what `ExecOne` makes of the registers and the byte at CS:IP, its accesses
performed in order and its registers written at the end; the pulse is due, in instruction-count mode, when the counter is a
multiple of the quantum (R53, R54, R126, R301, R303, R304, R305, R308, R317, R220). That the byte at the fetch address is
read first, and that the registers are written at the end, is the model's reading (log entry 9). -/
def Obligations.CpuStepExecutes : Prop :=
  (∀ P : Params, GuestMemory P) ∧ GuestPorts ∧
  (∀ s : State, s.cpu.running = true → s.cpu.holdSet = [] →
    ∃ t u, exec .cpuStep s = .next t ∧
      u = (if interruptDue (drainPulses params s) then
            interruptEntry params (acknowledge params (drainPulses params s)).1
              (acknowledge params (drainPulses params s)).2
           else drainPulses params s) ∧
      t = { instructionPulse params (countInstruction (execInstruction params u)) with
        result := .ok (.executed
          (if interruptDue (drainPulses params s) then some (acknowledge params (drainPulses params s)).1 else none)) } ∧
      t.cpu.instrCounter = s.cpu.instrCounter + 1 ∧ t.cpu.running = true ∧ t.cpu.ips = s.cpu.ips ∧
      t.cpu.minPulsePeriodUs = s.cpu.minPulsePeriodUs ∧ t.rom = s.rom ∧ t.inbox = s.inbox) ∧
  ∀ s : State,
    (params.pulseSource = .instructionCount → drainPulses params s = s) ∧
    (params.pulseSource = .realTime → ∃ after : Nat → State,
      after 0 = { s with clk := { s.clk with pendingRtPulses := 0 } } ∧
      (∀ k, k < s.clk.pendingRtPulses → exec .clkPulse (after k) = .next { after (k + 1) with result := .ok .unit }) ∧
      drainPulses params s = after s.clk.pendingRtPulses) ∧
    (interruptDue s = true ↔ (∃ l, selected s.picM = some l) ∧ s.cpu.x.flags.getLsbD 9 = true) ∧
    exec .picAcknowledge s =
      .next { (acknowledge params s).2 with result := .ok (.vector (acknowledge params s).1) } ∧
    execInstruction params s =
      runGuest params
        (.memRead ((s.cpu.x.cs.toNat * 16 + s.cpu.x.ip.toNat) % 2 ^ 20) 1
          fun fetched => params.execOne s.cpu.x (BitVec.ofNat 8 fetched)) s ∧
    (∀ x, runGuest params (.done x) s = { s with cpu := { s.cpu with x := x } }) ∧
    countInstruction s = { s with cpu := { s.cpu with instrCounter := s.cpu.instrCounter + 1 } } ∧
    ∀ q, q =
        (match s.cpu.minPulsePeriodUs with
         | none => 1
         | some m => max 1 ((m * s.cpu.ips + (10 ^ 6 - 1)) / 10 ^ 6)) →
      if params.pulseSource = .instructionCount ∧ s.cpu.instrCounter % q = 0 then
        exec .clkPulse s = .next { instructionPulse params s with result := .ok .unit }
      else instructionPulse params s = s

/-- Interrupt entry: FLAGS, CS and IP pushed below SS:SP, the enable and trap bits cleared, CS:IP read from the table
entry of the vector, and no other register or byte of memory changed (R307, which the spec marks as general knowledge,
D44; the address of a word's second byte: log entry 26). -/
def Obligations.InterruptEntry : Prop :=
  ∀ (P : Params) (v : Byte) (s : State) (a1 a2 a3 : Nat), 2 ^ 20 < P.memSize → Memory.wf s.mem = true →
    a1 = linear s.cpu.x.ss (s.cpu.x.sp - 2) → a2 = linear s.cpu.x.ss (s.cpu.x.sp - 4) →
    a3 = linear s.cpu.x.ss (s.cpu.x.sp - 6) →
    ∃ t, interruptEntry P v s = t ∧
      t = { s with mem := t.mem, cpu := { s.cpu with x := t.cpu.x } } ∧
      t.cpu.x =
        { s.cpu.x with
          sp := s.cpu.x.sp - 6, flags := t.cpu.x.flags,
          ip := memByte t.mem (4 * v.toNat + 1) ++ memByte t.mem (4 * v.toNat),
          cs := memByte t.mem (4 * v.toNat + 3) ++ memByte t.mem (4 * v.toNat + 2) } ∧
      (∀ k, t.cpu.x.flags.getLsbD k = (s.cpu.x.flags.getLsbD k && decide (k ≠ 9) && decide (k ≠ 8))) ∧
      ∀ a, memByte t.mem a =
        if a = a3 + 1 then s.cpu.x.ip.extractLsb' 8 8
        else if a = a3 then s.cpu.x.ip.extractLsb' 0 8
        else if a = a2 + 1 then s.cpu.x.cs.extractLsb' 8 8
        else if a = a2 then s.cpu.x.cs.extractLsb' 0 8
        else if a = a1 + 1 then s.cpu.x.flags.extractLsb' 8 8
        else if a = a1 then s.cpu.x.flags.extractLsb' 0 8
        else memByte s.mem a

/-- `CPU.getRegister` and `CPU.setRegister`: two bytes, most significant first, of the register of that exact name; an
unknown name and a wrong number of bytes are told apart, the name first (R310, R311). -/
def Obligations.RegisterAccess : Prop :=
  (∀ (r : Reg) (s : State),
    exec (.cpuGetRegister (regName r)) s =
      .next { s with
        result := .ok (.bytes [(regGet s.cpu.x r).extractLsb' 8 8, (regGet s.cpu.x r).extractLsb' 0 8]) } ∧
    (∀ h l : Byte, ∃ t, exec (.cpuSetRegister (regName r) [h, l]) s = .next t ∧
      t = { s with cpu := { s.cpu with x := t.cpu.x }, result := .ok .unit } ∧
      ∀ k : Reg, regGet t.cpu.x k = if k = r then h ++ l else regGet s.cpu.x k) ∧
    ∀ bytes : List Byte, bytes.length ≠ 2 →
      exec (.cpuSetRegister (regName r) bytes) s =
        .next { s with
          log := s.log ++ [.writeDisallowed (regName r)], result := .cond .writeDisallowed .unit }) ∧
  ∀ (name : List Byte) (s : State), (∀ r : Reg, name ≠ regName r) →
    exec (.cpuGetRegister name) s =
      .next { s with log := s.log ++ [.unknownRegister name], result := .cond .unknownRegister (.bytes []) } ∧
    ∀ bytes, exec (.cpuSetRegister name bytes) s =
      .next { s with log := s.log ++ [.unknownRegister name], result := .cond .unknownRegister .unit }

/-- Hold requests form a set that each device enters and leaves; start and stop write the run flag alone; reset gives
every register its value, zeroes the counter, empties the hold set and keeps the run flag (R60, R309, R312 to R314; the
reset values are the spec's own choice, D45, D46). -/
def Obligations.CpuControl : Prop :=
  ∀ s : State,
    (∀ (d : Device) (on : Bool), ∃ t, exec (.cpuSetHoldRequest d on) s = .next t ∧
      t = { s with cpu := { s.cpu with holdSet := t.cpu.holdSet }, result := .ok .unit } ∧
      ∀ e, e ∈ t.cpu.holdSet ↔ if e = d then on = true else e ∈ s.cpu.holdSet) ∧
    exec .cpuStart s = .next { s with cpu := { s.cpu with running := true }, result := .ok .unit } ∧
    exec .cpuStop s = .next { s with cpu := { s.cpu with running := false }, result := .ok .unit } ∧
    exec .cpuReset s =
      .next { s with
        cpu := { s.cpu with
          x :=
            { ax := 0, bx := 0, cx := 0, dx := 0, sp := 0, bp := 0, si := 0, di := 0, cs := 0xF000, ds := 0, es := 0,
              ss := 0, ip := 0xFFF0, flags := 0x0002 }
          instrCounter := 0
          holdSet := [] }
        result := .ok .success }

/-! ### Lifecycle and ROM -/

/-- `MOD.reset`, `MOD.start`, `MOD.stop`, `MOD.getDump` and `MOD.isConnected` of each module (R341 to R345); that a stop
reaches an external device is the model's reading of R340 (log entry 22). -/
def Obligations.ModuleLifecycle : Prop :=
  ∀ s : State,
    exec (.modReset .bus) s = .next { s with result := .ok .success } ∧
    exec (.modReset .clk) s = .next { s with result := .ok .success } ∧
    exec (.modReset .pic) s = exec .picReset s ∧
    exec (.modReset .cpu) s = exec .cpuReset s ∧
    (∀ ch, ch < s.ata.length → exec (.modReset (.ata ch)) s = exec (.ataReset ch) s) ∧
    (∀ n, exec (.modReset (.ext n)) s =
      .next { (runDevProg params ((params.device (.ext n)).reset s.world) s).2 with
        result :=
          if (runDevProg params ((params.device (.ext n)).reset s.world) s).1 = true then .ok .success
          else .failed }) ∧
    exec (.modStart .cpu) s = exec .cpuStart s ∧
    exec (.modStart .clk) s = .next { s with clk := { s.clk with running := true }, result := .ok .unit } ∧
    exec (.modStop .cpu) s = exec .cpuStop s ∧
    exec (.modStop .clk) s = .next { s with clk := { s.clk with running := false }, result := .ok .unit } ∧
    (∀ ch, ch < s.ata.length → ∀ m ∈ [Module.bus, .pic, .ata ch],
      exec (.modStart m) s = .next { s with result := .ok .unit } ∧
      exec (.modStop m) s = .next { s with result := .ok .unit }) ∧
    (∀ n, exec (.modStart (.ext n)) s = .next { extStart params (.ext n) s with result := .ok .unit } ∧
      exec (.modStop (.ext n)) s = .next { extStop params (.ext n) s with result := .ok .unit }) ∧
    (∀ m, exec (.modGetDump m) s = .next { s with result := .ok (.text (dumpText (moduleView m s))) }) ∧
    ∀ ch, ch < s.ata.length → ∀ m ∈ [Module.bus, .pic, .clk, .ata ch, .cpu],
      exec (.modIsConnected m) s = .next { s with result := .ok (.bool true) }

/-- "Setting the system BIOS image to a buffer of exactly 65536 bytes succeeds and a subsequent read returns
byte-identical content"; any other length fails and leaves the ROM as it was; an unset ROM reads as no bytes (R350,
R351). -/
def Obligations.BiosImage : Prop :=
  ∀ (bytes : List Byte) (s : State),
    (bytes.length = 65536 → ∃ t, exec (.romSetSystemBIOS bytes) s = .next t ∧
      t = { s with rom := some bytes, result := .ok .success } ∧
      exec .romReadSystemBIOS t = .next { t with result := .ok (.bytes bytes) }) ∧
    (bytes.length ≠ 65536 → exec (.romSetSystemBIOS bytes) s =
      .next { s with
        log := s.log ++ [.romSizeMismatch bytes.length], result := .cond .romSizeMismatch .failure }) ∧
    (s.rom = none → exec .romReadSystemBIOS s = .next { s with result := .ok (.bytes []) }) ∧
    ∀ image, s.rom = some image → exec .romReadSystemBIOS s = .next { s with result := .ok (.bytes image) }

/-! ### Reset -/

/-- `MACHINE.reset` resets BUS, PIC, CLK, the ATA channel, every external device in order and the CPU, each on the state the
one before left, and succeeds exactly if each did (R401). Construction followed by the first `MACHINE.reset`, with no
external device, succeeds and gives the state of R402, field by field, with no interrupt request asserted. The spec marks
the order as its own decision (D55) and that table as its own derivation; the list of external devices is open (log
entry 30). -/
def Obligations.FirstMachineReset : Prop :=
  params.resetOrder = [.bus, .pic, .clk, .ata 0] ++ externals.map .ext ++ [.cpu] ∧
  (∀ s : State, ∃ (after : Nat → State) (answer : Nat → Result), after 0 = s ∧
    (∀ k m, params.resetOrder[k]? = some m →
      exec (.modReset m) (after k) = .next { after (k + 1) with result := answer k }) ∧
    (machineReset params s).1 = after params.resetOrder.length ∧
    ((machineReset params s).2 = .ok .success ↔ ∀ k, k < params.resetOrder.length → answer k = .ok .success) ∧
    ((machineReset params s).2 ≠ .ok .success → (machineReset params s).2 = .failed)) ∧
  ∃ t, performAll (pseudoMachineReset noExternals) (constructed noExternals) = .next t ∧ t.result = .ok .success ∧
    intReq t.picM = false ∧ intReq t.picS = false ∧
    (∀ a : Half, portEntry t a =
      if a ∈ [0x20, 0x21, 0xA0, 0xA1] then some { owner := .pic, attr := .rw }
      else if a ∈ [0x1F0, 0x1F1, 0x1F2, 0x1F3, 0x1F4, 0x1F5, 0x1F6, 0x1F7, 0x3F6, 0x3F7] then
        some { owner := .ata 0, attr := .rw }
      else none) ∧
    (∀ c : Ctrl, picOf t c =
      { imr := 0xFF, irr := 0x00, isr := 0x00, pin := 0x00, cascadeMode := true, levelTriggered := false,
        sfnm := false, buffered := false, autoEOI := false, rotateOnAutoEOI := false, specialMask := false,
        polled := false,
        interruptOffset := match c with
          | .M => 0x08
          | .S => 0x70
        lowestPriorityIRQ := 7, currentIRQ := 0, initState := .ready, requiresICW4 := false, readSelectISR := false,
        icw3 := 0x00 }) ∧
    t.irqOwner = [(0, .ata 0)] ∧
    t.clk =
      { timers :=
          [{ owner := .ata 0, interval := pulsesOf params params.ataCmdDelayUs t,
             countdown := pulsesOf params params.ataCmdDelayUs t, active := false, continuous := false }]
        pendingRtPulses := 0, running := false } ∧
    (∃ d0 d1, t.ata =
      [{ drive0 := d0, drive1 := d1, selected := 0, ioBase1 := 0x1F0, ioBase2 := 0x3F0, irqNumber := 0, nIEN := false,
         srst := false, irqRaised := false, timerRegistered := true }] ∧
      ∀ d ∈ [d0, d1], d =
        { type := .none, image := none, writeProtected := false, ready := false, error := 0x01, features := 0x00,
          sectorCount := 0x01, sectorNumber := 0x01, cylLow := 0x00, cylHigh := 0x00, head := 0, lba := false,
          err := false, seekComplete := false, phase := .idle, buffer := [], bufPos := 0 }) ∧
    t.cpu =
      { x :=
          { ax := 0, bx := 0, cx := 0, dx := 0, sp := 0, bp := 0, si := 0, di := 0, cs := 0xF000, ds := 0, es := 0,
            ss := 0, ip := 0xFFF0, flags := 0x0002 }
        instrCounter := 0, ips := params.ips, minPulsePeriodUs := none, running := false, holdSet := [] } ∧
    t.rom = none ∧ t.log = []

/-- `State.reset` is the machine built and reset once with no external device, a second machine reset gives it again (R402,
R404), and every invariant stated below holds of it. A machine is built with the lines its builder wired, none of them
reserved (R33). Where the spec gives no value the fields are the model's (log entries 3 to 7). -/
def Obligations.ResetState : Prop :=
  performAll (pseudoMachineReset noExternals) (constructed noExternals) =
    .next { State.reset with result := .ok .success } ∧
  performAll (pseudoMachineReset noExternals) State.reset = .next { State.reset with result := .ok .success } ∧
  PicOk State.reset ∧ TimersOk State.reset ∧ MapsOk State.reset ∧ ChannelsOk State.reset ∧ LinesOwned State.reset ∧
  RomOk State.reset ∧ Memory.wf State.reset.mem = true ∧
  ∀ (P : Params) (n : Nat), mapGet (constructed P).irqOwner n =
    if n < 16 ∧ n ∉ P.irqReserved then P.irqWired n else none

/-! ### The whole machine -/

/-- Every step keeps the controllers' invariants: with level sensing the request register is the pins, and the master's
cascade input is the slave's INT output (R34 (c), (d)). -/
def Obligations.StepKeepsControllers : Prop := ∀ s t : State, PicOk s → step s = .next t → PicOk t

/-- Every step keeps the timer table: at most ten slots, every interval at least one pulse, every countdown within its
interval, every active countdown at least one (R38, R40). -/
def Obligations.StepKeepsTimers : Prop := ∀ s t : State, TimersOk s → step s = .next t → TimersOk t

/-- Every step keeps the port and line maps and the channels: an image exactly where there is a type, a line number that
is -1 or a device line, an interrupt raised only with a line, a transfer never past its end; and a channel's line stays its
own unless the step takes it from the channel, as only `PIC.freeIRQNumber` does (R33, R44, R45, R251, R287; log
entry 31). -/
def Obligations.StepKeepsDevices : Prop :=
  ∀ s t : State, MapsOk s → ChannelsOk s → step s = .next t →
    MapsOk t ∧ ChannelsOk t ∧ (LinesOwned s → LinesKept s t → LinesOwned t)

/-- Every step keeps guest memory in its canonical form and the ROM image at its exact size (R62). -/
def Obligations.StepKeepsForms : Prop :=
  ∀ s t : State, Memory.wf s.mem = true → RomOk s → step s = .next t → Memory.wf t.mem = true ∧ RomOk t

/-- No step takes back a log entry, a port registration, a timer slot or a channel (R21, R23, R38). -/
def Obligations.NothingIsRemoved : Prop :=
  ∀ s t : State, step s = .next t →
    (∃ entries, t.log = s.log ++ entries) ∧
    (∀ a : Half, portEntry s a ≠ none → portEntry t a ≠ none) ∧
    (∀ (i : Nat) (x : Timer), s.clk.timers[i]? = some x →
      ∃ y : Timer, t.clk.timers[i]? = some y ∧ y.owner = x.owner ∧ y.continuous = x.continuous) ∧
    t.ata.length = s.ata.length

/-- An operation that returns a condition has appended that one diagnostic to the log and changed nothing else (R360,
R361 (a)). -/
def Obligations.ConditionsOnlyLog : Prop :=
  ∀ (i : Instr) (s t : State) (k : Cond) (v : Value), exec i s = .next t → t.result = .cond k v →
    ∃ d, condOf d = k ∧ t = { s with log := s.log ++ [d], result := .cond k v }

/-- Only `CPU.step` writes guest memory: after every other operation each byte reads as before (R72). -/
def Obligations.MemoryOnlyByCpuStep : Prop :=
  ∀ (i : Instr) (s t : State), i ≠ .cpuStep → exec i s = .next t → ∀ a, memByte t.mem a = memByte s.mem a

/-- Who writes the CPU's state and the ROM: the registers and counter change only in `CPU.step`, `CPU.setRegister` and
the CPU's reset, the run flag only by start and stop, the rates never, the ROM only by `ROM.setSystemBIOS` (R52, R55,
R56, R57, R62). -/
def Obligations.CpuAndRomWriters : Prop :=
  ∀ (i : Instr) (s t : State), exec i s = .next t →
    (i ≠ .cpuStep → i ≠ .cpuReset → i ≠ .modReset .cpu →
      t.cpu.instrCounter = s.cpu.instrCounter ∧
      ((∀ name bytes, i ≠ .cpuSetRegister name bytes) → t.cpu.x = s.cpu.x)) ∧
    (i ≠ .cpuStart → i ≠ .cpuStop → i ≠ .modStart .cpu → i ≠ .modStop .cpu → t.cpu.running = s.cpu.running) ∧
    t.cpu.ips = s.cpu.ips ∧ t.cpu.minPulsePeriodUs = s.cpu.minPulsePeriodUs ∧
    ((∀ bytes, i ≠ .romSetSystemBIOS bytes) → t.rom = s.rom)
end

