-- ==== Sys2Proof/Laws/State.lean ====
section
/-! SUPPORT. One lemma per field per update of the state, true by `rfl`, so that no later proof unfolds a record
update. -/

namespace Sys2Proof.Machine

/-! ### `setRegs` -/

@[simp] theorem setRegs_bus (x : Regs) (s : State) : (setRegs x s).bus = s.bus := rfl
@[simp] theorem setRegs_picM (x : Regs) (s : State) : (setRegs x s).picM = s.picM := rfl
@[simp] theorem setRegs_picS (x : Regs) (s : State) : (setRegs x s).picS = s.picS := rfl
@[simp] theorem setRegs_irqOwner (x : Regs) (s : State) : (setRegs x s).irqOwner = s.irqOwner := rfl
@[simp] theorem setRegs_clk (x : Regs) (s : State) : (setRegs x s).clk = s.clk := rfl
@[simp] theorem setRegs_ata (x : Regs) (s : State) : (setRegs x s).ata = s.ata := rfl
@[simp] theorem setRegs_rom (x : Regs) (s : State) : (setRegs x s).rom = s.rom := rfl
@[simp] theorem setRegs_log (x : Regs) (s : State) : (setRegs x s).log = s.log := rfl
@[simp] theorem setRegs_mem (x : Regs) (s : State) : (setRegs x s).mem = s.mem := rfl
@[simp] theorem setRegs_world (x : Regs) (s : State) : (setRegs x s).world = s.world := rfl
@[simp] theorem setRegs_inbox (x : Regs) (s : State) : (setRegs x s).inbox = s.inbox := rfl
@[simp] theorem setRegs_result (x : Regs) (s : State) : (setRegs x s).result = s.result := rfl

/-! ### `setTimers` -/

@[simp] theorem setTimers_bus (ts : List Timer) (s : State) : (setTimers ts s).bus = s.bus := rfl
@[simp] theorem setTimers_picM (ts : List Timer) (s : State) : (setTimers ts s).picM = s.picM := rfl
@[simp] theorem setTimers_picS (ts : List Timer) (s : State) : (setTimers ts s).picS = s.picS := rfl
@[simp] theorem setTimers_irqOwner (ts : List Timer) (s : State) : (setTimers ts s).irqOwner = s.irqOwner := rfl
@[simp] theorem setTimers_ata (ts : List Timer) (s : State) : (setTimers ts s).ata = s.ata := rfl
@[simp] theorem setTimers_cpu (ts : List Timer) (s : State) : (setTimers ts s).cpu = s.cpu := rfl
@[simp] theorem setTimers_rom (ts : List Timer) (s : State) : (setTimers ts s).rom = s.rom := rfl
@[simp] theorem setTimers_log (ts : List Timer) (s : State) : (setTimers ts s).log = s.log := rfl
@[simp] theorem setTimers_mem (ts : List Timer) (s : State) : (setTimers ts s).mem = s.mem := rfl
@[simp] theorem setTimers_world (ts : List Timer) (s : State) : (setTimers ts s).world = s.world := rfl
@[simp] theorem setTimers_inbox (ts : List Timer) (s : State) : (setTimers ts s).inbox = s.inbox := rfl
@[simp] theorem setTimers_result (ts : List Timer) (s : State) : (setTimers ts s).result = s.result := rfl

/-! ### `modChan` -/

@[simp] theorem modChan_bus (ch : Nat) (f : Channel → Channel) (s : State) : (modChan ch f s).bus = s.bus := rfl
@[simp] theorem modChan_picM (ch : Nat) (f : Channel → Channel) (s : State) : (modChan ch f s).picM = s.picM := rfl
@[simp] theorem modChan_picS (ch : Nat) (f : Channel → Channel) (s : State) : (modChan ch f s).picS = s.picS := rfl
@[simp] theorem modChan_irqOwner (ch : Nat) (f : Channel → Channel) (s : State) : (modChan ch f s).irqOwner = s.irqOwner := rfl
@[simp] theorem modChan_clk (ch : Nat) (f : Channel → Channel) (s : State) : (modChan ch f s).clk = s.clk := rfl
@[simp] theorem modChan_cpu (ch : Nat) (f : Channel → Channel) (s : State) : (modChan ch f s).cpu = s.cpu := rfl
@[simp] theorem modChan_rom (ch : Nat) (f : Channel → Channel) (s : State) : (modChan ch f s).rom = s.rom := rfl
@[simp] theorem modChan_log (ch : Nat) (f : Channel → Channel) (s : State) : (modChan ch f s).log = s.log := rfl
@[simp] theorem modChan_mem (ch : Nat) (f : Channel → Channel) (s : State) : (modChan ch f s).mem = s.mem := rfl
@[simp] theorem modChan_world (ch : Nat) (f : Channel → Channel) (s : State) : (modChan ch f s).world = s.world := rfl
@[simp] theorem modChan_inbox (ch : Nat) (f : Channel → Channel) (s : State) : (modChan ch f s).inbox = s.inbox := rfl
@[simp] theorem modChan_result (ch : Nat) (f : Channel → Channel) (s : State) : (modChan ch f s).result = s.result := rfl

/-! ### `modDrive` -/

@[simp] theorem modDrive_bus (ch : Nat) (k : Fin 2) (f : Drive → Drive) (s : State) : (modDrive ch k f s).bus = s.bus := rfl
@[simp] theorem modDrive_picM (ch : Nat) (k : Fin 2) (f : Drive → Drive) (s : State) : (modDrive ch k f s).picM = s.picM := rfl
@[simp] theorem modDrive_picS (ch : Nat) (k : Fin 2) (f : Drive → Drive) (s : State) : (modDrive ch k f s).picS = s.picS := rfl
@[simp] theorem modDrive_irqOwner (ch : Nat) (k : Fin 2) (f : Drive → Drive) (s : State) : (modDrive ch k f s).irqOwner = s.irqOwner := rfl
@[simp] theorem modDrive_clk (ch : Nat) (k : Fin 2) (f : Drive → Drive) (s : State) : (modDrive ch k f s).clk = s.clk := rfl
@[simp] theorem modDrive_cpu (ch : Nat) (k : Fin 2) (f : Drive → Drive) (s : State) : (modDrive ch k f s).cpu = s.cpu := rfl
@[simp] theorem modDrive_rom (ch : Nat) (k : Fin 2) (f : Drive → Drive) (s : State) : (modDrive ch k f s).rom = s.rom := rfl
@[simp] theorem modDrive_log (ch : Nat) (k : Fin 2) (f : Drive → Drive) (s : State) : (modDrive ch k f s).log = s.log := rfl
@[simp] theorem modDrive_mem (ch : Nat) (k : Fin 2) (f : Drive → Drive) (s : State) : (modDrive ch k f s).mem = s.mem := rfl
@[simp] theorem modDrive_world (ch : Nat) (k : Fin 2) (f : Drive → Drive) (s : State) : (modDrive ch k f s).world = s.world := rfl
@[simp] theorem modDrive_inbox (ch : Nat) (k : Fin 2) (f : Drive → Drive) (s : State) : (modDrive ch k f s).inbox = s.inbox := rfl
@[simp] theorem modDrive_result (ch : Nat) (k : Fin 2) (f : Drive → Drive) (s : State) : (modDrive ch k f s).result = s.result := rfl

/-! ### `logged` -/

@[simp] theorem logged_bus (d : Diagnostic) (s : State) : (logged d s).bus = s.bus := rfl
@[simp] theorem logged_picM (d : Diagnostic) (s : State) : (logged d s).picM = s.picM := rfl
@[simp] theorem logged_picS (d : Diagnostic) (s : State) : (logged d s).picS = s.picS := rfl
@[simp] theorem logged_irqOwner (d : Diagnostic) (s : State) : (logged d s).irqOwner = s.irqOwner := rfl
@[simp] theorem logged_clk (d : Diagnostic) (s : State) : (logged d s).clk = s.clk := rfl
@[simp] theorem logged_ata (d : Diagnostic) (s : State) : (logged d s).ata = s.ata := rfl
@[simp] theorem logged_cpu (d : Diagnostic) (s : State) : (logged d s).cpu = s.cpu := rfl
@[simp] theorem logged_rom (d : Diagnostic) (s : State) : (logged d s).rom = s.rom := rfl
@[simp] theorem logged_mem (d : Diagnostic) (s : State) : (logged d s).mem = s.mem := rfl
@[simp] theorem logged_world (d : Diagnostic) (s : State) : (logged d s).world = s.world := rfl
@[simp] theorem logged_inbox (d : Diagnostic) (s : State) : (logged d s).inbox = s.inbox := rfl
@[simp] theorem logged_result (d : Diagnostic) (s : State) : (logged d s).result = s.result := rfl

/-! ### `settle` -/

@[simp] theorem settle_bus (P : Params) (s : State) : (settle P s).bus = s.bus := rfl
@[simp] theorem settle_picS (P : Params) (s : State) : (settle P s).picS = s.picS := rfl
@[simp] theorem settle_irqOwner (P : Params) (s : State) : (settle P s).irqOwner = s.irqOwner := rfl
@[simp] theorem settle_clk (P : Params) (s : State) : (settle P s).clk = s.clk := rfl
@[simp] theorem settle_ata (P : Params) (s : State) : (settle P s).ata = s.ata := rfl
@[simp] theorem settle_cpu (P : Params) (s : State) : (settle P s).cpu = s.cpu := rfl
@[simp] theorem settle_rom (P : Params) (s : State) : (settle P s).rom = s.rom := rfl
@[simp] theorem settle_log (P : Params) (s : State) : (settle P s).log = s.log := rfl
@[simp] theorem settle_mem (P : Params) (s : State) : (settle P s).mem = s.mem := rfl
@[simp] theorem settle_world (P : Params) (s : State) : (settle P s).world = s.world := rfl
@[simp] theorem settle_inbox (P : Params) (s : State) : (settle P s).inbox = s.inbox := rfl
@[simp] theorem settle_result (P : Params) (s : State) : (settle P s).result = s.result := rfl

/-! ### `setHold` -/

@[simp] theorem setHold_bus (d : Device) (on : Bool) (s : State) : (setHold d on s).bus = s.bus := rfl
@[simp] theorem setHold_picM (d : Device) (on : Bool) (s : State) : (setHold d on s).picM = s.picM := rfl
@[simp] theorem setHold_picS (d : Device) (on : Bool) (s : State) : (setHold d on s).picS = s.picS := rfl
@[simp] theorem setHold_irqOwner (d : Device) (on : Bool) (s : State) : (setHold d on s).irqOwner = s.irqOwner := rfl
@[simp] theorem setHold_clk (d : Device) (on : Bool) (s : State) : (setHold d on s).clk = s.clk := rfl
@[simp] theorem setHold_ata (d : Device) (on : Bool) (s : State) : (setHold d on s).ata = s.ata := rfl
@[simp] theorem setHold_rom (d : Device) (on : Bool) (s : State) : (setHold d on s).rom = s.rom := rfl
@[simp] theorem setHold_log (d : Device) (on : Bool) (s : State) : (setHold d on s).log = s.log := rfl
@[simp] theorem setHold_mem (d : Device) (on : Bool) (s : State) : (setHold d on s).mem = s.mem := rfl
@[simp] theorem setHold_world (d : Device) (on : Bool) (s : State) : (setHold d on s).world = s.world := rfl
@[simp] theorem setHold_inbox (d : Device) (on : Bool) (s : State) : (setHold d on s).inbox = s.inbox := rfl
@[simp] theorem setHold_result (d : Device) (on : Bool) (s : State) : (setHold d on s).result = s.result := rfl

/-! ### `setRunning` -/

@[simp] theorem setRunning_bus (on : Bool) (s : State) : (setRunning on s).bus = s.bus := rfl
@[simp] theorem setRunning_picM (on : Bool) (s : State) : (setRunning on s).picM = s.picM := rfl
@[simp] theorem setRunning_picS (on : Bool) (s : State) : (setRunning on s).picS = s.picS := rfl
@[simp] theorem setRunning_irqOwner (on : Bool) (s : State) : (setRunning on s).irqOwner = s.irqOwner := rfl
@[simp] theorem setRunning_clk (on : Bool) (s : State) : (setRunning on s).clk = s.clk := rfl
@[simp] theorem setRunning_ata (on : Bool) (s : State) : (setRunning on s).ata = s.ata := rfl
@[simp] theorem setRunning_rom (on : Bool) (s : State) : (setRunning on s).rom = s.rom := rfl
@[simp] theorem setRunning_log (on : Bool) (s : State) : (setRunning on s).log = s.log := rfl
@[simp] theorem setRunning_mem (on : Bool) (s : State) : (setRunning on s).mem = s.mem := rfl
@[simp] theorem setRunning_world (on : Bool) (s : State) : (setRunning on s).world = s.world := rfl
@[simp] theorem setRunning_inbox (on : Bool) (s : State) : (setRunning on s).inbox = s.inbox := rfl
@[simp] theorem setRunning_result (on : Bool) (s : State) : (setRunning on s).result = s.result := rfl

/-! ### `setClockRunning` -/

@[simp] theorem setClockRunning_bus (on : Bool) (s : State) : (setClockRunning on s).bus = s.bus := rfl
@[simp] theorem setClockRunning_picM (on : Bool) (s : State) : (setClockRunning on s).picM = s.picM := rfl
@[simp] theorem setClockRunning_picS (on : Bool) (s : State) : (setClockRunning on s).picS = s.picS := rfl
@[simp] theorem setClockRunning_irqOwner (on : Bool) (s : State) : (setClockRunning on s).irqOwner = s.irqOwner := rfl
@[simp] theorem setClockRunning_ata (on : Bool) (s : State) : (setClockRunning on s).ata = s.ata := rfl
@[simp] theorem setClockRunning_cpu (on : Bool) (s : State) : (setClockRunning on s).cpu = s.cpu := rfl
@[simp] theorem setClockRunning_rom (on : Bool) (s : State) : (setClockRunning on s).rom = s.rom := rfl
@[simp] theorem setClockRunning_log (on : Bool) (s : State) : (setClockRunning on s).log = s.log := rfl
@[simp] theorem setClockRunning_mem (on : Bool) (s : State) : (setClockRunning on s).mem = s.mem := rfl
@[simp] theorem setClockRunning_world (on : Bool) (s : State) : (setClockRunning on s).world = s.world := rfl
@[simp] theorem setClockRunning_inbox (on : Bool) (s : State) : (setClockRunning on s).inbox = s.inbox := rfl
@[simp] theorem setClockRunning_result (on : Bool) (s : State) : (setClockRunning on s).result = s.result := rfl

/-! ### `countInstruction` -/

@[simp] theorem countInstruction_bus (s : State) : (countInstruction s).bus = s.bus := rfl
@[simp] theorem countInstruction_picM (s : State) : (countInstruction s).picM = s.picM := rfl
@[simp] theorem countInstruction_picS (s : State) : (countInstruction s).picS = s.picS := rfl
@[simp] theorem countInstruction_irqOwner (s : State) : (countInstruction s).irqOwner = s.irqOwner := rfl
@[simp] theorem countInstruction_clk (s : State) : (countInstruction s).clk = s.clk := rfl
@[simp] theorem countInstruction_ata (s : State) : (countInstruction s).ata = s.ata := rfl
@[simp] theorem countInstruction_rom (s : State) : (countInstruction s).rom = s.rom := rfl
@[simp] theorem countInstruction_log (s : State) : (countInstruction s).log = s.log := rfl
@[simp] theorem countInstruction_mem (s : State) : (countInstruction s).mem = s.mem := rfl
@[simp] theorem countInstruction_world (s : State) : (countInstruction s).world = s.world := rfl
@[simp] theorem countInstruction_inbox (s : State) : (countInstruction s).inbox = s.inbox := rfl
@[simp] theorem countInstruction_result (s : State) : (countInstruction s).result = s.result := rfl

/-! ### The changed fields -/

@[simp] theorem setRegs_x (x : Regs) (s : State) : (setRegs x s).cpu.x = x := rfl
@[simp] theorem setRegs_instrCounter (x : Regs) (s : State) : (setRegs x s).cpu.instrCounter = s.cpu.instrCounter := rfl
@[simp] theorem setRegs_ips (x : Regs) (s : State) : (setRegs x s).cpu.ips = s.cpu.ips := rfl
@[simp] theorem setRegs_minPulsePeriodUs (x : Regs) (s : State) :
    (setRegs x s).cpu.minPulsePeriodUs = s.cpu.minPulsePeriodUs := rfl
@[simp] theorem setRegs_running (x : Regs) (s : State) : (setRegs x s).cpu.running = s.cpu.running := rfl
@[simp] theorem setRegs_holdSet (x : Regs) (s : State) : (setRegs x s).cpu.holdSet = s.cpu.holdSet := rfl
@[simp] theorem setTimers_timers (ts : List Timer) (s : State) : (setTimers ts s).clk.timers = ts := rfl
@[simp] theorem setTimers_pendingRtPulses (ts : List Timer) (s : State) :
    (setTimers ts s).clk.pendingRtPulses = s.clk.pendingRtPulses := rfl
@[simp] theorem setTimers_running (ts : List Timer) (s : State) : (setTimers ts s).clk.running = s.clk.running := rfl
@[simp] theorem modChan_ata (ch : Nat) (f : Channel → Channel) (s : State) :
    (modChan ch f s).ata = modifyAt s.ata ch f := rfl
@[simp] theorem logged_log (d : Diagnostic) (s : State) : (logged d s).log = s.log ++ [d] := rfl
@[simp] theorem settle_picM (P : Params) (s : State) : (settle P s).picM = followSlave P (intReq s.picS) s.picM := rfl
@[simp] theorem setRunning_running (on : Bool) (s : State) : (setRunning on s).cpu.running = on := rfl
@[simp] theorem setClockRunning_running (on : Bool) (s : State) : (setClockRunning on s).clk.running = on := rfl
@[simp] theorem setClockRunning_timers (on : Bool) (s : State) : (setClockRunning on s).clk.timers = s.clk.timers := rfl
@[simp] theorem countInstruction_instrCounter (s : State) :
    (countInstruction s).cpu.instrCounter = s.cpu.instrCounter + 1 := rfl
@[simp] theorem countInstruction_running (s : State) : (countInstruction s).cpu.running = s.cpu.running := rfl

/-! ### `setPic` -/

@[simp] theorem picOf_M (s : State) : picOf s .M = s.picM := rfl
@[simp] theorem picOf_S (s : State) : picOf s .S = s.picS := rfl
@[simp] theorem setPic_M (p : Pic) (s : State) : setPic .M p s = { s with picM := p } := rfl
@[simp] theorem setPic_S (p : Pic) (s : State) : setPic .S p s = { s with picS := p } := rfl

theorem picOf_setPic (c : Ctrl) (p : Pic) (s : State) : picOf (setPic c p s) c = p := by cases c <;> rfl

theorem setPic_picOf (c : Ctrl) (s : State) : setPic c (picOf s c) s = s := by cases c <;> rfl

/-! ### The running configuration -/

@[simp] theorem params_cascadeLine : Config.params.cascadeLine = 2 := rfl
@[simp] theorem params_irqReserved : Config.params.irqReserved = [2] := rfl
@[simp] theorem params_maxTimers : Config.params.maxTimers = 10 := rfl
@[simp] theorem params_biosSize : Config.params.biosSize = 65536 := rfl
@[simp] theorem params_ataBases : Config.params.ataBases = [(0x1F0, 0x3F0)] := rfl
@[simp] theorem params_fdcOwned : Config.params.fdcOwned = [] := rfl
@[simp] theorem params_readOnlyRegs : Config.params.readOnlyRegs = [] := rfl
@[simp] theorem params_picPortCmdM : Config.params.picPortCmdM = 0x20 := rfl
@[simp] theorem params_picPortDataM : Config.params.picPortDataM = 0x21 := rfl
@[simp] theorem params_picPortCmdS : Config.params.picPortCmdS = 0xA0 := rfl
@[simp] theorem params_picPortDataS : Config.params.picPortDataS = 0xA1 := rfl
@[simp] theorem params_irqWired (n : Nat) : Config.params.irqWired n = none := rfl
@[simp] theorem params_resetOrder :
    Config.params.resetOrder = [.bus, .pic, .clk, .ata 0] ++ Config.externals.map .ext ++ [.cpu] := rfl
@[simp] theorem noExternals_resetOrder : Config.noExternals.resetOrder = [.bus, .pic, .clk, .ata 0, .cpu] := rfl
@[simp] theorem constructed_noExternals : constructed Config.noExternals = constructed Config.params := rfl

end Sys2Proof.Machine
end

