-- ==== Sys2Proof/Laws/Pic.lean ====
section
/-! SUPPORT. The interrupt controllers line by line: what each shared operation does to the pins, the request bits and
the service bits, and what `settle` does. -/

namespace Sys2Proof.Machine

/-! ### Bits -/

theorem lineBit_setLine (v : Byte) (l k : Fin 8) (x : Bool) :
    lineBit (setLine v l x) k = if k = l then x else lineBit v k := by
  have hk := k.isLt
  by_cases h : k = l
  · subst h
    cases x <;> simp [setLine, lineBit]
  · have h' : k.val ≠ l.val := fun e => h (Fin.ext e)
    cases x <;> simp [setLine, lineBit, h, h']

/-- A controller register is its eight line bits. -/
theorem eq_of_lineBit {u v : Byte} (h : ∀ k : Fin 8, lineBit u k = lineBit v k) : u = v := by
  apply BitVec.eq_of_getLsbD_eq
  intro i hi
  exact h ⟨i, hi⟩

theorem lineBit_zero (k : Fin 8) : lineBit 0 k = false := by simp [lineBit]

/-- A controller register is zero exactly when no line's bit is set. -/
theorem eq_zero_iff_lineBit (v : Byte) : v = 0 ↔ ∀ k : Fin 8, lineBit v k = false :=
  ⟨fun h k => by rw [h, lineBit_zero], fun h => eq_of_lineBit fun k => by rw [h, lineBit_zero]⟩

theorem lineBit_pendingSet (p : Pic) (l : Fin 8) :
    lineBit (pendingSet p) l = (lineBit p.irr l && !lineBit p.imr l) := by
  simp [lineBit, pendingSet]

theorem mem_allLines (l : Fin 8) : l ∈ allLines := by revert l; decide

/-! ### Inputs -/

theorem lineBit_inputRaise_pin (l k : Fin 8) (p : Pic) :
    lineBit (inputRaise l p).pin k = if k = l then true else lineBit p.pin k := by
  unfold inputRaise
  cases hp : lineBit p.pin l
  · simp [lineBit_setLine]
  · cases p.levelTriggered <;> by_cases h : k = l <;> simp [h, hp]

theorem lineBit_inputRaise_irr (l k : Fin 8) (p : Pic) :
    lineBit (inputRaise l p).irr k =
      if k = l ∧ (lineBit p.pin l = false ∨ p.levelTriggered = true) then true else lineBit p.irr k := by
  unfold inputRaise
  split
  · by_cases h : k = l <;> simp_all [lineBit_setLine]
  · split
    · by_cases h : k = l <;> simp_all [lineBit_setLine]
    · by_cases h : k = l <;> simp_all

theorem sameButInputs_inputRaise (l : Fin 8) (p : Pic) : SameButInputs p (inputRaise l p) := by
  unfold inputRaise SameButInputs
  split <;> [rfl; (split <;> rfl)]

theorem lineBit_inputLower_pin (l k : Fin 8) (p : Pic) :
    lineBit (inputLower l p).pin k = if k = l then false else lineBit p.pin k := by
  unfold inputLower
  split <;> simp [lineBit_setLine]

theorem lineBit_inputLower_irr (l k : Fin 8) (p : Pic) :
    lineBit (inputLower l p).irr k = if k = l ∧ p.levelTriggered = true then false else lineBit p.irr k := by
  unfold inputLower
  split <;> simp_all [lineBit_setLine]

theorem sameButInputs_inputLower (l : Fin 8) (p : Pic) : SameButInputs p (inputLower l p) := by
  unfold inputLower SameButInputs
  split <;> rfl

theorem SameButInputs.refl (p : Pic) : SameButInputs p p := rfl

theorem SameButInputs.trans {p q r : Pic} (h : SameButInputs p q) (h' : SameButInputs q r) : SameButInputs p r := by
  unfold SameButInputs at h h' ⊢
  rw [h', h]

/-! ### Settling -/

/-- The master after `settle` as the rule gives it. -/
theorem masterFollows_followSlave (lvl : Bool) (m : Pic) :
    MasterFollows m (followSlave Config.params lvl m) lvl := by
  have h2 : Config.params.cascadeLine = 2 := rfl
  refine ⟨?_, ?_, ?_⟩
  · unfold followSlave
    split
    · exact sameButInputs_inputRaise _ _
    · split
      · exact sameButInputs_inputLower _ _
      · rfl
  · unfold followSlave CascadeInput
    rw [h2]
    cases lvl <;> cases hp : lineBit m.pin 2 <;> cases hl : m.levelTriggered <;>
      simp [hp, hl, lineBit_inputRaise_pin, lineBit_inputRaise_irr, lineBit_inputLower_pin, lineBit_inputLower_irr]
  · intro k hk
    unfold followSlave
    rw [h2]
    split
    · simp [lineBit_inputRaise_pin, lineBit_inputRaise_irr, hk]
    · split
      · simp [lineBit_inputLower_pin, lineBit_inputLower_irr, hk]
      · exact ⟨rfl, rfl⟩

/-- A master whose cascade input already follows the slave is left alone. -/
theorem followSlave_of_eq (P : Params) (lvl : Bool) (m : Pic) (h : lineBit m.pin P.cascadeLine = lvl) :
    followSlave P lvl m = m := by
  unfold followSlave
  cases lvl <;> simp_all

/-- `settle` changes nothing where the cascade input already follows. -/
theorem settle_of_eq (P : Params) (s : State) (h : lineBit s.picM.pin P.cascadeLine = intReq s.picS) :
    settle P s = s := by
  unfold settle
  rw [followSlave_of_eq P _ _ h]

/-- A settled machine has its cascade input following. -/
theorem cascadeFollows_settle (s : State) : CascadeFollows (settle Config.params s) :=
  (masterFollows_followSlave (intReq s.picS) s.picM).2.1.1

/-- A change of one controller, settled, as the rules state it. -/
theorem settledAfter_picCommand (c : Ctrl) (f : Pic → Pic) (r : Result) (s : State) :
    SettledAfter c (f (picOf s c)) r s { picCommand Config.params c f s with result := r } := by
  cases c
  · exact ⟨rfl, masterFollows_followSlave _ _⟩
  · exact ⟨rfl, masterFollows_followSlave _ _⟩

/-! ### Lines taken and ended -/

theorem lineTaken_takeLine (l : Fin 8) (p : Pic) : LineTaken p (takeLine l p) l := by
  unfold takeLine autoEnd
  refine ⟨?_, fun k => ?_, fun k => ?_⟩
  · cases h : p.autoEOI <;> simp
  · cases h : p.autoEOI <;> by_cases hk : k = l <;> simp [lineBit_setLine, hk]
  · cases h : p.autoEOI <;> by_cases hk : k = l <;> simp [lineBit_setLine, hk]

theorem lineEnded_endLine (l : Fin 8) (rotate : Bool) (p : Pic) : LineEnded p (endLine l rotate p) l rotate :=
  ⟨rfl, fun k => by simp [endLine, lineBit_setLine]⟩

end Sys2Proof.Machine
end

