-- ==== Sys2Proof/Laws/Resolver.lean ====
section
/-! SUPPORT. The priority order: priority numbers and lines are inverse to one another, and a search in priority order
finds the line of least priority number. -/

namespace Sys2Proof.Machine

theorem prio_lineAt (p : Pic) (k : Fin 8) : prio p (lineAt p k) = k := by
  unfold prio lineAt
  generalize p.lowestPriorityIRQ = r
  revert r k; decide

theorem lineAt_prio (p : Pic) (l : Fin 8) : lineAt p (prio p l) = l := by
  unfold prio lineAt
  generalize p.lowestPriorityIRQ = r
  revert r l; decide

theorem prio_val (p : Pic) (l : Fin 8) : (prio p l).val = (l.val + 15 - p.lowestPriorityIRQ.val) % 8 := by
  unfold prio
  generalize p.lowestPriorityIRQ = r
  revert r l; decide

theorem prio_inj {p : Pic} {k l : Fin 8} (h : prio p k = prio p l) : k = l := by
  rw [← lineAt_prio p k, h, lineAt_prio]

/-- The first number below 8 with a property, searched upwards. -/
theorem find_allLines (f : Fin 8 → Bool) (k : Fin 8) :
    allLines.find? f = some k ↔ f k = true ∧ ∀ j : Fin 8, f j = true → k ≤ j := by
  constructor
  · intro h
    refine ⟨List.find?_some h, fun j hj => ?_⟩
    have hs : allLines.Pairwise (· ≤ ·) := by decide
    rw [List.find?_eq_some_iff_append] at h
    obtain ⟨-, as, bs, hl, hno⟩ := h
    have hm : j ∈ as ++ k :: bs := hl ▸ mem_allLines j
    rcases List.mem_append.mp hm with hm | hm
    · have := hno j hm; simp_all
    · rcases List.mem_cons.mp hm with rfl | hm
      · exact le_rfl
      · rw [hl, List.pairwise_append] at hs
        exact (List.pairwise_cons.mp hs.2.1).1 j hm
  · rintro ⟨hf, hmin⟩
    cases h : allLines.find? f with
    | none => rw [List.find?_eq_none] at h; exact absurd hf (h k (mem_allLines k))
    | some j =>
      have hj := List.find?_some h
      have hle := hmin j hj
      rw [List.find?_eq_some_iff_append] at h
      obtain ⟨-, as, bs, hl, hno⟩ := h
      have hs : allLines.Pairwise (· ≤ ·) := by decide
      have hm : k ∈ as ++ j :: bs := hl ▸ mem_allLines k
      rcases List.mem_append.mp hm with hm | hm
      · have := hno k hm; simp_all
      · rcases List.mem_cons.mp hm with rfl | hm
        · rfl
        · rw [hl, List.pairwise_append] at hs
          exact congrArg some (le_antisymm ((List.pairwise_cons.mp hs.2.1).1 k hm) hle)

/-- A search in priority order finds the line of least priority number that has the property. -/
theorem find_priorityOrder (p : Pic) (f : Fin 8 → Bool) (l : Fin 8) :
    (priorityOrder p).find? f = some l ↔ f l = true ∧ ∀ k : Fin 8, f k = true → (prio p l).val ≤ (prio p k).val := by
  unfold priorityOrder
  rw [List.find?_map, Option.map_eq_some_iff]
  constructor
  · rintro ⟨a, ha, rfl⟩
    rw [find_allLines] at ha
    refine ⟨ha.1, fun k hk => ?_⟩
    rw [prio_lineAt]
    exact ha.2 (prio p k) (by simpa [lineAt_prio] using hk)
  · rintro ⟨hf, hmin⟩
    refine ⟨prio p l, (find_allLines _ _).mpr ⟨by simpa [lineAt_prio] using hf, fun j hj => ?_⟩, lineAt_prio p l⟩
    have := hmin (lineAt p j) hj
    rwa [prio_lineAt] at this

theorem find_priorityOrder_none (p : Pic) (f : Fin 8 → Bool) :
    (priorityOrder p).find? f = none ↔ ∀ l : Fin 8, f l = false := by
  rw [List.find?_eq_none]
  constructor
  · intro h l
    have hm : l ∈ priorityOrder p := List.mem_map.mpr ⟨prio p l, mem_allLines _, lineAt_prio p l⟩
    simpa using h l hm
  · intro h l _
    simp [h l]

/-- A selected line is eligible. -/
theorem eligible_of_selected {p : Pic} {l : Fin 8} (h : selected p = some l) : eligible p l = true :=
  List.find?_some h

/-- A masked line is not eligible. -/
theorem eligible_of_masked {p : Pic} {l : Fin 8} (h : lineBit p.imr l = true) : eligible p l = false := by
  simp [eligible, lineBit_pendingSet, h]

/-- The request register and mask, service register, rotation and modes are all the resolver reads. -/
theorem selected_congr {p q : Pic} (h1 : p.irr = q.irr) (h2 : p.imr = q.imr) (h3 : p.isr = q.isr)
    (h4 : p.lowestPriorityIRQ = q.lowestPriorityIRQ) (h5 : p.specialMask = q.specialMask) (h6 : p.sfnm = q.sfnm) :
    selected p = selected q := by
  have hp : prio p = prio q := by funext l; simp [prio, h4]
  have he : eligible p = eligible q := by
    funext l
    simp [eligible, pendingSet, aboveInService, h1, h2, h3, h5, h6, hp]
  have hl : lineAt p = lineAt q := by funext l; simp [lineAt, h4]
  simp only [selected, priorityOrder, hl, he]

/-- A controller requests exactly when some line is eligible. -/
theorem intReq_iff (p : Pic) : intReq p = true ↔ ∃ l, eligible p l = true := by
  unfold intReq
  rw [← Bool.not_eq_false, Option.isSome_eq_false_iff, Option.isNone_iff_eq_none]
  unfold selected
  rw [find_priorityOrder_none]
  simp

/-- Lowering an input raises no request. -/
theorem intReq_of_inputLower {l : Fin 8} {p : Pic} (h : intReq (inputLower l p) = true) : intReq p = true := by
  rw [intReq_iff] at h ⊢
  obtain ⟨k, hk⟩ := h
  refine ⟨k, ?_⟩
  have he := sameButInputs_inputLower l p
  have hrest : ∀ q : Pic, SameButInputs p q → lineBit (pendingSet q) k = true → lineBit (pendingSet p) k = true →
      eligible q k = true → eligible p k = true := by
    intro q hq h1 h2 h3
    have ha : aboveInService q k = aboveInService p k := by rw [hq]; rfl
    unfold eligible at h3 ⊢
    rw [ha, h1, show q.specialMask = p.specialMask by rw [hq], show q.isr = p.isr by rw [hq],
      show q.sfnm = p.sfnm by rw [hq]] at h3
    rwa [h2]
  have hpend : lineBit (pendingSet (inputLower l p)) k = true := by
    unfold eligible at hk
    exact (Bool.and_eq_true_iff.mp hk).1
  refine hrest _ he hpend ?_ hk
  rw [lineBit_pendingSet] at hpend ⊢
  rw [lineBit_inputLower_irr, show (inputLower l p).imr = p.imr by rw [he]] at hpend
  split at hpend <;> simp_all

end Sys2Proof.Machine
end

