-- ==== Sys2Proof/Laws/Lines.lean ====
section
/-! SUPPORT. Global interrupt lines: which controller and input each one is, and all that raising or lowering one does
to the pair. -/

namespace Sys2Proof.Machine

theorem SameButInputs.levelTriggered_eq {p q : Pic} (h : SameButInputs p q) : q.levelTriggered = p.levelTriggered := by
  rw [h]

/-- The cascade input of a master whose own cascade line has not moved. -/
theorem CascadeInput.of_eq {m n m' : Pic} {lvl : Bool} (h : CascadeInput n m' lvl)
    (hp : lineBit n.pin 2 = lineBit m.pin 2) (hi : lineBit n.irr 2 = lineBit m.irr 2)
    (hl : n.levelTriggered = m.levelTriggered) : CascadeInput m m' lvl := by
  unfold CascadeInput at *
  rw [← hp, ← hi, ← hl]
  exact h

/-- A master whose cascade input is the slave's output has not moved. -/
theorem CascadeInput.refl {m : Pic} {lvl : Bool} (h : lineBit m.pin 2 = lvl) : CascadeInput m m lvl := by
  subst h
  unfold CascadeInput
  cases lineBit m.pin 2 <;> simp

/-- Two changes of the cascade input that only withdraw are one. -/
theorem CascadeInput.trans_of_le {m n o : Pic} {x y : Bool} (h : CascadeInput m n x) (h' : CascadeInput n o y)
    (hl : n.levelTriggered = m.levelTriggered) (hx : x = true → lineBit m.pin 2 = true) (hy : y = true → x = true) :
    CascadeInput m o y := by
  unfold CascadeInput at *
  rw [h.1, h.2, hl] at h'
  refine ⟨h'.1, h'.2.trans ?_⟩
  cases x <;> cases y <;> cases hm : lineBit m.pin 2 <;> simp_all

/-- A device line of the master is not its cascade input. -/
theorem localLine_ne_two {n : Nat} (h1 : n < 16) (h2 : n ≠ 2) (hc : ctrlOfLine n = .M) : localLine n ≠ 2 := by
  interval_cases n <;> simp_all [ctrlOfLine, localLine]

/-- A global line is its controller and its local line. -/
theorem line_inj {n k : Nat} (h1 : n < 16) (h2 : k < 16) (h : ctrlOfLine k = ctrlOfLine n)
    (h' : localLine k = localLine n) : k = n := by
  unfold ctrlOfLine at h
  unfold localLine at h'
  simp only [Fin.mk.injEq] at h'
  split at h <;> split at h <;> simp at h <;> omega

theorem lineRefused_iff (n : Nat) : lineRefused Config.params n = true ↔ 15 < n ∨ n = 2 := by
  unfold lineRefused
  rw [Bool.or_eq_true, decide_eq_true_iff, decide_eq_true_iff]
  rfl

theorem lineRefused_of_line {n : Nat} (h1 : n < 16) (h2 : n ≠ 2) : lineRefused Config.params n = false := by
  rw [← Bool.not_eq_true, lineRefused_iff]
  omega

/-- One controller's inputs changed at one device line, and settled: what every line of the pair reads then. -/
theorem inputs_after (n : Nat) (f : Pic → Pic) (s : State) (h1 : n < 16) (h2 : n ≠ 2) (hf : ∀ p, SameButInputs p (f p))
    (gp : Bool → Bool) (gi : Pic → Bool → Bool)
    (hp : ∀ p k, lineBit (f p).pin k = if k = localLine n then gp (lineBit p.pin k) else lineBit p.pin k)
    (hi : ∀ p k, lineBit (f p).irr k = if k = localLine n then gi p (lineBit p.irr k) else lineBit p.irr k)
    (t : State) (ht : t = settle Config.params (setPic (ctrlOfLine n) (f (picOf s (ctrlOfLine n))) s)) :
    t = { s with picM := t.picM, picS := t.picS } ∧
      SameButInputs s.picM t.picM ∧ SameButInputs s.picS t.picS ∧ CascadeInput s.picM t.picM (intReq t.picS) ∧
      ∀ k, k < 16 → k ≠ 2 →
        linePin t k = (if k = n then gp (linePin s n) else linePin s k) ∧
        lineIrr t k = (if k = n then gi (picOf s (ctrlOfLine n)) (lineIrr s n) else lineIrr s k) := by
  subst ht
  have hne : ∀ k, k < 16 → ctrlOfLine k = ctrlOfLine n → k ≠ n → localLine k ≠ localLine n :=
    fun k hk hc hkn e => hkn (line_inj h1 hk hc e)
  cases hc : ctrlOfLine n
  · have hl := localLine_ne_two h1 h2 hc
    have hF := masterFollows_followSlave (intReq s.picS) (f s.picM)
    refine ⟨rfl, (hf _).trans hF.1, rfl,
      CascadeInput.of_eq hF.2.1 (by rw [hp, if_neg hl.symm]) (by rw [hi, if_neg hl.symm])
        (SameButInputs.levelTriggered_eq (hf _)), ?_⟩
    intro k hk hk2
    cases hck : ctrlOfLine k
    · have hm := hF.2.2 (localLine k) (localLine_ne_two hk hk2 hck)
      simp only [linePin, lineIrr, hck, hc, picOf_M, setPic_M, settle_picM]
      rw [hm.1, hm.2, hp, hi]
      by_cases hkn : k = n
      · simp [hkn]
      · simp [hne k hk (hck.trans hc.symm) hkn, hkn]
    · have hkn : k ≠ n := by rintro rfl; simp_all
      simp [linePin, lineIrr, hck, hkn]
  · have hF := masterFollows_followSlave (intReq (f s.picS)) s.picM
    refine ⟨rfl, hF.1, hf _, hF.2.1, ?_⟩
    intro k hk hk2
    cases hck : ctrlOfLine k
    · have hkn : k ≠ n := by rintro rfl; simp_all
      simp only [linePin, lineIrr, hck, picOf_M, hkn, if_false, setPic_S, settle_picM, picOf_S]
      exact hF.2.2 (localLine k) (localLine_ne_two hk hk2 hck)
    · simp only [linePin, lineIrr, hck, hc, picOf_S, setPic_S, settle_picS]
      rw [hp, hi]
      by_cases hkn : k = n
      · simp [hkn]
      · simp [hne k hk (hck.trans hc.symm) hkn, hkn]

/-- All that `PIC.assertIRQ` of a device line does to the pair. -/
theorem assertIRQ_line {n : Nat} (h1 : n < 16) (h2 : n ≠ 2) (s t : State) (ht : t = (assertIRQ Config.params n s).1) :
    (assertIRQ Config.params n s).2 = okUnit ∧ t = { s with picM := t.picM, picS := t.picS } ∧
      SameButInputs s.picM t.picM ∧ SameButInputs s.picS t.picS ∧ CascadeInput s.picM t.picM (intReq t.picS) ∧
      ∀ k, k < 16 → k ≠ 2 →
        linePin t k = (if k = n then true else linePin s k) ∧
        lineIrr t k =
          (if k = n ∧ (linePin s n = false ∨ (picOf s (ctrlOfLine n)).levelTriggered = true) then true
           else lineIrr s k) := by
  have hr := lineRefused_of_line h1 h2
  simp only [assertIRQ, hr, Bool.false_eq_true, if_false] at ht ⊢
  refine ⟨trivial, ?_⟩
  have := inputs_after n (inputRaise (localLine n)) s h1 h2 (sameButInputs_inputRaise _) (fun _ => true)
    (fun p b => if lineBit p.pin (localLine n) = false ∨ p.levelTriggered = true then true else b)
    (fun p k => by rw [lineBit_inputRaise_pin])
    (fun p k => by rw [lineBit_inputRaise_irr]; by_cases h : k = localLine n <;> simp [h]) t ht
  obtain ⟨e1, e2, e3, e4, e5⟩ := this
  refine ⟨e1, e2, e3, e4, fun k hk hk2 => ⟨(e5 k hk hk2).1, (e5 k hk hk2).2.trans ?_⟩⟩
  by_cases hkn : k = n
  · subst hkn; simp [linePin]
  · simp [hkn]

/-- All that `PIC.clearIRQ` of a device line does to the pair. -/
theorem clearIRQ_line {n : Nat} (h1 : n < 16) (h2 : n ≠ 2) (s t : State) (ht : t = (clearIRQ Config.params n s).1) :
    (clearIRQ Config.params n s).2 = okUnit ∧ t = { s with picM := t.picM, picS := t.picS } ∧
      SameButInputs s.picM t.picM ∧ SameButInputs s.picS t.picS ∧ CascadeInput s.picM t.picM (intReq t.picS) ∧
      ∀ k, k < 16 → k ≠ 2 →
        linePin t k = (if k = n then false else linePin s k) ∧
        lineIrr t k =
          (if k = n ∧ (picOf s (ctrlOfLine n)).levelTriggered = true then false else lineIrr s k) := by
  have hr := lineRefused_of_line h1 h2
  simp only [clearIRQ, hr, Bool.false_eq_true, if_false] at ht ⊢
  refine ⟨trivial, ?_⟩
  have := inputs_after n (inputLower (localLine n)) s h1 h2 (sameButInputs_inputLower _) (fun _ => false)
    (fun p b => if p.levelTriggered = true then false else b)
    (fun p k => by rw [lineBit_inputLower_pin])
    (fun p k => by rw [lineBit_inputLower_irr]; by_cases h : k = localLine n <;> simp [h]) t ht
  obtain ⟨e1, e2, e3, e4, e5⟩ := this
  refine ⟨e1, e2, e3, e4, fun k hk hk2 => ⟨(e5 k hk hk2).1, (e5 k hk hk2).2.trans ?_⟩⟩
  by_cases hkn : k = n
  · subst hkn; simp
  · simp [hkn]

/-- Lowering a line makes the slave request nothing new. -/
theorem intReq_of_clearIRQ {n : Nat} {s : State} (h : intReq (clearIRQ Config.params n s).1.picS = true) :
    intReq s.picS = true := by
  unfold clearIRQ at h
  split at h
  · exact h
  · cases hc : ctrlOfLine n with
    | M => rw [hc] at h; exact h
    | S => rw [hc] at h; exact intReq_of_inputLower h

/-- Another operand changes nothing but the log. -/
theorem assertIRQ_refused {n : Nat} (h : 15 < n ∨ n = 2) (s : State) :
    assertIRQ Config.params n s = (logged (.invalidIrqLine n) s, .cond .invalidIrqLine .unit) := by
  simp [assertIRQ, (lineRefused_iff n).mpr h, raise, condOf]

theorem clearIRQ_refused {n : Nat} (h : 15 < n ∨ n = 2) (s : State) :
    clearIRQ Config.params n s = (logged (.invalidIrqLine n) s, .cond .invalidIrqLine .unit) := by
  simp [clearIRQ, (lineRefused_iff n).mpr h, raise, condOf]

end Sys2Proof.Machine
end

