-- ==== Sys2Proof/Laws/Maps.lean ====
section
/-! SUPPORT. The finite maps with keys in rising order, and guest memory in its canonical form: what a look-up reads
after an update, and that every operation keeps the form. -/

namespace Sys2Proof.Machine

/-! ### Maps -/

section
variable {α : Type}

theorem mapGet_mapPut (m : List (Nat × α)) (a : Nat) (x : α) (b : Nat) :
    mapGet (mapPut m a x) b = if b = a then some x else mapGet m b := by
  induction m with
  | nil => by_cases h : b = a <;> simp [mapPut, mapGet, h, eq_comm (a := a)]
  | cons e rest ih =>
    obtain ⟨k, y⟩ := e
    simp only [mapPut]
    split
    · by_cases h : b = a <;> simp [mapGet, h, eq_comm (a := a)]
    · split
      · subst_vars; by_cases h : b = k <;> simp [mapGet, h, eq_comm (a := k)]
      · simp only [mapGet, ih]
        by_cases hk : k = b
        · subst hk; simp_all [eq_comm]
        · simp [hk]

theorem mapGet_mapErase (m : List (Nat × α)) (a b : Nat) :
    mapGet (mapErase m a) b = if b = a then none else mapGet m b := by
  induction m with
  | nil => simp [mapErase, mapGet]
  | cons e rest ih =>
    obtain ⟨k, y⟩ := e
    simp only [mapErase, List.filter_cons] at ih ⊢
    by_cases hk : k = a
    · subst hk
      by_cases hb : b = k
      · simp_all
      · simp_all [mapGet, eq_comm]
    · by_cases hb : k = b
      · subst hb; simp [hk, mapGet]
      · simp [hk, mapGet, hb, ih]

/-- The form of a map as a pairwise order of its keys. -/
theorem mapWf_iff (m : List (Nat × α)) : mapWf m = true ↔ m.Pairwise fun x y => x.1 < y.1 := by
  induction m with
  | nil => simp [mapWf]
  | cons e rest ih =>
    obtain ⟨k, x⟩ := e
    cases rest with
    | nil => simp [mapWf]
    | cons e' rest' =>
      obtain ⟨k', y⟩ := e'
      rw [mapWf, Bool.and_eq_true, ih]
      constructor
      · rintro ⟨h, hp⟩
        refine List.pairwise_cons.mpr ⟨fun z hz => ?_, hp⟩
        have hk : k < k' := by simpa using h
        rcases List.mem_cons.mp hz with rfl | hz'
        · exact hk
        · exact lt_trans hk ((List.pairwise_cons.mp hp).1 z hz')
      · intro h
        exact ⟨by simpa using (List.pairwise_cons.mp h).1 (k', y) (by simp), (List.pairwise_cons.mp h).2⟩

theorem mem_mapPut {m : List (Nat × α)} {a : Nat} {x : α} {e : Nat × α} (h : e ∈ mapPut m a x) :
    e = (a, x) ∨ e ∈ m := by
  induction m with
  | nil => simpa [mapPut] using h
  | cons f rest ih =>
    obtain ⟨k, y⟩ := f
    simp only [mapPut] at h
    split at h
    · simpa using h
    · split at h
      · rcases List.mem_cons.mp h with h | h
        · exact .inl h
        · exact .inr (List.mem_cons_of_mem _ h)
      · rcases List.mem_cons.mp h with h | h
        · exact .inr (by simp [h])
        · exact (ih h).imp_right (List.mem_cons_of_mem _)

theorem mapWf_mapPut {m : List (Nat × α)} (hm : mapWf m = true) (a : Nat) (x : α) : mapWf (mapPut m a x) = true := by
  rw [mapWf_iff] at hm ⊢
  induction m with
  | nil => simp [mapPut]
  | cons e rest ih =>
    obtain ⟨k, y⟩ := e
    obtain ⟨h1, h2⟩ := List.pairwise_cons.mp hm
    simp only [mapPut]
    split
    · refine List.pairwise_cons.mpr ⟨fun z hz => ?_, hm⟩
      rcases List.mem_cons.mp hz with rfl | hz
      · assumption
      · exact lt_trans ‹a < k› (h1 z hz)
    · split
      · subst_vars; exact List.pairwise_cons.mpr ⟨h1, h2⟩
      · refine List.pairwise_cons.mpr ⟨fun z hz => ?_, ih h2⟩
        rcases mem_mapPut hz with rfl | hz
        · show k < a; omega
        · exact h1 z hz

theorem mapWf_mapErase {m : List (Nat × α)} (hm : mapWf m = true) (a : Nat) : mapWf (mapErase m a) = true := by
  rw [mapWf_iff] at hm ⊢
  exact hm.sublist List.filter_sublist

theorem mem_of_mapGet {m : List (Nat × α)} {a : Nat} {x : α} (h : mapGet m a = some x) : (a, x) ∈ m := by
  induction m with
  | nil => simp [mapGet] at h
  | cons e rest ih =>
    obtain ⟨k, y⟩ := e
    simp only [mapGet] at h
    split at h
    · simp_all
    · exact List.mem_cons_of_mem _ (ih h)

theorem mapGet_of_mem {m : List (Nat × α)} (hm : mapWf m = true) {a : Nat} {x : α} (h : (a, x) ∈ m) :
    mapGet m a = some x := by
  rw [mapWf_iff] at hm
  induction m with
  | nil => simp at h
  | cons e rest ih =>
    obtain ⟨k, y⟩ := e
    obtain ⟨h1, h2⟩ := List.pairwise_cons.mp hm
    rcases List.mem_cons.mp h with h | h
    · simp only [Prod.mk.injEq] at h; simp [mapGet, h.1, h.2]
    · have : k < a := h1 _ h
      simp [mapGet, show k ≠ a by omega, ih h2 h]

end

/-! ### Guest memory -/

theorem wf_iff (m : Memory) :
    Memory.wf m = true ↔ (m.Pairwise fun x y => x.1 < y.1) ∧ ∀ e ∈ m, e.2 ≠ unlistedByte := by
  rw [Memory.wf, Bool.and_eq_true, mapWf_iff]
  simp [List.all_eq_true]

theorem mem_memStore {m : Memory} {a : Nat} {b : Byte} {e : Nat × Byte} (h : e ∈ memStore m a b) :
    (e = (a, b) ∧ b ≠ unlistedByte) ∨ e ∈ m := by
  induction m with
  | nil =>
    simp only [memStore] at h
    split at h <;> simp_all
  | cons f rest ih =>
    obtain ⟨k, c⟩ := f
    simp only [memStore] at h
    split at h
    · split at h
      · exact .inr h
      · rcases List.mem_cons.mp h with h | h
        · exact .inl ⟨h, ‹_›⟩
        · exact .inr h
    · split at h
      · split at h
        · exact .inr (List.mem_cons_of_mem _ h)
        · rcases List.mem_cons.mp h with h | h
          · exact .inl ⟨h, ‹_›⟩
          · exact .inr (List.mem_cons_of_mem _ h)
      · rcases List.mem_cons.mp h with h | h
        · exact .inr (by simp [h])
        · exact (ih h).imp_right (List.mem_cons_of_mem _)

/-- A store keeps the canonical form. -/
theorem memStore_wf {m : Memory} (hm : Memory.wf m = true) (a : Nat) (b : Byte) : Memory.wf (memStore m a b) = true := by
  rw [wf_iff] at hm ⊢
  refine ⟨?_, fun e he => ?_⟩
  · obtain ⟨hm, -⟩ := hm
    induction m with
    | nil => simp only [memStore]; split <;> simp
    | cons f rest ih =>
      obtain ⟨k, c⟩ := f
      obtain ⟨h1, h2⟩ := List.pairwise_cons.mp hm
      simp only [memStore]
      split
      · split
        · exact hm
        · refine List.pairwise_cons.mpr ⟨fun z hz => ?_, hm⟩
          rcases List.mem_cons.mp hz with rfl | hz
          · assumption
          · exact lt_trans ‹a < k› (h1 z hz)
      · split
        · split
          · exact h2
          · subst_vars; exact List.pairwise_cons.mpr ⟨h1, h2⟩
        · refine List.pairwise_cons.mpr ⟨fun z hz => ?_, ih h2⟩
          rcases mem_memStore hz with ⟨rfl, -⟩ | hz
          · show k < a; omega
          · exact h1 z hz
  · rcases mem_memStore he with ⟨rfl, h⟩ | he
    · exact h
    · exact hm.2 e he

/-- The canonical memory of any cells is canonical. -/
theorem memOfCells_wf (cells : List Host.Cell) : Memory.wf (memOfCells cells) = true := by
  have : ∀ (l : List Host.Cell) (m : Memory), Memory.wf m = true →
      Memory.wf (l.foldl (fun m e => memStore m e.1 e.2) m) = true := by
    intro l
    induction l with
    | nil => exact fun _ h => h
    | cons e l ih => exact fun m h => ih _ (memStore_wf h _ _)
  exact this cells [] (by decide)

theorem memByte_of_lt {m : Memory} (hm : m.Pairwise fun x y => x.1 < y.1) {a : Nat} (h : ∀ e ∈ m, a < e.1) :
    memByte m a = unlistedByte := by
  induction m with
  | nil => rfl
  | cons f rest ih =>
    obtain ⟨k, c⟩ := f
    have hk : a < k := h (k, c) (by simp)
    simp only [memByte, show k ≠ a by omega, if_false]
    exact ih (List.pairwise_cons.mp hm).2 fun e he => h e (List.mem_cons_of_mem _ he)

/-- What a byte reads after a store: the stored byte at its address, and every other byte as before. -/
theorem memByte_memStore {m : Memory} (hwf : Memory.wf m = true) (a : Nat) (b : Byte) (c : Nat) :
    memByte (memStore m a b) c = if c = a then b else memByte m c := by
  obtain ⟨hm, -⟩ := (wf_iff m).mp hwf
  clear hwf
  induction m with
  | nil =>
    simp only [memStore]
    by_cases hb : b = unlistedByte
    · simp [hb, memByte]
    · simp [hb, memByte, eq_comm (a := a)]
  | cons f rest ih =>
    obtain ⟨k, d⟩ := f
    obtain ⟨h1, h2⟩ := List.pairwise_cons.mp hm
    simp only [memStore]
    split
    · next hak =>
      have hfree : memByte ((k, d) :: rest) a = unlistedByte := by
        refine memByte_of_lt hm fun e he => ?_
        rcases List.mem_cons.mp he with rfl | he
        · exact hak
        · exact lt_trans hak (h1 e he)
      by_cases hb : b = unlistedByte
      · by_cases hc : c = a <;> simp_all
      · by_cases hc : c = a
        · simp [hb, hc, memByte]
        · simp [hb, hc, memByte, eq_comm (a := a)]
    · split
      · next hak =>
        subst hak
        have hfree : memByte rest a = unlistedByte := memByte_of_lt h2 h1
        by_cases hb : b = unlistedByte
        · by_cases hc : c = a
          · simp_all
          · simp [hb, hc, memByte, eq_comm (a := a)]
        · by_cases hc : c = a <;> simp [hb, hc, memByte, eq_comm (a := a)]
      · next hlt hne =>
        simp only [memByte, ih h2]
        by_cases hk : k = c
        · subst hk; simp [show k ≠ a from fun h => hne h.symm]
        · simp [hk]

end Sys2Proof.Machine
end

