-- ==== Sys2Proof/Laws/Owners.lean ====
section
/-! SUPPORT. Line allocation: the lines a device owns, and all that giving lines back does. -/

namespace Sys2Proof.Machine

theorem mem_linesOf {s : State} (h : mapWf s.irqOwner = true) (d : Device) (n : Nat) :
    n ∈ linesOf s d ↔ mapGet s.irqOwner n = some d := by
  unfold linesOf
  rw [List.mem_map]
  constructor
  · rintro ⟨⟨k, e⟩, he, rfl⟩
    rw [List.mem_filter] at he
    have hd : e = d := by simpa using he.2
    subst hd
    exact mapGet_of_mem h he.1
  · intro hg
    exact ⟨(n, d), List.mem_filter.mpr ⟨mem_of_mapGet hg, by simp⟩, rfl⟩

theorem linesOf_sorted {s : State} (h : mapWf s.irqOwner = true) (d : Device) : (linesOf s d).Pairwise (· < ·) := by
  rw [mapWf_iff] at h
  exact List.pairwise_map.mpr (h.filter _)

theorem linesOf_eq_nil {s : State} (h : mapWf s.irqOwner = true) (d : Device) :
    linesOf s d = [] ↔ ∀ n, mapGet s.irqOwner n ≠ some d := by
  rw [List.eq_nil_iff_forall_not_mem]
  simp only [mem_linesOf h, ne_eq]

/-- The first line of a device is its least one. -/
theorem linesOf_head {s : State} (h : mapWf s.irqOwner = true) {d : Device} {n : Nat} (hn : mapGet s.irqOwner n = some d)
    (hmin : ∀ m, m < n → mapGet s.irqOwner m ≠ some d) : ∃ rest, linesOf s d = n :: rest := by
  have hmem := (mem_linesOf h d n).mpr hn
  have hs := linesOf_sorted h d
  cases hl : linesOf s d with
  | nil => simp [hl] at hmem
  | cons m rest =>
    rw [hl] at hmem hs
    rcases List.mem_cons.mp hmem with e | hr
    · exact ⟨rest, by rw [e]⟩
    · exact absurd ((mem_linesOf h d m).mp (hl ▸ List.mem_cons_self)) (hmin m ((List.pairwise_cons.mp hs).1 n hr))

/-- All that giving back a list of device lines does. -/
theorem releaseLines (ns : List Nat) (hns : ∀ n ∈ ns, n < 16 ∧ n ≠ 2) (s t : State)
    (ht : t = ns.foldl (fun s n => releaseLine Config.params n s) s) :
    t = { s with picM := t.picM, picS := t.picS, irqOwner := t.irqOwner } ∧
      SameButInputs s.picM t.picM ∧ SameButInputs s.picS t.picS ∧
      ((intReq t.picS = true → intReq s.picS = true) ∧
        (CascadeFollows s → CascadeInput s.picM t.picM (intReq t.picS))) ∧
      (∀ n, mapGet t.irqOwner n = if n ∈ ns then none else mapGet s.irqOwner n) ∧
      ∀ n, n < 16 → n ≠ 2 →
        linePin t n = (if n ∈ ns then false else linePin s n) ∧
        lineIrr t n =
          (if n ∈ ns ∧ (picOf s (ctrlOfLine n)).levelTriggered = true then false else lineIrr s n) := by
  induction ns generalizing s with
  | nil => subst ht; simpa [SameButInputs.refl] using fun h : CascadeFollows t => CascadeInput.refl h
  | cons a rest ih =>
    obtain ⟨ha1, ha2⟩ := hns a List.mem_cons_self
    obtain ⟨-, c1, c2, c3, c4, c5⟩ := clearIRQ_line ha1 ha2 s _ rfl
    obtain ⟨d1, d2, d3, ⟨dm, di⟩, d4, d5⟩ :=
      ih (fun n hn => hns n (List.mem_cons_of_mem _ hn)) (releaseLine Config.params a s) ht
    have e1 : releaseLine Config.params a s =
        { s with
          picM := (clearIRQ Config.params a s).1.picM, picS := (clearIRQ Config.params a s).1.picS,
          irqOwner := mapErase s.irqOwner a } := by
      conv_lhs => unfold releaseLine
      conv_lhs => rw [c1]
    have hlt : ∀ c, (picOf (releaseLine Config.params a s) c).levelTriggered = (picOf s c).levelTriggered := by
      intro c
      rw [e1]
      cases c
      · exact c2.levelTriggered_eq
      · exact c3.levelTriggered_eq
    have hpin : ∀ n, linePin (releaseLine Config.params a s) n = linePin (clearIRQ Config.params a s).1 n := by
      intro n; rw [e1]; unfold linePin; cases ctrlOfLine n <;> rfl
    have hirr : ∀ n, lineIrr (releaseLine Config.params a s) n = lineIrr (clearIRQ Config.params a s).1 n := by
      intro n; rw [e1]; unfold lineIrr; cases ctrlOfLine n <;> rfl
    have hle : intReq (releaseLine Config.params a s).picS = true → intReq s.picS = true := fun h =>
      intReq_of_clearIRQ h
    refine ⟨?_, ?_, ?_, ⟨fun h => hle (dm h), fun hf => ?_⟩, fun n => ?_, fun n h1 h2 => ⟨?_, ?_⟩⟩
    · rw [d1, e1]
    · exact SameButInputs.trans c2 (by rw [e1] at d2; exact d2)
    · exact SameButInputs.trans c3 (by rw [e1] at d3; exact d3)
    · exact c4.trans_of_le (di c4.1) c2.levelTriggered_eq (fun h => hf.trans (intReq_of_clearIRQ h)) dm
    · rw [d4, e1]
      show (if n ∈ rest then none else mapGet (mapErase s.irqOwner a) n) = _
      rw [mapGet_mapErase]
      by_cases hn : n = a <;> by_cases hr : n ∈ rest <;> simp [hn, hr]
    · rw [(d5 n h1 h2).1, hpin, (c5 n h1 h2).1]
      by_cases hn : n = a <;> by_cases hr : n ∈ rest <;> simp [hn, hr]
    · rw [(d5 n h1 h2).2, hirr, (c5 n h1 h2).2, hlt]
      by_cases hn : n = a
      · subst hn
        by_cases hr : n ∈ rest <;> cases (picOf s (ctrlOfLine n)).levelTriggered <;> simp [hr]
      · by_cases hr : n ∈ rest <;> cases (picOf s (ctrlOfLine n)).levelTriggered <;> simp [hr, hn]

end Sys2Proof.Machine
end

