-- ==== Sys2Proof/Laws/Slots.lean ====
section
/-! SUPPORT. Lists changed at one place: timer slots and channels, and all that the Clock's shared operations do to the
timer table. -/

namespace Sys2Proof.Machine

variable {α : Type}

theorem modifyAt_getElem? (l : List α) (i : Nat) (f : α → α) (j : Nat) :
    (modifyAt l i f)[j]? = if j = i then (l[i]?).map f else l[j]? := by
  induction l generalizing i j with
  | nil => simp [modifyAt]
  | cons x rest ih =>
    cases i with
    | zero => cases j <;> simp [modifyAt]
    | succ i =>
      cases j with
      | zero => simp [modifyAt]
      | succ j => simp [modifyAt, ih]

@[simp] theorem modifyAt_length (l : List α) (i : Nat) (f : α → α) : (modifyAt l i f).length = l.length := by
  induction l generalizing i with
  | nil => rfl
  | cons x rest ih => cases i <;> simp [modifyAt, ih]

theorem modifyAt_modifyAt (l : List α) (i : Nat) (f g : α → α) :
    modifyAt (modifyAt l i f) i g = modifyAt l i (g ∘ f) := by
  apply List.ext_getElem?
  intro j
  simp only [modifyAt_getElem?]
  by_cases h : j = i <;> simp [h]

theorem modifyAt_congr {l : List α} {i : Nat} {f g : α → α} (h : ∀ x, l[i]? = some x → f x = g x) :
    modifyAt l i f = modifyAt l i g := by
  apply List.ext_getElem?
  intro j
  simp only [modifyAt_getElem?]
  by_cases hj : j = i
  · simp only [hj, if_true]
    cases hx : l[i]? with
    | none => rfl
    | some x => simp [h x hx]
  · simp [hj]

theorem mem_modifyAt {l : List α} {i : Nat} {f : α → α} {y : α} (h : y ∈ modifyAt l i f) :
    y ∈ l ∨ ∃ x ∈ l, y = f x := by
  obtain ⟨j, hj⟩ := List.mem_iff_getElem?.mp h
  rw [modifyAt_getElem?] at hj
  split at hj
  · cases hx : l[i]? with
    | none => simp [hx] at hj
    | some x =>
      simp only [hx, Option.map_some, Option.some.injEq] at hj
      exact .inr ⟨x, List.mem_of_getElem? hx, hj.symm⟩
  · exact .inl (List.mem_of_getElem? hj)

/-! ### Channels -/

theorem hasChannel_iff (s : State) (ch : Nat) : hasChannel s ch = true ↔ ch < s.ata.length := by simp [hasChannel]

theorem onChannel_of_lt {ch : Nat} {s : State} (h : ch < s.ata.length) (absent : Result) (r : Answer) :
    onChannel ch s absent r = reply r := by
  simp [onChannel, hasChannel, h]

theorem onChannel_of_le {ch : Nat} {s : State} (h : s.ata.length ≤ ch) (absent : Result) (r : Answer) :
    onChannel ch s absent r = .next { s with result := absent } := by
  simp [onChannel, hasChannel, reply, Nat.not_lt.mpr h]

/-- What an operation of a channel does: it answers, and where the channel is absent that is all (R115). -/
theorem onChannel_next (ch : Nat) (s : State) (absent : Result) (r : Answer) :
    ∃ t, onChannel ch s absent r = .next t ∧
      ((ch < s.ata.length ∧ t = { r.1 with result := r.2 }) ∨
        (s.ata.length ≤ ch ∧ t = { s with result := absent })) := by
  by_cases h : ch < s.ata.length
  · exact ⟨_, onChannel_of_lt h absent r, .inl ⟨h, rfl⟩⟩
  · exact ⟨_, onChannel_of_le (Nat.not_lt.mp h) absent r, .inr ⟨Nat.not_lt.mp h, rfl⟩⟩

theorem getElem?_chan {ch : Nat} {s : State} (h : ch < s.ata.length) : s.ata[ch]? = some (chan s ch) := by
  simp [chan, h]

theorem chan_modChan {ch : Nat} {s : State} (h : ch < s.ata.length) (f : Channel → Channel) :
    chan (modChan ch f s) ch = f (chan s ch) := by
  unfold chan
  rw [modChan_ata, modifyAt_getElem?, if_pos rfl, getElem?_chan h]
  rfl

/-- A changed channel, and no other. -/
theorem onlyChannel_modChan {ch : Nat} {s : State} (h : ch < s.ata.length) (f : Channel → Channel) :
    OnlyChannel ch (f (chan s ch)) s (modChan ch f s) := by
  intro j
  rw [modChan_ata, modifyAt_getElem?, getElem?_chan h]
  rfl

/-- Nothing done to a channel. -/
theorem onlyChannel_self {ch : Nat} {s : State} (h : ch < s.ata.length) : OnlyChannel ch (chan s ch) s s := by
  intro j
  by_cases hj : j = ch
  · subst hj; simp [getElem?_chan h]
  · simp [hj]

theorem OnlyChannel.trans {ch : Nat} {s u t : State} {c d : Channel} (h1 : OnlyChannel ch c s u)
    (h2 : OnlyChannel ch d u t) : OnlyChannel ch d s t := by
  intro j
  rw [h2 j]
  by_cases h : j = ch
  · simp [h]
  · simp [h, h1 j]

theorem OnlyChannel.chan_eq {ch : Nat} {s u : State} {c : Channel} (h : OnlyChannel ch c s u) : chan u ch = c := by
  have := h ch
  simp only [if_true] at this
  simp [chan, this]

theorem OnlyChannel.lt_length {ch : Nat} {s u : State} {c : Channel} (h : OnlyChannel ch c s u) : ch < u.ata.length := by
  have := h ch
  simp only [if_true] at this
  exact (List.getElem?_eq_some_iff.mp this).1

theorem modChan_modChan (ch : Nat) (f g : Channel → Channel) (s : State) :
    modChan ch g (modChan ch f s) = modChan ch (g ∘ f) s := by
  simp [modChan, modifyAt_modifyAt]

/-! ### Timers -/

theorem lookupTimer_eq_some {s : State} {d : Device} {i : Nat} {x : Timer} (hx : s.clk.timers[i]? = some x)
    (ho : x.owner = d) (hmin : ∀ j y, j < i → s.clk.timers[j]? = some y → y.owner ≠ d) :
    lookupTimer s d = some i := by
  unfold lookupTimer
  obtain ⟨hi, rfl⟩ := List.getElem?_eq_some_iff.mp hx
  rw [List.findIdx?_eq_some_iff_getElem]
  refine ⟨hi, by simp [ho], fun j hj => ?_⟩
  simpa using hmin j _ hj (List.getElem?_eq_getElem (by omega))

theorem lookupTimer_eq_none {s : State} {d : Device} : lookupTimer s d = none ↔ ∀ x ∈ s.clk.timers, x.owner ≠ d := by
  unfold lookupTimer
  rw [List.findIdx?_eq_none_iff]
  simp

theorem lookupTimer_congr {s t : State} (h : t.clk.timers = s.clk.timers) (d : Device) :
    lookupTimer t d = lookupTimer s d := by
  simp [lookupTimer, h]

/-- Changing a timer but not its owner changes no look-up. -/
theorem lookupTimer_modTimer (i : Nat) (f : Timer → Timer) (hf : ∀ x, (f x).owner = x.owner) (s : State) (d : Device) :
    lookupTimer (modTimer i f s) d = lookupTimer s d := by
  have h : ∀ (l : List Timer) (i : Nat),
      (modifyAt l i f).map (fun t => t.owner == d) = l.map fun t => t.owner == d := by
    intro l
    induction l with
    | nil => intro i; rfl
    | cons x rest ih =>
      intro i
      cases i
      · simp [modifyAt, hf]
      · simp [modifyAt, ih]
  have e : ∀ l : List Timer, l.findIdx? (fun t => t.owner == d) = (l.map fun t => t.owner == d).findIdx? id := by
    intro l
    rw [List.findIdx?_map]
    rfl
  unfold lookupTimer modTimer
  rw [setTimers_timers, e, e, h]

theorem modTimer_getElem? (i : Nat) (f : Timer → Timer) (s : State) (j : Nat) :
    (modTimer i f s).clk.timers[j]? = if j = i then (s.clk.timers[i]?).map f else s.clk.timers[j]? := by
  simp [modTimer, modifyAt_getElem?]

/-- All that arming a channel's timer does. -/
theorem armTimer_does (ch : Nat) (s : State) :
    armTimer Config.params ch s =
        { s with
          clk := { s.clk with timers := (armTimer Config.params ch s).clk.timers }
          log := (armTimer Config.params ch s).log } ∧
      TimersArmed ch s (armTimer Config.params ch s) := by
  unfold armTimer resetTimer
  cases h : lookupTimer s (.ata ch) with
  | none =>
    have h' : lookupTimer (logged (.noSuchTimer (.ata ch)) s) (.ata ch) = none := h
    simp only [fail, raise, setTimerActiveState, h']
    refine ⟨rfl, ?_, ?_⟩
    · intro i; simp [h]
    · simp [h]
  | some i =>
    have h' := lookupTimer_modTimer i
      (fun t : Timer => { t with
        interval := pulsesOf Config.params Config.params.ataCmdDelayUs s
        countdown := pulsesOf Config.params Config.params.ataCmdDelayUs s })
      (fun _ => rfl) s (.ata ch)
    rw [h] at h'
    simp only [setTimerActiveState, h']
    refine ⟨rfl, ?_, ?_⟩
    · intro j
      rw [modTimer_getElem?, modTimer_getElem?, modTimer_getElem?, h]
      by_cases hj : j = i
      · subst hj
        simp only [if_true]
        cases s.clk.timers[j]? with
        | none => rfl
        | some x =>
          have hp : 1 ≤ pulsesOf Config.params Config.params.ataCmdDelayUs s := by
            unfold pulsesOf toPulses
            split <;> exact Nat.le_max_left _ _
          have hz : (pulsesOf Config.params Config.params.ataCmdDelayUs s == 0) = false := by
            rw [beq_eq_false_iff_ne]; omega
          simp [setActive, hz]
      · have : ¬i = j := fun e => hj e.symm
        simp [hj, this]
    · simp [h, modTimer, setTimers]

/-- Arming a timer reads the clock, the rates and the log alone. -/
theorem TimersArmed.of_eq {ch : Nat} {s u t : State} (h : TimersArmed ch u t) (hclk : u.clk = s.clk)
    (hlog : u.log = s.log) (hcpu : u.cpu = s.cpu) : TimersArmed ch s t := by
  unfold TimersArmed at *
  have e1 : lookupTimer u (.ata ch) = lookupTimer s (.ata ch) := lookupTimer_congr (by rw [hclk]) _
  have e2 : pulsesOf Config.params Config.params.ataCmdDelayUs u = pulsesOf Config.params Config.params.ataCmdDelayUs s := by
    unfold pulsesOf quantum
    rw [hcpu]
  rw [e1, e2, hclk, hlog] at h
  exact h

/-- All that parking a channel's timer does. -/
theorem parkTimer_does (ch : Nat) (s : State) :
    parkTimer ch s =
        { s with clk := { s.clk with timers := (parkTimer ch s).clk.timers }, log := (parkTimer ch s).log } ∧
      (∀ i, (parkTimer ch s).clk.timers[i]? =
        if lookupTimer s (.ata ch) = some i then (s.clk.timers[i]?).map fun x => { x with active := false }
        else s.clk.timers[i]?) ∧
      (parkTimer ch s).log = s.log ++ (if lookupTimer s (.ata ch) = none then [.noSuchTimer (.ata ch)] else []) := by
  unfold parkTimer setTimerActiveState
  cases h : lookupTimer s (.ata ch) with
  | none => exact ⟨rfl, fun i => by simp [fail, raise], by simp [fail, raise]⟩
  | some i =>
    refine ⟨rfl, fun j => ?_, by simp [modTimer, setTimers]⟩
    rw [modTimer_getElem?]
    by_cases hj : j = i
    · subst hj
      have e : setActive false = fun x : Timer => { x with active := false } := by funext x; simp [setActive]
      simp [e]
    · have : ¬i = j := fun e => hj e.symm
      simp [hj, this]

end Sys2Proof.Machine
end

