-- ==== Sys2Proof/Laws/Channel.lean ====
section
/-! SUPPORT. An ATA channel's interrupt line and its drives: all that lowering and raising the line does, and how a
change of the channel or of one drive reads back. -/

namespace Sys2Proof.Machine

open Sys2Proof.Config (params)

/-- An assert leaves all but the controllers and the log. -/
theorem assertIRQ_eq (P : Params) (n : Nat) (s : State) :
    (assertIRQ P n s).1 =
      { s with
        picM := (assertIRQ P n s).1.picM, picS := (assertIRQ P n s).1.picS, log := (assertIRQ P n s).1.log } := by
  unfold assertIRQ
  split
  · rfl
  · cases ctrlOfLine n <;> rfl

/-- A clear leaves all but the controllers and the log. -/
theorem clearIRQ_eq (P : Params) (n : Nat) (s : State) :
    (clearIRQ P n s).1 =
      { s with picM := (clearIRQ P n s).1.picM, picS := (clearIRQ P n s).1.picS, log := (clearIRQ P n s).1.log } := by
  unfold clearIRQ
  split
  · rfl
  · cases ctrlOfLine n <;> rfl

/-- What a clear does to the controllers does not depend on the channels. -/
theorem clearIRQ_ata (P : Params) (n : Nat) (s : State) (ata : List Channel) :
    (clearIRQ P n { s with ata := ata }).1 = { (clearIRQ P n s).1 with ata := ata } := by
  unfold clearIRQ
  split
  · rfl
  · cases ctrlOfLine n <;> rfl

theorem assertIRQ_ata (P : Params) (n : Nat) (s : State) (ata : List Channel) (world : Nat) :
    (assertIRQ P n { s with ata := ata, world := world }).1 =
      { (assertIRQ P n s).1 with ata := ata, world := world } := by
  unfold assertIRQ
  split
  · rfl
  · cases ctrlOfLine n <;> rfl

/-- A change of a channel after the controllers have changed. -/
theorem modChan_of_pics {s u : State} (e : u = { s with picM := u.picM, picS := u.picS }) (ch : Nat)
    (f : Channel → Channel) :
    modChan ch f u = { s with picM := u.picM, picS := u.picS, ata := (modChan ch f u).ata } := by
  generalize u.picM = m at e ⊢
  generalize u.picS = p at e ⊢
  subst e
  rfl

/-- A raised interrupt has a line that can be cleared. -/
theorem irqLine_ok {c : Channel} (h : ChannelOk c) (hr : c.irqRaised = true) : irqLine c < 16 ∧ irqLine c ≠ 2 := by
  obtain ⟨-, -, h1, h2, h3, h4⟩ := h
  have := h4 hr
  unfold irqLine
  omega

/-- All that lowering the channel's line does. -/
theorem lowerIrq_does {ch : Nat} {s : State} (hch : ch < s.ata.length) (h : ChannelOk (chan s ch)) :
    lowerIrq params ch s =
        { s with picM := (loweredPics ch s).1, picS := (loweredPics ch s).2, ata := (lowerIrq params ch s).ata } ∧
      OnlyChannel ch { chan s ch with irqRaised := false } s (lowerIrq params ch s) := by
  unfold lowerIrq loweredPics
  cases hr : (chan s ch).irqRaised
  · refine ⟨rfl, ?_⟩
    have e : { chan s ch with irqRaised := false } = chan s ch := by rw [← hr]
    rw [e]
    exact onlyChannel_self hch
  · obtain ⟨h1, h2⟩ := irqLine_ok h hr
    obtain ⟨-, e, -⟩ := clearIRQ_line h1 h2 s _ rfl
    have ea : (clearIRQ params (irqLine (chan s ch)) s).1.ata = s.ata := by rw [e]
    have ec : chan (clearIRQ params (irqLine (chan s ch)) s).1 ch = chan s ch := by rw [chan, ea]; rfl
    refine ⟨?_, ?_⟩
    · simp only [if_true]
      exact modChan_of_pics e _ _
    · intro j
      simp only [if_true]
      rw [modChan_ata, modifyAt_getElem?, ea, getElem?_chan hch]
      rfl

/-- All that raising the channel's line does. -/
theorem raiseIrq_does (ch : Nat) (s : State) :
    raiseIrq params ch s =
      if !(chan s ch).nIEN && decide (0 ≤ (chan s ch).irqNumber) then
        { s with
          picM := (assertIRQ params (irqLine (chan s ch)) s).1.picM
          picS := (assertIRQ params (irqLine (chan s ch)) s).1.picS
          log := (assertIRQ params (irqLine (chan s ch)) s).1.log
          ata := modifyAt s.ata ch fun c => { c with irqRaised := true } }
      else s := by
  unfold raiseIrq
  split
  · unfold modChan
    rw [assertIRQ_eq]
  · rfl

/-! ### Drives -/

@[simp] theorem driveOf_onDrive (k : Fin 2) (f : Drive → Drive) (c : Channel) :
    driveOf (onDrive k f c) k = f (driveOf c k) := by
  unfold driveOf onDrive
  by_cases h : k = 0 <;> simp [h]

theorem driveOf_onDrive_ne {j k : Fin 2} (h : j ≠ k) (f : Drive → Drive) (c : Channel) :
    driveOf (onDrive k f c) j = driveOf c j := by
  unfold driveOf onDrive
  by_cases h1 : k = 0 <;> by_cases h2 : j = 0 <;> simp_all
  omega

theorem onDrive_onDrive (k : Fin 2) (f g : Drive → Drive) (c : Channel) :
    onDrive k g (onDrive k f c) = onDrive k (g ∘ f) c := by
  unfold onDrive
  by_cases h : k = 0 <;> simp [h]

/-- A drive changed, as far as the function reads the drive that is there. -/
theorem onDrive_congr {k : Fin 2} {f g : Drive → Drive} {c : Channel} (h : f (driveOf c k) = g (driveOf c k)) :
    onDrive k f c = onDrive k g c := by
  unfold onDrive driveOf at *
  by_cases hk : k = 0 <;> simp_all

/-- One drive of `ATA.update`, as `completion` says it. -/
theorem completeDrive_eq (ch : Nat) (k : Fin 2) (s : State) (h : ch < s.ata.length) :
    completeDrive params ch k s =
      (modDrive ch k (fun _ => (completion params s.world k (driveOf (chan s ch) k)).1)
        { s with world := (completion params s.world k (driveOf (chan s ch) k)).2.1 },
       (completion params s.world k (driveOf (chan s ch) k)).2.2) := by
  have mc : ∀ (f : Drive → Drive) (u : State), u.ata = s.ata → modDrive ch k f u = modDrive ch k (fun _ => f (driveOf (chan s ch) k)) u := by
    intro f u hu
    unfold modDrive modChan
    congr 1
    apply modifyAt_congr
    intro c hc
    have : c = chan s ch := by rw [hu, getElem?_chan h] at hc; exact (Option.some.inj hc).symm
    subst this
    exact onDrive_congr rfl
  have idm : modDrive ch k (fun _ => driveOf (chan s ch) k) s = s := by
    unfold modDrive modChan
    have : modifyAt s.ata ch (onDrive k fun _ => driveOf (chan s ch) k) = s.ata := by
      apply List.ext_getElem?
      intro j
      rw [modifyAt_getElem?, getElem?_chan h]
      by_cases hj : j = ch
      · subst hj
        rw [if_pos rfl, getElem?_chan h]
        unfold onDrive driveOf; split <;> rfl
      · rw [if_neg hj]
    rw [this]
  unfold completeDrive completion
  generalize hd : driveOf (chan s ch) k = d at *
  cases hp : d.phase with
  | idle => simp only; rw [idm]
  | dataIn => simp only; rw [idm]
  | dataOut n t => simp only; rw [idm]
  | busy p =>
    cases p with
    | abort => simp only; rw [mc _ _ rfl]; rfl
    | done r => simp only; rw [mc _ _ rfl]; rfl
    | dataIn b r =>
      cases b with
      | nil => simp only; rw [mc _ _ rfl]; rfl
      | cons b rest => simp only; rw [mc _ _ rfl]; rfl
    | finish tag bytes =>
      simp only
      generalize params.ataFinish s.world tag bytes (viewOf k d) (taskRegsOf d) = r
      obtain ⟨pl, w⟩ := r
      cases pl <;> (simp only; rw [mc _ { s with world := w } rfl]; rfl)

end Sys2Proof.Machine
end

