-- ==== Sys2Proof/Laws/Codec.lean ====
section
/-! SUPPORT. Packet fields: each reader gives back what its writer wrote, whatever follows, and each command byte has
the bits it was made of. -/

namespace Sys2Proof

@[simp] theorem getHalf_putHalf (v : Half) (r : List Byte) : getHalf (putHalf v ++ r) = .ok (v, r) := by
  have h : v.extractLsb' 8 8 ++ v.extractLsb' 0 8 = v := by
    apply BitVec.eq_of_getLsbD_eq
    intro i hi
    rw [BitVec.getLsbD_append]
    by_cases h : i < 8
    · simp [h]
    · simp [h, show i - 8 < 8 by omega, show 8 + (i - 8) = i by omega]
  simp [getHalf, putHalf, h]

@[simp] theorem getLong_putLong (v : Long) (r : List Byte) : getLong (putLong v ++ r) = .ok (v, r) := by
  have h : v.extractLsb' 24 8 ++ (v.extractLsb' 16 8 ++ (v.extractLsb' 8 8 ++ v.extractLsb' 0 8)) = v := by
    apply BitVec.eq_of_getLsbD_eq
    intro i hi
    simp only [BitVec.getLsbD_append]
    by_cases h1 : i < 8
    · simp [h1, show i < 24 by omega, show i < 16 by omega]
    · by_cases h2 : i < 16
      · simp [h1, h2, show i - 8 < 8 by omega, show 8 + (i - 8) = i by omega, show i < 24 by omega]
      · by_cases h3 : i < 24
        · simp [h2, h3, show i - 16 < 8 by omega, show 16 + (i - 16) = i by omega]
        · simp [h3, show i - 24 < 8 by omega, show 24 + (i - 24) = i by omega]
  have e : getLong (putLong v ++ r) =
      .ok (v.extractLsb' 24 8 ++ (v.extractLsb' 16 8 ++ (v.extractLsb' 8 8 ++ v.extractLsb' 0 8)), r) := rfl
  rw [e, h]

theorem getNat_putNat {n : Nat} (h : natFits n = true) (r : List Byte) : getNat (putNat n ++ r) = .ok (n, r) := by
  have h' : n < 2 ^ 32 := by simpa [natFits] using h
  simp [getNat, putNat]
  exact h'

theorem getIndexed_putNat {α : Type} (f : Nat → α) {n : Nat} (h : natFits n = true) (r : List Byte) :
    getIndexed f (putNat n ++ r) = .ok (f n, r) := by
  simp [getIndexed, getNat_putNat h]

@[simp] theorem getBool_putBool (b : Bool) (r : List Byte) : getBool (putBool b ++ r) = .ok (b, r) := by
  cases b <;> rfl

@[simp] theorem getWidth_putWidth (w : Width) (r : List Byte) : getWidth (putWidth w ++ r) = .ok (w, r) := by
  cases w <;> rfl

@[simp] theorem getAttr_putAttr (t : Attr) (r : List Byte) : getAttr (putAttr t ++ r) = .ok (t, r) := by
  cases t <;> rfl

@[simp] theorem getCarrier_putCarrier (t : Carrier) (r : List Byte) : getCarrier (putCarrier t ++ r) = .ok (t, r) := by
  cases t <;> rfl

@[simp] theorem getParamReg_putParamReg (o : ParamReg) (r : List Byte) :
    getParamReg (putParamReg o ++ r) = .ok (o, r) := by
  cases o <;> rfl

theorem getDevice_putDevice {d : Device} (h : deviceFits d = true) (r : List Byte) :
    getDevice (putDevice d ++ r) = .ok (d, r) := by
  cases d with
  | pic => rfl
  | ata ch => exact getIndexed_putNat Device.ata h r
  | ext n => exact getIndexed_putNat Device.ext h r

theorem getModule_putModule {m : Module} (h : moduleFits m = true) (r : List Byte) :
    getModule (putModule m ++ r) = .ok (m, r) := by
  cases m with
  | ata ch => exact getIndexed_putNat Module.ata h r
  | ext n => exact getIndexed_putNat Module.ext h r
  | _ => rfl

theorem splitBytes_append (bytes r : List Byte) : splitBytes bytes.length (bytes ++ r) = .ok (bytes, r) := by
  simp [splitBytes]

theorem getName_putName {bytes : List Byte} (h : nameFits bytes = true) (r : List Byte) :
    getName (putName bytes ++ r) = .ok (bytes, r) := by
  have h' : bytes.length < 2 ^ 8 := by simpa [nameFits] using h
  have e : getName (putName bytes ++ r) = splitBytes (BitVec.ofNat 8 bytes.length).toNat (bytes ++ r) := rfl
  rw [e, BitVec.toNat_ofNat, Nat.mod_eq_of_lt h', splitBytes_append]

theorem getBlob_putBlob {bytes : List Byte} (h : blobFits bytes = true) (r : List Byte) :
    getBlob (putBlob bytes ++ r) = .ok (bytes, r) := by
  have h' : natFits bytes.length = true := by simpa [blobFits, natFits] using h
  simp [getBlob, putBlob, List.append_assoc, getNat_putNat h', splitBytes_append]

theorem getSel_putSel {s : DriveSel} (h : selFits s = true) (r : List Byte) :
    getSel (putSel s ++ r) = .ok (s, r) := by
  cases s with
  | index n => exact getIndexed_putNat DriveSel.index h r
  | name bytes =>
    have e : getSel (putSel (.name bytes) ++ r) =
        (match getName (putName bytes ++ r) with
         | .ok (b, r) => .ok (.name b, r)
         | .error e => .error e) := rfl
    rw [e, getName_putName h]

@[simp] theorem getLine_putLine (l : Option (Fin 8)) (r : List Byte) : getLine (putLine l ++ r) = .ok (l, r) := by
  cases l with
  | none => rfl
  | some l =>
    have h1 : BitVec.ofNat 8 (l.val + 1) ≠ 0 := by revert l; decide
    have h2 : (BitVec.ofNat 8 (l.val + 1)).toNat - 1 = l.val := by
      rw [BitVec.toNat_ofNat, Nat.mod_eq_of_lt (by omega)]
      omega
    have e : getLine (putLine (some l) ++ r) =
        (if BitVec.ofNat 8 (l.val + 1) = 0 then .ok (none, r)
         else if h : (BitVec.ofNat 8 (l.val + 1)).toNat - 1 < 8 then
          .ok (some ⟨(BitVec.ofNat 8 (l.val + 1)).toNat - 1, h⟩, r)
         else .error (.badTag (BitVec.ofNat 8 (l.val + 1)))) := rfl
    rw [e, if_neg h1, dif_pos (by rw [h2]; exact l.isLt)]
    exact congrArg (fun x => Except.ok (some x, r)) (Fin.ext h2)

@[simp] theorem getCtrl_putCtrl (c : Ctrl) : getCtrl (putCtrl c) = .ok c := by cases c <;> rfl

theorem toNat_putChan {ch : Nat} (h : chanFits ch = true) : (putChan ch).toNat = ch := by
  have h' : ch < 2 ^ 8 := by simpa [chanFits] using h
  simp [putChan]
  exact h'

/-- No two selectors have one code, and every code is found. -/
@[simp] theorem ofByte_code (x : Sel) : Sel.ofByte x.code = some x := by cases x <;> rfl

/-- A packet is read by its selector. -/
theorem decode_packet (b : Byte) (x : Sel) (u : Byte) (r : List Byte) : decode (packet b x u r) = decodeBody b x u r := by
  simp [decode, packet]

/-! ### Fields at the end of a packet -/

theorem lastField_ok {α : Type} {f : List Byte → Field α} {l : List Byte} {x : α} (h : ∀ r, f (l ++ r) = .ok (x, r))
    (k : α → Instr) : lastField (f l) k = .ok (k x) := by
  have := h []
  rw [List.append_nil] at this
  simp [lastField, this, endOfPacket]

theorem valueField_ok {w : Width} {v : Long} (h : valueFits w v = true) (k : Long → Instr) :
    valueField w (putLong v) k = .ok (k v) := by
  have := getLong_putLong v []
  rw [List.append_nil] at this
  simp [valueField, nextField, this, h, endOfPacket]

@[simp] theorem lastField_getBool (x : Bool) (k : Bool → Instr) :
    lastField (getBool (putBool x)) k = .ok (k x) := lastField_ok (getBool_putBool x) k

@[simp] theorem lastField_getWidth (x : Width) (k : Width → Instr) :
    lastField (getWidth (putWidth x)) k = .ok (k x) := lastField_ok (getWidth_putWidth x) k

@[simp] theorem lastField_getAttr (x : Attr) (k : Attr → Instr) :
    lastField (getAttr (putAttr x)) k = .ok (k x) := lastField_ok (getAttr_putAttr x) k

@[simp] theorem lastField_getParamReg (x : ParamReg) (k : ParamReg → Instr) :
    lastField (getParamReg (putParamReg x)) k = .ok (k x) := lastField_ok (getParamReg_putParamReg x) k

theorem lastField_getNat {x : Nat} (h : natFits x = true) (k : Nat → Instr) :
    lastField (getNat (putNat x)) k = .ok (k x) := lastField_ok (getNat_putNat h) k

theorem lastField_getDevice {x : Device} (h : deviceFits x = true) (k : Device → Instr) :
    lastField (getDevice (putDevice x)) k = .ok (k x) := lastField_ok (getDevice_putDevice h) k

theorem lastField_getModule {x : Module} (h : moduleFits x = true) (k : Module → Instr) :
    lastField (getModule (putModule x)) k = .ok (k x) := lastField_ok (getModule_putModule h) k

theorem lastField_getSel {x : DriveSel} (h : selFits x = true) (k : DriveSel → Instr) :
    lastField (getSel (putSel x)) k = .ok (k x) := lastField_ok (getSel_putSel h) k

theorem lastField_getName {x : List Byte} (h : nameFits x = true) (k : List Byte → Instr) :
    lastField (getName (putName x)) k = .ok (k x) := lastField_ok (getName_putName h) k

theorem lastField_getBlob {x : List Byte} (h : blobFits x = true) (k : List Byte → Instr) :
    lastField (getBlob (putBlob x)) k = .ok (k x) := lastField_ok (getBlob_putBlob h) k

/-! ### Command bytes -/

theorem decodePicCmd_byteICW1 (c : Ctrl) (ltim sngl ic4 : Bool) :
    decodePicCmd c (byteICW1 ltim sngl ic4) = .picICW1 c ltim sngl ic4 := by
  cases ltim <;> cases sngl <;> cases ic4 <;> rfl

theorem decodePicCmd_byteOCW2EOI (c : Ctrl) (r sl : Bool) (l : Fin 8) :
    decodePicCmd c (byteOCW2EOI r sl l) = .picOCW2EOI c r sl l := by
  cases c <;> cases r <;> cases sl <;> (revert l; decide)

theorem decodePicCmd_byteOCW3 (c : Ctrl) (esmm smm p rr ris : Bool) :
    decodePicCmd c (byteOCW3 esmm smm p rr ris) = .picOCW3 c esmm smm p rr ris := by
  cases esmm <;> cases smm <;> cases p <;> cases rr <;> cases ris <;> rfl

theorem byteDrvHead_bits (lba drv : Bool) (head : BitVec 4) :
    (byteDrvHead lba drv head).getLsbD 6 = lba ∧ (byteDrvHead lba drv head).getLsbD 4 = drv ∧
      (byteDrvHead lba drv head).extractLsb' 0 4 = head := by
  cases lba <;> cases drv <;> (revert head; decide)

theorem byteDevCtl_bits (srst nien : Bool) :
    (byteDevCtl srst nien).getLsbD 2 = srst ∧ (byteDevCtl srst nien).getLsbD 1 = nien := by
  cases srst <;> cases nien <;> decide

end Sys2Proof
end

