-- ==== Sys2Proof/Laws/Keeps.lean ====
section
/-! SUPPORT. Invariants, each induction packaged once: what a property of states must survive for every operation of an
ATA channel, every device handler, every port access, every pulse and the whole of `CPU.step` to keep it. -/

namespace Sys2Proof.Machine

variable {P : Params} {Inv : State → Prop}

/-- A property kept by every device operation, by any change of one channel and by any change of the hidden state. -/
structure KeepsParts (P : Params) (Inv : State → Prop) : Prop where
  devOp : ∀ op s, Inv s → Inv (runDevOp P op s).1
  channel : ∀ ch f s, Inv s → Inv (modChan ch f s)
  world : ∀ w s, Inv s → Inv { s with world := w }
  log : ∀ d s, Inv s → Inv (logged d s)

namespace KeepsParts

theorem assertIRQ (h : KeepsParts P Inv) (n : Nat) (s : State) (hs : Inv s) :
    Inv (Machine.assertIRQ P n s).1 := h.devOp (.assertIRQ n) s hs

theorem clearIRQ (h : KeepsParts P Inv) (n : Nat) (s : State) (hs : Inv s) :
    Inv (Machine.clearIRQ P n s).1 := h.devOp (.clearIRQ n) s hs

theorem resetTimer (h : KeepsParts P Inv) (d : Device) (us : Nat) (s : State) (hs : Inv s) :
    Inv (Machine.resetTimer P d us s).1 := h.devOp (.resetTimer d us) s hs

theorem setTimerActiveState (h : KeepsParts P Inv) (d : Device) (on : Bool) (s : State) (hs : Inv s) :
    Inv (Machine.setTimerActiveState d on s).1 := h.devOp (.setTimerActiveState d on) s hs

theorem registerDevice (h : KeepsParts P Inv) (d : Device) (us : Nat) (k : Bool) (s : State) (hs : Inv s) :
    Inv (Machine.registerDevice P d us k s).1 := h.devOp (.registerDevice d us k) s hs

theorem requestIRQNumber (h : KeepsParts P Inv) (d : Device) (s : State) (hs : Inv s) :
    Inv (Machine.requestIRQNumber P d s).1 := h.devOp (.requestIRQNumber d) s hs

theorem registerPorts (h : KeepsParts P Inv) (ports : List Half) (d : Device) (s : State) (hs : Inv s) :
    Inv (Machine.registerPorts ports d s) := by
  induction ports generalizing s with
  | nil => exact hs
  | cons a rest ih => exact ih _ (h.devOp (.registerPort a d .rw) s hs)

theorem raiseIrq (h : KeepsParts P Inv) (ch : Nat) (s : State) (hs : Inv s) : Inv (Machine.raiseIrq P ch s) := by
  unfold Machine.raiseIrq
  split
  · exact h.channel _ _ _ (h.assertIRQ _ _ hs)
  · exact hs

theorem lowerIrq (h : KeepsParts P Inv) (ch : Nat) (s : State) (hs : Inv s) : Inv (Machine.lowerIrq P ch s) := by
  unfold Machine.lowerIrq
  split
  · exact h.channel _ _ _ (h.clearIRQ _ _ hs)
  · exact hs

theorem armTimer (h : KeepsParts P Inv) (ch : Nat) (s : State) (hs : Inv s) : Inv (Machine.armTimer P ch s) :=
  h.setTimerActiveState _ _ _ (h.resetTimer _ _ _ hs)

theorem parkTimer (h : KeepsParts P Inv) (ch : Nat) (s : State) (hs : Inv s) : Inv (Machine.parkTimer ch s) :=
  h.setTimerActiveState _ _ _ hs

theorem setSelectedDriveIndex (h : KeepsParts P Inv) (ch k : Nat) (s : State) (hs : Inv s) :
    Inv (Machine.setSelectedDriveIndex ch k s).1 := by
  unfold Machine.setSelectedDriveIndex
  repeat' split
  all_goals first | exact h.log _ _ hs | exact h.channel _ _ _ hs

theorem ataReset (h : KeepsParts P Inv) (ch : Nat) (s : State) (hs : Inv s) : Inv (Machine.ataReset P ch s).1 := by
  have h3 : Inv (ataResetPorts P ch (ataResetLine P ch (ataResetBases P ch s)).1) :=
    h.registerPorts _ _ _ (h.channel _ _ _ (h.requestIRQNumber _ _ (h.channel _ _ _ hs)))
  have h4 : ∀ u, Inv u → Inv (ataResetTimer P ch u).1 := by
    intro u hu
    unfold ataResetTimer
    split
    · exact h.parkTimer _ _ hu
    · dsimp only
      split
      · exact h.parkTimer _ _ (h.channel _ _ _ (h.registerDevice _ _ _ _ hu))
      · exact h.registerDevice _ _ _ _ hu
  have h5 : ∀ u, Inv u → Inv (ataResetIrq P ch u) := by
    intro u hu
    unfold ataResetIrq
    dsimp only
    split
    · exact h.channel _ _ _ (h.clearIRQ _ _ hu)
    · exact h.channel _ _ _ hu
  exact h.channel _ _ _ (h5 _ (h4 _ h3))

theorem ataInsert (h : KeepsParts P Inv) (sel : DriveSel) (t : Carrier) (im : Nat) (wp : Bool) (s : State)
    (hs : Inv s) : Inv (Machine.ataInsert P sel t im wp s).1 := by
  unfold Machine.ataInsert
  split
  · exact h.log _ _ hs
  · repeat' split
    all_goals first | exact h.log _ _ hs | exact h.channel _ _ _ hs

theorem ataEject (h : KeepsParts P Inv) (sel : DriveSel) (s : State) (hs : Inv s) :
    Inv (Machine.ataEject P sel s).1 := by
  unfold Machine.ataEject
  split
  · exact h.log _ _ hs
  · repeat' split
    all_goals first | exact h.log _ _ hs | exact h.channel _ _ _ hs

theorem completeDrive (h : KeepsParts P Inv) (ch : Nat) (k : Fin 2) (s : State) (hs : Inv s) :
    Inv (Machine.completeDrive P ch k s).1 := by
  unfold Machine.completeDrive
  split
  all_goals first | exact hs | exact h.channel _ _ _ hs | exact h.channel _ _ _ (h.world _ _ hs)

theorem ataUpdate (h : KeepsParts P Inv) (ch : Nat) (s : State) (hs : Inv s) : Inv (Machine.ataUpdate P ch s) := by
  unfold Machine.ataUpdate
  have := h.completeDrive ch 1 _ (h.completeDrive ch 0 s hs)
  dsimp only
  split
  · exact h.raiseIrq _ _ this
  · exact this

theorem startCommand (h : KeepsParts P Inv) (ch : Nat) (k : Fin 2) (b : Byte) (s : State) (hs : Inv s) :
    Inv (Machine.startCommand P ch k b s) := by
  unfold Machine.startCommand startPlan
  dsimp only
  split
  · exact h.armTimer _ _ (h.channel _ _ _ (h.world _ _ hs))
  · exact h.channel _ _ _ (h.world _ _ hs)

theorem writeCommand (h : KeepsParts P Inv) (ch : Nat) (b : Byte) (s : State) (hs : Inv s) :
    Inv (Machine.writeCommand P ch b s) := by
  unfold Machine.writeCommand
  dsimp only
  split
  · exact hs
  · exact h.startCommand _ _ _ _ (h.channel _ _ _ (h.lowerIrq _ _ hs))

theorem readDataReg (h : KeepsParts P Inv) (ch : Nat) (w : Width) (s : State) (hs : Inv s) :
    Inv (Machine.readDataReg ch w s).2 := by
  unfold Machine.readDataReg
  dsimp only
  split
  · exact hs
  · exact h.channel _ _ _ hs

theorem writeDataReg (h : KeepsParts P Inv) (ch : Nat) (w : Width) (v : Long) (s : State) (hs : Inv s) :
    Inv (Machine.writeDataReg P ch w v s) := by
  unfold Machine.writeDataReg
  dsimp only
  split
  · exact hs
  · split
    · split
      · exact h.armTimer _ _ (h.channel _ _ _ hs)
      · exact h.channel _ _ _ hs
    · exact hs

theorem writeBoth (h : KeepsParts P Inv) (ch : Nat) (f : Drive → Drive) (s : State) (hs : Inv s) :
    Inv (Machine.writeBoth ch f s) := by
  unfold Machine.writeBoth
  split
  · exact hs
  · exact h.channel _ _ _ hs

theorem writeDrvHead (h : KeepsParts P Inv) (ch : Nat) (lba drv : Bool) (head : BitVec 4) (s : State) (hs : Inv s) :
    Inv (Machine.writeDrvHead ch lba drv head s) := by
  unfold Machine.writeDrvHead
  split
  · exact hs
  · exact h.setSelectedDriveIndex _ _ _ (h.channel _ _ _ hs)

theorem writeDevCtl (h : KeepsParts P Inv) (ch : Nat) (srst nien : Bool) (s : State) (hs : Inv s) :
    Inv (Machine.writeDevCtl P ch srst nien s) := by
  have h1 : Inv (writeNIEN P ch nien s) := by
    unfold writeNIEN
    dsimp only
    split
    · exact h.lowerIrq _ _ (h.channel _ _ _ hs)
    · exact h.channel _ _ _ hs
  unfold Machine.writeDevCtl writeSRST
  split
  · exact h.channel _ _ _ (h.parkTimer _ _ (h.lowerIrq _ _ (h.channel _ _ _ h1)))
  · split
    · exact h.channel _ _ _ h1
    · exact h1

theorem ataPortRead (h : KeepsParts P Inv) (ch : Nat) (a : Half) (w : Width) (s : State) (hs : Inv s) :
    Inv (Machine.ataPortRead P ch a w s).2 := by
  unfold Machine.ataPortRead
  split
  all_goals first | exact hs | exact h.readDataReg _ _ _ hs | exact h.lowerIrq _ _ hs

theorem ataPortWrite (h : KeepsParts P Inv) (ch : Nat) (a : Half) (w : Width) (v : Long) (s : State) (hs : Inv s) :
    Inv (Machine.ataPortWrite P ch a w v s) := by
  unfold Machine.ataPortWrite
  split
  all_goals
    first
    | exact hs
    | exact h.writeDataReg _ _ _ _ hs
    | exact h.writeBoth _ _ _ hs
    | exact h.writeDrvHead _ _ _ _ _ hs
    | exact h.writeCommand _ _ _ hs
    | exact h.writeDevCtl _ _ _ _ hs

end KeepsParts

/-- A property kept by each thing that a port access, a device handler or a pulse can do. -/
structure KeepsAccess (P : Params) (Inv : State → Prop) : Prop where
  devOp : ∀ op s, Inv s → Inv (runDevOp P op s).1
  world : ∀ w s, Inv s → Inv { s with world := w }
  log : ∀ d s, Inv s → Inv (logged d s)
  picRead : ∀ port s, Inv s → Inv (picPortRead P port s).2
  picWrite : ∀ port b s, Inv s → Inv (picPortWrite P port b s)
  ataRead : ∀ ch a w s, Inv s → Inv (ataPortRead P ch a w s).2
  ataWrite : ∀ ch a w v s, Inv s → Inv (ataPortWrite P ch a w v s)
  pulseSlot : ∀ i s, Inv s → Inv (Machine.pulseSlot P i s)

/-- A property kept by each thing that `CPU.step` can do but for counting its instruction. -/
structure KeepsGuest (P : Params) (Inv : State → Prop) : Prop extends KeepsAccess P Inv where
  regs : ∀ x s, Inv s → Inv (setRegs x s)
  memory : ∀ m s, (Memory.wf s.mem = true → Memory.wf m = true) → Inv s → Inv { s with mem := m }
  acknowledge : ∀ s, Inv s → Inv (Machine.acknowledge P s).2
  takePending : ∀ s, Inv s → Inv { s with clk := { s.clk with pendingRtPulses := 0 } }

/-- A property kept by each thing that `CPU.step` can do. -/
structure Keeps (P : Params) (Inv : State → Prop) : Prop extends KeepsGuest P Inv where
  count : ∀ s, Inv s → Inv (countInstruction s)

/-- A device handler keeps what every device operation keeps. -/
theorem runDevProg_keeps {α : Type} (hdev : ∀ op s, Inv s → Inv (runDevOp P op s).1)
    (hworld : ∀ w s, Inv s → Inv { s with world := w }) (p : DevProg α) (s : State) (hs : Inv s) :
    Inv (runDevProg P p s).2 := by
  induction p generalizing s with
  | ret a w => exact hworld w s hs
  | call op k ih => exact ih _ _ (hdev op s hs)

/-- An update callback keeps what every part of a channel and every device operation keeps. -/
theorem KeepsParts.updateDevice (h : KeepsParts P Inv) (d : Device) (s : State) (hs : Inv s) :
    Inv (Machine.updateDevice P d s) := by
  unfold Machine.updateDevice
  split
  · split
    · exact h.ataUpdate _ _ hs
    · exact hs
  · exact runDevProg_keeps h.devOp h.world _ _ hs
  · exact runDevProg_keeps h.devOp h.world _ _ hs

namespace KeepsAccess

theorem devProg {α : Type} (h : KeepsAccess P Inv) (p : DevProg α) (s : State) (hs : Inv s) :
    Inv (runDevProg P p s).2 := runDevProg_keeps h.devOp h.world p s hs

theorem deviceRead (h : KeepsAccess P Inv) (d : Device) (a : Half) (w : Width) (s : State) (hs : Inv s) :
    Inv (Machine.deviceRead P d a w s).2 := by
  unfold Machine.deviceRead
  split
  · split
    · exact h.picRead _ _ hs
    · exact h.devProg _ _ hs
  · split
    · exact h.ataRead _ _ _ _ hs
    · exact hs
  · exact h.devProg _ _ hs

theorem deviceWrite (h : KeepsAccess P Inv) (d : Device) (a : Half) (w : Width) (v : Long) (s : State) (hs : Inv s) :
    Inv (Machine.deviceWrite P d a w v s) := by
  unfold Machine.deviceWrite
  split
  · split
    · exact h.picWrite _ _ _ hs
    · exact h.devProg _ _ hs
  · split
    · exact h.ataWrite _ _ _ _ _ hs
    · exact hs
  · exact h.devProg _ _ hs

theorem busRead (h : KeepsAccess P Inv) (a : Half) (w : Width) (s : State) (hs : Inv s) :
    Inv (Machine.busRead P a w s).1 := by
  unfold Machine.busRead
  split
  · exact h.log _ _ hs
  · split
    · exact h.log _ _ hs
    · exact h.deviceRead _ _ _ _ hs

theorem busWrite (h : KeepsAccess P Inv) (a : Half) (w : Width) (v : Long) (s : State) (hs : Inv s) :
    Inv (Machine.busWrite P a w v s).1 := by
  unfold Machine.busWrite
  split
  · exact h.log _ _ hs
  · split
    · exact h.log _ _ hs
    · exact h.deviceWrite _ _ _ _ _ hs

theorem pulse (h : KeepsAccess P Inv) (s : State) (hs : Inv s) : Inv (Machine.pulse P s) := by
  unfold Machine.pulse
  generalize List.range P.maxTimers = l
  induction l generalizing s with
  | nil => exact hs
  | cons i rest ih => exact ih _ (h.pulseSlot _ _ hs)

theorem pulses (h : KeepsAccess P Inv) (n : Nat) (s : State) (hs : Inv s) : Inv (Machine.pulses P n s) := by
  induction n generalizing s with
  | zero => exact hs
  | succ n ih => exact ih _ (h.pulse _ hs)

end KeepsAccess

namespace KeepsGuest

theorem readByte (h : KeepsGuest P Inv) (a : Nat) (s : State) (hs : Inv s) : Inv (Machine.readByte P a s).2 := by
  unfold Machine.readByte
  split
  · exact hs
  · exact h.world _ _ hs

theorem writeByte (h : KeepsGuest P Inv) (a : Nat) (b : Byte) (s : State) (hs : Inv s) :
    Inv (Machine.writeByte P a b s) := by
  unfold Machine.writeByte
  split
  · exact h.memory _ _ (fun hm => memStore_wf hm _ _) hs
  · exact h.world _ _ (h.memory _ _ (fun _ => memOfCells_wf _) hs)

theorem memRead (h : KeepsGuest P Inv) (addr n : Nat) (s : State) (hs : Inv s) : Inv (Machine.memRead P addr n s).2 := by
  show Inv (readBytes P n addr s).2
  induction n generalizing addr s with
  | zero => exact hs
  | succ n ih => exact ih _ _ (h.readByte _ _ hs)

theorem memWrite (h : KeepsGuest P Inv) (addr n v : Nat) (s : State) (hs : Inv s) :
    Inv (Machine.memWrite P addr n v s) := by
  unfold Machine.memWrite
  generalize splitLE n v = l
  induction l generalizing addr s with
  | nil => exact hs
  | cons b rest ih => exact ih _ _ (h.writeByte _ _ _ hs)

theorem interruptEntry (h : KeepsGuest P Inv) (v : Byte) (s : State) (hs : Inv s) :
    Inv (Machine.interruptEntry P v s) := by
  have hpush : ∀ u s, Inv s → Inv (push P u s) := fun u s hs => h.memWrite _ _ _ _ (h.regs _ _ hs)
  have h1 : Inv (entryPushFlags P s) := h.regs _ _ (hpush _ _ hs)
  have h2 : Inv (entryPushReturn P (entryPushFlags P s)) := hpush _ _ (hpush _ _ h1)
  exact h.regs _ _ (h.memRead _ _ _ (h.regs _ _ (h.memRead _ _ _ h2)))

theorem drainPulses (h : KeepsGuest P Inv) (s : State) (hs : Inv s) : Inv (Machine.drainPulses P s) := by
  unfold Machine.drainPulses
  split
  · exact h.pulses _ _ (h.takePending _ hs)
  · exact hs

theorem runGuest (h : KeepsGuest P Inv) (g : Guest) (s : State) (hs : Inv s) : Inv (Machine.runGuest P g s) := by
  induction g generalizing s with
  | done x => exact h.regs _ _ hs
  | memRead addr n k ih => exact ih _ _ (h.memRead _ _ _ hs)
  | memWrite addr n v k ih => exact ih _ (h.memWrite _ _ _ _ hs)
  | portRead a w k ih => exact ih _ _ (h.busRead _ _ _ hs)
  | portWrite a w v k ih => exact ih _ (h.busWrite _ _ _ _ hs)

theorem execInstruction (h : KeepsGuest P Inv) (s : State) (hs : Inv s) : Inv (Machine.execInstruction P s) :=
  h.runGuest _ _ (h.readByte _ _ hs)

theorem pollInterrupt (h : KeepsGuest P Inv) (s : State) (hs : Inv s) : Inv (Machine.pollInterrupt P s).1 := by
  unfold Machine.pollInterrupt
  split
  · exact h.interruptEntry _ _ (h.acknowledge _ hs)
  · exact hs

theorem instructionPulse (h : KeepsGuest P Inv) (s : State) (hs : Inv s) : Inv (Machine.instructionPulse P s) := by
  unfold Machine.instructionPulse
  split
  · exact h.pulse _ hs
  · exact hs

end KeepsGuest

/-- Whatever each part of a CPU step keeps, the step keeps. -/
theorem Keeps.cpuStep (h : Keeps P Inv) (s : State) (hs : Inv s) : Inv (Machine.cpuStep P s).1 := by
  unfold Machine.cpuStep
  split
  · exact hs
  · split
    · exact hs
    · exact h.instructionPulse _ (h.count _ (h.execInstruction _ (h.pollInterrupt _ (h.drainPulses _ hs))))

end Sys2Proof.Machine
end

