-- ==== Sys2Proof/Laws/Whole.lean ====
section
/-! SUPPORT. The whole machine at once: a property kept by each shared operation is kept by every operation and every
step, so that an invariant's proof is one look at each shared operation. -/

namespace Sys2Proof.Machine

open Sys2Proof.Config (params)

variable {Inv : State → Prop}

/-- A property kept by each shared operation that some meaning other than `CPU.step` is made of. -/
structure KeepsExec (Inv : State → Prop) : Prop where
  part : KeepsAccess params Inv
  regs : ∀ x s, Inv s → Inv (setRegs x s)
  acknowledge : ∀ s, Inv s → Inv (Machine.acknowledge params s).2
  result : ∀ r s, Inv s → Inv { s with result := r }
  inbox : ∀ l s, Inv s → Inv { s with inbox := l }
  endOfInterrupt : ∀ c line rotate s, Inv s → Inv (Machine.endOfInterrupt params c line rotate s)
  icw1 : ∀ c ltim sngl ic4 s, Inv s → Inv (picCommand params c (applyICW1 ltim sngl ic4) s)
  rotateAuto : ∀ c on s, Inv s → Inv (picCommand params c (setRotateOnAutoEOI on) s)
  lowest : ∀ c l s, Inv s → Inv (picCommand params c (setLowestPriority l) s)
  ocw3 : ∀ c esmm smm p rr ris s, Inv s → Inv (picCommand params c (applyOCW3 esmm smm p rr ris) s)
  noop : ∀ c s, Inv s → Inv (picCommand params c id s)
  picReset : ∀ s, Inv s → Inv (Machine.picReset params s)
  ataReset : ∀ ch s, Inv s → Inv (Machine.ataReset params ch s).1
  select : ∀ ch k s, Inv s → Inv (setSelectedDriveIndex ch k s).1
  insert : ∀ sel t im wp s, Inv s → Inv (ataInsert params sel t im wp s).1
  eject : ∀ sel s, Inv s → Inv (ataEject params sel s).1
  update : ∀ ch s, Inv s → Inv (ataUpdate params ch s)
  rdData : ∀ ch w s, Inv s → Inv (readDataReg ch w s).2
  wrData : ∀ ch w v s, Inv s → Inv (writeDataReg params ch w v s)
  features : ∀ ch b s, Inv s → Inv (writeFeatures ch b s)
  param : ∀ ch o b s, Inv s → Inv (writeParam ch o b s)
  drvHead : ∀ ch lba drv head s, Inv s → Inv (writeDrvHead ch lba drv head s)
  status : ∀ ch s, Inv s → Inv (lowerIrq params ch s)
  command : ∀ ch b s, Inv s → Inv (writeCommand params ch b s)
  devCtl : ∀ ch srst nien s, Inv s → Inv (writeDevCtl params ch srst nien s)
  signal : ∀ s, Inv s → Inv (signalPulse params s)
  clockRunning : ∀ on s, Inv s → Inv (setClockRunning on s)
  cpuRunning : ∀ on s, Inv s → Inv (setRunning on s)
  cpuReset : ∀ s, Inv s → Inv (Machine.cpuReset s)
  rom : ∀ bytes s, bytes.length = params.biosSize → Inv s → Inv { s with rom := some bytes }

theorem KeepsExec.reply (h : KeepsExec Inv) {r : Answer} {t : State} (hr : Inv r.1)
    (ht : Machine.reply r = .next t) : Inv t := by
  cases ht
  exact h.result _ _ hr

theorem KeepsExec.onChannel (h : KeepsExec Inv) {ch : Nat} {s t : State} {absent : Result} {r : Answer} (hs : Inv s)
    (hr : Inv r.1) (ht : Machine.onChannel ch s absent r = .next t) : Inv t := by
  unfold Machine.onChannel at ht
  split at ht
  · exact h.reply hr ht
  · exact h.reply hs ht

theorem KeepsExec.moduleReset (h : KeepsExec Inv) (m : Module) (s : State) (hs : Inv s) :
    Inv (Machine.moduleReset params m s).1 := by
  cases m with
  | bus => exact hs
  | pic => exact h.picReset _ hs
  | clk => exact hs
  | cpu => exact h.cpuReset _ hs
  | ext n => exact h.part.devProg ((params.device (.ext n)).reset s.world) s hs
  | ata ch =>
    simp only [Machine.moduleReset]
    split
    · exact h.ataReset _ _ hs
    · exact hs

theorem KeepsExec.moduleStart (h : KeepsExec Inv) (m : Module) (s : State) (hs : Inv s) :
    Inv (Machine.moduleStart params m s) := by
  cases m with
  | bus => exact hs
  | pic => exact hs
  | clk => exact h.clockRunning _ _ hs
  | cpu => exact h.cpuRunning _ _ hs
  | ext n => exact h.part.devProg ((params.device (.ext n)).start s.world) s hs
  | ata ch => exact hs

theorem KeepsExec.moduleStop (h : KeepsExec Inv) (m : Module) (s : State) (hs : Inv s) :
    Inv (Machine.moduleStop params m s) := by
  cases m with
  | bus => exact hs
  | pic => exact hs
  | clk => exact h.clockRunning _ _ hs
  | cpu => exact h.cpuRunning _ _ hs
  | ext n => exact h.part.devProg ((params.device (.ext n)).stop s.world) s hs
  | ata ch => exact hs

/-- Whatever each shared operation keeps, every operation but `CPU.step` keeps. -/
theorem exec_keeps_but_step (h : KeepsExec Inv) (i : Instr) (hi : i ≠ .cpuStep) {s t : State} (hs : Inv s)
    (ht : exec i s = .next t) : Inv t := by
  cases i with
  | busRegisterPort a d attr => exact h.reply (h.part.devOp (.registerPort a d attr) s hs) ht
  | busReadPort a w => exact h.reply (h.part.busRead a w s hs) ht
  | busWritePort a w v => exact h.reply (h.part.busWrite a w v s hs) ht
  | picAssertIRQ n => exact h.reply (h.part.devOp (.assertIRQ n) s hs) ht
  | picClearIRQ n => exact h.reply (h.part.devOp (.clearIRQ n) s hs) ht
  | picAcknowledge => exact h.reply (h.acknowledge s hs) ht
  | picEndOfInterrupt c line rotate => exact h.reply (h.endOfInterrupt c line rotate s hs) ht
  | picRequestIRQNumber d => exact h.reply (h.part.devOp (.requestIRQNumber d) s hs) ht
  | picFreeIRQNumber d => exact h.reply (h.part.devOp (.freeIRQNumber d) s hs) ht
  | picReset => exact h.reply (h.picReset s hs) ht
  | picICW1 c ltim sngl ic4 => exact h.reply (h.icw1 c ltim sngl ic4 s hs) ht
  | picICW2 c b => exact h.reply (h.part.picWrite (.data c) b s hs) ht
  | picICW3 c b => exact h.reply (h.part.picWrite (.data c) b s hs) ht
  | picICW4 c b => exact h.reply (h.part.picWrite (.data c) b s hs) ht
  | picOCW1 c b => exact h.reply (h.part.picWrite (.data c) b s hs) ht
  | picOCW2EOI c r sl l => exact h.reply (h.endOfInterrupt c (if sl then some l else none) r s hs) ht
  | picOCW2RotAutoSet c => exact h.reply (h.rotateAuto c true s hs) ht
  | picOCW2RotAutoClr c => exact h.reply (h.rotateAuto c false s hs) ht
  | picOCW2SetPrio c l => exact h.reply (h.lowest c l s hs) ht
  | picOCW2Nop c l => exact h.reply (h.noop c s hs) ht
  | picOCW3 c esmm smm p rr ris => exact h.reply (h.ocw3 c esmm smm p rr ris s hs) ht
  | picRdCmd c => exact h.reply (h.part.picRead (.cmd c) s hs) ht
  | picRdData c => exact h.reply (h.part.picRead (.data c) s hs) ht
  | clkRegisterDevice d us k => exact h.reply (h.part.devOp (.registerDevice d us k) s hs) ht
  | clkPulse =>
    have hp := h.part.pulse s hs
    have ht' : Machine.reply (pulse params s, okUnit) = .next t := ht
    generalize pulse params s = u at hp ht'
    exact h.reply hp ht'
  | clkResetTimer d us => exact h.reply (h.part.devOp (.resetTimer d us) s hs) ht
  | clkSetTimerActiveState d on => exact h.reply (h.part.devOp (.setTimerActiveState d on) s hs) ht
  | clkSignalPulse => exact h.reply (h.signal s hs) ht
  | ataReset ch => exact h.onChannel hs (h.ataReset ch s hs) ht
  | ataSetSelectedDriveIndex ch k => exact h.reply (h.select ch k s hs) ht
  | ataInsert sel t im wp => exact h.reply (h.insert sel t im wp s hs) ht
  | ataEject sel => exact h.reply (h.eject sel s hs) ht
  | ataUpdate ch => exact h.onChannel hs (h.update ch s hs) ht
  | ataRdData ch w => exact h.onChannel hs (h.rdData ch w s hs) ht
  | ataWrData ch w v => exact h.onChannel hs (h.wrData ch w _ s hs) ht
  | ataRdError ch => exact h.onChannel hs hs ht
  | ataWrFeatures ch b => exact h.onChannel hs (h.features ch b s hs) ht
  | ataRdParam ch o => exact h.onChannel hs hs ht
  | ataWrParam ch o b => exact h.onChannel hs (h.param ch o b s hs) ht
  | ataRdDrvHead ch => exact h.onChannel hs hs ht
  | ataWrDrvHead ch lba drv head => exact h.onChannel hs (h.drvHead ch lba drv head s hs) ht
  | ataRdStatus ch => exact h.onChannel hs (h.status ch s hs) ht
  | ataWrCommand ch b => exact h.onChannel hs (h.command ch b s hs) ht
  | ataRdAltStatus ch => exact h.onChannel hs hs ht
  | ataWrDevCtl ch srst nien => exact h.onChannel hs (h.devCtl ch srst nien s hs) ht
  | ataRdDrvAddr ch => exact h.onChannel hs hs ht
  | ataWrDrvAddr ch b => exact h.onChannel hs hs ht
  | cpuStep => exact absurd rfl hi
  | cpuGetRegister name =>
    refine h.reply ?_ ht
    unfold getRegister
    split
    · exact h.part.log _ _ hs
    · exact hs
  | cpuSetRegister name bytes =>
    refine h.reply ?_ ht
    unfold setRegister
    split
    · exact h.part.log _ _ hs
    · split
      · exact h.part.log _ _ hs
      · exact h.regs _ _ hs
  | cpuSetHoldRequest d on => exact h.reply (h.part.devOp (.setHoldRequest d on) s hs) ht
  | cpuStart => exact h.reply (h.cpuRunning true s hs) ht
  | cpuStop => exact h.reply (h.cpuRunning false s hs) ht
  | cpuReset => exact h.reply (h.cpuReset s hs) ht
  | modReset m => exact h.reply (h.moduleReset m s hs) ht
  | modStart m => exact h.reply (h.moduleStart m s hs) ht
  | modStop m => exact h.reply (h.moduleStop m s hs) ht
  | modGetDump m => exact h.reply hs ht
  | modIsConnected m => exact h.reply hs ht
  | romSetSystemBIOS bytes =>
    refine h.reply ?_ ht
    unfold setSystemBIOS
    split
    · exact h.part.log _ _ hs
    · exact h.rom _ _ (not_ne_iff.mp ‹_›) hs
  | romReadSystemBIOS => exact h.reply hs ht

/-- Whatever each shared operation and each part of `CPU.step` keeps, every operation keeps. -/
theorem exec_keeps (h : KeepsExec Inv) (hk : Keeps params Inv) (i : Instr) {s t : State} (hs : Inv s)
    (ht : exec i s = .next t) : Inv t := by
  by_cases hi : i = .cpuStep
  · subst hi
    exact h.reply (hk.cpuStep s hs) ht
  · exact exec_keeps_but_step h i hi hs ht

/-- Whatever every operation keeps, every step keeps. -/
theorem step_keeps (h : KeepsExec Inv) (hk : Keeps params Inv) {s t : State} (hs : Inv s) (ht : step s = .next t) : Inv t := by
  unfold step fetchOperation at ht
  cases hi : s.inbox with
  | nil =>
    rw [hi] at ht
    exact exec_keeps h hk _ hs ht
  | cons p rest =>
    rw [hi] at ht
    cases hd : decode p with
    | ok i =>
      simp only [hd] at ht
      exact exec_keeps h hk i (h.inbox rest s hs) ht
    | error e =>
      simp only [hd] at ht
      cases ht

/-- The parts of an ATA channel, from a property that no change of a channel breaks. -/
theorem KeepsParts.exec (h : KeepsParts params Inv) (part : KeepsAccess params Inv)
    (regs : ∀ x s, Inv s → Inv (setRegs x s)) (acknowledge : ∀ s, Inv s → Inv (Machine.acknowledge params s).2)
    (result : ∀ r s, Inv s → Inv { s with result := r }) (inbox : ∀ l s, Inv s → Inv { s with inbox := l })
    (pics : ∀ m p s, Inv s → Inv { s with picM := m, picS := p }) (bus : ∀ a d s, Inv s → Inv (registerPort a d .rw s))
    (signal : ∀ s, Inv s → Inv (signalPulse params s)) (clockRunning : ∀ on s, Inv s → Inv (setClockRunning on s))
    (cpuRunning : ∀ on s, Inv s → Inv (setRunning on s)) (cpuReset : ∀ s, Inv s → Inv (Machine.cpuReset s))
    (rom : ∀ bytes s, bytes.length = params.biosSize → Inv s → Inv { s with rom := some bytes }) : KeepsExec Inv := by
  have hcmd : ∀ c f s, Inv s → Inv (picCommand params c f s) := by
    intro c f s hs
    cases c <;> exact pics _ _ s hs
  have hports : ∀ (ports : List Half) d s, Inv s → Inv (Machine.registerPorts ports d s) := by
    intro ports d
    induction ports with
    | nil => exact fun s hs => hs
    | cons a rest ih => exact fun s hs => ih _ (bus a d s hs)
  exact
    { part := part
      regs := regs
      acknowledge := acknowledge
      result := result
      inbox := inbox
      endOfInterrupt := by
        intro c line rotate s hs
        unfold Machine.endOfInterrupt
        split
        · exact hcmd c (endLine _ rotate) s hs
        · split
          · exact hs
          · exact hcmd c (endLine _ rotate) s hs
      icw1 := fun c _ _ _ s hs => hcmd c _ s hs
      rotateAuto := fun c _ s hs => hcmd c _ s hs
      lowest := fun c _ s hs => hcmd c _ s hs
      ocw3 := fun c _ _ _ _ _ s hs => hcmd c _ s hs
      noop := fun c s hs => hcmd c _ s hs
      picReset := fun s hs => hports _ _ _ (pics _ _ s hs)
      ataReset := fun ch s hs => h.ataReset ch s hs
      select := fun ch k s hs => h.setSelectedDriveIndex ch k s hs
      insert := fun sel t im wp s hs => h.ataInsert sel t im wp s hs
      eject := fun sel s hs => h.ataEject sel s hs
      update := fun ch s hs => h.ataUpdate ch s hs
      rdData := fun ch w s hs => h.readDataReg ch w s hs
      wrData := fun ch w v s hs => h.writeDataReg ch w v s hs
      features := fun ch b s hs => h.writeBoth ch _ s hs
      param := fun ch o b s hs => h.writeBoth ch _ s hs
      drvHead := fun ch lba drv head s hs => h.writeDrvHead ch lba drv head s hs
      status := fun ch s hs => h.lowerIrq ch s hs
      command := fun ch b s hs => h.writeCommand ch b s hs
      devCtl := fun ch srst nien s hs => h.writeDevCtl ch srst nien s hs
      signal := signal
      clockRunning := clockRunning
      cpuRunning := cpuRunning
      cpuReset := cpuReset
      rom := rom }

end Sys2Proof.Machine
end

