-- ==== Sys2Proof/Laws/Guest.lean ====
section
/-! SUPPORT. The accesses of a guest instruction: memory accesses byte by byte, what a port access answers, and that no
access, device handler or pulse touches the result of the operation it is part of. -/

namespace Sys2Proof.Machine

/-! ### Memory -/

theorem memRead_zero (P : Params) (addr : Nat) (s : State) : memRead P addr 0 s = (0, s) := rfl

/-- A read is that of its lowest byte and then that of the rest. -/
theorem memRead_succ (P : Params) (addr n : Nat) (s : State) :
    memRead P addr (n + 1) s =
      ((readByte P addr s).1.toNat + 256 * (memRead P (addr + 1) n (readByte P addr s).2).1,
        (memRead P (addr + 1) n (readByte P addr s).2).2) := rfl

theorem memRead_one (P : Params) (addr : Nat) (s : State) :
    memRead P addr 1 s = ((readByte P addr s).1.toNat, (readByte P addr s).2) := rfl

theorem memWrite_zero (P : Params) (addr v : Nat) (s : State) : memWrite P addr 0 v s = s := rfl

/-- A write is that of its lowest byte and then that of the rest. -/
theorem memWrite_succ (P : Params) (addr n v : Nat) (s : State) :
    memWrite P addr (n + 1) v s = memWrite P (addr + 1) n (v / 256) (writeByte P addr (BitVec.ofNat 8 v) s) := rfl

theorem memWrite_one (P : Params) (addr v : Nat) (s : State) :
    memWrite P addr 1 v s = writeByte P addr (BitVec.ofNat 8 v) s := rfl

/-! ### The result of the operation under way -/

theorem clearIRQ_result (P : Params) (n : Nat) (s : State) : (clearIRQ P n s).1.result = s.result := by
  unfold clearIRQ
  split
  · rfl
  · cases ctrlOfLine n <;> rfl

theorem devOp_result (P : Params) (op : DevOp) (s : State) : (runDevOp P op s).1.result = s.result := by
  cases op with
  | registerPort a d attr => simp only [runDevOp, registerPort]; repeat' split
                             all_goals rfl
  | assertIRQ n =>
    simp only [runDevOp, assertIRQ]
    split
    · rfl
    · cases ctrlOfLine n <;> rfl
  | clearIRQ n => exact clearIRQ_result P n s
  | requestIRQNumber d => simp only [runDevOp, requestIRQNumber]; repeat' split
                          all_goals rfl
  | freeIRQNumber d =>
    simp only [runDevOp, freeIRQNumber]
    generalize linesOf s d = l
    induction l generalizing s with
    | nil => rfl
    | cons n l ih => rw [List.foldl_cons, ih]; exact clearIRQ_result P n s
  | registerDevice d us k => simp only [runDevOp, registerDevice]; split <;> rfl
  | resetTimer d us => simp only [runDevOp, resetTimer]; split <;> rfl
  | setTimerActiveState d k => simp only [runDevOp, setTimerActiveState]; split <;> rfl
  | setHoldRequest d k => rfl

theorem parts_result (P : Params) (r : Result) : KeepsParts P (fun s => s.result = r) where
  devOp op s h := (devOp_result P op s).trans h
  channel _ _ _ h := h
  world _ _ h := h
  log _ _ h := h

theorem setPic_result (c : Ctrl) (p : Pic) (s : State) : (setPic c p s).result = s.result := by cases c <;> rfl

theorem picCommand_result (P : Params) (c : Ctrl) (f : Pic → Pic) (s : State) : (picCommand P c f s).result = s.result :=
  setPic_result c _ s

theorem pollRead_result (P : Params) (c : Ctrl) (s : State) : (pollRead P c s).2.result = s.result := by
  unfold pollRead
  dsimp only
  split <;> exact setPic_result c _ s

theorem picPortRead_result (P : Params) (port : PicPort) (s : State) : (picPortRead P port s).2.result = s.result := by
  cases port <;> simp only [picPortRead, readCmd, readData] <;> split <;> first | rfl | exact pollRead_result P _ s

theorem endOfInterrupt_result (P : Params) (c : Ctrl) (line : Option (Fin 8)) (rotate : Bool) (s : State) :
    (endOfInterrupt P c line rotate s).result = s.result := by
  unfold endOfInterrupt
  repeat' split
  all_goals first | rfl | exact setPic_result c _ s

theorem picPortWrite_result (P : Params) (port : PicPort) (b : Byte) (s : State) :
    (picPortWrite P port b s).result = s.result := by
  cases port with
  | cmd c =>
    simp only [picPortWrite, writeCmd, performCmd]
    split <;> first | rfl | exact picCommand_result P _ _ s | exact endOfInterrupt_result P _ _ _ s
  | data c => exact picCommand_result P c _ s

theorem pulseSlot_result (P : Params) (i : Nat) (s : State) : (pulseSlot P i s).result = s.result := by
  unfold pulseSlot
  split
  · rfl
  · split
    · rfl
    · dsimp only
      split
      · exact (parts_result P s.result).updateDevice _ _ rfl
      · rfl

/-- No port access, device handler or pulse touches the result. -/
theorem access_result (P : Params) (r : Result) : KeepsAccess P (fun s => s.result = r) where
  devOp op s h := (devOp_result P op s).trans h
  world _ _ h := h
  log _ _ h := h
  picRead port s h := (picPortRead_result P port s).trans h
  picWrite port b s h := (picPortWrite_result P port b s).trans h
  ataRead ch a w s h := (parts_result P r).ataPortRead ch a w s h
  ataWrite ch a w v s h := (parts_result P r).ataPortWrite ch a w v s h
  pulseSlot i s h := (pulseSlot_result P i s).trans h

/-! ### Ports -/

/-- What a port read answers: its value, as `ok` or with a condition, and the state it leaves keeps the result. -/
theorem busRead_answer (P : Params) (a : Half) (w : Width) (s : State) :
    ((busRead P a w s).2 = .ok (.port w (portRead P a w s).1) ∨
      ∃ c, (busRead P a w s).2 = .cond c (.port w (portRead P a w s).1)) ∧
    (portRead P a w s).2 = { (busRead P a w s).1 with result := s.result } := by
  have hr : (busRead P a w s).1.result = s.result := (access_result P s.result).busRead a w s rfl
  refine ⟨?_, by rw [← hr]; rfl⟩
  simp only [portRead, busRead]
  repeat' split
  all_goals first | exact Or.inl rfl | exact Or.inr ⟨_, rfl⟩

/-- A port write keeps the result. -/
theorem portWrite_result (P : Params) (a : Half) (w : Width) (v : Long) (s : State) :
    portWrite P a w v s = { (busWrite P a w v s).1 with result := s.result } := by
  have hr : (busWrite P a w v s).1.result = s.result := (access_result P s.result).busWrite a w v s rfl
  rw [← hr]
  rfl

end Sys2Proof.Machine
end

