-- ==== Sys2Proof/Laws/Ports.lean ====
section
/-! SUPPORT. The port map: all that registering one port or several does, and all that an access does to a port by its
entry. -/

namespace Sys2Proof.Machine

theorem registerPort_eq (a : Half) (d : Device) (attr : Attr) (s : State) :
    registerPort a d attr s = { s with bus := (registerPort a d attr s).bus } := by
  unfold registerPort
  split
  · rfl
  · split <;> rfl

theorem portEntry_registerPort (a b : Half) (d : Device) (attr : Attr) (s : State) :
    portEntry (registerPort a d attr s) b =
      if b = a then portAfter (portEntry s a) d attr else portEntry s b := by
  have key : ∀ x : PortEntry, mapGet (mapPut s.bus a.toNat x) b.toNat = if b = a then some x else mapGet s.bus b.toNat := by
    intro x
    rw [mapGet_mapPut]
    by_cases h : b = a
    · simp [h]
    · have : ¬b.toNat = a.toNat := fun e => h (BitVec.eq_of_toNat_eq e)
      simp [h, this]
  unfold registerPort portEntry portAfter
  cases h : mapGet s.bus a.toNat with
  | none => exact key _
  | some e =>
    by_cases he : e.owner = d
    · by_cases hb : b = a
      · simp [hb, h, he]
      · simp [hb, he]
    · simp only [he, if_false]
      exact key _

theorem registerPorts_eq (ports : List Half) (d : Device) (s : State) :
    registerPorts ports d s = { s with bus := (registerPorts ports d s).bus } := by
  induction ports generalizing s with
  | nil => rfl
  | cons a rest ih =>
    have h1 : registerPorts (a :: rest) d s = registerPorts rest d (registerPort a d .rw s) := rfl
    rw [h1, ih (registerPort a d .rw s), registerPort_eq a d .rw s]

theorem portAfter_portAfter (old : Option PortEntry) (d : Device) (attr : Attr) :
    portAfter (portAfter old d attr) d attr = portAfter old d attr := by
  unfold portAfter
  cases old with
  | none => simp
  | some e => by_cases h : e.owner = d <;> simp [h]

theorem portEntry_registerPorts (ports : List Half) (d : Device) (s : State) (b : Half) :
    portEntry (registerPorts ports d s) b =
      if b ∈ ports then portAfter (portEntry s b) d .rw else portEntry s b := by
  induction ports generalizing s with
  | nil => simp [registerPorts]
  | cons a rest ih =>
    have h1 : registerPorts (a :: rest) d s = registerPorts rest d (registerPort a d .rw s) := rfl
    rw [h1, ih, portEntry_registerPort]
    clear h1
    by_cases h1 : b ∈ rest <;> by_cases h2 : b = a
    · subst h2; simp [h1, portAfter_portAfter]
    · simp [h1, h2]
    · subst h2; simp [h1]
    · simp [h1, h2]

/-- A registered port stays registered. -/
theorem portAfter_ne_none (old : Option PortEntry) (d : Device) (attr : Attr) : portAfter old d attr ≠ none := by
  unfold portAfter
  cases old with
  | none => simp
  | some e => by_cases h : e.owner = d <;> simp [h]

/-- A read of a mapped, readable port is its owner's read handler, once. -/
theorem busRead_of_entry (P : Params) {a : Half} {d : Device} {attr : Attr} {s : State}
    (h : portEntry s a = some { owner := d, attr := attr }) (hr : attr ≠ .writeOnly) (w : Width) :
    busRead P a w s = ((deviceRead P d a w s).2, .ok (.port w (clip w (deviceRead P d a w s).1))) := by
  simp [busRead, h, hr]

/-- A write of a mapped, writable port is its owner's write handler, once. -/
theorem busWrite_of_entry (P : Params) {a : Half} {d : Device} {attr : Attr} {s : State}
    (h : portEntry s a = some { owner := d, attr := attr }) (hw : attr ≠ .readOnly) (w : Width) (v : Long) :
    busWrite P a w v s = (deviceWrite P d a w (clip w v) s, okUnit) := by
  simp [busWrite, h, hw]

end Sys2Proof.Machine
end

