-- ==== Sys2Proof/Tests/Slice0.lean ====
section
/-! SUPPORT. Tests: the well-formedness checks refuse ill-formed operations, packets written out byte by byte decode to
the operation they stand for, each operation's effect on one small state (expected values from spec/95_test_vectors.md
or worked out by hand from the rule named), and a witness for the hypotheses of every statement that has some. -/

namespace Sys2Proof.Tests

open Sys2Proof Sys2Proof.Machine
open Sys2Proof.Config (params)

/-! ### Well-formedness -/

/-- `valueFits`: a byte value has eight bits (R97). -/
theorem test_wf_value : (Instr.busWritePort 0x20 .byte 0x100).wellFormed = false := by decide

/-- `natFits`: 2^32 does not fit. -/
theorem test_wf_nat : (Instr.picAssertIRQ 4294967296).wellFormed = false := by decide

/-- `chanFits`: channel 256 does not fit. -/
theorem test_wf_channel : (Instr.ataRdStatus 256).wellFormed = false := by decide

/-- `nameFits`: a name of 256 bytes does not fit. -/
theorem test_wf_name : (Instr.cpuGetRegister (List.replicate 256 0x41)).wellFormed = false := by
  simp only [Instr.wellFormed, nameFits, List.length_replicate]
  decide

/-- `blobFits`: a blob of 2^32 bytes does not fit. -/
theorem test_wf_blob (bytes : List Byte) (h : bytes.length = 2 ^ 32) :
    (Instr.romSetSystemBIOS bytes).wellFormed = false := by
  simp only [Instr.wellFormed, blobFits, h]
  decide

/-- `deviceFits`: device index 2^32 does not fit. -/
theorem test_wf_device : (Instr.picRequestIRQNumber (.ext 4294967296)).wellFormed = false := by decide

/-- `moduleFits`: module index 2^32 does not fit. -/
theorem test_wf_module : (Instr.modReset (.ata 4294967296)).wellFormed = false := by decide

/-- `selFits`: selector number 2^32 does not fit. -/
theorem test_wf_selector : (Instr.ataEject (.index 4294967296)).wellFormed = false := by decide

/-! ### Decoding

The command bytes are written from the layouts of R99 to R110; selector and operand bytes are the model's packet form
(log entry 1). -/

/-- I/O Bus packets. -/
theorem test_decode_bus :
    [[0x00, 0x10, 0x00, 0xF0, 0x01, 0x01, 0x02, 0x00, 0x00, 0x00, 0x02],
     [0x00, 0x11, 0x00, 0xF0, 0x01, 0x02],
     [0x00, 0x12, 0x00, 0xF0, 0x01, 0x04, 0xEF, 0xBE, 0xAD, 0xDE]].map decode =
    [.ok (.busRegisterPort 0x01F0 (.ata 2) .writeOnly), .ok (.busReadPort 0x01F0 .word),
     .ok (.busWritePort 0x01F0 .dword 0xDEADBEEF)] := by decide

/-- Calls of the interrupt controller pair. -/
theorem test_decode_pic_calls :
    [[0x00, 0x08, 0x00, 0x05, 0x00, 0x00, 0x00], [0x00, 0x09, 0x00, 0x10, 0x00, 0x00, 0x00], [0x00, 0x0A, 0x00],
     [0x00, 0x0B, 0x01, 0x04, 0x01], [0x00, 0x0C, 0x00, 0x02, 0x07, 0x00, 0x00, 0x00], [0x00, 0x0D, 0x00, 0x00],
     [0x00, 0x0E, 0x00]].map decode =
    [.ok (.picAssertIRQ 5), .ok (.picClearIRQ 16), .ok .picAcknowledge, .ok (.picEndOfInterrupt .S (some 3) true),
     .ok (.picRequestIRQNumber (.ext 7)), .ok (.picFreeIRQNumber .pic), .ok .picReset] := by decide

/-- Command-port bytes of the interrupt controller: `---1L-SI`, `RS100LLL`, `10000---`, `00000---`, `11000LLL`,
`01000LLL`, `-es01PrR` (R99, R104, R105). -/
theorem test_decode_pic_commands :
    [[0x19, 0x00, 0x00], [0x13, 0x00, 0x01], [0xE5, 0x00, 0x00], [0x20, 0x00, 0x01], [0x80, 0x00, 0x00],
     [0x07, 0x00, 0x00], [0xC3, 0x00, 0x00], [0x41, 0x00, 0x00], [0x6B, 0x00, 0x00], [0x8C, 0x00, 0x01]].map decode =
    [.ok (.picICW1 .M true false true), .ok (.picICW1 .S false true true), .ok (.picOCW2EOI .M true true 5),
     .ok (.picOCW2EOI .S false false 0), .ok (.picOCW2RotAutoSet .M), .ok (.picOCW2RotAutoClr .M),
     .ok (.picOCW2SetPrio .M 3), .ok (.picOCW2Nop .M 1), .ok (.picOCW3 .M true true false true true),
     .ok (.picOCW3 .S false false true false false)] := by decide

/-- Data-port bytes and reads of the interrupt controller. -/
theorem test_decode_pic_data :
    [[0x70, 0x01, 0x01], [0x04, 0x02, 0x00], [0x13, 0x03, 0x00], [0xFE, 0x04, 0x01], [0x00, 0x05, 0x01],
     [0x00, 0x06, 0x00]].map decode =
    [.ok (.picICW2 .S 0x70), .ok (.picICW3 .M 0x04), .ok (.picICW4 .M 0x13), .ok (.picOCW1 .S 0xFE),
     .ok (.picRdCmd .S), .ok (.picRdData .M)] := by decide

/-- Clock packets. -/
theorem test_decode_clk :
    [[0x00, 0x18, 0x00, 0x02, 0x01, 0x00, 0x00, 0x00, 0xE8, 0x03, 0x00, 0x00, 0x01], [0x00, 0x19, 0x00],
     [0x00, 0x1A, 0x00, 0x00, 0x02, 0x00, 0x00, 0x00], [0x00, 0x1B, 0x00, 0x01, 0x00, 0x00, 0x00, 0x00, 0x00],
     [0x00, 0x1C, 0x00]].map decode =
    [.ok (.clkRegisterDevice (.ext 1) 1000 true), .ok .clkPulse, .ok (.clkResetTimer .pic 2),
     .ok (.clkSetTimerActiveState (.ata 0) false), .ok .clkSignalPulse] := by decide

/-- Calls of an ATA channel. -/
theorem test_decode_ata_calls :
    [[0x00, 0x20, 0x01], [0x00, 0x21, 0x00, 0x01, 0x00, 0x00, 0x00],
     [0x00, 0x22, 0x00, 0x00, 0x01, 0x00, 0x00, 0x00, 0x02, 0x09, 0x00, 0x00, 0x00, 0x01],
     [0x00, 0x23, 0x00, 0x01, 0x02, 0x68, 0x64], [0x00, 0x24, 0x00]].map decode =
    [.ok (.ataReset 1), .ok (.ataSetSelectedDriveIndex 0 1), .ok (.ataInsert (.index 1) .cdrom 9 true),
     .ok (.ataEject (.name [0x68, 0x64])), .ok (.ataUpdate 0)] := by decide

/-- Task-register accesses: bytes `-L-DHHHH` and `-----SN-` (R107, R110) among them. -/
theorem test_decode_ata_ports :
    [[0x00, 0x30, 0x00, 0x02], [0x00, 0x31, 0x00, 0x02, 0xEF, 0xBE, 0x00, 0x00], [0x00, 0x32, 0x00], [0x55, 0x33, 0x00],
     [0x00, 0x34, 0x00, 0x03], [0xAA, 0x35, 0x00, 0x05], [0x00, 0x36, 0x00], [0xF7, 0x37, 0x00], [0x00, 0x38, 0x00],
     [0xEC, 0x39, 0x00], [0x00, 0x3A, 0x00], [0x0A, 0x3B, 0x00], [0x00, 0x3C, 0x00], [0x12, 0x3D, 0x00]].map decode =
    [.ok (.ataRdData 0 .word), .ok (.ataWrData 0 .word 0xBEEF), .ok (.ataRdError 0), .ok (.ataWrFeatures 0 0x55),
     .ok (.ataRdParam 0 .sectorNumber), .ok (.ataWrParam 0 .cylHigh 0xAA), .ok (.ataRdDrvHead 0),
     .ok (.ataWrDrvHead 0 true true 7), .ok (.ataRdStatus 0), .ok (.ataWrCommand 0 0xEC), .ok (.ataRdAltStatus 0),
     .ok (.ataWrDevCtl 0 false true), .ok (.ataRdDrvAddr 0), .ok (.ataWrDrvAddr 0 0x12)] := by decide

/-- CPU loop packets. -/
theorem test_decode_cpu :
    [[0x00, 0x40, 0x00], [0x00, 0x41, 0x00, 0x02, 0x49, 0x50], [0x00, 0x42, 0x00, 0x02, 0x41, 0x58, 0x02, 0x12, 0x34],
     [0x00, 0x43, 0x00, 0x02, 0x03, 0x00, 0x00, 0x00, 0x01], [0x00, 0x44, 0x00], [0x00, 0x45, 0x00],
     [0x00, 0x46, 0x00]].map decode =
    [.ok .cpuStep, .ok (.cpuGetRegister [0x49, 0x50]), .ok (.cpuSetRegister [0x41, 0x58] [0x12, 0x34]),
     .ok (.cpuSetHoldRequest (.ext 3) true), .ok .cpuStart, .ok .cpuStop, .ok .cpuReset] := by decide

/-- Lifecycle and ROM packets. -/
theorem test_decode_modules :
    [[0x00, 0x48, 0x00, 0x00], [0x00, 0x49, 0x00, 0x02], [0x00, 0x4A, 0x00, 0x03], [0x00, 0x4B, 0x00, 0x01],
     [0x00, 0x4C, 0x00, 0x04, 0x00, 0x00, 0x00, 0x00], [0x00, 0x50, 0x00, 0x02, 0x00, 0x00, 0x00, 0xEA, 0x5B],
     [0x00, 0x51, 0x00]].map decode =
    [.ok (.modReset .bus), .ok (.modStart .clk), .ok (.modStop .cpu), .ok (.modGetDump .pic),
     .ok (.modIsConnected (.ata 0)), .ok (.romSetSystemBIOS [0xEA, 0x5B]), .ok .romReadSystemBIOS] := by decide

/-- Packets that are no operation are refused by name. -/
theorem test_decode_refused :
    [[0x00, 0x19], [0x00, 0x7F, 0x00], [0x01, 0x19, 0x00], [0x11, 0x00, 0x02], [0x00, 0x08, 0x00, 0x05],
     [0x00, 0x19, 0x00, 0x00], [0x00, 0x30, 0x00, 0x03],
     [0x00, 0x12, 0x00, 0x20, 0x00, 0x01, 0x00, 0x01, 0x00, 0x00]].map decode =
    [.error .tooShort, .error (.unknownSelector 0x7F), .error .headerNotZero, .error (.badController 0x02),
     .error .truncated, .error .trailingBytes, .error (.badTag 0x03), .error .valueTooWide] := by decide

/-- The table's own words (`match` column of the opcode table). -/
theorem test_table_words :
    [decodeTableWord 8 0x10, decodeTableWord 8 0x20, decodeTableWord 8 0x80, decodeTableWord 8 0x00,
     decodeTableWord 8 0xC0, decodeTableWord 8 0x40, decodeTableWord 8 0x08] =
    [some (.picICW1 .M false false false), some (.picOCW2EOI .M false false 0), some (.picOCW2RotAutoSet .M),
     some (.picOCW2RotAutoClr .M), some (.picOCW2SetPrio .M 0), some (.picOCW2Nop .M 0),
     some (.picOCW3 .M false false false false false)] := by decide

/-! ### One step of each operation -/

/-- Whether the operation answers a next state with a property. -/
def after (i : Instr) (s : State) (f : State → Bool) : Bool :=
  match exec i s with
  | .next t => f t
  | _ => false

/-- The machine after reset with the master changed. -/
def master (f : Pic → Pic) : State := { State.reset with picM := f State.reset.picM }

/-- The machine after reset with both controllers changed. -/
def pair (f g : Pic → Pic) : State := { State.reset with picM := f State.reset.picM, picS := g State.reset.picS }

/-- The machine after reset with a port entry more. -/
def portAt378 (attr : Attr) : State := { State.reset with bus := [(0x378, { owner := .ext 1, attr := attr })] }

/-- The machine after reset with a timer table. -/
def timers (ts : List Timer) : State := { State.reset with clk := { State.reset.clk with timers := ts } }

/-- A slot of external device `n`. -/
def slot (n interval countdown : Nat) (active continuous : Bool) : Timer :=
  { owner := .ext n, interval := interval, countdown := countdown, active := active, continuous := continuous }

/-- A hard disk as attached after a drive reset (vector F1). -/
def disk : Drive := { emptyDrive with type := .hardDisk, image := some 7, ready := true, seekComplete := true }

/-- The machine after reset with its channel changed. -/
def channel (f : Channel → Channel) : State := { State.reset with ata := State.reset.ata.map f }

/-- The machine after reset with a master drive. -/
def drive (d : Drive) : State := channel fun c => { c with drive0 := d }

/-- The machine after reset with the CPU changed. -/
def cpuWith (f : Cpu → Cpu) : State := { State.reset with cpu := f State.reset.cpu }

/-- A port value of one byte. -/
def byteResult (b : Long) : Result := .ok (.port .byte b)

/-- Vector B10: the same device keeps its entry. -/
theorem test_registerPort_same :
    after (.busRegisterPort 0x378 (.ext 1) .rw) (portAt378 .writeOnly)
      (fun t => t.bus == [(0x378, { owner := .ext 1, attr := .writeOnly })]) = true := by decide

/-- Vector B9: another device takes the port over. -/
theorem test_registerPort_other :
    after (.busRegisterPort 0x1F0 (.ext 2) .rw) State.reset
      (fun t => portEntry t 0x1F0 == some { owner := .ext 2, attr := .rw }) = true := by decide

/-- Vector B3: an unmapped port. -/
theorem test_readPort_unknown :
    after (.busReadPort 0xFFFF .dword) State.reset
      (fun t => t.result == .cond .unknownPort (.port .dword 0xFFFFFFFF) &&
        t.log == [.unknownPort .R 0xFFFF .dword]) = true := by decide

/-- Vector B13: a byte register in a word read. -/
theorem test_readPort_word :
    after (.busReadPort 0x21 .word) State.reset
      (fun t => t.result == .ok (.port .word 0xFFFF) && t.log == []) = true := by decide

/-- Vector B14: bits 7:0 of a word write. -/
theorem test_writePort_word :
    after (.busWritePort 0x21 .word 0x12FE) State.reset (fun t => t.picM.imr == 0xFE) = true := by decide

/-- Vector B7: a read-only port. -/
theorem test_writePort_readOnly :
    after (.busWritePort 0x378 .byte 0x00) (portAt378 .readOnly)
      (fun t => t.log == [.readOnlyPort 0x378 .byte (.ext 1)]) = true := by decide

/-- Program 5, line 3: line 8 raises the master's cascade input. -/
theorem test_assertIRQ_cascade :
    after (.picAssertIRQ 8) (pair (fun p => { p with imr := 0xFB }) (fun p => { p with imr := 0xFE }))
      (fun t => t.picS.irr == 0x01 && t.picM.pin == 0x04 && t.picM.irr == 0x04) = true := by decide

/-- Vector P5: no second edge. -/
theorem test_assertIRQ_no_edge :
    after (.picAssertIRQ 0) (master fun p => { p with pin := 0x01 })
      (fun t => t.picM.irr == 0x00) = true := by decide

/-- Vector P5: in level mode the request is withdrawn. -/
theorem test_clearIRQ_level :
    after (.picClearIRQ 0) (master fun p => { p with pin := 0x01, irr := 0x01, levelTriggered := true })
      (fun t => t.picM.pin == 0x00 && t.picM.irr == 0x00) = true := by decide

/-- Vector P6: the cascade line is refused. -/
theorem test_clearIRQ_cascade_line :
    after (.picClearIRQ 2) State.reset
      (fun t => t.result == .cond .invalidIrqLine .unit && t.log == [.invalidIrqLine 2]) = true := by decide

/-- Vector P3: line 3 beats line 5. -/
theorem test_acknowledge_priority :
    after .picAcknowledge (master fun p => { p with imr := 0x00, irr := 0x28 })
      (fun t => t.result == .ok (.vector 0x0B) && t.picM.isr == 0x08 && t.picM.irr == 0x20) = true := by decide

/-- Vector P13: a request the slave has withdrawn. -/
theorem test_acknowledge_spurious_slave :
    after .picAcknowledge (pair (fun p => { p with imr := 0xFB, irr := 0x04 }) (fun p => { p with irr := 0x01 }))
      (fun t => t.result == .ok (.vector 0x77) && t.picM.isr == 0x04 && t.picS.isr == 0x00 && t.picS.irr == 0x01) =
      true := by decide

/-- Vector P9: rotate on a line not in service. -/
theorem test_endOfInterrupt_specific :
    after (.picEndOfInterrupt .M (some 5) true) (master fun p => { p with isr := 0x08 })
      (fun t => t.picM.isr == 0x08 && t.picM.lowestPriorityIRQ == 5) = true := by decide

/-- Vector P7: the least priority number in service ends. -/
theorem test_endOfInterrupt_implicit :
    after (.picEndOfInterrupt .M none false) (master fun p => { p with isr := 0x22 })
      (fun t => t.picM.isr == 0x20) = true := by decide

/-- Vector P10: line 2 is reserved. -/
theorem test_requestIRQNumber :
    after (.picRequestIRQNumber (.ext 3)) { State.reset with irqOwner := [(0, .ext 1), (1, .ext 2)] }
      (fun t => t.result == .ok (.line 3) && t.irqOwner == [(0, .ext 1), (1, .ext 2), (3, .ext 3)]) = true := by
  decide

/-- Vector P10: a line given back. -/
theorem test_freeIRQNumber :
    after (.picFreeIRQNumber (.ext 2)) { State.reset with irqOwner := [(0, .ext 1), (1, .ext 2), (3, .ext 3)] }
      (fun t => t.irqOwner == [(0, .ext 1), (3, .ext 3)]) = true := by decide

/-- R146, R153: a level-sensed slave line given back withdraws the cascade request, whose edge stays latched (R142). -/
theorem test_freeIRQNumber_cascade :
    after (.picFreeIRQNumber (.ext 1))
      { master fun p => { p with pin := 0x04, irr := 0x04 } with
        irqOwner := [(8, .ext 1)]
        picS := { State.reset.picS with imr := 0x00, pin := 0x01, irr := 0x01, levelTriggered := true } }
      (fun t => t.irqOwner == [] && t.picS.irr == 0x00 && t.picM.pin == 0x00 && t.picM.irr == 0x04) = true := by decide

/-- Vector P1: offset and cascade mode survive the reset. -/
theorem test_picReset :
    after .picReset (master fun p => { p with imr := 0x00, isr := 0x08, interruptOffset := 0x20, cascadeMode := false })
      (fun t => t.picM == { constructedPic 0x20 with cascadeMode := false }) = true := by decide

/-- Vector Q5. -/
theorem test_icw1 :
    after (.picICW1 .M false false true) (master fun p => { p with isr := 0x08, irr := 0x01, specialMask := true })
      (fun t => t.picM == { constructedPic 0x08 with imr := 0x00, initState := .expectICW2, requiresICW4 := true }) =
      true := by decide

/-- Vector Q6: the low three bits are dropped. -/
theorem test_icw2 :
    after (.picICW2 .M 0x23) (master fun p => { p with initState := .expectICW2, requiresICW4 := true })
      (fun t => t.picM.interruptOffset == 0x20 && t.picM.initState == .expectICW3) = true := by decide

/-- Vector Q7. -/
theorem test_icw3 :
    after (.picICW3 .S 0x02) (pair id fun p => { p with initState := .expectICW3, requiresICW4 := true })
      (fun t => t.picS.icw3 == 0x02 && t.picS.initState == .expectICW4) = true := by decide

/-- Vector P8's ICW4: automatic end of interrupt alone. -/
theorem test_icw4 :
    after (.picICW4 .M 0x03) (master fun p => { p with initState := .expectICW4, sfnm := true })
      (fun t => t.picM.autoEOI && !t.picM.sfnm && !t.picM.buffered && t.picM.initState == .ready) = true := by
  decide

/-- Vector P2: unmasking a latched line. -/
theorem test_ocw1 :
    after (.picOCW1 .M 0xF7) (master fun p => { p with pin := 0x08, irr := 0x08 })
      (fun t => t.picM.imr == 0xF7 && intReq t.picM) = true := by decide

/-- Vector P9: `0xA0`, rotate and non-specific. -/
theorem test_ocw2_eoi :
    after (.picOCW2EOI .M true false 0) (master fun p => { p with isr := 0x08 })
      (fun t => t.picM.isr == 0x00 && t.picM.lowestPriorityIRQ == 3) = true := by decide

/-- Vector Q20. -/
theorem test_ocw2_rotate_auto :
    (after (.picOCW2RotAutoSet .M) State.reset (fun t => t.picM.rotateOnAutoEOI) &&
      after (.picOCW2RotAutoClr .M) (master fun p => { p with rotateOnAutoEOI := true })
        (fun t => !t.picM.rotateOnAutoEOI)) = true := by decide

/-- Vector P4: `0xC3`. -/
theorem test_ocw2_set_priority :
    after (.picOCW2SetPrio .M 3) (master fun p => { p with imr := 0x00, irr := 0x28 })
      (fun t => t.picM.lowestPriorityIRQ == 3 && selected t.picM == some 5) = true := by decide

/-- Vector Q19. -/
theorem test_ocw2_nop :
    after (.picOCW2Nop .M 5) State.reset (fun t => t.picM == State.reset.picM) = true := by decide

/-- Vector Q21: poll and read select together. -/
theorem test_ocw3 :
    after (.picOCW3 .M false true true true true) State.reset
      (fun t => t.picM.polled && t.picM.readSelectISR && !t.picM.specialMask) = true := by decide

/-- Vector Q18: the poll acknowledges the master alone. -/
theorem test_read_cmd_poll :
    after (.picRdCmd .M)
      (pair (fun p => { p with imr := 0xFB, irr := 0x04, pin := 0x04, polled := true })
        (fun p => { p with imr := 0xFE, irr := 0x01, pin := 0x01 }))
      (fun t => t.result == byteResult 0x82 && t.picM.isr == 0x04 && t.picS.irr == 0x01 && t.picS.isr == 0x00) =
      true := by decide

/-- Vector Q15: the in-service register selected. -/
theorem test_read_cmd_isr :
    after (.picRdCmd .M) (master fun p => { p with isr := 0x01, irr := 0x10, readSelectISR := true })
      (fun t => t.result == byteResult 0x01) = true := by decide

/-- Vector Q13: a read of the mask does not advance the sequence. -/
theorem test_read_data :
    after (.picRdData .M) (master fun p => { p with imr := 0x00, initState := .expectICW2 })
      (fun t => t.result == byteResult 0x00 && t.picM.initState == .expectICW2) = true := by decide

/-- Vector C9: the eleventh registration. -/
theorem test_registerDevice_full :
    after (.clkRegisterDevice (.ext 11) 5 true) (timers (List.replicate 10 (slot 1 3 2 true true)))
      (fun t => t.result == .cond .timerCapacityExceeded .failure &&
        t.clk.timers == List.replicate 10 (slot 1 3 2 true true)) = true := by decide

/-- Vector C6 on a table whose owner is the channel: at zero the one-shot slot becomes inactive. -/
theorem test_pulse_one_shot :
    after .clkPulse (timers [{ slot 0 2 1 true false with owner := .ata 0 }, slot 1 3 2 true true])
      (fun t => t.clk.timers == [{ slot 0 2 0 false false with owner := .ata 0 }, slot 1 3 1 true true]) = true := by
  decide

/-- Vector C5 on a table whose owner is the channel: at zero the continuous slot starts again. -/
theorem test_pulse_continuous :
    after .clkPulse (timers [{ slot 0 3 1 true true with owner := .ata 0 }])
      (fun t => t.clk.timers == [{ slot 0 3 3 true true with owner := .ata 0 }]) = true := by decide

/-- Vector C13: the least slot is the one changed. -/
theorem test_resetTimer_first_slot :
    after (.clkResetTimer (.ext 1) 9) (timers [slot 1 3 2 true true, slot 1 3 2 true true])
      (fun t => t.clk.timers.drop 1 == [slot 1 3 2 true true]) = true := by decide

/-- Vector C7: a spent countdown is reloaded. -/
theorem test_setTimerActiveState_reload :
    after (.clkSetTimerActiveState (.ext 2) true) (timers [slot 2 2 0 false false])
      (fun t => t.clk.timers == [slot 2 2 2 true false]) = true := by decide

/-- Vector C12: no slot. -/
theorem test_setTimerActiveState_missing :
    after (.clkSetTimerActiveState (.ext 26) true) (timers [])
      (fun t => t.log == [.noSuchTimer (.ext 26)]) = true := by decide

/-- R219: with the Clock stopped no pulse is counted. -/
theorem test_signalPulse_stopped (h : params.pulseSource = .realTime) :
    exec .clkSignalPulse State.reset = .next State.reset := by
  simp [exec, execClkSignalPulse, signalPulse, reply, h, State.reset, okUnit]

/-- Vector A2: the reset repeated. -/
theorem test_ataReset_again :
    after (.ataReset 0) (channel fun c => { c with selected := 1, nIEN := true, drive0 := disk })
      (fun t => t.result == .ok .success && t.bus == State.reset.bus && t.clk.timers.length == 1 &&
        (chan t 0).selected == 0 && !(chan t 0).nIEN && (chan t 0).drive0 == disk) = true := by decide

/-- Vector A7. -/
theorem test_setSelectedDriveIndex :
    (after (.ataSetSelectedDriveIndex 0 1) State.reset (fun t => (chan t 0).selected == 1) &&
      after (.ataSetSelectedDriveIndex 0 2) State.reset (fun t => t.log == [.noSuchDriveIndex 0 2])) = true := by
  decide

/-- R115, R245, R271: a channel the machine does not have. -/
theorem test_absent_channel :
    (after (.ataSetSelectedDriveIndex 1 2) State.reset (fun t => t.log == [.noSuchDriveIndex 1 2]) &&
      after (.ataRdStatus 1) State.reset (fun t => t.result == .ok (.port .byte 0xFF) && t.ata == State.reset.ata)) = true := by
  decide

/-- Vector A5: an occupied slot, a carrier that is none. -/
theorem test_insert_refused :
    (after (.ataInsert (.index 0) .hardDisk 8 false) (drive disk)
        (fun t => t.result == .cond .slotOccupied .failure) &&
      after (.ataInsert (.index 1) .none 8 false) (drive disk)
        (fun t => t.result == .cond .attachInvalid .failure)) = true := by decide

/-- Vector A5: the eject, and an empty slot. -/
theorem test_eject :
    (after (.ataEject (.index 0)) (drive disk) (fun t => (chan t 0).drive0 == emptyDrive) &&
      after (.ataEject (.index 1)) (drive disk) (fun t => t.result == .cond .driveAbsent .failure)) = true := by
  decide

/-- Vector F12: an unknown command completes with ABRT and an interrupt. -/
theorem test_update_abort :
    after (.ataUpdate 0) (drive { disk with phase := .busy .abort })
      (fun t => (chan t 0).drive0 == { disk with err := true, error := 0x04 } && (chan t 0).irqRaised &&
        t.picM.pin == 0x01) = true := by decide

/-- Vector F8: three bytes left, a four-byte read. -/
theorem test_read_data_register :
    after (.ataRdData 0 .dword)
      (drive { disk with phase := .dataIn, buffer := [0x34, 0x12, 0x78, 0x56], bufPos := 1 })
      (fun t => t.result == .ok (.port .dword 0xFF567812) && (chan t 0).drive0 == disk) = true := by decide

/-- Vector F11: the bytes beyond the count are dropped. -/
theorem test_write_data_register :
    after (.ataWrData 0 .dword 0x11223344) (drive { disk with phase := .dataOut 2 0 })
      (fun t => (chan t 0).drive0 ==
          { disk with buffer := [0x44, 0x33], phase := .busy (.finish 0 [0x44, 0x33]) } &&
        t.clk.timers.all fun x => x.active) = true := by decide

/-- Vector F5: features are written, the error register is read. -/
theorem test_error_and_features :
    (after (.ataWrFeatures 0 0x03) (drive disk)
        (fun t => (chan t 0).drive0.features == 0x03 && (chan t 0).drive1.features == 0x03) &&
      after (.ataRdError 0) (drive { disk with features := 0x03 }) (fun t => t.result == byteResult 0x01)) = true := by
  decide

/-- Vector F4: a parameter write reaches both drives; vector A8: the read of a CDROM's signature. -/
theorem test_parameters :
    (after (.ataWrParam 0 .sectorCount 0x04) (drive disk)
        (fun t => (chan t 0).drive0.sectorCount == 0x04 && (chan t 0).drive1.sectorCount == 0x04) &&
      after (.ataRdParam 0 .cylHigh) (drive (driveResetOf { disk with type := .cdrom }))
        (fun t => t.result == byteResult 0xEB)) = true := by decide

/-- Vectors F2 and F3. -/
theorem test_drive_head :
    (after (.ataWrDrvHead 0 true false 5) (drive disk)
        (fun t => (chan t 0).drive1.head == 5 && (chan t 0).drive1.lba && (chan t 0).selected == 0) &&
      after (.ataRdDrvHead 0) (drive { disk with head := 5, lba := true }) (fun t => t.result == byteResult 0xE5) &&
      after (.ataRdDrvHead 0) (channel fun c => { c with selected := 1 }) (fun t => t.result == byteResult 0xB0)) =
      true := by decide

/-- Vector F18: the status read lowers the line and the request stays latched; the alternate status leaves it. -/
theorem test_status :
    (after (.ataRdStatus 0)
        { drive disk with
          ata := (drive disk).ata.map fun c => { c with irqRaised := true }
          picM := { State.reset.picM with pin := 0x01, irr := 0x01 } }
        (fun t => t.result == byteResult 0x50 && t.picM.pin == 0x00 && t.picM.irr == 0x01 &&
          !(chan t 0).irqRaised) &&
      after (.ataRdAltStatus 0) (channel fun c => { c with drive0 := disk, irqRaised := true })
        (fun t => t.result == byteResult 0x50 && (chan t 0).irqRaised)) = true := by decide

/-- Vector F14: a command to an absent drive is ignored. -/
theorem test_command_absent :
    after (.ataWrCommand 0 0x91) State.reset
      (fun t => (chan t 0).drive0 == emptyDrive && t.clk.timers.all fun x => !x.active) = true := by decide

/-- Vectors F16 and F17: the software reset set, then released. -/
theorem test_device_control :
    (after (.ataWrDevCtl 0 true false) (drive { disk with phase := .busy .abort })
        (fun t => (chan t 0).drive0 == disk && statusByte (chan t 0).srst (chan t 0).drive0 == 0xD0) &&
      after (.ataWrDevCtl 0 false false) (channel fun c => { c with drive0 := disk, srst := true, selected := 1 })
        (fun t => !(chan t 0).srst && (chan t 0).selected == 0 && (chan t 0).drive0 == disk)) = true := by
  decide

/-- Vector F20. -/
theorem test_drive_address :
    (after (.ataWrDrvAddr 0 0x12) (drive disk) (fun t => t.ata == (drive disk).ata) &&
      after (.ataRdDrvAddr 0) (drive disk) (fun t => t.result == byteResult 0xFF)) = true := by decide

/-- Vectors X1 and X4. -/
theorem test_step_stopped_stalled :
    (after .cpuStep State.reset (fun t => t.result == .ok .stopped && t.cpu.instrCounter == 0) &&
      after .cpuStep (cpuWith fun c => { c with running := true, holdSet := [.ext 1] })
        (fun t => t.result == .ok .stalled && t.cpu.instrCounter == 0)) = true := by decide

/-- The parameters with a memory that holds every real-mode address. -/
def roomy : Params := { params with memSize := 2 ^ 20 + 1 }

/-- The state of vector X9 before its interrupt entry. -/
def beforeEntry : State :=
  { cpuWith fun c => { c with
      x := { c.x with flags := 0x0202, cs := 0x1000, ip := 0x0010, ss := 0x0000, sp := 0x0100 } } with
    mem := [(0x20, 0x34), (0x21, 0x12), (0x23, 0xF0)] }

/-- Vector X9: the stack and the registers after the interrupt entry. -/
theorem test_interrupt_entry :
    (let t := interruptEntry roomy 0x08 beforeEntry
     t.mem == [(0x20, 0x34), (0x21, 0x12), (0x23, 0xF0), (0xFA, 0x10), (0xFD, 0x10), (0xFE, 0x02), (0xFF, 0x02)] &&
       t.cpu.x == { beforeEntry.cpu.x with sp := 0x00FA, flags := 0x0002, cs := 0xF000, ip := 0x1234 }) = true := by
  decide

/-- Vector X13. -/
theorem test_getRegister :
    (after (.cpuGetRegister [0x41, 0x58]) (cpuWith fun c => { c with x := { c.x with ax := 0x1234 } })
        (fun t => t.result == .ok (.bytes [0x12, 0x34])) &&
      after (.cpuGetRegister [0x61, 0x78]) State.reset (fun t => t.result == .cond .unknownRegister (.bytes []))) =
      true := by decide

/-- Vector X14. -/
theorem test_setRegister :
    (after (.cpuSetRegister [0x49, 0x50] [0x01, 0x00]) State.reset (fun t => t.cpu.x.ip == 0x0100) &&
      after (.cpuSetRegister [0x49, 0x50] [0x01]) State.reset
        (fun t => t.result == .cond .writeDisallowed .unit && t.cpu.x.ip == 0xFFF0)) = true := by decide

/-- Vectors X6 and X7. -/
theorem test_setHoldRequest :
    (after (.cpuSetHoldRequest (.ext 1) false) State.reset (fun t => t.cpu.holdSet == []) &&
      after (.cpuSetHoldRequest (.ext 1) false) (cpuWith fun c => { c with holdSet := [.ext 1, .ext 2] })
        (fun t => t.cpu.holdSet == [.ext 2])) = true := by decide

/-- R312 and R313. -/
theorem test_start_stop :
    (after .cpuStart State.reset (fun t => t.cpu.running) &&
      after .cpuStop (cpuWith fun c => { c with running := true }) (fun t => !t.cpu.running)) = true := by decide

/-- Vector X15. -/
theorem test_cpuReset :
    after .cpuReset
      (cpuWith fun c => { c with instrCounter := 41, holdSet := [.ext 1], running := true, x := { c.x with ax := 1 } })
      (fun t => t.cpu.x == resetRegs && t.cpu.instrCounter == 0 && t.cpu.holdSet == [] && t.cpu.running) = true := by
  decide

/-- Vectors M1 and M3. -/
theorem test_modules :
    (after (.modReset .bus) State.reset (fun t => t.bus == State.reset.bus && t.result == .ok .success) &&
      after (.modStart .clk) State.reset (fun t => t.clk.running && !t.cpu.running) &&
      after (.modStop .clk) { State.reset with clk := { State.reset.clk with running := true } }
        (fun t => !t.clk.running)) = true := by decide

/-- Vector M4. -/
theorem test_module_queries :
    (after (.modIsConnected .pic) State.reset (fun t => t.result == .ok (.bool true)) &&
      after (.modGetDump .pic) State.reset (fun t => t.picM == State.reset.picM && t.log == [])) = true := by
  decide

/-- Vector M5: the wrong length, and the unset image. -/
theorem test_rom :
    (after (.romSetSystemBIOS []) { State.reset with rom := some [0xEA] }
        (fun t => t.log == [.romSizeMismatch 0] && t.rom == some [0xEA]) &&
      after .romReadSystemBIOS State.reset (fun t => t.result == .ok (.bytes []))) = true := by decide

/-- A step from reset runs the table word placed for it. -/
theorem test_step_word :
    (match step (State.reset.withFetchWord 8 0x80) with
     | .next t => t.picM.rotateOnAutoEOI && t.inbox == []
     | _ => false) = true := by decide

/-! ### Witnesses: concrete states and operands that meet the hypotheses of the statements, clause by clause -/

/-- Both controllers unmasked, line 3 requested on the master and line 0 on the slave, the cascade request raised. -/
def pending : State :=
  pair (fun p => { p with imr := 0x00, irr := 0x0C, pin := 0x0C }) (fun p => { p with imr := 0x00, irr := 0x01, pin := 0x01 })

/-- As `pending`, with nothing on the slave. -/
def masterOnly : State :=
  pair (fun p => { p with imr := 0x00, irr := 0x08, pin := 0x08 }) (fun p => { p with imr := 0x00 })

theorem channelOk_reset : ChannelOk (chan State.reset 0) := by
  refine ⟨⟨by decide, by decide, ?_⟩, ⟨by decide, by decide, ?_⟩, by decide, by decide, by decide, by decide⟩ <;>
  · intro n tag h
    have : Phase.idle = Phase.dataOut n tag := h
    cases this

theorem mapsOk_reset : MapsOk State.reset := ⟨by decide, by decide, by decide, by decide⟩

theorem witness_RoundTrip : (Instr.busWritePort 0xFFFF .word 0xFFFF).wellFormed = true := by decide

theorem witness_StepRunsTheOperation :
    (putPacket [0x00, 0x19, 0x00] State.reset).inbox = [[0x00, 0x19, 0x00]] ∧ decode [0x00, 0x19, 0x00] = .ok .clkPulse ∧
      State.reset.inbox = [] ∧ (putPacket [] State.reset).inbox = [[]] ∧ decode [] = .error .tooShort := by decide

theorem witness_PortConditions :
    portEntry State.reset 0x0000 = none ∧ portEntry State.reset 0xFFFF = none ∧
      portEntry (portAt378 .writeOnly) 0x378 = some { owner := .ext 1, attr := .writeOnly } ∧
      portEntry (portAt378 .readOnly) 0x378 = some { owner := .ext 1, attr := .readOnly } := by decide

theorem witness_DevicePort :
    (portEntry (portAt378 .readOnly) 0x378 = some { owner := .ext 1, attr := .readOnly } ∧ Attr.readOnly ≠ .writeOnly) ∧
      (portEntry (portAt378 .writeOnly) 0x378 = some { owner := .ext 1, attr := .writeOnly } ∧
        Attr.writeOnly ≠ .readOnly) := by decide

theorem witness_PicPortAccess (c : Ctrl) :
    portEntry State.reset (cmdPort params c) = some { owner := .pic, attr := .rw } ∧
      portEntry State.reset (dataPort params c) = some { owner := .pic, attr := .rw } ∧ Attr.rw ≠ .writeOnly ∧
      Attr.rw ≠ .readOnly := by cases c <;> decide

/-- Offsets 0 to 7 of the command block. -/
theorem witness_AtaPortAccess_command :
    0 < State.reset.ata.length ∧
      (portEntry State.reset 0x1F0 = some { owner := .ata 0, attr := .rw } ∧
        0x1F0 - (chan State.reset 0).ioBase1 = 0) ∧
      (portEntry State.reset 0x1F1 = some { owner := .ata 0, attr := .rw } ∧
        0x1F1 - (chan State.reset 0).ioBase1 = 1) ∧
      (portEntry State.reset 0x1F2 = some { owner := .ata 0, attr := .rw } ∧
        0x1F2 - (chan State.reset 0).ioBase1 = 2) ∧
      (portEntry State.reset 0x1F3 = some { owner := .ata 0, attr := .rw } ∧
        0x1F3 - (chan State.reset 0).ioBase1 = 3) ∧
      (portEntry State.reset 0x1F4 = some { owner := .ata 0, attr := .rw } ∧
        0x1F4 - (chan State.reset 0).ioBase1 = 4) ∧
      (portEntry State.reset 0x1F5 = some { owner := .ata 0, attr := .rw } ∧
        0x1F5 - (chan State.reset 0).ioBase1 = 5) ∧
      (portEntry State.reset 0x1F6 = some { owner := .ata 0, attr := .rw } ∧
        0x1F6 - (chan State.reset 0).ioBase1 = 6) ∧
      (portEntry State.reset 0x1F7 = some { owner := .ata 0, attr := .rw } ∧
        0x1F7 - (chan State.reset 0).ioBase1 = 7) := by decide

/-- Offsets 6 and 7 of the control block. -/
theorem witness_AtaPortAccess_control :
    (portEntry State.reset 0x3F6 = some { owner := .ata 0, attr := .rw } ∧
      7 < ((0x3F6 : Half) - (chan State.reset 0).ioBase1).toNat ∧ 0x3F6 - (chan State.reset 0).ioBase2 = 6) ∧
    (portEntry State.reset 0x3F7 = some { owner := .ata 0, attr := .rw } ∧
      7 < ((0x3F7 : Half) - (chan State.reset 0).ioBase1).toNat ∧ 0x3F7 - (chan State.reset 0).ioBase2 = 7) := by decide

/-- The lines refused and taken, at the ends of their ranges. -/
theorem witness_AssertIRQ :
    (15 < 16 ∨ 16 = 2) ∧ (15 < 2 ∨ 2 = 2) ∧ (0 < 16 ∧ 0 ≠ 2) ∧ (1 < 16 ∧ 1 ≠ 2) ∧ (3 < 16 ∧ 3 ≠ 2) ∧
      (15 < 16 ∧ 15 ≠ 2) := by decide

theorem witness_ClearIRQ : (15 < 16 ∨ 16 = 2) ∧ (15 < 2 ∨ 2 = 2) ∧ (0 < 16 ∧ 0 ≠ 2) ∧ (15 < 16 ∧ 15 ≠ 2) := by decide

theorem witness_PriorityResolver :
    selected masterOnly.picM = some 3 ∧ selected State.reset.picM = none ∧ intReq masterOnly.picM = true := by decide

theorem witness_ControllerProperties :
    (15 < 16 ∧ 15 ≠ 2 ∧ lineBit (picOf State.reset (ctrlOfLine 15)).imr (localLine 15) = true) ∧
      (selected masterOnly.picM = some 3 ∧ ¬((3 : Fin 8) = 2 ∧ masterOnly.picM.cascadeMode = true)) ∧
      (selected pending.picM = some 2 ∧ pending.picM.cascadeMode = true ∧ selected pending.picS = some 0) := by decide

theorem witness_Acknowledge_line :
    CascadeFollows masterOnly ∧ selected masterOnly.picM = some 3 ∧
      ¬((3 : Fin 8) = 2 ∧ masterOnly.picM.cascadeMode = true) := ⟨by unfold CascadeFollows; decide, by decide, by decide⟩

theorem witness_Acknowledge_cascade :
    selected pending.picM = some 2 ∧ pending.picM.cascadeMode = true ∧ selected pending.picS = some 0 := by decide

theorem witness_Acknowledge_withdrawn :
    selected (pair (fun p => { p with imr := 0xFB, irr := 0x04 }) id).picM = some 2 ∧
      (pair (fun p => { p with imr := 0xFB, irr := 0x04 }) id).picM.cascadeMode = true ∧
      selected (pair (fun p => { p with imr := 0xFB, irr := 0x04 }) id).picS = none := by decide

theorem witness_Acknowledge_spurious : CascadeFollows State.reset ∧ selected State.reset.picM = none :=
  ⟨by unfold CascadeFollows; decide, by decide⟩

/-- Nothing in service; a line named; lines 1 and 5 in service, line 1 of least priority number. -/
theorem witness_EndOfInterrupt :
    (picOf State.reset .S).isr = 0 ∧ some (7 : Fin 8) = some 7 ∧
      (lineBit (picOf (master fun p => { p with isr := 0x22 }) .M).isr 1 = true ∧
        ∀ k : Fin 8, lineBit (picOf (master fun p => { p with isr := 0x22 }) .M).isr k = true →
          (prio (picOf (master fun p => { p with isr := 0x22 }) .M) 1).val ≤
            (prio (picOf (master fun p => { p with isr := 0x22 }) .M) k).val) := by decide

theorem witness_RequestIRQNumber_again :
    MapsOk State.reset ∧ mapGet State.reset.irqOwner 0 = some (.ata 0) ∧
      ∀ m, m < 0 → mapGet State.reset.irqOwner m ≠ some (.ata 0) :=
  ⟨mapsOk_reset, by decide, fun _ h => absurd h (Nat.not_lt_zero _)⟩

/-- The first free line after 0 and 1 is 3. -/
theorem witness_RequestIRQNumber_first :
    MapsOk { State.reset with irqOwner := [(0, .ata 0), (1, .ext 1)] } ∧
      (∀ m, mapGet [(0, Device.ata 0), (1, .ext 1)] m ≠ some (.ext 9)) ∧
      (3 < 16 ∧ 3 ≠ 2 ∧ mapGet [(0, Device.ata 0), (1, .ext 1)] 3 = none ∧
        ∀ m, m < 3 → m = 2 ∨ mapGet [(0, Device.ata 0), (1, .ext 1)] m ≠ none) := by
  refine ⟨⟨by decide, by decide, by decide, by decide⟩, ?_, by decide⟩
  intro m
  simp only [mapGet]
  repeat' split
  all_goals simp

/-- Every device line owned. -/
def allOwned : List (Nat × Device) := [0, 1, 3, 4, 5, 6, 7, 8, 9, 10, 11, 12, 13, 14, 15].map fun n => (n, .ext n)

theorem witness_RequestIRQNumber_none :
    MapsOk { State.reset with irqOwner := allOwned } ∧ (∀ m, mapGet allOwned m ≠ some (.ext 99)) ∧
      ∀ n, n < 16 → n = 2 ∨ mapGet allOwned n ≠ none := by
  refine ⟨⟨by decide, by decide, by decide, by decide⟩, ?_, by decide⟩
  intro m h
  obtain ⟨n, hn, he⟩ := List.mem_map.mp (mem_of_mapGet h)
  cases he
  exact absurd hn (by decide)

theorem witness_FreeIRQNumber :
    MapsOk State.reset ∧ CascadeFollows State.reset ∧ (∀ n, mapGet State.reset.irqOwner n ≠ some (.ext 4)) ∧
      mapGet State.reset.irqOwner 0 = some (.ata 0) := by
  refine ⟨mapsOk_reset, by unfold CascadeFollows; decide, ?_, by decide⟩
  intro n
  simp only [State.reset, mapGet]
  split <;> simp

theorem witness_InitialisationWords :
    (picOf (master fun p => { p with initState := .expectICW2 }) .M).initState = .expectICW2 ∧
      (picOf (master fun p => { p with initState := .expectICW3 }) .M).initState = .expectICW3 ∧
      (picOf (master fun p => { p with initState := .expectICW4 }) .M).initState = .expectICW4 ∧
      (picOf State.reset .S).initState = .ready := by decide

theorem witness_PicReads :
    (picOf State.reset .M).polled = false ∧
      (picOf (master fun p => { p with polled := true }) .M).polled = true ∧
      selected (picOf (master fun p => { p with polled := true }) .M) = none ∧
      selected (picOf (master fun p => { p with polled := true, imr := 0x00, irr := 0x01 }) .M) = some 0 := by decide

theorem witness_Nesting :
    ((master fun p => { p with isr := 0x80 }).picM.isr ≠ 0 ∧ (master fun p => { p with isr := 0x80 }).picM.sfnm = false ∧
        (master fun p => { p with isr := 0x80 }).picM.specialMask = false) ∧
      (selected (master fun p => { p with sfnm := true, imr := 0x00, isr := 0x20, irr := 0x02 }).picM = some 1 ∧
        lineBit (0x20 : Byte) 5 = true) ∧
      selected (master fun p => { p with specialMask := true, imr := 0x00, isr := 0x08, irr := 0x20 }).picM = some 5 ∧
      ∀ c, (picOf State.reset c).sfnm = false ∧ (picOf State.reset c).specialMask = false := by
  refine ⟨by decide, by decide, by decide, ?_⟩
  intro c
  cases c <;> decide

theorem witness_Nesting_oneInService (c : Ctrl) : OneInService (picOf State.reset c) := by
  intro k l hk
  have : ∀ k : Fin 8, lineBit (0x00 : Byte) k = true → False := by decide
  cases c <;> exact absurd (this k hk) id

/-- An acknowledge that puts one line in service, where none was. -/
theorem witness_Nesting_kept :
    Instr.picAcknowledge ≠ .cpuStep ∧
      after .picAcknowledge (master fun p => { p with imr := 0x00, irr := 0x22 }) (fun t => t.picM.isr == 0x02) = true ∧
      (master fun p => { p with imr := 0x00, irr := 0x22 }).picM.sfnm = false ∧
      (master fun p => { p with imr := 0x00, irr := 0x22 }).picM.specialMask = false ∧
      (master fun p => { p with imr := 0x00, irr := 0x22 }).picM.isr = 0x00 := by decide

theorem witness_GlobalPriorityOrder :
    (∀ c, (picOf pending c).lowestPriorityIRQ = 7 ∧ (picOf pending c).isr = 0 ∧ (picOf pending c).imr = 0 ∧
        (picOf pending c).specialMask = false) ∧
      pending.picM.cascadeMode = true ∧ lineBit pending.picM.irr 2 = intReq pending.picS ∧
      [0, 1, 8, 9, 10, 11, 12, 13, 14, 15, 3, 4, 5, 6, 7].find? (lineIrr pending) = some 8 := by
  refine ⟨?_, by decide, by decide, by decide⟩
  intro c
  cases c <;> decide

/-- Nine and ten slots in use. -/
theorem witness_TimerRegistration :
    (timers (List.replicate 9 (slot 1 3 2 true true))).clk.timers.length < 10 ∧
      10 ≤ (timers (List.replicate 10 (slot 1 3 2 true true))).clk.timers.length := by decide

/-- The second slot of the table is the device's least; another device has none. -/
theorem witness_TimerReconfiguration :
    (timers [slot 1 3 2 true true, slot 2 3 2 true true]).clk.timers[1]? = some (slot 2 3 2 true true) ∧
      (slot 2 3 2 true true).owner = .ext 2 ∧
      (∀ j y, j < 1 → (timers [slot 1 3 2 true true, slot 2 3 2 true true]).clk.timers[j]? = some y →
        y.owner ≠ .ext 2) ∧
      ∀ x ∈ (timers [slot 1 3 2 true true, slot 2 3 2 true true]).clk.timers, x.owner ≠ .ext 3 := by
  refine ⟨by decide, by decide, ?_, by decide⟩
  intro j y hj hy
  obtain rfl : j = 0 := by omega
  cases hy
  decide

theorem witness_PulseCountsDown :
    (timers (List.replicate 10 (slot 1 3 2 true true))).clk.timers.length ≤ 10 ∧
      ∀ x ∈ (timers (List.replicate 10 (slot 1 3 2 true true))).clk.timers, x.active = true → 2 ≤ x.countdown := by
  decide

/-- The slot of channel 0, due at the next pulse. -/
def dueSlot : Timer := { owner := .ata 0, interval := 1, countdown := 1, active := true, continuous := true }

theorem witness_PulseFires :
    0 < (timers [dueSlot]).ata.length ∧ (timers [dueSlot]).clk.timers = [dueSlot] ∧ dueSlot.owner = .ata 0 ∧
      dueSlot.active = true ∧ dueSlot.countdown = 1 := by decide

/-- Slots a pulse visits in turn: an inactive one, one that counts down, a channel's and an external device's, both due. -/
theorem witness_PulseFires_slots :
    (timers [slot 1 3 2 false true, slot 1 3 2 true true, dueSlot, slot 2 3 1 true false]).clk.timers =
      [slot 1 3 2 false true, slot 1 3 2 true true, dueSlot, slot 2 3 1 true false] ∧
      (slot 1 3 2 false true).active = false ∧ (slot 1 3 2 true true).active = true ∧
      2 ≤ (slot 1 3 2 true true).countdown ∧ (slot 2 3 1 true false).active = true ∧
      (slot 2 3 1 true false).countdown = 1 ∧ (slot 2 3 1 true false).owner = .ext 2 := by decide

/-- Interval 1, the least: the slot of `dueSlot`, continuous and one-shot. -/
theorem witness_TimerPeriod :
    0 < (timers [dueSlot]).ata.length ∧ 1 ≤ 1 ∧ (chan (timers [dueSlot]) 0).drive0.isBusy = false ∧
      (chan (timers [dueSlot]) 0).drive1.isBusy = false ∧
      (timers [dueSlot]).clk.timers =
        [{ owner := .ata 0, interval := 1, countdown := 1, active := true, continuous := true }] ∧
      (timers [{ dueSlot with continuous := false }]).clk.timers =
        [{ owner := .ata 0, interval := 1, countdown := 1, active := true, continuous := false }] := by decide

/-- The reset of a channel whose interrupt is raised on its line. -/
theorem witness_AtaReset :
    0 < (channel fun c => { c with irqRaised := true }).ata.length ∧ MapsOk (channel fun c => { c with irqRaised := true }) ∧
      ChannelOk (chan (channel fun c => { c with irqRaised := true }) 0) ∧
      (chan (channel fun c => { c with irqRaised := true }) 0).timerRegistered = true ∧
      (chan (channel fun c => { c with irqRaised := true }) 0).irqRaised = true ∧
      after (.ataReset 0) (channel fun c => { c with irqRaised := true }) (fun t => (chan t 0).irqNumber == 0) = true := by
  refine ⟨by decide, mapsOk_reset, ⟨channelOk_reset.1, channelOk_reset.2.1, by decide⟩, by decide, by decide, by decide⟩

/-- A first reset: with nine slots in use, one of them the channel's, and with ten; every line owned by others. -/
theorem witness_AtaReset_first :
    (chan (constructed params) 0).timerRegistered = false ∧ (chan (constructed params) 0).irqRaised = false ∧
      (dueSlot :: List.replicate 8 (slot 1 3 2 true true)).length < 10 ∧
      (dueSlot :: List.replicate 9 (slot 1 3 2 true true)).length = 10 ∧
      (requestIRQNumber params (.ata 0) { constructed params with
        irqOwner := ([0, 1, 3, 4, 5, 6, 7, 8, 9, 10, 11, 12, 13, 14, 15].map fun n => (n, .ext n)) }).2 =
        .cond .irqExhausted (.line (-1)) := by decide

/-- The first channel past the machine's only one, and a port registered to it. -/
theorem witness_AtaAbsentChannel :
    State.reset.ata.length ≤ 1 ∧
      portEntry { State.reset with bus := [(0x170, { owner := .ata 1, attr := .rw })] } 0x170 =
        some { owner := .ata 1, attr := .rw } ∧ Attr.rw ≠ .writeOnly ∧ Attr.rw ≠ .readOnly := by decide

theorem witness_SelectDrive : 0 < State.reset.ata.length ∧ 0 < 2 ∧ 1 < 2 ∧ 2 ≤ 2 := by decide

/-- The last slot of the machine and the first selector past it. -/
theorem witness_AttachDetach :
    resolveSel params (.index 1) State.reset = some (0, 1) ∧ resolveSel params (.index 2) State.reset = none := by decide

/-- Every name falls under one of the two cases of the name table. -/
theorem witness_AttachDetach_name (bytes : List Byte) :
    params.driveNames bytes = none ∨ ∃ n, params.driveNames bytes = some n := by
  cases params.driveNames bytes with
  | none => exact .inl rfl
  | some n => exact .inr ⟨n, rfl⟩

theorem witness_InsertEjectRoundTrip :
    resolveSel params (.index 1) State.reset = some (0, 1) ∧ Carrier.cdrom ≠ .none ∧
      (chan State.reset 0).drive0.phase = .idle ∧ (chan State.reset 0).drive1.phase = .idle ∧
      (driveOf (chan State.reset 0) 1).type = .none ∧ (driveOf (chan State.reset 0) 1).image = none ∧
      (driveOf (chan State.reset 0) 1).writeProtected = false ∧ (driveOf (chan State.reset 0) 1).ready = false ∧
      (driveOf (chan State.reset 0) 1).seekComplete = false := by decide

/-- A channel with a command to complete and a line, and one with none. -/
theorem witness_AtaUpdate :
    0 < (drive { disk with phase := .busy .abort }).ata.length ∧
      (completion params 0 0 { disk with phase := .busy .abort }).2.2 = true ∧
      (chan (drive { disk with phase := .busy .abort }) 0).irqNumber = 0 ∧
      (completion params 0 0 disk).2.2 = false := by decide

/-- No transfer; a transfer at its last byte. -/
theorem witness_ReadData :
    (selectedDrive (chan State.reset 0)).type = .none ∧
      (selectedDrive (chan (drive { disk with phase := .dataIn, buffer := [0x34], bufPos := 0 }) 0)).type ≠ .none ∧
      (selectedDrive (chan (drive { disk with phase := .dataIn, buffer := [0x34], bufPos := 0 }) 0)).phase = .dataIn ∧
      (selectedDrive (chan (drive { disk with phase := .dataIn, buffer := [0x34], bufPos := 0 }) 0)).bufPos ≤
        (selectedDrive (chan (drive { disk with phase := .dataIn, buffer := [0x34], bufPos := 0 }) 0)).buffer.length := by
  decide

/-- Ignored while reset and with no transfer; the last word wanted, and one of two words wanted. -/
theorem witness_WriteData :
    (chan (channel fun c => { c with srst := true }) 0).srst = true ∧
      (∀ n tag, (selectedDrive (chan State.reset 0)).phase ≠ .dataOut n tag) ∧
      ((chan (drive { disk with phase := .dataOut 2 0 }) 0).srst = false ∧
        (selectedDrive (chan (drive { disk with phase := .dataOut 2 0 }) 0)).phase = .dataOut 2 0 ∧
        [0xEF, 0xBE] = (selectedDrive (chan (drive { disk with phase := .dataOut 2 0 }) 0)).buffer ++
          (((List.range (widthBytes .word)).map fun j => (0xBEEF : Long).extractLsb' (8 * j) 8).take
            (2 - (selectedDrive (chan (drive { disk with phase := .dataOut 2 0 }) 0)).buffer.length))) ∧
      [0xEF, 0xBE] = (selectedDrive (chan (drive { disk with phase := .dataOut 4 0 }) 0)).buffer ++
        (((List.range (widthBytes .word)).map fun j => (0xBEEF : Long).extractLsb' (8 * j) 8).take
          (4 - (selectedDrive (chan (drive { disk with phase := .dataOut 4 0 }) 0)).buffer.length)) := by
  refine ⟨by decide, ?_, by decide, by decide⟩
  intro n tag h
  have : Phase.idle = Phase.dataOut n tag := h
  cases this

theorem channelOk_disk : ChannelOk (chan (drive disk) 0) := by
  refine ⟨⟨by decide, by decide, ?_⟩, ⟨by decide, by decide, ?_⟩, by decide, by decide, by decide, by decide⟩ <;>
  · intro n tag h
    have : Phase.idle = Phase.dataOut n tag := h
    cases this

/-- Absent, reset, busy; and a drive that takes the command. -/
theorem witness_WriteCommand :
    0 < State.reset.ata.length ∧ ChannelOk (chan State.reset 0) ∧ (selectedDrive (chan State.reset 0)).type = .none ∧
      (selectedDrive (chan (drive { disk with phase := .busy .abort }) 0)).isBusy = true ∧
      ChannelOk (chan (drive disk) 0) ∧ (chan (drive disk) 0).srst = false ∧
      (selectedDrive (chan (drive disk) 0)).isBusy = false ∧ (selectedDrive (chan (drive disk) 0)).type ≠ .none :=
  ⟨by decide, channelOk_reset, by decide, by decide, channelOk_disk, by decide, by decide, by decide⟩

theorem witness_TaskRegisterReads : 0 < (drive disk).ata.length := by decide

theorem witness_ReadStatus : 0 < (drive disk).ata.length ∧ ChannelOk (chan (drive disk) 0) :=
  ⟨by decide, channelOk_disk⟩

theorem witness_TaskRegisterWrites :
    0 < (drive disk).ata.length ∧
      ((chan (channel fun c => { c with srst := true }) 0).srst = true ∨
        (selectedDrive (chan (channel fun c => { c with srst := true }) 0)).isBusy = true) ∧
      (selectedDrive (chan (drive { disk with phase := .busy .abort }) 0)).isBusy = true ∧
      (chan (drive disk) 0).srst = false ∧ (selectedDrive (chan (drive disk) 0)).isBusy = false := by decide

/-- Both edges of the software reset bit can come, and neither. -/
theorem witness_DeviceControl :
    0 < (drive disk).ata.length ∧ ChannelOk (chan (drive disk) 0) ∧ (chan (drive disk) 0).srst = false ∧
      (chan (channel fun c => { c with srst := true }) 0).srst = true :=
  ⟨by decide, channelOk_disk, by decide, by decide⟩

theorem witness_CpuStoppedOrStalled :
    State.reset.cpu.running = false ∧
      (cpuWith fun c => { c with running := true, holdSet := [.pic] }).cpu.running = true ∧
      (cpuWith fun c => { c with running := true, holdSet := [.pic] }).cpu.holdSet ≠ [] := by decide

theorem witness_CpuStepExecutes :
    (cpuWith fun c => { c with running := true }).cpu.running = true ∧
      (cpuWith fun c => { c with running := true }).cpu.holdSet = [] := by decide

/-- The pulse source is one of the two, and one queued pulse is a count of its range. -/
theorem witness_CpuStepExecutes_pulses :
    (params.pulseSource = .instructionCount ∨ params.pulseSource = .realTime) ∧
      0 < ({ State.reset with clk := { State.reset.clk with pendingRtPulses := 1 } } : State).clk.pendingRtPulses := by
  refine ⟨?_, by decide⟩
  cases params.pulseSource <;> simp

/-- The last byte of a memory and the first address beyond it, a canonical memory, an unmapped port. -/
theorem witness_CpuStepExecutes_accesses :
    2 ^ 20 < roomy.memSize ∧ roomy.memSize ≤ 2 ^ 20 + 1 ∧ Memory.wf State.reset.mem = true ∧
      portEntry State.reset 0x100 = none := by decide

/-- The stack of vector X9, and one that crosses the top of its segment. -/
theorem witness_InterruptEntry :
    2 ^ 20 < roomy.memSize ∧ Memory.wf beforeEntry.mem = true ∧
      0xFE = linear beforeEntry.cpu.x.ss (beforeEntry.cpu.x.sp - 2) ∧
      0xFC = linear beforeEntry.cpu.x.ss (beforeEntry.cpu.x.sp - 4) ∧
      0xFA = linear beforeEntry.cpu.x.ss (beforeEntry.cpu.x.sp - 6) ∧ 0xFFFE = linear 0 (0 - 2) := by decide

theorem witness_RegisterAccess :
    ([0x01] : List Byte).length ≠ 2 ∧ ([0x01, 0x02, 0x03] : List Byte).length ≠ 2 ∧
      ∀ r : Reg, ([0x51, 0x58] : List Byte) ≠ regName r := by
  refine ⟨by decide, by decide, ?_⟩
  intro r
  cases r <;> decide

theorem witness_ModuleLifecycle : 0 < State.reset.ata.length ∧ Module.ata 0 ∈ [Module.bus, .pic, .ata 0] := by decide

/-- Exactly 65536 bytes, one fewer and one more; an unset and a set image. -/
theorem witness_BiosImage :
    (List.replicate 65536 (0xEA : Byte)).length = 65536 ∧ (List.replicate 65535 (0xEA : Byte)).length ≠ 65536 ∧
      (List.replicate 65537 (0xEA : Byte)).length ≠ 65536 ∧ State.reset.rom = none ∧
      ({ State.reset with rom := some [] } : State).rom = some [] := by
  refine ⟨List.length_replicate, ?_, ?_, rfl, rfl⟩ <;> rw [List.length_replicate] <;> decide

/-- The first module of the reset order and the last. -/
theorem witness_FirstMachineReset :
    params.resetOrder[0]? = some .bus ∧ Config.noExternals.resetOrder[4]? = some .cpu ∧
      (machineReset Config.noExternals State.reset).2 = success := ⟨rfl, rfl, by decide⟩

/-- The step of the reset machine: the CPU is stopped. -/
theorem step_reset : step State.reset = .next { State.reset with result := .ok .stopped } := rfl

theorem witness_StepKeepsControllers :
    PicOk State.reset ∧ step State.reset = .next { State.reset with result := .ok .stopped } :=
  ⟨⟨fun h => absurd h (by decide), fun h => absurd h (by decide), by unfold CascadeFollows; decide⟩, step_reset⟩

/-- Every timer of the reset machine has an interval of at least one pulse. -/
theorem witness_StepKeepsTimers :
    TimersOk (timers [slot 1 1 1 true false]) ∧
      step (timers [slot 1 1 1 true false]) =
        .next { timers [slot 1 1 1 true false] with result := .ok .stopped } := by
  refine ⟨⟨by decide, ?_⟩, rfl⟩
  unfold TimerOk
  decide

theorem witness_StepKeepsDevices :
    MapsOk State.reset ∧ ChannelsOk State.reset ∧
      step State.reset = .next { State.reset with result := .ok .stopped } := by
  refine ⟨mapsOk_reset, ?_, step_reset⟩
  intro c hc
  obtain rfl : c = chan State.reset 0 := List.mem_singleton.mp hc
  exact channelOk_reset

theorem witness_StepKeepsDevices_lines :
    LinesOwned State.reset ∧ LinesKept State.reset { State.reset with result := .ok .stopped } := by
  refine ⟨fun ch c h => ?_, fun _ _ h => h⟩
  cases ch with
  | zero =>
    cases h
    exact .inr ⟨0, rfl, by decide⟩
  | succ ch => exact absurd h (by simp [State.reset])

theorem witness_StepKeepsForms :
    Memory.wf State.reset.mem = true ∧ RomOk State.reset ∧
      step State.reset = .next { State.reset with result := .ok .stopped } :=
  ⟨by decide, fun _ h => absurd h (by simp [State.reset]), step_reset⟩

theorem witness_NothingIsRemoved : step State.reset = .next { State.reset with result := .ok .stopped } := step_reset

theorem witness_ConditionsOnlyLog :
    exec (.picAssertIRQ 16) State.reset =
      .next { State.reset with log := [.invalidIrqLine 16], result := .cond .invalidIrqLine .unit } := rfl

theorem witness_MemoryOnlyByCpuStep :
    Instr.cpuStart ≠ .cpuStep ∧
      exec .cpuStart State.reset =
        .next { State.reset with cpu := { State.reset.cpu with running := true }, result := .ok .unit } :=
  ⟨by decide, rfl⟩

theorem witness_CpuAndRomWriters :
    exec .romReadSystemBIOS State.reset = .next { State.reset with result := .ok (.bytes []) } ∧
      Instr.romReadSystemBIOS ≠ .cpuStep ∧ Instr.romReadSystemBIOS ≠ .cpuReset ∧
      Instr.romReadSystemBIOS ≠ .modReset .cpu ∧ Instr.romReadSystemBIOS ≠ .cpuStart ∧
      Instr.romReadSystemBIOS ≠ .modStop .cpu ∧ ∀ bytes, Instr.romReadSystemBIOS ≠ .romSetSystemBIOS bytes := by
  refine ⟨rfl, by decide, by decide, by decide, by decide, by decide, ?_⟩
  intro bytes h
  cases h

end Sys2Proof.Tests
end

section
/-! SUPPORT. What a device operation and a settled change of a controller leave alone, what a change of a channel must
respect, and the walk over every operation of an ATA channel with exactly those changes. -/

namespace Sys2Proof.Machine

open Sys2Proof.Config (params)

/-! ### What the shared operations leave alone -/

theorem requestIRQNumber_eq (P : Params) (d : Device) (s : State) :
    (requestIRQNumber P d s).1 =
      { s with irqOwner := (requestIRQNumber P d s).1.irqOwner, log := (requestIRQNumber P d s).1.log } := by
  unfold requestIRQNumber
  split
  · rfl
  · split <;> rfl

theorem releaseLine_eq (P : Params) (n : Nat) (s : State) :
    releaseLine P n s =
      { s with
        picM := (releaseLine P n s).picM, picS := (releaseLine P n s).picS,
        irqOwner := mapErase s.irqOwner n, log := (releaseLine P n s).log } := by
  unfold releaseLine
  dsimp only
  rw [clearIRQ_eq]

theorem registerDevice_eq (P : Params) (d : Device) (us : Nat) (k : Bool) (s : State) :
    (registerDevice P d us k s).1 =
      { s with
        clk := { s.clk with timers := (registerDevice P d us k s).1.clk.timers },
        log := (registerDevice P d us k s).1.log } := by
  unfold registerDevice
  split <;> rfl

theorem resetTimer_eq (P : Params) (d : Device) (us : Nat) (s : State) :
    (resetTimer P d us s).1 =
      { s with
        clk := { s.clk with timers := (resetTimer P d us s).1.clk.timers }, log := (resetTimer P d us s).1.log } := by
  unfold resetTimer
  split <;> rfl

theorem setTimerActiveState_eq (d : Device) (on : Bool) (s : State) :
    (setTimerActiveState d on s).1 =
      { s with
        clk := { s.clk with timers := (setTimerActiveState d on s).1.clk.timers },
        log := (setTimerActiveState d on s).1.log } := by
  unfold setTimerActiveState
  split <;> rfl

/-- All that a device operation can reach: the maps, the controllers, the timer table, the hold set, the log (R390). -/
theorem runDevOp_eq (P : Params) (op : DevOp) (s : State) :
    (runDevOp P op s).1 =
      { s with
        bus := (runDevOp P op s).1.bus
        picM := (runDevOp P op s).1.picM
        picS := (runDevOp P op s).1.picS
        irqOwner := (runDevOp P op s).1.irqOwner
        clk := { s.clk with timers := (runDevOp P op s).1.clk.timers }
        cpu := { s.cpu with holdSet := (runDevOp P op s).1.cpu.holdSet }
        log := (runDevOp P op s).1.log } := by
  cases op with
  | registerPort a d attr =>
    simp only [runDevOp]
    rw [registerPort_eq]
  | assertIRQ n =>
    simp only [runDevOp]
    rw [assertIRQ_eq]
  | clearIRQ n =>
    simp only [runDevOp]
    rw [clearIRQ_eq]
  | requestIRQNumber d =>
    simp only [runDevOp]
    rw [requestIRQNumber_eq]
  | freeIRQNumber d =>
    simp only [runDevOp, freeIRQNumber]
    generalize linesOf s d = lines
    induction lines generalizing s with
    | nil => rfl
    | cons n lines ih =>
      rw [List.foldl_cons, ih, releaseLine_eq]
  | registerDevice d us k =>
    simp only [runDevOp]
    rw [registerDevice_eq]
  | resetTimer d us =>
    simp only [runDevOp]
    rw [resetTimer_eq]
  | setTimerActiveState d k =>
    simp only [runDevOp]
    rw [setTimerActiveState_eq]
  | setHoldRequest d k => rfl

/-- A controller changed and settled: nothing but the pair has changed. -/
theorem settle_setPic_eq (P : Params) (c : Ctrl) (p : Pic) (s : State) :
    settle P (setPic c p s) =
      { s with picM := (settle P (setPic c p s)).picM, picS := (settle P (setPic c p s)).picS } := by
  cases c <;> rfl

theorem acknowledge_eq (P : Params) (s : State) :
    (acknowledge P s).2 = { s with picM := (acknowledge P s).2.picM, picS := (acknowledge P s).2.picS } := by
  have slave : ∀ u : State, (ackSlave u).2 = { u with picS := (ackSlave u).2.picS } := by
    intro u
    unfold ackSlave
    split <;> rfl
  have master : (ackMaster P s).2 = { s with picM := (ackMaster P s).2.picM, picS := (ackMaster P s).2.picS } := by
    unfold ackMaster
    split
    · rfl
    · dsimp only
      split
      · rw [slave]
      · rfl
  unfold acknowledge settle
  rw [master]

/-! ### Changes of a channel -/

/-- A channel changed as every operation but its reset changes it: the line stays, and the form of R44, R45 and R287 is
kept. -/
def ChannelStep (c c' : Channel) : Prop := c'.irqNumber = c.irqNumber ∧ (ChannelOk c → ChannelOk c')

/-- A drive change that keeps the form of every drive. -/
def KeepsDriveForm (f : Drive → Drive) : Prop := ∀ d, DriveOk d → DriveOk (f d)

theorem channelStep_onDrive {c : Channel} {k : Fin 2} {f : Drive → Drive}
    (hf : DriveOk (driveOf c k) → DriveOk (f (driveOf c k))) : ChannelStep c (onDrive k f c) := by
  unfold onDrive driveOf at *
  split at hf
  · next hk =>
    rw [if_pos hk]
    exact ⟨rfl, fun ⟨h0, hrest⟩ => ⟨hf h0, hrest⟩⟩
  · next hk =>
    rw [if_neg hk]
    exact ⟨rfl, fun ⟨h0, h1, hrest⟩ => ⟨h0, hf h1, hrest⟩⟩

theorem channelStep_onBothDrives {f : Drive → Drive} (hf : KeepsDriveForm f) (c : Channel) :
    ChannelStep c (onBothDrives f c) :=
  ⟨rfl, fun ⟨h0, h1, hrest⟩ => ⟨hf _ h0, hf _ h1, hrest⟩⟩

theorem channelStep_lowered (c : Channel) : ChannelStep c { c with irqRaised := false } :=
  ⟨rfl, fun ⟨h0, h1, hlo, hhi, hne, _⟩ => ⟨h0, h1, hlo, hhi, hne, nofun⟩⟩

theorem channelStep_raised {c : Channel} (h : 0 ≤ c.irqNumber) : ChannelStep c { c with irqRaised := true } :=
  ⟨rfl, fun ⟨h0, h1, hlo, hhi, hne, _⟩ => ⟨h0, h1, hlo, hhi, hne, fun _ => h⟩⟩

/-! ### Changes of a drive -/

/-- A drive out of its data phases, with the carrier it had. -/
theorem DriveOk.of_no_transfer {d e : Drive} (h : DriveOk d) (htype : e.type = d.type) (himage : e.image = d.image)
    (hin : e.phase ≠ .dataIn) (hout : ∀ n tag, e.phase ≠ .dataOut n tag) : DriveOk e :=
  ⟨by rw [htype, himage]; exact h.1, fun hp => absurd hp hin, fun n tag hp => absurd hp (hout n tag)⟩

theorem keepsDriveForm_reset : KeepsDriveForm driveResetOf := fun _ h => h.of_no_transfer rfl rfl nofun nofun

theorem keepsDriveForm_drop : KeepsDriveForm dropCommand := fun _ h => h.of_no_transfer rfl rfl nofun nofun

theorem keepsDriveForm_abort : KeepsDriveForm abortCommand := fun _ h => h.of_no_transfer rfl rfl nofun nofun

theorem keepsDriveForm_done (r : RegPatch) : KeepsDriveForm (completeDone r) :=
  fun _ h => h.of_no_transfer rfl rfl nofun nofun

theorem keepsDriveForm_finish (plan : FinishPlan) : KeepsDriveForm (completeFinish plan) := by
  intro d h
  cases plan <;> exact h.of_no_transfer rfl rfl nofun nofun

theorem keepsDriveForm_dataIn (bytes : List Byte) (r : RegPatch) : KeepsDriveForm (completeDataIn bytes r) := by
  intro d h
  unfold completeDataIn
  split
  · exact h.of_no_transfer rfl rfl nofun nofun
  · next hb => exact ⟨h.1, fun _ => List.length_pos_iff.mpr hb, nofun⟩

theorem keepsDriveForm_attach {carrier : Carrier} (hc : carrier ≠ .none) (image : Nat) (wp : Bool) :
    KeepsDriveForm (attach carrier image wp) :=
  fun _ ⟨_, hin, hout⟩ => ⟨by simp [attach, hc], hin, hout⟩

theorem keepsDriveForm_detach : KeepsDriveForm detach := fun _ ⟨_, hin, hout⟩ => ⟨by simp [detach], hin, hout⟩

theorem keepsDriveForm_setFeatures (b : Byte) : KeepsDriveForm fun d => { d with features := b } := fun _ h => h

theorem keepsDriveForm_setHead (lba : Bool) (head : BitVec 4) :
    KeepsDriveForm fun d => { d with head := head, lba := lba } := fun _ h => h

theorem keepsDriveForm_setParam (o : ParamReg) (b : Byte) : KeepsDriveForm (setParam o b) := by
  intro d h
  cases o <;> exact h

/-- A command starts with an empty buffer, so whatever its plan the transfer is not at its end (R280). -/
theorem keepsDriveForm_startPlan (plan : Plan) :
    KeepsDriveForm fun d => { clearForCommand d with phase := (planPhase plan).1 } := by
  intro d h
  match plan with
  | .abort | .done _ | .dataIn _ _ | .dataOut 0 _ => exact h.of_no_transfer rfl rfl nofun nofun
  | .dataOut (n + 1) tag =>
    refine ⟨h.1, nofun, fun m tag' hp => ?_⟩
    cases hp
    exact Nat.succ_pos n

/-- The bytes taken from a buffer never lead past its end (R281). -/
theorem takeBytes_le (n : Nat) (buffer : List Byte) (pos : Nat) (h : pos ≤ buffer.length) :
    (takeBytes n buffer pos).2 ≤ buffer.length := by
  induction n generalizing pos with
  | zero => exact h
  | succ n ih =>
    unfold takeBytes
    split
    · next hb => exact ih _ (List.getElem?_eq_some_iff.mp hb).1
    · exact ih _ h

theorem driveOk_advanceTransfer {d : Drive} (h : DriveOk d) (hp : d.phase = .dataIn) (n : Nat) :
    DriveOk (advanceTransfer (takeBytes n d.buffer d.bufPos).2 d) := by
  obtain ⟨htype, hin, hout⟩ := h
  have hle := takeBytes_le n d.buffer d.bufPos (hin hp).le
  unfold advanceTransfer
  split
  · exact ⟨htype, nofun, nofun⟩
  · exact ⟨htype, fun _ => by simp only; omega, hout⟩

/-! ### The walk over an ATA channel's operations -/

/-- A property kept by every device operation, by every change of a channel that respects `ChannelStep`, by a new hidden
state and by a log entry. -/
structure KeepsChannels (Inv : State → Prop) : Prop where
  devOp : ∀ op s, Inv s → Inv (runDevOp params op s).1
  channel : ∀ ch f s, ChannelStep (chan s ch) (f (chan s ch)) → Inv s → Inv (modChan ch f s)
  world : ∀ w s, Inv s → Inv { s with world := w }
  log : ∀ d s, Inv s → Inv (logged d s)

variable {Inv : State → Prop}

namespace KeepsChannels

theorem drive (h : KeepsChannels Inv) (ch : Nat) (k : Fin 2) (f : Drive → Drive) (s : State)
    (hf : DriveOk (driveOf (chan s ch) k) → DriveOk (f (driveOf (chan s ch) k))) (hs : Inv s) :
    Inv (modDrive ch k f s) := h.channel ch _ s (channelStep_onDrive hf) hs

theorem drives (h : KeepsChannels Inv) (ch : Nat) {f : Drive → Drive} (hf : KeepsDriveForm f) (s : State) (hs : Inv s) :
    Inv (modChan ch (onBothDrives f) s) := h.channel ch _ s (channelStep_onBothDrives hf _) hs

theorem devProg {α : Type} (h : KeepsChannels Inv) (p : DevProg α) (s : State) (hs : Inv s) :
    Inv (runDevProg params p s).2 := runDevProg_keeps h.devOp h.world p s hs

theorem raiseIrq (h : KeepsChannels Inv) (ch : Nat) (s : State) (hs : Inv s) : Inv (Machine.raiseIrq params ch s) := by
  unfold Machine.raiseIrq
  split
  · next hr =>
    have hline : 0 ≤ (chan s ch).irqNumber := by
      rw [Bool.and_eq_true, decide_eq_true_iff] at hr
      exact hr.2
    have hchan : chan (assertIRQ params (irqLine (chan s ch)) s).1 ch = chan s ch := by rw [assertIRQ_eq]; rfl
    refine h.channel _ _ _ (channelStep_raised ?_) (h.devOp (.assertIRQ _) s hs)
    rwa [hchan]
  · exact hs

theorem lowerIrq (h : KeepsChannels Inv) (ch : Nat) (s : State) (hs : Inv s) : Inv (Machine.lowerIrq params ch s) := by
  unfold Machine.lowerIrq
  split
  · exact h.channel _ _ _ (channelStep_lowered _) (h.devOp (.clearIRQ _) s hs)
  · exact hs

theorem parkTimer (h : KeepsChannels Inv) (ch : Nat) (s : State) (hs : Inv s) : Inv (Machine.parkTimer ch s) :=
  h.devOp (.setTimerActiveState (.ata ch) false) s hs

theorem armTimer (h : KeepsChannels Inv) (ch : Nat) (s : State) (hs : Inv s) : Inv (Machine.armTimer params ch s) :=
  h.devOp (.setTimerActiveState (.ata ch) true) _ (h.devOp (.resetTimer (.ata ch) params.ataCmdDelayUs) s hs)

theorem setSelectedDriveIndex (h : KeepsChannels Inv) (ch k : Nat) (s : State) (hs : Inv s) :
    Inv (Machine.setSelectedDriveIndex ch k s).1 := by
  unfold Machine.setSelectedDriveIndex
  split
  · split
    · exact h.channel _ _ _ ⟨rfl, id⟩ hs
    · exact h.log _ _ hs
  · exact h.log _ _ hs

theorem ataInsert (h : KeepsChannels Inv) (sel : DriveSel) (carrier : Carrier) (image : Nat) (wp : Bool) (s : State)
    (hs : Inv s) : Inv (Machine.ataInsert params sel carrier image wp s).1 := by
  unfold Machine.ataInsert
  split
  · exact h.log _ _ hs
  · split
    · exact h.log _ _ hs
    · next hc =>
      split
      · exact h.log _ _ hs
      · split
        · exact h.log _ _ hs
        · split
          · exact h.log _ _ hs
          · exact h.drive _ _ _ _ (keepsDriveForm_attach hc image wp _) hs

theorem ataEject (h : KeepsChannels Inv) (sel : DriveSel) (s : State) (hs : Inv s) :
    Inv (Machine.ataEject params sel s).1 := by
  unfold Machine.ataEject
  split
  · exact h.log _ _ hs
  · split
    · exact h.log _ _ hs
    · split
      · exact h.log _ _ hs
      · exact h.drive _ _ _ _ (keepsDriveForm_detach _) hs

theorem completeDrive (h : KeepsChannels Inv) (ch : Nat) (k : Fin 2) (s : State) (hs : Inv s) :
    Inv (Machine.completeDrive params ch k s).1 := by
  unfold Machine.completeDrive
  split
  · exact h.drive _ _ _ _ (keepsDriveForm_abort _) hs
  · exact h.drive _ _ _ _ (keepsDriveForm_done _ _) hs
  · exact h.drive _ _ _ _ (keepsDriveForm_dataIn _ _ _) hs
  · exact h.drive _ _ _ _ (keepsDriveForm_finish _ _) (h.world _ _ hs)
  · exact hs

theorem ataUpdate (h : KeepsChannels Inv) (ch : Nat) (s : State) (hs : Inv s) :
    Inv (Machine.ataUpdate params ch s) := by
  have hdone := h.completeDrive ch 1 _ (h.completeDrive ch 0 s hs)
  unfold Machine.ataUpdate
  dsimp only
  split
  · exact h.raiseIrq _ _ hdone
  · exact hdone

/-- A command started on a drive just cleared for it: between the two writes a data phase may have no buffer. -/
theorem startCommand (h : KeepsChannels Inv) (ch : Nat) (k : Fin 2) (b : Byte) (s : State) (hs : Inv s) :
    Inv (Machine.startCommand params ch k b (modDrive ch k clearForCommand s)) := by
  have fused : ∀ (plan : Plan) (w : Nat),
      Inv (modDrive ch k (fun d => { d with phase := (planPhase plan).1 })
        { modDrive ch k clearForCommand s with world := w }) := by
    intro plan w
    have e : modDrive ch k (fun d => { d with phase := (planPhase plan).1 })
        { modDrive ch k clearForCommand s with world := w } =
          modDrive ch k (fun d => { clearForCommand d with phase := (planPhase plan).1 }) { s with world := w } := by
      refine (modChan_modChan ch _ _ { s with world := w }).trans ?_
      exact congrArg (modChan ch · _) (funext (onDrive_onDrive k _ _))
    rw [e]
    exact h.drive _ _ _ _ (keepsDriveForm_startPlan plan _) (h.world w s hs)
  unfold Machine.startCommand startPlan
  dsimp only
  split
  · exact h.armTimer _ _ (fused _ _)
  · exact fused _ _

theorem writeCommand (h : KeepsChannels Inv) (ch : Nat) (b : Byte) (s : State) (hs : Inv s) :
    Inv (Machine.writeCommand params ch b s) := by
  unfold Machine.writeCommand
  dsimp only
  split
  · exact hs
  · exact h.startCommand _ _ _ _ (h.lowerIrq _ _ hs)

theorem readDataReg (h : KeepsChannels Inv) (ch : Nat) (w : Width) (s : State) (hs : Inv s) :
    Inv (Machine.readDataReg ch w s).2 := by
  unfold Machine.readDataReg
  dsimp only
  split
  · exact hs
  · next hphase =>
    obtain ⟨-, hphase⟩ := not_or.mp hphase
    exact h.drive _ _ _ _ (fun hd => driveOk_advanceTransfer hd (not_ne_iff.mp hphase) _) hs

theorem writeDataReg (h : KeepsChannels Inv) (ch : Nat) (w : Width) (v : Long) (s : State) (hs : Inv s) :
    Inv (Machine.writeDataReg params ch w v s) := by
  unfold Machine.writeDataReg
  dsimp only
  split
  · exact hs
  · split
    · next n tag hphase =>
      split
      · exact h.armTimer _ _ (h.drive _ _ _ _ (fun hd => hd.of_no_transfer rfl rfl nofun nofun) hs)
      · next hlen =>
        refine h.drive _ _ _ _ (fun ⟨htype, hin, hout⟩ => ⟨htype, fun hp => ?_, fun m tag' hp => ?_⟩) hs
        · exact nomatch hphase.symm.trans hp
        · have hroom := hout n tag hphase
          cases hphase.symm.trans hp
          rw [List.length_append, List.length_take] at hlen
          simp only [selectedDrive, List.length_append, List.length_take] at hlen ⊢
          omega
    · exact hs

theorem writeBoth (h : KeepsChannels Inv) (ch : Nat) {f : Drive → Drive} (hf : KeepsDriveForm f) (s : State)
    (hs : Inv s) : Inv (Machine.writeBoth ch f s) := by
  unfold Machine.writeBoth
  split
  · exact hs
  · exact h.drives ch hf s hs

theorem writeDrvHead (h : KeepsChannels Inv) (ch : Nat) (lba drv : Bool) (head : BitVec 4) (s : State) (hs : Inv s) :
    Inv (Machine.writeDrvHead ch lba drv head s) := by
  unfold Machine.writeDrvHead
  split
  · exact hs
  · exact h.setSelectedDriveIndex _ _ _ (h.drives ch (keepsDriveForm_setHead lba head) s hs)

theorem writeNIEN (h : KeepsChannels Inv) (ch : Nat) (nien : Bool) (s : State) (hs : Inv s) :
    Inv (Machine.writeNIEN params ch nien s) := by
  have hset := h.channel ch (fun c => { c with nIEN := nien }) s ⟨rfl, id⟩ hs
  unfold Machine.writeNIEN
  dsimp only
  split
  · exact h.lowerIrq _ _ hset
  · exact hset

theorem writeSRST (h : KeepsChannels Inv) (ch : Nat) (srst : Bool) (s : State) (hs : Inv s) :
    Inv (Machine.writeSRST params ch srst s) := by
  unfold Machine.writeSRST
  split
  · exact h.drives ch keepsDriveForm_drop _ (h.parkTimer _ _ (h.lowerIrq _ _ (h.channel _ _ _ ⟨rfl, id⟩ hs)))
  · split
    · exact h.channel _ _ _ (channelStep_onBothDrives keepsDriveForm_reset _) hs
    · exact hs

theorem writeDevCtl (h : KeepsChannels Inv) (ch : Nat) (srst nien : Bool) (s : State) (hs : Inv s) :
    Inv (Machine.writeDevCtl params ch srst nien s) := h.writeSRST _ _ _ (h.writeNIEN _ _ _ hs)

theorem ataPortRead (h : KeepsChannels Inv) (ch : Nat) (a : Half) (w : Width) (s : State) (hs : Inv s) :
    Inv (Machine.ataPortRead params ch a w s).2 := by
  unfold Machine.ataPortRead
  split
  · exact h.readDataReg _ _ _ hs
  · exact hs
  · exact hs
  · exact hs
  · exact h.lowerIrq _ _ hs
  · exact hs
  · exact hs
  · exact hs

theorem ataPortWrite (h : KeepsChannels Inv) (ch : Nat) (a : Half) (w : Width) (v : Long) (s : State) (hs : Inv s) :
    Inv (Machine.ataPortWrite params ch a w v s) := by
  unfold Machine.ataPortWrite
  split
  · exact h.writeDataReg _ _ _ _ hs
  · exact h.writeBoth _ (keepsDriveForm_setFeatures _) _ hs
  · exact h.writeBoth _ (keepsDriveForm_setParam _ _) _ hs
  · exact h.writeDrvHead _ _ _ _ _ hs
  · exact h.writeCommand _ _ _ hs
  · exact h.writeDevCtl _ _ _ _ hs
  · exact hs
  · exact hs

theorem updateDevice (h : KeepsChannels Inv) (d : Device) (s : State) (hs : Inv s) :
    Inv (Machine.updateDevice params d s) := by
  cases d with
  | ata ch =>
    unfold Machine.updateDevice
    dsimp only
    split
    · exact h.ataUpdate _ _ hs
    · exact hs
  | pic => exact h.devProg _ _ hs
  | ext n => exact h.devProg _ _ hs

end KeepsChannels

end Sys2Proof.Machine
end

section
/-! SUPPORT. The shared operations of the whole block under one roof: what a property must survive for every operation
made of them alone to keep it, and which few operations are made of something else. -/

namespace Sys2Proof.Machine

open Sys2Proof.Config (params)

/-! ### Level sensing (R34 (c)) -/

theorem levelFollows_inputRaise (l : Fin 8) {p : Pic} (h : LevelFollows p) : LevelFollows (inputRaise l p) := by
  intro hl
  have hlevel : p.levelTriggered = true := (sameButInputs_inputRaise l p).levelTriggered_eq ▸ hl
  refine eq_of_lineBit fun k => ?_
  rw [lineBit_inputRaise_irr, lineBit_inputRaise_pin, h hlevel]
  simp [hlevel]

theorem levelFollows_inputLower (l : Fin 8) {p : Pic} (h : LevelFollows p) : LevelFollows (inputLower l p) := by
  intro hl
  have hlevel : p.levelTriggered = true := (sameButInputs_inputLower l p).levelTriggered_eq ▸ hl
  refine eq_of_lineBit fun k => ?_
  rw [lineBit_inputLower_irr, lineBit_inputLower_pin, h hlevel]
  simp [hlevel]

theorem levelFollows_followSlave (P : Params) (lvl : Bool) {m : Pic} (h : LevelFollows m) :
    LevelFollows (followSlave P lvl m) := by
  unfold followSlave
  split
  · exact levelFollows_inputRaise _ h
  · split
    · exact levelFollows_inputLower _ h
    · exact h

/-- An acknowledged line keeps its request exactly where a level holds it. -/
theorem levelFollows_takeLine (l : Fin 8) {p : Pic} (h : LevelFollows p) : LevelFollows (takeLine l p) := by
  obtain ⟨hsame, -, hirr⟩ := lineTaken_takeLine l p
  have hpin : (takeLine l p).pin = p.pin := by rw [hsame]
  have htrig : (takeLine l p).levelTriggered = p.levelTriggered := by rw [hsame]
  intro hl
  rw [htrig] at hl
  refine eq_of_lineBit fun k => ?_
  rw [hirr, hpin, h hl, hl, Bool.true_and]
  split
  · next hk => rw [hk]
  · rfl

theorem levelFollows_endLine (l : Fin 8) (rotate : Bool) {p : Pic} (h : LevelFollows p) :
    LevelFollows (endLine l rotate p) := h

theorem levelFollows_applyICW1 (ltim sngl ic4 : Bool) (p : Pic) : LevelFollows (applyICW1 ltim sngl ic4 p) :=
  fun hl => if_pos hl

theorem levelFollows_applyData (b : Byte) {p : Pic} (h : LevelFollows p) : LevelFollows (applyData b p) := by
  unfold applyData
  split <;> exact h

theorem levelFollows_picResetOf (p : Pic) : LevelFollows (picResetOf p) := fun _ => rfl

/-! ### Invariants of the shared operations -/

/-- A property kept by each shared operation: those of the ATA channels, a controller changed and settled with its level
sensing intact, an acknowledge, a reset of the pair, a visited timer slot, a result and the Clock's own two fields. -/
structure KeepsOps (Inv : State → Prop) : Prop extends KeepsChannels Inv where
  settled : ∀ c q s, (LevelFollows (picOf s c) → LevelFollows q) → Inv s → Inv (settle params (setPic c q s))
  acknowledge : ∀ s, Inv s → Inv (Machine.acknowledge params s).2
  resetPics : ∀ s, Inv s → Inv { s with picM := picResetOf s.picM, picS := picResetOf s.picS }
  pulseSlot : ∀ i s, Inv s → Inv (Machine.pulseSlot params i s)
  result : ∀ r s, Inv s → Inv { s with result := r }
  clock : ∀ n on s, Inv s → Inv { s with clk := { s.clk with pendingRtPulses := n, running := on } }

/-- A timer slot changed without a new owner or kind. -/
def SameClient (f : Timer → Timer) : Prop := ∀ x, (f x).owner = x.owner ∧ (f x).continuous = x.continuous

theorem sameClient_rearm : SameClient rearm := by
  intro x
  unfold rearm
  split <;> exact ⟨rfl, rfl⟩

theorem sameClient_setActive (on : Bool) : SameClient (setActive on) := fun _ => ⟨rfl, rfl⟩

variable {Inv : State → Prop}

/-- A visited slot is changed twice at most, with an update callback between. -/
theorem KeepsChannels.pulseSlot (h : KeepsChannels Inv)
    (timer : ∀ i f s, SameClient f → Inv s → Inv (modTimer i f s)) (i : Nat) (s : State) (hs : Inv s) :
    Inv (Machine.pulseSlot params i s) := by
  unfold Machine.pulseSlot
  split
  · exact hs
  · split
    · exact hs
    · have htick := timer i (fun t => { t with countdown := t.countdown - 1 }) s (fun _ => ⟨rfl, rfl⟩) hs
      dsimp only
      split
      · exact timer i rearm _ sameClient_rearm (h.updateDevice _ _ htick)
      · exact htick

/-- A property that does not read the controllers is kept by all that only changes them. -/
theorem KeepsChannels.ops (h : KeepsChannels Inv) (pics : ∀ m p s, Inv s → Inv { s with picM := m, picS := p })
    (pulseSlot : ∀ i s, Inv s → Inv (Machine.pulseSlot params i s)) (result : ∀ r s, Inv s → Inv { s with result := r })
    (clock : ∀ n on s, Inv s → Inv { s with clk := { s.clk with pendingRtPulses := n, running := on } }) :
    KeepsOps Inv :=
  { h with
    settled := fun c q s _ hs => by
      rw [settle_setPic_eq]
      exact pics _ _ s hs
    acknowledge := fun s hs => by
      rw [acknowledge_eq]
      exact pics _ _ s hs
    resetPics := fun s hs => pics _ _ s hs
    pulseSlot := pulseSlot
    result := result
    clock := clock }

namespace KeepsOps

theorem command (h : KeepsOps Inv) (c : Ctrl) (f : Pic → Pic) (hf : ∀ p, LevelFollows p → LevelFollows (f p))
    (s : State) (hs : Inv s) : Inv (picCommand params c f s) := h.settled c _ s (hf _) hs

theorem endOfInterrupt (h : KeepsOps Inv) (c : Ctrl) (line : Option (Fin 8)) (rotate : Bool) (s : State) (hs : Inv s) :
    Inv (Machine.endOfInterrupt params c line rotate s) := by
  unfold Machine.endOfInterrupt
  split
  · exact h.settled c _ s (levelFollows_endLine _ rotate) hs
  · split
    · exact hs
    · exact h.settled c _ s (levelFollows_endLine _ rotate) hs

theorem writeData (h : KeepsOps Inv) (c : Ctrl) (b : Byte) (s : State) (hs : Inv s) :
    Inv (Machine.writeData params c b s) := h.command c (applyData b) (fun _ => levelFollows_applyData b) s hs

theorem icw1 (h : KeepsOps Inv) (c : Ctrl) (ltim sngl ic4 : Bool) (s : State) (hs : Inv s) :
    Inv (picCommand params c (applyICW1 ltim sngl ic4) s) :=
  h.command c _ (fun p _ => levelFollows_applyICW1 ltim sngl ic4 p) s hs

theorem rotateAuto (h : KeepsOps Inv) (c : Ctrl) (on : Bool) (s : State) (hs : Inv s) :
    Inv (picCommand params c (setRotateOnAutoEOI on) s) := h.command c (setRotateOnAutoEOI on) (fun _ hp => hp) s hs

theorem lowest (h : KeepsOps Inv) (c : Ctrl) (l : Fin 8) (s : State) (hs : Inv s) :
    Inv (picCommand params c (setLowestPriority l) s) := h.command c (setLowestPriority l) (fun _ hp => hp) s hs

theorem ocw3 (h : KeepsOps Inv) (c : Ctrl) (esmm smm p rr ris : Bool) (s : State) (hs : Inv s) :
    Inv (picCommand params c (applyOCW3 esmm smm p rr ris) s) :=
  h.command c (applyOCW3 esmm smm p rr ris) (fun _ hp => hp) s hs

theorem noop (h : KeepsOps Inv) (c : Ctrl) (s : State) (hs : Inv s) : Inv (picCommand params c id s) :=
  h.command c id (fun _ hp => hp) s hs

theorem picWrite (h : KeepsOps Inv) (port : PicPort) (b : Byte) (s : State) (hs : Inv s) :
    Inv (picPortWrite params port b s) := by
  cases port with
  | data c => exact h.writeData c b s hs
  | cmd c =>
    unfold picPortWrite writeCmd performCmd
    dsimp only
    split
    · exact h.icw1 _ _ _ _ s hs
    · exact h.endOfInterrupt _ _ _ s hs
    · exact h.rotateAuto _ _ s hs
    · exact h.rotateAuto _ _ s hs
    · exact h.lowest _ _ s hs
    · exact h.ocw3 _ _ _ _ _ _ s hs
    · exact h.noop _ s hs
    · exact hs

theorem pollRead (h : KeepsOps Inv) (c : Ctrl) (s : State) (hs : Inv s) : Inv (Machine.pollRead params c s).2 := by
  unfold Machine.pollRead
  dsimp only
  split
  · exact h.settled c _ s id hs
  · exact h.settled c _ s (fun hl => levelFollows_takeLine _ (p := { picOf s c with polled := false }) hl) hs

theorem picRead (h : KeepsOps Inv) (port : PicPort) (s : State) (hs : Inv s) : Inv (picPortRead params port s).2 := by
  cases port with
  | cmd c =>
    unfold picPortRead readCmd
    dsimp only
    split
    · exact h.pollRead c s hs
    · exact hs
  | data c =>
    unfold picPortRead readData
    dsimp only
    split
    · exact h.pollRead c s hs
    · exact hs

theorem picReset (h : KeepsOps Inv) (s : State) (hs : Inv s) : Inv (Machine.picReset params s) := by
  unfold Machine.picReset registerPorts
  exact List.foldlRecOn _ _ (h.resetPics s hs) fun u hu a _ => h.devOp (.registerPort a .pic .rw) u hu

theorem access (h : KeepsOps Inv) : KeepsAccess params Inv where
  devOp := h.devOp
  world := h.world
  log := h.log
  picRead := h.picRead
  picWrite := h.picWrite
  ataRead := h.ataPortRead
  ataWrite := h.ataPortWrite
  pulseSlot := h.pulseSlot

theorem signalPulse (h : KeepsOps Inv) (s : State) (hs : Inv s) : Inv (Machine.signalPulse params s) := by
  unfold Machine.signalPulse
  split
  · exact h.clock (s.clk.pendingRtPulses + 1) s.clk.running s hs
  · exact hs

/-- What `CPU.step` needs besides the shared operations: registers, counter and guest memory. -/
theorem keeps (h : KeepsOps Inv) (regs : ∀ x s, Inv s → Inv (setRegs x s))
    (memory : ∀ m s, (Memory.wf s.mem = true → Memory.wf m = true) → Inv s → Inv { s with mem := m })
    (count : ∀ s, Inv s → Inv (countInstruction s)) : Keeps params Inv :=
  { h.access with
    regs := regs
    memory := memory
    acknowledge := h.acknowledge
    takePending := fun s hs => h.clock 0 s.clk.running s hs
    count := count }

theorem parts (h : KeepsOps Inv) (channel : ∀ ch f s, Inv s → Inv (modChan ch f s)) : KeepsParts params Inv :=
  { h with channel := channel }

/-- What every operation but `CPU.step` needs besides the shared operations, of a property that reads no channel. -/
theorem keepsExec (h : KeepsOps Inv) (channel : ∀ ch f s, Inv s → Inv (modChan ch f s))
    (cpu : ∀ x s, Inv s → Inv { s with cpu := x }) (inbox : ∀ l s, Inv s → Inv { s with inbox := l })
    (rom : ∀ bytes s, bytes.length = params.biosSize → Inv s → Inv { s with rom := some bytes }) : KeepsExec Inv where
  part := h.access
  regs _ s hs := cpu _ s hs
  acknowledge := h.acknowledge
  result := h.result
  inbox := inbox
  endOfInterrupt := h.endOfInterrupt
  icw1 := h.icw1
  rotateAuto := h.rotateAuto
  lowest := h.lowest
  ocw3 := h.ocw3
  noop := h.noop
  picReset := h.picReset
  ataReset := (h.parts channel).ataReset
  select := h.setSelectedDriveIndex
  insert := h.ataInsert
  eject := h.ataEject
  update := h.ataUpdate
  rdData := h.readDataReg
  wrData := h.writeDataReg
  features ch b := h.writeBoth ch (keepsDriveForm_setFeatures b)
  param ch o b := h.writeBoth ch (keepsDriveForm_setParam o b)
  drvHead := h.writeDrvHead
  status := h.lowerIrq
  command := h.writeCommand
  devCtl := h.writeDevCtl
  signal := h.signalPulse
  clockRunning on s hs := h.clock s.clk.pendingRtPulses on s hs
  cpuRunning _ s hs := cpu _ s hs
  cpuReset s hs := cpu _ s hs
  rom := rom

end KeepsOps

/-- A property that reads neither channels nor the CPU and that the shared operations keep is kept by every step. -/
theorem step_keeps_ops (h : KeepsOps Inv) (channel : ∀ ch f s, Inv s → Inv (modChan ch f s))
    (cpu : ∀ x s, Inv s → Inv { s with cpu := x }) (inbox : ∀ l s, Inv s → Inv { s with inbox := l })
    (rom : ∀ bytes s, bytes.length = params.biosSize → Inv s → Inv { s with rom := some bytes })
    (memory : ∀ m s, (Memory.wf s.mem = true → Memory.wf m = true) → Inv s → Inv { s with mem := m })
    {s t : State} (hs : Inv s) (ht : step s = .next t) : Inv t :=
  step_keeps (h.keepsExec channel cpu inbox rom)
    (h.keeps (fun _ s hs => cpu _ s hs) memory (fun s hs => cpu _ s hs)) hs ht

end Sys2Proof.Machine
end

section
/-! SUPPORT. The interrupt controllers over a whole step: level sensing and the cascade input (R34 (c), (d)),
`PIC.reset` (R36, R154), and the run of vector P11 (log entry 17). -/

namespace Sys2Proof.Machine

open Sys2Proof.Config (params)

/-- Settling repairs the cascade input, so only level sensing is to be checked before it (R146). -/
theorem picOk_settle {s : State} (hM : LevelFollows s.picM) (hS : LevelFollows s.picS) : PicOk (settle params s) :=
  ⟨levelFollows_followSlave _ _ hM, hS, cascadeFollows_settle s⟩

theorem picOk_settle_setPic (c : Ctrl) (q : Pic) (s : State) (hq : LevelFollows (picOf s c) → LevelFollows q)
    (hs : PicOk s) : PicOk (settle params (setPic c q s)) := by
  obtain ⟨hM, hS, -⟩ := hs
  cases c with
  | M => exact picOk_settle (hq hM) hS
  | S => exact picOk_settle hM (hq hS)

theorem picOk_assertIRQ (n : Nat) (s : State) (hs : PicOk s) : PicOk (assertIRQ params n s).1 := by
  unfold assertIRQ
  split
  · exact hs
  · exact picOk_settle_setPic _ _ _ (levelFollows_inputRaise _) hs

theorem picOk_clearIRQ (n : Nat) (s : State) (hs : PicOk s) : PicOk (clearIRQ params n s).1 := by
  unfold clearIRQ
  split
  · exact hs
  · exact picOk_settle_setPic _ _ _ (levelFollows_inputLower _) hs

theorem picOk_runDevOp (op : DevOp) (s : State) (hs : PicOk s) : PicOk (runDevOp params op s).1 := by
  cases op with
  | registerPort a d attr =>
    simp only [runDevOp]
    rw [registerPort_eq]
    exact hs
  | assertIRQ n => exact picOk_assertIRQ n s hs
  | clearIRQ n => exact picOk_clearIRQ n s hs
  | requestIRQNumber d =>
    simp only [runDevOp]
    rw [requestIRQNumber_eq]
    exact hs
  | freeIRQNumber d => exact List.foldlRecOn _ _ hs fun u hu n _ => picOk_clearIRQ n u hu
  | registerDevice d us k =>
    simp only [runDevOp]
    rw [registerDevice_eq]
    exact hs
  | resetTimer d us =>
    simp only [runDevOp]
    rw [resetTimer_eq]
    exact hs
  | setTimerActiveState d k =>
    simp only [runDevOp]
    rw [setTimerActiveState_eq]
    exact hs
  | setHoldRequest d k => exact hs

theorem levelFollows_ackSlave (s : State) (hS : LevelFollows s.picS) : LevelFollows (ackSlave s).2.picS := by
  unfold ackSlave
  split
  · exact hS
  · exact levelFollows_takeLine _ hS

theorem ackSlave_picM (s : State) : (ackSlave s).2.picM = s.picM := by
  unfold ackSlave
  split <;> rfl

theorem picOk_acknowledge (s : State) (hs : PicOk s) : PicOk (acknowledge params s).2 := by
  obtain ⟨hM, hS, -⟩ := hs
  have hack : LevelFollows (ackMaster params s).2.picM ∧ LevelFollows (ackMaster params s).2.picS := by
    unfold ackMaster
    split
    · exact ⟨hM, hS⟩
    · next l _ =>
      have htaken := levelFollows_takeLine l hM
      dsimp only
      split
      · refine ⟨levelFollows_inputLower _ ?_, levelFollows_ackSlave _ hS⟩
        rw [ackSlave_picM]
        exact htaken
      · exact ⟨htaken, hS⟩
  exact picOk_settle hack.1 hack.2

/-- A controller just reset has every line masked, so it requests nothing (R36, R144). -/
theorem intReq_picResetOf (p : Pic) : intReq (picResetOf p) = false := by
  have hmasked : ∀ l : Fin 8, lineBit (picResetOf p).imr l = true := (by decide : ∀ l : Fin 8, lineBit 0xFF l = true)
  rw [← Bool.not_eq_true, intReq_iff]
  rintro ⟨l, hl⟩
  rw [eligible_of_masked (hmasked l)] at hl
  cases hl

theorem picOk_reset (s : State) : PicOk { s with picM := picResetOf s.picM, picS := picResetOf s.picS } :=
  ⟨levelFollows_picResetOf _, levelFollows_picResetOf _, (lineBit_zero _).trans (intReq_picResetOf _).symm⟩

theorem picOk_channels : KeepsChannels PicOk where
  devOp := picOk_runDevOp
  channel _ _ _ _ hs := hs
  world _ _ hs := hs
  log _ _ hs := hs

theorem picOk_ops : KeepsOps PicOk :=
  { picOk_channels with
    settled := picOk_settle_setPic
    acknowledge := picOk_acknowledge
    resetPics := fun s _ => picOk_reset s
    pulseSlot := picOk_channels.pulseSlot fun _ _ _ _ hs => hs
    result := fun _ _ hs => hs
    clock := fun _ _ _ hs => hs }

/-- All that `PIC.reset` does: both controllers put to the reset table, and ports registered. -/
theorem picReset_eq (s : State) :
    picReset params s =
      { s with picM := picResetOf s.picM, picS := picResetOf s.picS, bus := (picReset params s).bus } := by
  unfold picReset
  rw [registerPorts_eq]

theorem portEntry_picReset (s : State) (a : Half) :
    portEntry (picReset params s) a =
      if a ∈ picPorts params then portAfter (portEntry s a) .pic .rw else portEntry s a :=
  portEntry_registerPorts (picPorts params) .pic _ a

theorem mem_picPorts (a : Half) : a ∈ picPorts params ↔ a = 0x20 ∨ a = 0x21 ∨ a = 0xA0 ∨ a = 0xA1 := by
  simp [picPorts]

end Sys2Proof.Machine

namespace Sys2Proof.Proofs

open Sys2Proof.Machine
open Sys2Proof.Config (params)

/-- Settles O53: every change of the pair ends in `settle`, or in a reset that masks the slave, and none before it
breaks level sensing. -/
theorem stepKeepsControllers : Obligations.StepKeepsControllers := fun _ _ hs ht =>
  step_keeps_ops picOk_ops (fun _ _ _ h => h) (fun _ _ h => h) (fun _ _ h => h) (fun _ _ _ h => h) (fun _ _ _ h => h)
    hs ht

/-- Settles O17: the controllers are those of `picResetOf`, the ports those that `registerPorts` has registered. -/
theorem picReset : Obligations.PicReset := by
  intro s
  have hreset := picReset_eq s
  have hports := portEntry_picReset s
  generalize hbus : (Machine.picReset params s).bus = bus at hreset
  rw [hreset] at hports
  refine ⟨{ s with picM := picResetOf s.picM, picS := picResetOf s.picS, bus := bus, result := success }, ?_, rfl, ?_,
    intReq_picResetOf _, intReq_picResetOf _, fun a => ?_⟩
  · exact congrArg (fun u => reply (u, success)) hreset
  · intro c
    cases c <;> rfl
  · have hport := hports a
    simp only [mem_picPorts] at hport
    exact hport

/-- Settles O23: the run ends with lines 3 and 5 of the master in service and both special modes off. -/
theorem specialMaskLeavesTwoInService : Obligations.SpecialMaskLeavesTwoInService := by
  refine ⟨_, rfl, rfl, rfl, fun hone => ?_⟩
  exact absurd (hone 3 5 rfl rfl) (by decide)

end Sys2Proof.Proofs
end

section
/-! SUPPORT. The timer table over a whole step (R38, R40). Inside a pulse a slot that has run out stands active at zero
until its owner has been updated, so the table is followed with one slot excepted. -/

namespace Sys2Proof.Machine

open Sys2Proof.Config (params)

/-- A slot in use, but that an active one may stand at zero where it is due (R39, R40, R214). -/
def SlotOk (due : Prop) (x : Timer) : Prop :=
  1 ≤ x.interval ∧ x.countdown ≤ x.interval ∧ (x.active = true → due ∨ 1 ≤ x.countdown)

/-- The timer table, with the slots that a pulse has found due. -/
def TimersOkBut (due : Nat → Prop) (s : State) : Prop :=
  s.clk.timers.length ≤ params.maxTimers ∧ ∀ j x, s.clk.timers[j]? = some x → SlotOk (due j) x

theorem timersOk_iff (s : State) : TimersOk s ↔ TimersOkBut (fun _ => False) s := by
  unfold TimersOk TimersOkBut TimerOk SlotOk
  refine and_congr_right fun _ => ⟨fun h j x hx => ?_, fun h x hx => ?_⟩
  · obtain ⟨hinterval, hcount, hactive⟩ := h x (List.mem_of_getElem? hx)
    exact ⟨hinterval, hcount, fun ha => .inr (hactive ha)⟩
  · obtain ⟨j, hj⟩ := List.mem_iff_getElem?.mp hx
    obtain ⟨hinterval, hcount, hactive⟩ := h j x hj
    exact ⟨hinterval, hcount, fun ha => (hactive ha).resolve_left id⟩

/-- A slot changed, and then no longer or newly due. -/
theorem timersOkBut_modTimer {due due' : Nat → Prop} {i : Nat} {f : Timer → Timer} {s : State} (hs : TimersOkBut due s)
    (hother : ∀ j, j ≠ i → due j → due' j)
    (hf : ∀ x, s.clk.timers[i]? = some x → SlotOk (due i) x → SlotOk (due' i) (f x)) :
    TimersOkBut due' (modTimer i f s) := by
  obtain ⟨hlen, hslots⟩ := hs
  refine ⟨(modifyAt_length _ _ _).le.trans hlen, fun j x hx => ?_⟩
  rw [modTimer_getElem?] at hx
  split at hx
  · next hji =>
    subst hji
    obtain ⟨y, hy, rfl⟩ := Option.map_eq_some_iff.mp hx
    exact hf y hy (hslots j y hy)
  · next hji =>
    obtain ⟨hinterval, hcount, hactive⟩ := hslots j x hx
    exact ⟨hinterval, hcount, fun ha => (hactive ha).imp_left (hother j hji)⟩

/-- An interval is at least one pulse long (R212). -/
theorem one_le_pulsesOf (P : Params) (us : Nat) (s : State) : 1 ≤ pulsesOf P us s := by
  unfold pulsesOf toPulses
  split <;> exact Nat.le_max_left _ _

theorem slotOk_full {due : Prop} {x : Timer} (hinterval : 1 ≤ x.interval) (h : x.countdown = x.interval) :
    SlotOk due x := ⟨hinterval, h.le, fun _ => .inr (h ▸ hinterval)⟩

theorem slotOk_setActive {due : Prop} {x : Timer} (on : Bool) (h : SlotOk due x) : SlotOk due (setActive on x) := by
  obtain ⟨hinterval, hcount, -⟩ := h
  by_cases hreload : (on && x.countdown == 0) = true
  · exact slotOk_full hinterval (if_pos hreload)
  · refine ⟨hinterval, (if_neg hreload).trans_le hcount, fun hon => .inr ?_⟩
    have hzero : x.countdown ≠ 0 := by simpa [show on = true from hon] using hreload
    exact Nat.one_le_iff_ne_zero.mpr ((if_neg hreload).trans_ne hzero)

/-- A slot re-armed or made inactive is due no more. -/
theorem slotOk_rearm {due due' : Prop} {x : Timer} (h : SlotOk due x) : SlotOk due' (rearm x) := by
  obtain ⟨hinterval, hcount, -⟩ := h
  unfold rearm
  split
  · exact slotOk_full hinterval rfl
  · exact ⟨hinterval, hcount, nofun⟩

variable {due : Nat → Prop}

theorem timersOkBut_registerDevice (d : Device) (us : Nat) (k : Bool) (s : State) (hs : TimersOkBut due s) :
    TimersOkBut due (registerDevice params d us k s).1 := by
  unfold registerDevice
  split
  · exact hs
  · next hfree =>
    obtain ⟨-, hslots⟩ := hs
    refine ⟨?_, fun j x hx => ?_⟩
    · simp only [setTimers_timers, List.length_append, List.length_singleton]
      omega
    · rw [setTimers_timers, List.getElem?_append] at hx
      split at hx
      · exact hslots j x hx
      · obtain rfl := List.mem_singleton.mp (List.mem_of_getElem? hx)
        exact slotOk_full (one_le_pulsesOf _ _ _) rfl

theorem timersOkBut_runDevOp (op : DevOp) (s : State) (hs : TimersOkBut due s) :
    TimersOkBut due (runDevOp params op s).1 := by
  cases op with
  | registerPort a d attr =>
    simp only [runDevOp]
    rw [registerPort_eq]
    exact hs
  | assertIRQ n =>
    simp only [runDevOp]
    rw [assertIRQ_eq]
    exact hs
  | clearIRQ n =>
    simp only [runDevOp]
    rw [clearIRQ_eq]
    exact hs
  | requestIRQNumber d =>
    simp only [runDevOp]
    rw [requestIRQNumber_eq]
    exact hs
  | freeIRQNumber d =>
    refine List.foldlRecOn _ _ hs fun u hu n _ => ?_
    rw [releaseLine_eq]
    exact hu
  | registerDevice d us k => exact timersOkBut_registerDevice d us k s hs
  | resetTimer d us =>
    simp only [runDevOp, resetTimer]
    split
    · exact hs
    · exact timersOkBut_modTimer hs (fun _ _ => id) fun _ _ _ => slotOk_full (one_le_pulsesOf _ _ _) rfl
  | setTimerActiveState d k =>
    simp only [runDevOp, setTimerActiveState]
    split
    · exact hs
    · exact timersOkBut_modTimer hs (fun _ _ => id) fun _ _ => slotOk_setActive k
  | setHoldRequest d k => exact hs

theorem timersOkBut_channels (due : Nat → Prop) : KeepsChannels (TimersOkBut due) where
  devOp := timersOkBut_runDevOp
  channel _ _ _ _ hs := hs
  world _ _ hs := hs
  log _ _ hs := hs

/-- A slot visited by a pulse: while its owner is updated it alone is due. -/
theorem timersOkBut_pulseSlot (i : Nat) (s : State) (hs : TimersOkBut (fun _ => False) s) :
    TimersOkBut (fun _ => False) (pulseSlot params i s) := by
  unfold pulseSlot
  split
  · exact hs
  · next t ht =>
    split
    · exact hs
    · dsimp only
      split
      · have hdue : TimersOkBut (· = i) (modTimer i (fun t => { t with countdown := t.countdown - 1 }) s) :=
          timersOkBut_modTimer hs (fun _ _ => False.elim) fun x _ ⟨hinterval, hcount, _⟩ =>
            ⟨hinterval, (Nat.sub_le _ _).trans hcount, fun _ => .inl rfl⟩
        exact timersOkBut_modTimer ((timersOkBut_channels _).updateDevice _ _ hdue) (fun _ hne h => hne h)
          fun _ _ => slotOk_rearm
      · next hrunning =>
        refine timersOkBut_modTimer hs (fun _ _ => id) fun x hx ⟨hinterval, hcount, _⟩ => ?_
        obtain rfl : t = x := Option.some.inj (ht.symm.trans hx)
        exact ⟨hinterval, (Nat.sub_le _ _).trans hcount, fun _ => .inr (Nat.one_le_iff_ne_zero.mpr hrunning)⟩

theorem timersOkBut_ops : KeepsOps (TimersOkBut fun _ => False) :=
  (timersOkBut_channels _).ops (fun _ _ _ hs => hs) timersOkBut_pulseSlot (fun _ _ hs => hs) (fun _ _ _ hs => hs)

end Sys2Proof.Machine

namespace Sys2Proof.Proofs

open Sys2Proof.Machine

/-- Settles O54: the table is kept with the visited slot excepted until it is re-armed or made inactive. -/
theorem stepKeepsTimers : Obligations.StepKeepsTimers := by
  intro s t hs ht
  rw [timersOk_iff] at hs ⊢
  exact step_keeps_ops timersOkBut_ops (fun _ _ _ h => h) (fun _ _ h => h) (fun _ _ h => h) (fun _ _ _ h => h)
    (fun _ _ _ h => h) hs ht

end Sys2Proof.Proofs
end

section
/-! SUPPORT. Guest memory and the ROM image over a whole step (R62, R72), and what only grows: the log, the port map,
the timer table and the channels (R21, R23, R38). -/

namespace Sys2Proof.Machine

open Sys2Proof.Config (params)

/-! ### Forms -/

/-- Guest memory in its canonical form and the ROM image at its size. -/
def FormsOk (s : State) : Prop := Memory.wf s.mem = true ∧ RomOk s

theorem formsOk_channels : KeepsChannels FormsOk where
  devOp op s hs := by
    rw [runDevOp_eq]
    exact hs
  channel _ _ _ _ hs := hs
  world _ _ hs := hs
  log _ _ hs := hs

theorem formsOk_ops : KeepsOps FormsOk :=
  formsOk_channels.ops (fun _ _ _ hs => hs) (formsOk_channels.pulseSlot fun _ _ _ _ hs => hs) (fun _ _ hs => hs)
    (fun _ _ _ hs => hs)

theorem formsOk_rom (bytes : List Byte) (s : State) (hlen : bytes.length = params.biosSize) (hs : FormsOk s) :
    FormsOk { s with rom := some bytes } := by
  refine ⟨hs.1, fun image himage => ?_⟩
  cases himage
  exact hlen

/-! ### Growth -/

/-- Nothing of the log, the port map, the timer table or the channels of `s` is gone in `t`. -/
structure Grows (s t : State) : Prop where
  log : ∃ entries, t.log = s.log ++ entries
  ports : ∀ a, portEntry s a ≠ none → portEntry t a ≠ none
  slots : ∀ (i : Nat) (x : Timer), s.clk.timers[i]? = some x →
    ∃ y : Timer, t.clk.timers[i]? = some y ∧ y.owner = x.owner ∧ y.continuous = x.continuous
  channels : t.ata.length = s.ata.length

theorem Grows.refl (s : State) : Grows s s where
  log := ⟨[], (List.append_nil _).symm⟩
  ports _ h := h
  slots _ x hx := ⟨x, hx, rfl, rfl⟩
  channels := rfl

theorem Grows.trans {s u t : State} (h : Grows s u) (h' : Grows u t) : Grows s t where
  log := by
    obtain ⟨x, hx⟩ := h.log
    obtain ⟨y, hy⟩ := h'.log
    exact ⟨x ++ y, by rw [hy, hx, List.append_assoc]⟩
  ports a ha := h'.ports a (h.ports a ha)
  slots i x hx := by
    obtain ⟨y, hy, hyo, hyc⟩ := h.slots i x hx
    obtain ⟨z, hz, hzo, hzc⟩ := h'.slots i y hy
    exact ⟨z, hz, hzo.trans hyo, hzc.trans hyc⟩
  channels := h'.channels.trans h.channels

theorem grows_logged (d : Diagnostic) (s : State) : Grows s (logged d s) :=
  { Grows.refl s with log := ⟨[d], rfl⟩ }

theorem grows_registerPort (a : Half) (d : Device) (attr : Attr) (s : State) : Grows s (registerPort a d attr s) := by
  have hports : ∀ b, portEntry s b ≠ none → portEntry (registerPort a d attr s) b ≠ none := by
    intro b hb
    rw [portEntry_registerPort]
    split
    · exact portAfter_ne_none _ _ _
    · exact hb
  rw [registerPort_eq] at hports ⊢
  exact { Grows.refl s with ports := hports }

theorem grows_modTimer (i : Nat) {f : Timer → Timer} (hf : SameClient f) (s : State) : Grows s (modTimer i f s) where
  log := ⟨[], (List.append_nil _).symm⟩
  ports _ h := h
  channels := rfl
  slots j x hx := by
    rw [modTimer_getElem?]
    split
    · next hji =>
      subst hji
      rw [hx]
      exact ⟨f x, rfl, hf x⟩
    · exact ⟨x, hx, rfl, rfl⟩

theorem grows_registerDevice (d : Device) (us : Nat) (k : Bool) (s : State) :
    Grows s (registerDevice params d us k s).1 := by
  unfold registerDevice
  split
  · exact grows_logged _ s
  · refine { Grows.refl s with slots := fun i x hx => ⟨x, ?_, rfl, rfl⟩ }
    rw [setTimers_timers]
    exact List.getElem?_append_left (List.getElem?_eq_some_iff.mp hx).1 ▸ hx

theorem grows_clearIRQ (n : Nat) (s : State) : Grows s (clearIRQ params n s).1 := by
  unfold clearIRQ
  split
  · exact grows_logged _ s
  · rw [settle_setPic_eq]
    exact { Grows.refl s with }

theorem grows_assertIRQ (n : Nat) (s : State) : Grows s (assertIRQ params n s).1 := by
  unfold assertIRQ
  split
  · exact grows_logged _ s
  · rw [settle_setPic_eq]
    exact { Grows.refl s with }

theorem grows_releaseLine (n : Nat) (s : State) : Grows s (releaseLine params n s) :=
  { grows_clearIRQ n s with }

theorem grows_runDevOp (op : DevOp) (s : State) : Grows s (runDevOp params op s).1 := by
  cases op with
  | registerPort a d attr => exact grows_registerPort a d attr s
  | assertIRQ n => exact grows_assertIRQ n s
  | clearIRQ n => exact grows_clearIRQ n s
  | requestIRQNumber d =>
    simp only [runDevOp, requestIRQNumber]
    split
    · exact Grows.refl s
    · split
      · exact { Grows.refl s with }
      · exact grows_logged _ s
  | freeIRQNumber d =>
    exact List.foldlRecOn _ _ (Grows.refl s) fun u hu n _ => hu.trans (grows_releaseLine n u)
  | registerDevice d us k => exact grows_registerDevice d us k s
  | resetTimer d us =>
    simp only [runDevOp, resetTimer]
    split
    · exact grows_logged _ s
    · refine grows_modTimer _ ?_ s
      exact fun _ => ⟨rfl, rfl⟩
  | setTimerActiveState d k =>
    simp only [runDevOp, setTimerActiveState]
    split
    · exact grows_logged _ s
    · exact grows_modTimer _ (sameClient_setActive k) s
  | setHoldRequest d k => exact { Grows.refl s with }

theorem Grows.modChan {s u : State} (h : Grows s u) (ch : Nat) (f : Channel → Channel) : Grows s (modChan ch f u) :=
  { h with channels := (modifyAt_length _ _ _).trans h.channels }

theorem grows_channels (s : State) : KeepsChannels (Grows s) where
  devOp op u h := h.trans (grows_runDevOp op u)
  channel ch f _ _ h := h.modChan ch f
  world _ _ h := { h with }
  log d u h := h.trans (grows_logged d u)

theorem grows_ops (s : State) : KeepsOps (Grows s) :=
  (grows_channels s).ops (fun _ _ _ h => { h with })
    ((grows_channels s).pulseSlot fun i _ u hf h => h.trans (grows_modTimer i hf u)) (fun _ _ h => { h with })
    (fun _ _ _ h => { h with })

end Sys2Proof.Machine

namespace Sys2Proof.Proofs

open Sys2Proof.Machine

/-- Settles O56: memory is written in its canonical form only, and the ROM store only with an image of its size. -/
theorem stepKeepsForms : Obligations.StepKeepsForms := fun _ _ hm hr ht =>
  step_keeps_ops formsOk_ops (fun _ _ _ h => h) (fun _ _ h => h) (fun _ _ h => h) formsOk_rom
    (fun _ _ hwf h => ⟨hwf h.1, h.2⟩) ⟨hm, hr⟩ ht

/-- Settles O57: each shared operation only adds, so whatever a step is made of adds. -/
theorem nothingIsRemoved : Obligations.NothingIsRemoved := by
  intro s t ht
  have hgrows : Grows s t :=
    step_keeps_ops (grows_ops s) (fun ch f _ h => h.modChan ch f) (fun _ _ h => { h with }) (fun _ _ h => { h with })
      (fun _ _ _ h => { h with }) (fun _ _ _ h => { h with }) (Grows.refl s) ht
  exact ⟨hgrows.log, hgrows.ports, hgrows.slots, hgrows.channels⟩

end Sys2Proof.Proofs
end

section
/-! SUPPORT. What each operation is made of: the shared operations alone, but for a channel's reset, the writers of the
CPU and of the ROM store, and `CPU.step`. Statements that tell operations apart rest on it. -/

namespace Sys2Proof.Machine

open Sys2Proof.Config (params)

/-- The operations that are not made of shared operations alone, each with the state it is performed in and the state it
leaves. -/
inductive DirectOp : Instr → State → State → Prop
  | step (s : State) : DirectOp .cpuStep s { (cpuStep params s).1 with result := (cpuStep params s).2 }
  | setRegister (name bytes : List Byte) (x : Regs) (s : State) :
    DirectOp (.cpuSetRegister name bytes) s { setRegs x s with result := okUnit }
  | setRunning (i : Instr) (on : Bool) (s : State)
    (hi : i = .cpuStart ∨ i = .cpuStop ∨ i = .modStart .cpu ∨ i = .modStop .cpu) :
    DirectOp i s { setRunning on s with result := okUnit }
  | resetCpu (i : Instr) (s : State) (hi : i = .cpuReset ∨ i = .modReset .cpu) :
    DirectOp i s { cpuReset s with result := success }
  | resetChannel (i : Instr) (ch : Nat) (s : State) (hi : i = .ataReset ch ∨ i = .modReset (.ata ch)) :
    DirectOp i s { (ataReset params ch s).1 with result := (ataReset params ch s).2 }
  | setRom (bytes : List Byte) (s : State) :
    DirectOp (.romSetSystemBIOS bytes) s { s with rom := some bytes, result := success }

theorem eq_of_reply {r : Answer} {t : State} (ht : reply r = .next t) : t = { r.1 with result := r.2 } :=
  (Host.Outcome.next.inj ht).symm

/-- An operation of a channel performs its answer, or the channel is absent and only the result changes (R115). -/
theorem eq_of_onChannel {ch : Nat} {s t : State} {absent : Result} {r : Answer}
    (ht : onChannel ch s absent r = .next t) :
    t = { r.1 with result := r.2 } ∨ t = { s with result := absent } := by
  unfold onChannel at ht
  split at ht
  · exact .inl (eq_of_reply ht)
  · exact .inr (eq_of_reply ht)

variable {Inv : State → Prop}

namespace KeepsOps

/-- The answer of a meaning made of shared operations. -/
theorem shared (h : KeepsOps Inv) {D : Prop} {r : Answer} {t : State} (hr : Inv r.1) (ht : reply r = .next t) :
    Inv t ∨ D := by
  obtain rfl := eq_of_reply ht
  exact .inl (h.result _ _ hr)

theorem sharedOn (h : KeepsOps Inv) {D : Prop} {ch : Nat} {s t : State} {absent : Result} {r : Answer} (hs : Inv s)
    (hr : Inv r.1) (ht : onChannel ch s absent r = .next t) : Inv t ∨ D := by
  rcases eq_of_onChannel ht with rfl | rfl
  · exact .inl (h.result _ _ hr)
  · exact .inl (h.result _ _ hs)

theorem moduleReset_or_direct (h : KeepsOps Inv) (m : Module) {s t : State} (hs : Inv s)
    (ht : exec (.modReset m) s = .next t) : Inv t ∨ DirectOp (.modReset m) s t := by
  cases m with
  | bus => exact h.shared hs ht
  | pic => exact h.shared (h.picReset s hs) ht
  | clk => exact h.shared hs ht
  | cpu =>
    cases ht
    exact .inr (.resetCpu _ s (.inr rfl))
  | ext n => exact h.shared (h.devProg ((params.device (.ext n)).reset s.world) s hs) ht
  | ata ch =>
    have hanswer : onChannel ch s .failed (ataReset params ch s) = .next t := ht
    rcases eq_of_onChannel hanswer with rfl | rfl
    · exact .inr (.resetChannel _ ch s (.inr rfl))
    · exact .inl (h.result _ _ hs)

theorem moduleStart_or_direct (h : KeepsOps Inv) (m : Module) {s t : State} (hs : Inv s)
    (ht : exec (.modStart m) s = .next t) : Inv t ∨ DirectOp (.modStart m) s t := by
  cases m with
  | cpu =>
    cases ht
    exact .inr (.setRunning _ true s (.inr (.inr (.inl rfl))))
  | clk => exact h.shared (h.clock s.clk.pendingRtPulses true s hs) ht
  | ext n => exact h.shared (h.devProg ((params.device (.ext n)).start s.world) s hs) ht
  | bus => exact h.shared hs ht
  | pic => exact h.shared hs ht
  | ata ch => exact h.shared hs ht

theorem moduleStop_or_direct (h : KeepsOps Inv) (m : Module) {s t : State} (hs : Inv s)
    (ht : exec (.modStop m) s = .next t) : Inv t ∨ DirectOp (.modStop m) s t := by
  cases m with
  | cpu =>
    cases ht
    exact .inr (.setRunning _ false s (.inr (.inr (.inr rfl))))
  | clk => exact h.shared (h.clock s.clk.pendingRtPulses false s hs) ht
  | ext n => exact h.shared (h.devProg ((params.device (.ext n)).stop s.world) s hs) ht
  | bus => exact h.shared hs ht
  | pic => exact h.shared hs ht
  | ata ch => exact h.shared hs ht

/-- Whatever the shared operations keep is kept by every operation but those of `DirectOp`. `exec_keeps_but_step` asks a
property to survive the writers of the CPU and the ROM store too, and so cannot say which operation has written. -/
theorem exec_or_direct (h : KeepsOps Inv) (i : Instr) {s t : State} (hs : Inv s) (ht : exec i s = .next t) :
    Inv t ∨ DirectOp i s t := by
  cases i with
  | busRegisterPort a d attr => exact h.shared (h.devOp (.registerPort a d attr) s hs) ht
  | busReadPort a w => exact h.shared (h.access.busRead a w s hs) ht
  | busWritePort a w v => exact h.shared (h.access.busWrite a w v s hs) ht
  | picAssertIRQ n => exact h.shared (h.devOp (.assertIRQ n) s hs) ht
  | picClearIRQ n => exact h.shared (h.devOp (.clearIRQ n) s hs) ht
  | picAcknowledge => exact h.shared (h.acknowledge s hs) ht
  | picEndOfInterrupt c line rotate => exact h.shared (h.endOfInterrupt c line rotate s hs) ht
  | picRequestIRQNumber d => exact h.shared (h.devOp (.requestIRQNumber d) s hs) ht
  | picFreeIRQNumber d => exact h.shared (h.devOp (.freeIRQNumber d) s hs) ht
  | picReset => exact h.shared (h.picReset s hs) ht
  | picICW1 c ltim sngl ic4 => exact h.shared (h.icw1 c ltim sngl ic4 s hs) ht
  | picICW2 c b => exact h.shared (h.writeData c b s hs) ht
  | picICW3 c b => exact h.shared (h.writeData c b s hs) ht
  | picICW4 c b => exact h.shared (h.writeData c b s hs) ht
  | picOCW1 c b => exact h.shared (h.writeData c b s hs) ht
  | picOCW2EOI c r sl l => exact h.shared (h.endOfInterrupt c (if sl then some l else none) r s hs) ht
  | picOCW2RotAutoSet c => exact h.shared (h.rotateAuto c true s hs) ht
  | picOCW2RotAutoClr c => exact h.shared (h.rotateAuto c false s hs) ht
  | picOCW2SetPrio c l => exact h.shared (h.lowest c l s hs) ht
  | picOCW2Nop c l => exact h.shared (h.noop c s hs) ht
  | picOCW3 c esmm smm p rr ris => exact h.shared (h.ocw3 c esmm smm p rr ris s hs) ht
  | picRdCmd c => exact h.shared (h.picRead (.cmd c) s hs) ht
  | picRdData c => exact h.shared (h.picRead (.data c) s hs) ht
  | clkRegisterDevice d us k => exact h.shared (h.devOp (.registerDevice d us k) s hs) ht
  | clkPulse =>
    have hpulse := h.access.pulse s hs
    have hreply : reply (pulse params s, okUnit) = .next t := ht
    generalize pulse params s = u at hpulse hreply
    exact h.shared hpulse hreply
  | clkResetTimer d us => exact h.shared (h.devOp (.resetTimer d us) s hs) ht
  | clkSetTimerActiveState d on => exact h.shared (h.devOp (.setTimerActiveState d on) s hs) ht
  | clkSignalPulse => exact h.shared (h.signalPulse s hs) ht
  | ataReset ch =>
    have hanswer : onChannel ch s .failed (ataReset params ch s) = .next t := ht
    rcases eq_of_onChannel hanswer with rfl | rfl
    · exact .inr (.resetChannel _ ch s (.inl rfl))
    · exact .inl (h.result _ _ hs)
  | ataSetSelectedDriveIndex ch k => exact h.shared (h.setSelectedDriveIndex ch k s hs) ht
  | ataInsert sel carrier image wp => exact h.shared (h.ataInsert sel carrier image wp s hs) ht
  | ataEject sel => exact h.shared (h.ataEject sel s hs) ht
  | ataUpdate ch => exact h.sharedOn hs (h.ataUpdate ch s hs) ht
  | ataRdData ch w => exact h.sharedOn hs (h.readDataReg ch w s hs) ht
  | ataWrData ch w v => exact h.sharedOn hs (h.writeDataReg ch w _ s hs) ht
  | ataRdError ch => exact h.sharedOn hs hs ht
  | ataWrFeatures ch b => exact h.sharedOn hs (h.writeBoth ch (keepsDriveForm_setFeatures b) s hs) ht
  | ataRdParam ch o => exact h.sharedOn hs hs ht
  | ataWrParam ch o b => exact h.sharedOn hs (h.writeBoth ch (keepsDriveForm_setParam o b) s hs) ht
  | ataRdDrvHead ch => exact h.sharedOn hs hs ht
  | ataWrDrvHead ch lba drv head => exact h.sharedOn hs (h.writeDrvHead ch lba drv head s hs) ht
  | ataRdStatus ch => exact h.sharedOn hs (h.lowerIrq ch s hs) ht
  | ataWrCommand ch b => exact h.sharedOn hs (h.writeCommand ch b s hs) ht
  | ataRdAltStatus ch => exact h.sharedOn hs hs ht
  | ataWrDevCtl ch srst nien => exact h.sharedOn hs (h.writeDevCtl ch srst nien s hs) ht
  | ataRdDrvAddr ch => exact h.sharedOn hs hs ht
  | ataWrDrvAddr ch b => exact h.sharedOn hs hs ht
  | cpuStep =>
    have hanswer : reply (cpuStep params s) = .next t := ht
    obtain rfl := eq_of_reply hanswer
    exact .inr (.step s)
  | cpuGetRegister name =>
    refine h.shared ?_ ht
    unfold getRegister
    split
    · exact h.log _ _ hs
    · exact hs
  | cpuSetRegister name bytes =>
    unfold exec execCpuSetRegister setRegister at ht
    dsimp only at ht
    split at ht
    · exact h.shared (h.log _ _ hs) ht
    · split at ht
      · exact h.shared (h.log _ _ hs) ht
      · cases ht
        exact .inr (.setRegister name bytes _ s)
  | cpuSetHoldRequest d on => exact h.shared (h.devOp (.setHoldRequest d on) s hs) ht
  | cpuStart =>
    cases ht
    exact .inr (.setRunning _ true s (.inl rfl))
  | cpuStop =>
    cases ht
    exact .inr (.setRunning _ false s (.inr (.inl rfl)))
  | cpuReset =>
    cases ht
    exact .inr (.resetCpu _ s (.inl rfl))
  | modReset m => exact h.moduleReset_or_direct m hs ht
  | modStart m => exact h.moduleStart_or_direct m hs ht
  | modStop m => exact h.moduleStop_or_direct m hs ht
  | modGetDump m => exact h.shared hs ht
  | modIsConnected m => exact h.shared hs ht
  | romSetSystemBIOS bytes =>
    unfold exec execRomSetSystemBIOS setSystemBIOS at ht
    dsimp only at ht
    split at ht
    · exact h.shared (h.log _ _ hs) ht
    · cases ht
      exact .inr (.setRom bytes s)
  | romReadSystemBIOS => exact h.shared hs ht

end KeepsOps

/-- A step is one operation, performed on the state without its packet. -/
theorem exec_of_step {s t : State} (ht : step s = .next t) :
    ∃ i packets, exec i { s with inbox := packets } = .next t := by
  unfold step fetchOperation at ht
  cases hinbox : s.inbox with
  | nil =>
    rw [hinbox] at ht
    exact ⟨.cpuStep, s.inbox, ht⟩
  | cons p rest =>
    rw [hinbox] at ht
    cases hp : decode p with
    | ok i =>
      simp only [hp] at ht
      exact ⟨i, rest, ht⟩
    | error e =>
      simp only [hp] at ht
      cases ht

/-! ### The CPU's registers and the ROM store -/

/-- Nothing of the CPU but its hold set has changed, and the ROM store has not. -/
def CpuKept (s u : State) : Prop := u.cpu = { s.cpu with holdSet := u.cpu.holdSet } ∧ u.rom = s.rom

/-- The rates, the run flag and the ROM store have not changed. -/
def RatesKept (s u : State) : Prop :=
  u.cpu.running = s.cpu.running ∧ u.cpu.ips = s.cpu.ips ∧ u.cpu.minPulsePeriodUs = s.cpu.minPulsePeriodUs ∧
    u.rom = s.rom

theorem cpuKept_channels (s : State) : KeepsChannels (CpuKept s) where
  devOp op u h := by
    obtain ⟨hcpu, hrom⟩ := h
    rw [runDevOp_eq]
    refine ⟨?_, hrom⟩
    dsimp only
    rw [hcpu]
  channel _ _ _ _ h := h
  world _ _ h := h
  log _ _ h := h

theorem cpuKept_ops (s : State) : KeepsOps (CpuKept s) :=
  (cpuKept_channels s).ops (fun _ _ _ h => h) ((cpuKept_channels s).pulseSlot fun _ _ _ _ h => h) (fun _ _ h => h)
    (fun _ _ _ h => h)

theorem ratesKept_channels (s : State) : KeepsChannels (RatesKept s) where
  devOp op u h := by
    rw [runDevOp_eq]
    exact h
  channel _ _ _ _ h := h
  world _ _ h := h
  log _ _ h := h

theorem ratesKept_ops (s : State) : KeepsOps (RatesKept s) :=
  (ratesKept_channels s).ops (fun _ _ _ h => h) ((ratesKept_channels s).pulseSlot fun _ _ _ _ h => h) (fun _ _ h => h)
    (fun _ _ _ h => h)

theorem ratesKept_cpuStep (s : State) : RatesKept s (cpuStep params s).1 :=
  ((ratesKept_ops s).keeps (fun _ _ h => h) (fun _ _ _ h => h) (fun _ h => h)).cpuStep s ⟨rfl, rfl, rfl, rfl⟩

theorem cpuKept_ataReset (ch : Nat) (s : State) : CpuKept s (ataReset params ch s).1 :=
  ((cpuKept_ops s).parts fun _ _ _ h => h).ataReset ch s ⟨rfl, rfl⟩

theorem CpuKept.ratesKept {s u : State} (h : CpuKept s u) : RatesKept s u := by
  obtain ⟨hcpu, hrom⟩ := h
  unfold RatesKept
  rw [hcpu]
  exact ⟨rfl, rfl, rfl, hrom⟩

theorem CpuKept.registers {s u : State} (h : CpuKept s u) :
    u.cpu.instrCounter = s.cpu.instrCounter ∧ u.cpu.x = s.cpu.x := by
  rw [h.1]
  exact ⟨rfl, rfl⟩

end Sys2Proof.Machine

namespace Sys2Proof.Proofs

open Sys2Proof.Machine
open Sys2Proof.Config (params)

/-- Settles O60: the shared operations leave the CPU and the ROM store alone, and each operation of `DirectOp` writes
what its name says. -/
theorem cpuAndRomWriters : Obligations.CpuAndRomWriters := by
  intro i s t ht
  by_cases hkept : CpuKept s t
  · obtain ⟨hcounter, hx⟩ := hkept.registers
    obtain ⟨hrunning, hips, hmin, hrom⟩ := hkept.ratesKept
    exact ⟨fun _ _ _ => ⟨hcounter, fun _ => hx⟩, fun _ _ _ _ => hrunning, hips, hmin, fun _ => hrom⟩
  · cases ((cpuKept_ops s).exec_or_direct i ⟨rfl, rfl⟩ ht).resolve_left hkept with
    | step =>
      obtain ⟨hrunning, hips, hmin, hrom⟩ := ratesKept_cpuStep s
      exact ⟨fun hi => absurd rfl hi, fun _ _ _ _ => hrunning, hips, hmin, fun _ => hrom⟩
    | setRegister name bytes =>
      exact ⟨fun _ _ _ => ⟨rfl, fun hi => absurd rfl (hi name bytes)⟩, fun _ _ _ _ => rfl, rfl, rfl, fun _ => rfl⟩
    | setRunning _ _ _ hi =>
      refine ⟨fun _ _ _ => ⟨rfl, fun _ => rfl⟩, fun h1 h2 h3 h4 => ?_, rfl, rfl, fun _ => rfl⟩
      exact absurd hi (by simp [h1, h2, h3, h4])
    | resetCpu _ _ hi =>
      refine ⟨fun _ h1 h2 => ?_, fun _ _ _ _ => rfl, rfl, rfl, fun _ => rfl⟩
      exact absurd hi (by simp [h1, h2])
    | resetChannel _ ch =>
      exact absurd ((cpuKept_ops s).result _ (ataReset params ch s).1 (cpuKept_ataReset ch s)) hkept
    | setRom bytes =>
      exact ⟨fun _ _ _ => ⟨rfl, fun _ => rfl⟩, fun _ _ _ _ => rfl, rfl, rfl, fun hi => absurd rfl (hi bytes)⟩

end Sys2Proof.Proofs
end

section
/-! SUPPORT. The port and line maps and the channels over a whole step (R33, R44, R45, R281, R287), and whose line a
channel's number is (R152, R251 (c); log entry 31). Every operation but a channel's reset leaves those numbers alone. -/

namespace Sys2Proof.Machine

open Sys2Proof.Config (params)

/-! ### The maps -/

theorem mapsOk_registerPort (a : Half) (d : Device) (attr : Attr) (s : State) (hs : MapsOk s) :
    MapsOk (registerPort a d attr s) := by
  obtain ⟨hbus, hports, howners⟩ := hs
  have hput : ∀ e : PortEntry, MapsOk { s with bus := mapPut s.bus a.toNat e } := fun e =>
    ⟨mapWf_mapPut hbus _ _, fun x hx => (mem_mapPut hx).elim (fun h => h ▸ a.isLt) (hports x), howners⟩
  unfold registerPort
  split
  · exact hput _
  · split
    · exact ⟨hbus, hports, howners⟩
    · exact hput _

/-- A line found free is a device line that nobody owns (R152). -/
theorem of_freeLine {s : State} {n : Nat} (h : freeLine params s = some n) :
    n < 16 ∧ n ∉ params.irqReserved ∧ mapGet s.irqOwner n = none := by
  have hmem := List.mem_of_find?_eq_some h
  have hfree := List.find?_some h
  simp only [Bool.and_eq_true, Bool.not_eq_true', List.contains_eq_mem, decide_eq_false_iff_not,
    Option.isNone_iff_eq_none] at hfree
  exact ⟨List.mem_range.mp hmem, hfree⟩

theorem mapsOk_requestIRQNumber (d : Device) (s : State) (hs : MapsOk s) : MapsOk (requestIRQNumber params d s).1 := by
  unfold requestIRQNumber
  split
  · exact hs
  · split
    · next n hn =>
      obtain ⟨hbus, hports, howners, hlines⟩ := hs
      obtain ⟨hlt, hdevice, -⟩ := of_freeLine hn
      exact ⟨hbus, hports, mapWf_mapPut howners _ _,
        fun e he => (mem_mapPut he).elim (fun h => h ▸ ⟨hlt, hdevice⟩) (hlines e)⟩
    · exact hs

theorem mapsOk_releaseLine (n : Nat) (s : State) (hs : MapsOk s) : MapsOk (releaseLine params n s) := by
  obtain ⟨hbus, hports, howners, hlines⟩ := hs
  rw [releaseLine_eq]
  exact ⟨hbus, hports, mapWf_mapErase howners n, fun e he => hlines e (List.mem_of_mem_filter he)⟩

theorem mapsOk_runDevOp (op : DevOp) (s : State) (hs : MapsOk s) : MapsOk (runDevOp params op s).1 := by
  cases op with
  | registerPort a d attr => exact mapsOk_registerPort a d attr s hs
  | assertIRQ n =>
    simp only [runDevOp]
    rw [assertIRQ_eq]
    exact hs
  | clearIRQ n =>
    simp only [runDevOp]
    rw [clearIRQ_eq]
    exact hs
  | requestIRQNumber d => exact mapsOk_requestIRQNumber d s hs
  | freeIRQNumber d => exact List.foldlRecOn _ _ hs fun u hu n _ => mapsOk_releaseLine n u hu
  | registerDevice d us k =>
    simp only [runDevOp]
    rw [registerDevice_eq]
    exact hs
  | resetTimer d us =>
    simp only [runDevOp]
    rw [resetTimer_eq]
    exact hs
  | setTimerActiveState d k =>
    simp only [runDevOp]
    rw [setTimerActiveState_eq]
    exact hs
  | setHoldRequest d k => exact hs

theorem mapsOk_parts : KeepsParts params MapsOk where
  devOp := mapsOk_runDevOp
  channel _ _ _ hs := hs
  world _ _ hs := hs
  log _ _ hs := hs

/-! ### The channels -/

/-- The maps and the channels in their form, each channel with the line number it has in `s`. -/
def DevicesFrom (s u : State) : Prop :=
  MapsOk u ∧ ∀ (ch : Nat) (c : Channel), u.ata[ch]? = some c →
    ChannelOk c ∧ ∃ c₀ : Channel, s.ata[ch]? = some c₀ ∧ c.irqNumber = c₀.irqNumber

theorem devicesFrom_self {s : State} (hmaps : MapsOk s) (hchannels : ChannelsOk s) : DevicesFrom s s :=
  ⟨hmaps, fun _ c hc => ⟨hchannels c (List.mem_of_getElem? hc), c, hc, rfl⟩⟩

theorem DevicesFrom.channelsOk {s u : State} (h : DevicesFrom s u) : ChannelsOk u := by
  intro c hc
  obtain ⟨ch, hch⟩ := List.mem_iff_getElem?.mp hc
  exact (h.2 ch c hch).1

/-- Line numbers that have not moved are owned as before, as long as the line map has taken none away. -/
theorem DevicesFrom.linesOwned {s u : State} (h : DevicesFrom s u) (howned : LinesOwned s) (hkept : LinesKept s u) :
    LinesOwned u := by
  intro ch c hc
  obtain ⟨-, c₀, hc₀, hline⟩ := h.2 ch c hc
  rw [hline]
  exact (howned ch c₀ hc₀).imp_right fun ⟨n, hn, hown⟩ => ⟨n, hn, hkept ch n hown⟩

theorem DevicesFrom.modChan {s u : State} (h : DevicesFrom s u) (ch : Nat) (f : Channel → Channel)
    (hf : ChannelStep (chan u ch) (f (chan u ch))) : DevicesFrom s (modChan ch f u) := by
  refine ⟨h.1, fun j c hc => ?_⟩
  rw [modChan_ata, modifyAt_getElem?] at hc
  split at hc
  · next hj =>
    subst hj
    obtain ⟨c', hc', rfl⟩ := Option.map_eq_some_iff.mp hc
    obtain ⟨hok, c₀, hc₀, hline⟩ := h.2 j c' hc'
    have hchan : chan u j = c' := by rw [chan, hc']; rfl
    rw [hchan] at hf
    exact ⟨hf.2 hok, c₀, hc₀, hf.1.trans hline⟩
  · exact h.2 j c hc

theorem devicesFrom_channels (s : State) : KeepsChannels (DevicesFrom s) where
  devOp op u h := by
    have hata : (runDevOp params op u).1.ata = u.ata := by rw [runDevOp_eq]
    refine ⟨mapsOk_runDevOp op u h.1, ?_⟩
    rw [hata]
    exact h.2
  channel ch f _ hf h := h.modChan ch f hf
  world _ _ h := h
  log _ _ h := h

theorem devicesFrom_ops (s : State) : KeepsOps (DevicesFrom s) :=
  (devicesFrom_channels s).ops (fun _ _ _ h => h) ((devicesFrom_channels s).pulseSlot fun _ _ _ _ h => h)
    (fun _ _ h => h) (fun _ _ _ h => h)

theorem devicesFrom_cpuStep {s : State} (hs : DevicesFrom s s) : DevicesFrom s (cpuStep params s).1 :=
  ((devicesFrom_ops s).keeps (fun _ _ h => h) (fun _ _ _ h => h) (fun _ h => h)).cpuStep s hs

/-! ### A channel's reset (R241) -/

/-- A line number in the channel: none, or a line the map gives the device (R152). -/
def LineOf (s : State) (d : Device) (line : Int) : Prop :=
  line = -1 ∨ ∃ n : Nat, line = n ∧ mapGet s.irqOwner n = some d

theorem lineOf_requestIRQNumber (d : Device) {s : State} (hs : MapsOk s) :
    LineOf (requestIRQNumber params d s).1 d (lineResult (requestIRQNumber params d s).2) := by
  obtain ⟨-, -, howners, -⟩ := hs
  unfold requestIRQNumber
  split
  · next n rest hlines =>
    exact .inr ⟨n, rfl, (mem_linesOf howners d n).mp (hlines ▸ List.mem_cons_self)⟩
  · split
    · exact .inr ⟨_, rfl, by rw [mapGet_mapPut, if_pos rfl]⟩
    · exact .inl rfl

/-- A request gives away no line that has an owner. -/
theorem requestIRQNumber_keepsOwners (d e : Device) (n : Nat) (s : State) (hn : mapGet s.irqOwner n = some e) :
    mapGet (requestIRQNumber params d s).1.irqOwner n = some e := by
  unfold requestIRQNumber
  split
  · exact hn
  · split
    · next m hm =>
      obtain ⟨-, -, hfree⟩ := of_freeLine hm
      have hne : n ≠ m := by
        rintro rfl
        rw [hfree] at hn
        cases hn
      rw [mapGet_mapPut, if_neg hne]
      exact hn
    · exact hn

/-- An owned line is a device line. -/
theorem LineOf.range {s : State} {d : Device} {line : Int} (h : LineOf s d line) (hs : MapsOk s) :
    -1 ≤ line ∧ line < 16 ∧ line ≠ 2 := by
  obtain ⟨-, -, -, hlines⟩ := hs
  rcases h with rfl | ⟨n, rfl, hown⟩
  · decide
  · have hline := hlines _ (mem_of_mapGet hown)
    simp only [params_irqReserved, List.mem_singleton] at hline
    omega

/-- What a channel's reset makes of the channel, its line number apart. -/
structure ResetFrom (line : Int) (c c' : Channel) : Prop where
  drive0 : c'.drive0 = driveResetOf c.drive0
  drive1 : c'.drive1 = driveResetOf c.drive1
  line : c'.irqNumber = line
  lowered : c'.irqRaised = false

theorem ResetFrom.channelOk {line : Int} {c c' : Channel} (h : ResetFrom line c c') (hc : ChannelOk c)
    (hline : -1 ≤ line ∧ line < 16 ∧ line ≠ 2) : ChannelOk c' := by
  obtain ⟨h0, h1, -⟩ := hc
  unfold ChannelOk
  rw [h.drive0, h.drive1, h.line, h.lowered]
  exact ⟨keepsDriveForm_reset _ h0, keepsDriveForm_reset _ h1, hline.1, hline.2.1, hline.2.2, nofun⟩

/-- What the timer step of a reset does to the line map and the channels: at most it notes in the channel that it has its
timer. -/
theorem ataResetTimer_does (ch : Nat) (s : State) :
    (ataResetTimer params ch s).1.irqOwner = s.irqOwner ∧
      ((ataResetTimer params ch s).1.ata = s.ata ∨
        (ataResetTimer params ch s).1.ata = modifyAt s.ata ch fun c => { c with timerRegistered := true }) := by
  unfold ataResetTimer
  split
  · unfold parkTimer
    rw [setTimerActiveState_eq]
    exact ⟨rfl, .inl rfl⟩
  · dsimp only
    split
    · unfold parkTimer
      rw [setTimerActiveState_eq, registerDevice_eq]
      exact ⟨rfl, .inr rfl⟩
    · rw [registerDevice_eq]
      exact ⟨rfl, .inl rfl⟩

theorem ataResetIrq_does (ch : Nat) (s : State) :
    (ataResetIrq params ch s).irqOwner = s.irqOwner ∧
      (ataResetIrq params ch s).ata =
        modifyAt s.ata ch fun c => { c with irqRaised := false, nIEN := false, srst := false } := by
  unfold ataResetIrq
  dsimp only
  split
  · rw [clearIRQ_eq]
    exact ⟨rfl, rfl⟩
  · exact ⟨rfl, rfl⟩

/-- The line request of a channel's reset, made once the I/O bases are back at their defaults (R241). -/
def resetRequest (ch : Nat) (s : State) : Answer := requestIRQNumber params (.ata ch) (ataResetBases params ch s)

/-- Steps 3 to 7 of a channel's reset: ports, timer, interrupt and drives; line number and line map stay. -/
theorem ataReset_afterLine (ch : Nat) (u t : State)
    (ht : t = ataResetDrives ch (ataResetIrq params ch (ataResetTimer params ch (ataResetPorts params ch u)).1)) :
    t.irqOwner = u.irqOwner ∧ ∃ f, t.ata = modifyAt u.ata ch f ∧ ∀ c, ResetFrom c.irqNumber c (f c) := by
  have hports : (ataResetPorts params ch u).irqOwner = u.irqOwner ∧ (ataResetPorts params ch u).ata = u.ata := by
    unfold ataResetPorts
    rw [registerPorts_eq]
    exact ⟨rfl, rfl⟩
  obtain ⟨hownerT, hataT⟩ := ataResetTimer_does ch (ataResetPorts params ch u)
  obtain ⟨hownerI, hataI⟩ := ataResetIrq_does ch (ataResetTimer params ch (ataResetPorts params ch u)).1
  rw [ht, ataResetDrives, modChan_irqOwner, modChan_ata, hownerI, hownerT, hataI]
  refine ⟨hports.1, ?_⟩
  rcases hataT with hataT | hataT
  · rw [hataT, hports.2, modifyAt_modifyAt]
    exact ⟨_, rfl, fun c => ⟨rfl, rfl, rfl, rfl⟩⟩
  · rw [hataT, hports.2, modifyAt_modifyAt, modifyAt_modifyAt]
    exact ⟨_, rfl, fun c => ⟨rfl, rfl, rfl, rfl⟩⟩

/-- All that a channel's reset does to the line map and to the channels: the map is that of its request, and the one
channel takes the line it has answered. -/
theorem ataReset_does (ch : Nat) (s : State) :
    (ataReset params ch s).1.irqOwner = (resetRequest ch s).1.irqOwner ∧
      ∃ f, (ataReset params ch s).1.ata = modifyAt s.ata ch f ∧
        ∀ c, ResetFrom (lineResult (resetRequest ch s).2) c (f c) := by
  have hata : (resetRequest ch s).1.ata = (ataResetBases params ch s).ata := by
    unfold resetRequest
    rw [requestIRQNumber_eq]
  obtain ⟨howner, f, hf, hreset⟩ :=
    ataReset_afterLine ch (ataResetLine params ch (ataResetBases params ch s)).1 (ataReset params ch s).1 rfl
  have hline : (ataResetLine params ch (ataResetBases params ch s)).1 =
      modChan ch (fun c => { c with irqNumber := lineResult (resetRequest ch s).2 }) (resetRequest ch s).1 := rfl
  rw [hline, modChan_ata, hata, ataResetBases, modChan_ata, modifyAt_modifyAt, modifyAt_modifyAt] at hf
  exact ⟨howner, _, hf, fun _ => ⟨(hreset _).drive0, (hreset _).drive1, (hreset _).line, (hreset _).lowered⟩⟩

/-- A channel's reset keeps the form of the channels, and every line number in them owned. -/
theorem devices_ataReset (ch : Nat) {s : State} (hmaps : MapsOk s) (hchannels : ChannelsOk s) :
    ChannelsOk (ataReset params ch s).1 ∧ (LinesOwned s → LinesOwned (ataReset params ch s).1) := by
  obtain ⟨howner, f, hata, hreset⟩ := ataReset_does ch s
  have hline : LineOf (resetRequest ch s).1 (.ata ch) (lineResult (resetRequest ch s).2) :=
    lineOf_requestIRQNumber (.ata ch) (s := ataResetBases params ch s) hmaps
  have hrange := hline.range (mapsOk_requestIRQNumber (.ata ch) (ataResetBases params ch s) hmaps)
  refine ⟨fun c hc => ?_, fun howned j c hc => ?_⟩
  · rw [hata] at hc
    rcases mem_modifyAt hc with hc | ⟨c', hc', rfl⟩
    · exact hchannels c hc
    · exact (hreset c').channelOk (hchannels c' hc') hrange
  · rw [hata, modifyAt_getElem?] at hc
    rw [howner]
    split at hc
    · next hj =>
      subst hj
      obtain ⟨c', -, rfl⟩ := Option.map_eq_some_iff.mp hc
      rw [(hreset c').line]
      exact hline
    · exact (howned j c hc).imp_right fun ⟨n, hn, hown⟩ => ⟨n, hn, requestIRQNumber_keepsOwners _ _ n _ hown⟩

/-! ### Every operation -/

/-- Every operation moves no line number, or is a channel's reset. -/
theorem devices_exec {i : Instr} {s t : State} (hmaps : MapsOk s) (hchannels : ChannelsOk s)
    (ht : exec i s = .next t) :
    MapsOk t ∧ ChannelsOk t ∧ (LinesOwned s → LinesKept s t → LinesOwned t) := by
  have hs := devicesFrom_self hmaps hchannels
  by_cases hfrom : DevicesFrom s t
  · exact ⟨hfrom.1, hfrom.channelsOk, hfrom.linesOwned⟩
  · cases ((devicesFrom_ops s).exec_or_direct i hs ht).resolve_left hfrom with
    | step => exact absurd ((devicesFrom_ops s).result _ (cpuStep params s).1 (devicesFrom_cpuStep hs)) hfrom
    | setRegister => exact (hfrom hs).elim
    | setRunning => exact (hfrom hs).elim
    | resetCpu => exact (hfrom hs).elim
    | setRom => exact (hfrom hs).elim
    | resetChannel _ ch =>
      have hmaps' : MapsOk (ataReset params ch s).1 := mapsOk_parts.ataReset ch s hmaps
      obtain ⟨hchannels', howned⟩ := devices_ataReset ch hmaps hchannels
      clear hfrom ht
      generalize ataReset params ch s = r at *
      exact ⟨hmaps', hchannels', fun hs _ => howned hs⟩

end Sys2Proof.Machine

namespace Sys2Proof.Proofs

open Sys2Proof.Machine

/-- Settles O55: line numbers move only in a channel's reset, which takes the line it has just been given. -/
theorem stepKeepsDevices : Obligations.StepKeepsDevices := by
  intro s t hmaps hchannels ht
  obtain ⟨i, packets, hexec⟩ := exec_of_step ht
  exact devices_exec (s := { s with inbox := packets }) hmaps hchannels hexec

end Sys2Proof.Proofs
end

section
/-! SUPPORT. Which operation a step performs (R80, R85), and who writes guest memory (R72): no shared operation does, and
of the operations made of something else only `CPU.step`. -/

namespace Sys2Proof.Machine

/-! ### The next operation -/

theorem fetchOperation_of_empty {s : State} (hinbox : s.inbox = []) : fetchOperation s = .ok (.cpuStep, s) := by
  unfold fetchOperation
  rw [hinbox]

theorem fetchOperation_of_ok {s : State} {p : List Byte} {rest : List (List Byte)} {i : Instr}
    (hinbox : s.inbox = p :: rest) (hp : decode p = .ok i) :
    fetchOperation s = .ok (i, { s with inbox := rest }) := by
  unfold fetchOperation
  simp only [hinbox, hp]

theorem fetchOperation_of_error {s : State} {p : List Byte} {rest : List (List Byte)} {e : DecodeError}
    (hinbox : s.inbox = p :: rest) (hp : decode p = .error e) : fetchOperation s = .error e := by
  unfold fetchOperation
  simp only [hinbox, hp]

theorem step_of_fetch {s u : State} {i : Instr} (h : fetchOperation s = .ok (i, u)) : step s = exec i u := by
  unfold step
  rw [h]

theorem step_of_refused {s : State} {e : DecodeError} (h : fetchOperation s = .error e) :
    step s = .refused (.undecodable e) := by
  unfold step
  rw [h]

/-! ### Guest memory -/

/-- Guest memory is what it was in `s`. -/
def MemoryKept (s u : State) : Prop := u.mem = s.mem

theorem memoryKept_channels (s : State) : KeepsChannels (MemoryKept s) where
  devOp op u h := by
    rw [runDevOp_eq]
    exact h
  channel _ _ _ _ h := h
  world _ _ h := h
  log _ _ h := h

theorem memoryKept_ops (s : State) : KeepsOps (MemoryKept s) :=
  (memoryKept_channels s).ops (fun _ _ _ h => h) ((memoryKept_channels s).pulseSlot fun _ _ _ _ h => h) (fun _ _ h => h)
    (fun _ _ _ h => h)

/-- Neither the channels, the CPU's own fields, the inbox nor the ROM store are guest memory. -/
theorem memoryKept_exec (s : State) : KeepsExec (MemoryKept s) :=
  (memoryKept_ops s).keepsExec (fun _ _ _ h => h) (fun _ _ h => h) (fun _ _ h => h) (fun _ _ _ h => h)

end Sys2Proof.Machine

namespace Sys2Proof.Proofs

open Sys2Proof.Machine

/-- Settles O59: every operation but `CPU.step` leaves the memory itself as it was, and so each byte of it. -/
theorem memoryOnlyByCpuStep : Obligations.MemoryOnlyByCpuStep := by
  intro i s t hi ht a
  have hmem : MemoryKept s t := exec_keeps_but_step (memoryKept_exec s) i hi rfl ht
  exact congrArg (memByte · a) hmem

/-- Settles O3: by the three cases of `fetchOperation`. -/
theorem stepRunsTheOperation : Obligations.StepRunsTheOperation :=
  ⟨fun _ _ _ _ hinbox hp => step_of_fetch (fetchOperation_of_ok hinbox hp),
    fun _ hinbox => step_of_fetch (fetchOperation_of_empty hinbox),
    fun _ _ _ _ hinbox hp => step_of_refused (fetchOperation_of_error hinbox hp)⟩

end Sys2Proof.Proofs
end

section
/-! SUPPORT. The operation's part of a packet (R96 to R110): what each reader of a packet's header and operands does on
the bytes its writer gives, and which bits of a command-port byte its masks and matches look at. -/

namespace Sys2Proof

/-! ### Readers of a packet -/

@[simp] theorem endOfPacket_nil (i : Instr) : endOfPacket i [] = .ok i := rfl

@[simp] theorem headerZero_zero (k : Except DecodeError Instr) : headerZero 0#8 k = k := rfl

@[simp] theorem nextField_ok {α : Type} (x : α) (r : List Byte) (k : α → List Byte → Except DecodeError Instr) :
    nextField (.ok (x, r)) k = k x r := rfl

@[simp] theorem ctrlCommand_putCtrl (c : Ctrl) (k : Ctrl → Instr) : ctrlCommand (putCtrl c) [] k = .ok (k c) := by
  simp [ctrlCommand]

/-! ### Command bytes of the interrupt controller -/

theorem decodePicCmd_setPrio (c : Ctrl) (l : Fin 8) :
    decodePicCmd c (0xC0 ||| BitVec.ofNat 8 l.val) = .picOCW2SetPrio c l := by
  cases c <;> (revert l; decide)

theorem decodePicCmd_nop (c : Ctrl) (l : Fin 8) :
    decodePicCmd c (0x40 ||| BitVec.ofNat 8 l.val) = .picOCW2Nop c l := by
  cases c <;> (revert l; decide)

/-- A masked byte matches where every bit of the mask does. -/
theorem and_eq_iff_bits (b m v : Byte) :
    b &&& m = v ↔ ∀ i : Fin 8, (b.getLsbD i && m.getLsbD i) = v.getLsbD i := by
  constructor
  · rintro rfl i
    exact (BitVec.getLsbD_and ..).symm
  · intro h
    exact BitVec.eq_of_getLsbD_eq fun i hi => (BitVec.getLsbD_and ..).trans (h ⟨i, hi⟩)

/-- `---1----`: an ICW1 (R99). -/
theorem and_10_eq_10_iff (b : Byte) : b &&& 0x10 = 0x10 ↔ b.getLsbD 4 = true := by
  rw [and_eq_iff_bits]
  simp [Fin.forall_fin_succ]

/-- `--100---`: an OCW2 end of interrupt (R104). -/
theorem and_38_eq_20_iff (b : Byte) :
    b &&& 0x38 = 0x20 ↔ b.getLsbD 3 = false ∧ b.getLsbD 4 = false ∧ b.getLsbD 5 = true := by
  rw [and_eq_iff_bits]
  simp [Fin.forall_fin_succ]

/-- `VV000---`: the other OCW2 operations, told apart by bits 7:6 (R104). -/
theorem and_F8_eq_iff (b : Byte) (h l : Bool) :
    b &&& 0xF8 = bitAt 7 h ||| bitAt 6 l ↔
      b.getLsbD 3 = false ∧ b.getLsbD 4 = false ∧ b.getLsbD 5 = false ∧ b.getLsbD 6 = l ∧ b.getLsbD 7 = h := by
  rw [and_eq_iff_bits]
  cases h <;> cases l <;> simp [Fin.forall_fin_succ, bitAt]

/-- The tests of `decodePicCmd`, bit by bit, are the masks and matches of the layouts. -/
theorem decodePicCmd_eq_masks (c : Ctrl) (b : Byte) :
    decodePicCmd c b =
      if b &&& 0x10 = 0x10 then .picICW1 c (b.getLsbD 3) (b.getLsbD 1) (b.getLsbD 0)
      else if b &&& 0x38 = 0x20 then .picOCW2EOI c (b.getLsbD 7) (b.getLsbD 6) (lineOfByte b)
      else if b &&& 0xF8 = 0x80 then .picOCW2RotAutoSet c
      else if b &&& 0xF8 = 0x00 then .picOCW2RotAutoClr c
      else if b &&& 0xF8 = 0xC0 then .picOCW2SetPrio c (lineOfByte b)
      else if b &&& 0xF8 = 0x40 then .picOCW2Nop c (lineOfByte b)
      else .picOCW3 c (b.getLsbD 6) (b.getLsbD 5) (b.getLsbD 2) (b.getLsbD 1) (b.getLsbD 0) := by
  have hset : b &&& 0xF8 = 0x80 ↔ _ := and_F8_eq_iff b true false
  have hclr : b &&& 0xF8 = 0x00 ↔ _ := and_F8_eq_iff b false false
  have hprio : b &&& 0xF8 = 0xC0 ↔ _ := and_F8_eq_iff b true true
  have hnop : b &&& 0xF8 = 0x40 ↔ _ := and_F8_eq_iff b false true
  simp only [and_10_eq_10_iff, and_38_eq_20_iff, hset, hclr, hprio, hnop]
  unfold decodePicCmd
  cases h4 : b.getLsbD 4 with
  | true => simp
  | false =>
    cases h3 : b.getLsbD 3 with
    | true => simp
    | false =>
      cases h5 : b.getLsbD 5 with
      | true => simp
      | false => cases h7 : b.getLsbD 7 <;> cases h6 : b.getLsbD 6 <;> simp

end Sys2Proof

namespace Sys2Proof.Proofs

open Sys2Proof.Machine

/-- Settles O1: the selector of an operation's packet picks its readers, each of which gives back the field written for
it. -/
theorem roundTrip : Obligations.RoundTrip := by
  intro i h
  cases i with simp only [encode, decode_packet, decodeBody]
  | picAcknowledge | picReset | clkPulse | clkSignalPulse | cpuStep | cpuStart | cpuStop | cpuReset
  | romReadSystemBIOS => simp
  | busRegisterPort a d t => simp [getDevice_putDevice h]
  | busReadPort a w => simp
  | busWritePort a w v => simp [valueField_ok h]
  | picAssertIRQ n | picClearIRQ n => simp [lastField_getNat h]
  | picEndOfInterrupt c l rot => simp
  | picRequestIRQNumber d | picFreeIRQNumber d => simp [lastField_getDevice h]
  | picICW1 c ltim sngl ic4 => simp [decodePicCmd_byteICW1]
  | picICW2 c b | picICW3 c b | picICW4 c b | picOCW1 c b | picRdCmd c | picRdData c => simp
  | picOCW2EOI c r sl l => simp [decodePicCmd_byteOCW2EOI]
  | picOCW2RotAutoSet c | picOCW2RotAutoClr c => simp [decodePicCmd]
  | picOCW2SetPrio c l => simpa using decodePicCmd_setPrio c l
  | picOCW2Nop c l => simpa using decodePicCmd_nop c l
  | picOCW3 c esmm smm p rr ris => simp [decodePicCmd_byteOCW3]
  | clkRegisterDevice d us k =>
    obtain ⟨hd, hus⟩ := Bool.and_eq_true_iff.mp h
    simp [getDevice_putDevice hd, getNat_putNat hus]
  | clkResetTimer d us =>
    obtain ⟨hd, hus⟩ := Bool.and_eq_true_iff.mp h
    simp [getDevice_putDevice hd, lastField_getNat hus]
  | clkSetTimerActiveState d k | cpuSetHoldRequest d k => simp [getDevice_putDevice h]
  | ataReset ch | ataUpdate ch | ataRdData ch w | ataRdError ch | ataWrFeatures ch b | ataRdParam ch o
  | ataWrParam ch o b | ataRdDrvHead ch | ataRdStatus ch | ataWrCommand ch b | ataRdAltStatus ch | ataRdDrvAddr ch
  | ataWrDrvAddr ch b => simp [toNat_putChan h]
  | ataSetSelectedDriveIndex ch k =>
    obtain ⟨hch, hk⟩ := Bool.and_eq_true_iff.mp h
    simp [toNat_putChan hch, lastField_getNat hk]
  | ataInsert sel t im wp =>
    obtain ⟨hsel, him⟩ := Bool.and_eq_true_iff.mp h
    simp [getSel_putSel hsel, getNat_putNat him]
  | ataEject sel => simp [lastField_getSel h]
  | ataWrData ch w v =>
    obtain ⟨hch, hv⟩ := Bool.and_eq_true_iff.mp h
    simp [toNat_putChan hch, valueField_ok hv]
  | ataWrDrvHead ch lba drv head => simpa [toNat_putChan h] using byteDrvHead_bits lba drv head
  | ataWrDevCtl ch srst nien => simpa [toNat_putChan h] using byteDevCtl_bits srst nien
  | cpuGetRegister n => simp [lastField_getName h]
  | cpuSetRegister n v =>
    obtain ⟨hn, hv⟩ := Bool.and_eq_true_iff.mp h
    simp [getName_putName hn, lastField_getName hv]
  | modReset m | modStart m | modStop m | modGetDump m | modIsConnected m => simp [lastField_getModule h]
  | romSetSystemBIOS bytes => simp [lastField_getBlob h]

/-- Settles O2: the layouts' masks and matches, and six packets read out. -/
theorem decodedWords : Obligations.DecodedWords := by
  refine ⟨decodePicCmd_eq_masks, ?_, ?_, ?_, ?_, ?_, ?_⟩ <;> decide

end Sys2Proof.Proofs
end

section
/-! SUPPORT. An operation always completes, and one of a channel the machine does not have does nothing (R115). -/

namespace Sys2Proof.Machine

open Sys2Proof.Config (params)

/-- Every meaning is an answer: none faults or refuses. -/
theorem exec_eq_reply (i : Instr) (s : State) : ∃ r, exec i s = reply r := by
  cases i <;> exact ⟨_, rfl⟩

/-! ### Absent channels -/

section

variable {ch : Nat} {s : State}

theorem hasChannel_of_le (h : s.ata.length ≤ ch) : hasChannel s ch = false := by
  simp [hasChannel, Nat.not_lt.mpr h]

theorem moduleReset_absent (P : Params) (h : s.ata.length ≤ ch) : moduleReset P (.ata ch) s = (s, .failed) := by
  simp [moduleReset, hasChannel_of_le h]

/-- A selection is refused whatever the index: an index above 1 is no drive of any channel (R245). -/
theorem setSelectedDriveIndex_absent (h : s.ata.length ≤ ch) (k : Nat) :
    setSelectedDriveIndex ch k s = raise (.noSuchDriveIndex ch k) .unit s := by
  simp [setSelectedDriveIndex, hasChannel_of_le h]

theorem deviceRead_absent (P : Params) (h : s.ata.length ≤ ch) (a : Half) (w : Width) :
    deviceRead P (.ata ch) a w s = (filler w, s) := by
  simp [deviceRead, hasChannel_of_le h]

theorem deviceWrite_absent (P : Params) (h : s.ata.length ≤ ch) (a : Half) (w : Width) (v : Long) :
    deviceWrite P (.ata ch) a w v s = s := by
  simp [deviceWrite, hasChannel_of_le h]

theorem clip_filler (w : Width) : clip w (filler w) = filler w := BitVec.and_self

/-- A port of an absent channel reads all ones (R271). -/
theorem busRead_absent (P : Params) {a : Half} {attr : Attr} (h : s.ata.length ≤ ch)
    (ha : portEntry s a = some { owner := .ata ch, attr := attr }) (hr : attr ≠ .writeOnly) (w : Width) :
    busRead P a w s = (s, .ok (.port w (filler w))) := by
  rw [busRead_of_entry P ha hr, deviceRead_absent P h, clip_filler]

/-- A write to a port of an absent channel is ignored (R272). -/
theorem busWrite_absent (P : Params) {a : Half} {attr : Attr} (h : s.ata.length ≤ ch)
    (ha : portEntry s a = some { owner := .ata ch, attr := attr }) (hw : attr ≠ .readOnly) (w : Width) (v : Long) :
    busWrite P a w v s = (s, okUnit) := by
  rw [busWrite_of_entry P ha hw, deviceWrite_absent P h]

end

end Sys2Proof.Machine

namespace Sys2Proof.Proofs

open Sys2Proof.Machine
open Sys2Proof.Config (params)

/-- Settles O31: each meaning of a channel's operation asks for the channel first (`onChannel_of_le`). -/
theorem ataAbsentChannel : Obligations.AtaAbsentChannel := by
  refine ⟨fun ch s h => ⟨?reset, ?modReset, ?select, ?read, ?param, ?data, ?update, ?wrData, ?wrParam, ?write, ?drvHead,
    ?devCtl, fun a attr ha => ⟨?portRead, ?portWrite⟩⟩, ?completes⟩
  case modReset => exact congrArg reply (moduleReset_absent params h)
  case select => exact fun k => congrArg reply (setSelectedDriveIndex_absent h k)
  case portRead => exact fun hr w => congrArg reply (busRead_absent params h ha hr w)
  case portWrite => exact fun hw w v => congrArg reply (busWrite_absent params h ha hw w v)
  case completes =>
    intro i s
    obtain ⟨r, hr⟩ := exec_eq_reply i s
    exact ⟨_, hr⟩
  case read =>
    intro i hi
    simp only [List.mem_cons, List.not_mem_nil, or_false] at hi
    rcases hi with rfl | rfl | rfl | rfl | rfl <;> exact onChannel_of_le h _ _
  case write =>
    intro b i hi
    simp only [List.mem_cons, List.not_mem_nil, or_false] at hi
    rcases hi with rfl | rfl | rfl <;> exact onChannel_of_le h _ _
  case reset | update => exact onChannel_of_le h _ _
  case param | data => exact fun _ => onChannel_of_le h _ _
  case wrData | wrParam | devCtl => exact fun _ _ => onChannel_of_le h _ _
  case drvHead => exact fun _ _ _ => onChannel_of_le h _ _

end Sys2Proof.Proofs
end

section
/-! SUPPORT. The outcomes of the I/O bus's operations: the frame of `BUS.registerPort` (R121), the accesses that reach no
handler (R122, R123), and the handlers of an external device (R125). -/

namespace Sys2Proof.Machine

open Sys2Proof.Config (params)

/-! ### The meanings of the three operations -/

theorem exec_busRegisterPort (a : Half) (d : Device) (attr : Attr) (s : State) :
    exec (.busRegisterPort a d attr) s = reply (registerPort a d attr s, okUnit) := rfl

theorem exec_busReadPort (a : Half) (w : Width) (s : State) :
    exec (.busReadPort a w) s = reply (busRead params a w s) := rfl

theorem exec_busWritePort (a : Half) (w : Width) (v : Long) (s : State) :
    exec (.busWritePort a w v) s = reply (busWrite params a w v s) := rfl

/-- A raised condition's outcome: one diagnostic, the condition, nothing else (R360). -/
theorem reply_raise (d : Diagnostic) (v : Value) (s : State) :
    reply (raise d v s) = .next { s with log := s.log ++ [d], result := .cond (condOf d) v } := rfl

/-! ### Accesses that reach no handler -/

section

variable (P : Params) {a : Half} {s : State}

theorem busRead_unmapped (h : portEntry s a = none) (w : Width) :
    busRead P a w s = raise (.unknownPort .R a w) (.port w (filler w)) s := by
  simp only [busRead, h]

theorem busWrite_unmapped (h : portEntry s a = none) (w : Width) (v : Long) :
    busWrite P a w v s = raise (.unknownPort .W a w) .unit s := by
  simp only [busWrite, h]

theorem busRead_writeOnly {d : Device} (h : portEntry s a = some { owner := d, attr := .writeOnly }) (w : Width) :
    busRead P a w s = raise (.writeOnlyPort a w d) (.port w (filler w)) s := by
  simp only [busRead, h, if_true]

theorem busWrite_readOnly {d : Device} (h : portEntry s a = some { owner := d, attr := .readOnly }) (w : Width)
    (v : Long) : busWrite P a w v s = raise (.readOnlyPort a w d) .unit s := by
  simp only [busWrite, h, if_true]

end

/-! ### The handlers of an external device -/

theorem deviceRead_ext (P : Params) (n : Nat) (a : Half) (w : Width) (s : State) :
    deviceRead P (.ext n) a w s = extRead P (.ext n) a w s := rfl

theorem deviceWrite_ext (P : Params) (n : Nat) (a : Half) (w : Width) (v : Long) (s : State) :
    deviceWrite P (.ext n) a w v s = extWrite P (.ext n) a w v s := rfl

end Sys2Proof.Machine

namespace Sys2Proof.Proofs

open Sys2Proof.Machine
open Sys2Proof.Config (params)

/-- Settles O4: registering a port writes the port map alone, and there the one entry that `portAfter` gives. -/
theorem registerPort : Obligations.RegisterPort := by
  intro a d attr s
  refine ⟨_, exec_busRegisterPort a d attr s, ?frame, ?entries⟩
  case frame => exact congrArg (fun u => { u with result := okUnit }) (registerPort_eq a d attr s)
  case entries => exact fun b => portEntry_registerPort a b d attr s

/-- Settles O5: each such access raises its one condition (`reply_raise`), a read with the width's filler. -/
theorem portConditions : Obligations.PortConditions := by
  refine fun a s => ⟨fun h => ?unmapped, fun d h w => ?writeOnly, fun d h w v => ?readOnly⟩
  case unmapped =>
    have hread (w : Width) : exec (.busReadPort a w) s = .next { s with
        log := s.log ++ [.unknownPort .R a w], result := .cond .unknownPort (.port w (filler w)) } := by
      rw [exec_busReadPort, busRead_unmapped params h, reply_raise]
      rfl
    refine ⟨hread .byte, hread .word, hread .dword, fun w v => ?_⟩
    rw [exec_busWritePort, busWrite_unmapped params h, reply_raise]
    rfl
  case writeOnly =>
    rw [exec_busReadPort, busRead_writeOnly params h, reply_raise]
    rfl
  case readOnly =>
    rw [exec_busWritePort, busWrite_readOnly params h, reply_raise]
    rfl

/-- Settles O6: the access is its owner's handler (`busRead_of_entry`, `busWrite_of_entry`), and an external device's
handler is the `DeviceModel` entry's. -/
theorem devicePort : Obligations.DevicePort := by
  refine fun a n attr s h => ⟨fun hr w => ?read, fun hw w v => ?write⟩
  case read =>
    rw [exec_busReadPort, busRead_of_entry params h hr, deviceRead_ext]
    rfl
  case write =>
    rw [exec_busWritePort, busWrite_of_entry params h hw, deviceWrite_ext]
    rfl

end Sys2Proof.Proofs
end

section
/-! SUPPORT. The inputs of the interrupt controllers and the priority resolver (R141 to R144): the outcomes of
`PIC.assertIRQ` and `PIC.clearIRQ`, and eligibility in the rule's own words. -/

namespace Sys2Proof.Machine

open Sys2Proof.Config (params)

/-! ### The meanings of the two operations -/

theorem exec_picAssertIRQ (n : Nat) (s : State) : exec (.picAssertIRQ n) s = reply (assertIRQ params n s) := rfl

theorem exec_picClearIRQ (n : Nat) (s : State) : exec (.picClearIRQ n) s = reply (clearIRQ params n s) := rfl

theorem reply_of_result {a : Answer} {r : Result} (h : a.2 = r) : reply a = .next { a.1 with result := r } := by
  rw [← h]
  rfl

/-! ### The result is no part of the controllers -/

theorem picOf_result (r : Result) (s : State) (c : Ctrl) : picOf { s with result := r } c = picOf s c := by
  cases c <;> rfl

theorem linePin_result (r : Result) (s : State) (n : Nat) : linePin { s with result := r } n = linePin s n := by
  rw [linePin, picOf_result, linePin]

theorem lineIrr_result (r : Result) (s : State) (n : Nat) : lineIrr { s with result := r } n = lineIrr s n := by
  rw [lineIrr, picOf_result, lineIrr]

/-! ### The resolver -/

theorem aboveInService_iff (p : Pic) (l : Fin 8) :
    aboveInService p l = true ↔ ∀ k : Fin 8, lineBit p.isr k = true → (prio p l).val < (prio p k).val := by
  simp [aboveInService, List.all_eq_true, mem_allLines, ← Bool.not_eq_true, imp_iff_not_or]

/-- Eligibility by mask, service and mode, as the rule words it (R143). -/
theorem eligible_iff (p : Pic) (l : Fin 8) :
    eligible p l = true ↔
      lineBit p.irr l = true ∧ lineBit p.imr l = false ∧
        (if p.specialMask = true then lineBit p.isr l = false
         else if p.isr = 0 then True
         else if p.sfnm = true then ∀ k : Fin 8, lineBit p.isr k = true → (prio p l).val < (prio p k).val
         else False) := by
  rw [eligible, lineBit_pendingSet, Bool.and_eq_true, Bool.and_eq_true, Bool.not_eq_true', and_assoc]
  refine and_congr_right fun _ => and_congr_right fun _ => ?_
  split
  · rw [Bool.not_eq_true']
  · split
    · exact iff_of_true rfl trivial
    · split
      · exact aboveInService_iff p l
      · exact iff_of_false Bool.false_ne_true id

theorem intReq_iff_selected (p : Pic) : intReq p = true ↔ ∃ l, selected p = some l := Option.isSome_iff_exists

theorem intReq_of_selected_none {p : Pic} (h : selected p = none) : intReq p = false := by
  rw [intReq, h]
  rfl

/-- The mask is no input: a controller keeps it when only its inputs change. -/
theorem SameButInputs.imr_eq {p q : Pic} (h : SameButInputs p q) : q.imr = p.imr := by
  rw [h]

end Sys2Proof.Machine

namespace Sys2Proof.Proofs

open Sys2Proof.Machine
open Sys2Proof.Config (params)

/-- Settles O9: a refused line only raises its condition (`assertIRQ_refused`), a device line moves as `assertIRQ_line`
says, and the result is all that comes on top. -/
theorem assertIRQ : Obligations.AssertIRQ := by
  refine fun n s => ⟨fun hn => ?refused, fun hlt hne => ?line⟩
  case refused => exact congrArg reply (assertIRQ_refused hn s)
  case line =>
    obtain ⟨hok, hframe, hM, hS, hcascade, hlines⟩ := assertIRQ_line hlt hne s _ rfl
    refine ⟨_, (exec_picAssertIRQ n s).trans (reply_of_result hok), ?_, hM, hS, hcascade, fun k hk hk2 => ?_⟩
    · exact congrArg (fun u => { u with result := okUnit }) hframe
    · rw [linePin_result, lineIrr_result]
      exact hlines k hk hk2

/-- Settles O10: a refused line only raises its condition (`clearIRQ_refused`), a device line moves as `clearIRQ_line`
says, and the result is all that comes on top. -/
theorem clearIRQ : Obligations.ClearIRQ := by
  refine fun n s => ⟨fun hn => ?refused, fun hlt hne => ?line⟩
  case refused => exact congrArg reply (clearIRQ_refused hn s)
  case line =>
    obtain ⟨hok, hframe, hM, hS, hcascade, hlines⟩ := clearIRQ_line hlt hne s _ rfl
    refine ⟨_, (exec_picClearIRQ n s).trans (reply_of_result hok), ?_, hM, hS, hcascade, fun k hk hk2 => ?_⟩
    · exact congrArg (fun u => { u with result := okUnit }) hframe
    · rw [linePin_result, lineIrr_result]
      exact hlines k hk hk2

/-- Settles O11: a search in priority order finds the least priority number (`find_priorityOrder`), and it looks for the
lines that `eligible_iff` describes. -/
theorem priorityResolver : Obligations.PriorityResolver := fun p =>
  ⟨prio_val p, eligible_iff p, find_priorityOrder p (eligible p), find_priorityOrder_none p (eligible p),
    intReq_iff_selected p⟩

end Sys2Proof.Proofs
end

section
/-! SUPPORT. `PIC.acknowledgeHighestPriority` case by case (R147 to R149) and `PIC.endOfInterrupt` (R150): which line is
taken or ended, and where the cascade input stands afterwards. -/

namespace Sys2Proof.Machine

open Sys2Proof.Config (params)

/-! ### The meanings of the two operations -/

theorem exec_picAcknowledge (s : State) :
    exec .picAcknowledge s =
      .next { (acknowledge params s).2 with result := .ok (.vector (acknowledge params s).1) } := rfl

theorem exec_picEndOfInterrupt (c : Ctrl) (line : Option (Fin 8)) (rotate : Bool) (s : State) :
    exec (.picEndOfInterrupt c line rotate) s = .next { endOfInterrupt params c line rotate s with result := okUnit } :=
  rfl

/-! ### The cases of an acknowledge -/

section

variable {s : State}

theorem ackSlave_of_none (h : selected s.picS = none) : ackSlave s = (spuriousVector s.picS, s) := by
  rw [ackSlave, h]

theorem ackSlave_of_some {l : Fin 8} (h : selected s.picS = some l) :
    ackSlave s = (vectorOf s.picS l, { s with picS := takeLine l s.picS }) := by
  rw [ackSlave, h]

theorem ackMaster_of_none (h : selected s.picM = none) : ackMaster params s = (spuriousVector s.picM, s) := by
  rw [ackMaster, h]

theorem ackMaster_of_line {l : Fin 8} (h : selected s.picM = some l) (hl : ¬(l = 2 ∧ s.picM.cascadeMode = true)) :
    ackMaster params s = (vectorOf s.picM l, { s with picM := takeLine l s.picM }) := by
  rw [ackMaster, h]
  exact if_neg hl

/-- A cascade request is answered by the slave, and then the cascade input falls (R145, R147). -/
theorem ackMaster_of_cascade (h : selected s.picM = some 2) (hc : s.picM.cascadeMode = true) :
    ackMaster params s =
      ((ackSlave { s with picM := takeLine 2 s.picM }).1,
        { (ackSlave { s with picM := takeLine 2 s.picM }).2 with picM := inputLower 2 (takeLine 2 s.picM) }) := by
  rw [ackMaster, h]
  refine (if_pos ⟨rfl, hc⟩).trans ?_
  dsimp only
  rw [ackSlave_picM]
  rfl

/-- A line of the master is taken; where the cascade input follows the slave it is not touched (R147). -/
theorem acknowledge_of_line {l : Fin 8} (h : selected s.picM = some l) (hl : ¬(l = 2 ∧ s.picM.cascadeMode = true)) :
    acknowledge params s = (vectorOf s.picM l, settle params { s with picM := takeLine l s.picM }) := by
  rw [acknowledge, ackMaster_of_line h hl]

theorem acknowledge_of_cascade {l : Fin 8} (h : selected s.picM = some 2) (hc : s.picM.cascadeMode = true)
    (hl : selected s.picS = some l) :
    acknowledge params s =
      (vectorOf s.picS l,
        settle params { s with picM := inputLower 2 (takeLine 2 s.picM), picS := takeLine l s.picS }) := by
  rw [acknowledge, ackMaster_of_cascade h hc, ackSlave_of_some (s := { s with picM := takeLine 2 s.picM }) hl]

theorem acknowledge_of_withdrawn (h : selected s.picM = some 2) (hc : s.picM.cascadeMode = true)
    (hl : selected s.picS = none) :
    acknowledge params s =
      (spuriousVector s.picS, settle params { s with picM := inputLower 2 (takeLine 2 s.picM) }) := by
  rw [acknowledge, ackMaster_of_cascade h hc, ackSlave_of_none (s := { s with picM := takeLine 2 s.picM }) hl]

theorem acknowledge_of_none (h : selected s.picM = none) :
    acknowledge params s = (spuriousVector s.picM, settle params s) := by
  rw [acknowledge, ackMaster_of_none h]

end

/-! ### The cascade input after an acknowledge -/

theorem LineTaken.pin_eq {p q : Pic} {l : Fin 8} (h : LineTaken p q l) : q.pin = p.pin := by
  obtain ⟨hsame, -, -⟩ := h
  rw [hsame]

theorem LineTaken.levelTriggered_eq {p q : Pic} {l : Fin 8} (h : LineTaken p q l) :
    q.levelTriggered = p.levelTriggered := by
  obtain ⟨hsame, -, -⟩ := h
  rw [hsame]

/-- Taking a line moves no pin, so a cascade input that follows the slave goes on following it. -/
theorem settle_takeLine {s : State} (l : Fin 8) (h : CascadeFollows s) :
    settle params { s with picM := takeLine l s.picM } = { s with picM := takeLine l s.picM } :=
  settle_of_eq params _ <| by
    show lineBit (takeLine l s.picM).pin _ = _
    rw [(lineTaken_takeLine l s.picM).pin_eq]
    exact h

/-- The cascade line taken, its input dropped and settled: pin and request are what the slave then asks for, since the
take has left no request but one a level holds, and the fall withdraws that (R142, R146, R147). -/
theorem cascadeTaken_settled (m : Pic) (lvl : Bool) :
    SameButInputs (takeLine 2 m) (followSlave params lvl (inputLower 2 (takeLine 2 m))) ∧
      lineBit (followSlave params lvl (inputLower 2 (takeLine 2 m))).pin 2 = lvl ∧
      lineBit (followSlave params lvl (inputLower 2 (takeLine 2 m))).irr 2 = lvl ∧
      ∀ k : Fin 8, k ≠ 2 →
        lineBit (followSlave params lvl (inputLower 2 (takeLine 2 m))).pin k = lineBit (takeLine 2 m).pin k ∧
        lineBit (followSlave params lvl (inputLower 2 (takeLine 2 m))).irr k = lineBit (takeLine 2 m).irr k := by
  obtain ⟨hsame, ⟨hpin, hirr⟩, hrest⟩ := masterFollows_followSlave lvl (inputLower 2 (takeLine 2 m))
  have hwithdrawn : lineBit (inputLower 2 (takeLine 2 m)).irr 2 = false := by
    obtain ⟨-, -, hrequest⟩ := lineTaken_takeLine 2 m
    rw [lineBit_inputLower_irr, hrequest, (lineTaken_takeLine 2 m).levelTriggered_eq]
    cases m.levelTriggered <;> simp
  refine ⟨(sameButInputs_inputLower 2 _).trans hsame, hpin, ?_, fun k hk => ?_⟩
  · rw [hirr, hwithdrawn, lineBit_inputLower_pin]
    cases lvl <;> rfl
  · obtain ⟨hpinK, hirrK⟩ := hrest k hk
    rw [hpinK, hirrK, lineBit_inputLower_pin, lineBit_inputLower_irr, if_neg hk, if_neg fun h => hk h.1]
    exact ⟨rfl, rfl⟩

/-! ### End of interrupt -/

/-- The line an implicit end takes is the one in service of least priority number (R150). -/
theorem topInService_iff (p : Pic) (l : Fin 8) :
    topInService p = some l ↔
      lineBit p.isr l = true ∧ ∀ k : Fin 8, lineBit p.isr k = true → (prio p l).val ≤ (prio p k).val :=
  find_priorityOrder p (lineBit p.isr) l

theorem topInService_none {p : Pic} (h : p.isr = 0) : topInService p = none :=
  (find_priorityOrder_none p (lineBit p.isr)).mpr ((eq_zero_iff_lineBit p.isr).mp h)

theorem endOfInterrupt_none {c : Ctrl} {s : State} (h : (picOf s c).isr = 0) (rotate : Bool) :
    endOfInterrupt params c none rotate s = s := by
  simp only [endOfInterrupt, topInService_none h]

/-- The line named, or else the one on top of those in service, is ended and the pair settled (R150). -/
theorem endOfInterrupt_line {c : Ctrl} {line : Option (Fin 8)} {s : State} {l : Fin 8}
    (h : line = some l ∨ (line = none ∧ topInService (picOf s c) = some l)) (rotate : Bool) :
    endOfInterrupt params c line rotate s = picCommand params c (endLine l rotate) s := by
  rcases h with rfl | ⟨rfl, htop⟩
  · rfl
  · simp only [endOfInterrupt, htop, picCommand]

end Sys2Proof.Machine

namespace Sys2Proof.Proofs

open Sys2Proof.Machine
open Sys2Proof.Config (params)

/-- Settles O12: a reset pair is that of O17; asserting a line leaves its mask alone (O9), and a masked line is not
eligible; the vectors are those of the two taking cases of an acknowledge. -/
theorem controllerProperties : Obligations.ControllerProperties := by
  refine ⟨fun s => ?reset, fun n s hlt hne hmasked => ?masked, fun l s h hl => ?line, fun l s h hc hl => ?cascade⟩
  case reset =>
    obtain ⟨t, hexec, -, hfields, hM, hS, -⟩ := picReset s
    refine ⟨t, hexec, fun c => ?_⟩
    rw [hfields c]
    refine ⟨rfl, rfl, rfl, rfl, ?_⟩
    rw [← hfields c]
    cases c with
    | M => exact hM
    | S => exact hS
  case masked =>
    obtain ⟨t, hexec, -, hM, hS, -⟩ := (assertIRQ n s).2 hlt hne
    have hsame : SameButInputs (picOf s (ctrlOfLine n)) (picOf t (ctrlOfLine n)) := by
      cases ctrlOfLine n with
      | M => exact hM
      | S => exact hS
    rw [← hsame.imr_eq] at hmasked
    refine ⟨t, hexec, fun hselected => ?_⟩
    exact Bool.false_ne_true ((eligible_of_masked hmasked).symm.trans (eligible_of_selected hselected))
  case line =>
    refine ⟨_, exec_picAcknowledge s, ?_⟩
    rw [acknowledge_of_line h hl]
    rfl
  case cascade =>
    refine ⟨_, exec_picAcknowledge s, ?_⟩
    rw [acknowledge_of_cascade h hc hl]
    rfl

/-- Settles O13: the taken lines are `takeLine`'s; with the cascade request taken the input settles as
`cascadeTaken_settled` says, in the two other cases it follows the slave already. -/
theorem acknowledge : Obligations.Acknowledge := by
  refine ⟨fun l s hfollows h hl => ?line, fun l s h hc hl => ?cascade, fun s h hc hl => ?withdrawn,
    fun s hfollows h => ?spurious⟩
  case line =>
    rw [exec_picAcknowledge, acknowledge_of_line h hl, settle_takeLine l hfollows]
    exact ⟨_, rfl, rfl, lineTaken_takeLine l s.picM⟩
  case cascade =>
    obtain ⟨hsame, hpin, hirr, hrest⟩ := cascadeTaken_settled s.picM (intReq (takeLine l s.picS))
    rw [exec_picAcknowledge, acknowledge_of_cascade h hc hl]
    exact ⟨_, _, rfl, rfl, lineTaken_takeLine l s.picS, lineTaken_takeLine 2 s.picM, hsame, hpin, hirr, hrest⟩
  case withdrawn =>
    obtain ⟨hsame, hpin, hirr, hrest⟩ := cascadeTaken_settled s.picM (intReq s.picS)
    have hquiet := intReq_of_selected_none hl
    rw [exec_picAcknowledge, acknowledge_of_withdrawn h hc hl]
    exact ⟨_, _, rfl, rfl, lineTaken_takeLine 2 s.picM, hsame, hpin.trans hquiet, hirr.trans hquiet, hrest⟩
  case spurious =>
    rw [exec_picAcknowledge, acknowledge_of_none h, settle_of_eq params s hfollows]
    rfl

/-- Settles O14: `endOfInterrupt` ends the line named or the one `topInService_iff` describes, as one settled change of
its controller. -/
theorem endOfInterrupt : Obligations.EndOfInterrupt := by
  refine fun c line rotate s => ⟨fun hline hisr => ?idle, fun l hl => ?ended⟩
  case idle =>
    rw [exec_picEndOfInterrupt, hline, endOfInterrupt_none hisr]
    rfl
  case ended =>
    rw [← topInService_iff] at hl
    rw [exec_picEndOfInterrupt, endOfInterrupt_line hl]
    exact ⟨_, _, rfl, lineEnded_endLine l rotate (picOf s c), settledAfter_picCommand c (endLine l rotate) okUnit s⟩

end Sys2Proof.Proofs
end

section
/-! SUPPORT. Line allocation (R152, R153): the line a request finds, and what giving back every line of a device does. -/

namespace Sys2Proof.Machine

open Sys2Proof.Config (params)

theorem exec_picRequestIRQNumber (d : Device) (s : State) :
    exec (.picRequestIRQNumber d) s = reply (requestIRQNumber params d s) := rfl

theorem exec_picFreeIRQNumber (d : Device) (s : State) :
    exec (.picFreeIRQNumber d) s = .next { freeIRQNumber params d s with result := okUnit } := rfl

theorem MapsOk.owners_wf {s : State} (hs : MapsOk s) : mapWf s.irqOwner = true := by
  obtain ⟨-, -, howners, -⟩ := hs
  exact howners

/-- A line with an owner is a device line (R33). -/
theorem MapsOk.device_line {d : Device} {s : State} {n : Nat} (hs : MapsOk s) (h : mapGet s.irqOwner n = some d) :
    n < 16 ∧ n ≠ 2 := by
  obtain ⟨-, -, -, hlines⟩ := hs
  obtain ⟨hlt, hdevice⟩ := hlines _ (mem_of_mapGet h)
  exact ⟨hlt, fun h2 => hdevice (List.mem_singleton.mpr h2)⟩

/-! ### Requests and returns -/

/-- A line to be given out: neither the cascade line nor owned (R152). -/
theorem lineFree_iff (s : State) (n : Nat) :
    (!params.irqReserved.contains n && (mapGet s.irqOwner n).isNone) = true ↔ n ≠ 2 ∧ mapGet s.irqOwner n = none := by
  simp

/-- The least free line is found. -/
theorem freeLine_eq_some {s : State} {n : Nat} (hlt : n < 16) (hne : n ≠ 2) (hfree : mapGet s.irqOwner n = none)
    (hleast : ∀ m, m < n → m = 2 ∨ mapGet s.irqOwner m ≠ none) : freeLine params s = some n := by
  rw [freeLine, List.find?_range_eq_some]
  refine ⟨(lineFree_iff s n).mpr ⟨hne, hfree⟩, List.mem_range.mpr hlt, fun m hm => ?_⟩
  rw [Bool.not_eq_true', ← Bool.not_eq_true, lineFree_iff]
  rintro ⟨hm2, hmfree⟩
  exact (hleast m hm).elim hm2 fun howned => howned hmfree

theorem freeLine_eq_none {s : State} (h : ∀ n, n < 16 → n = 2 ∨ mapGet s.irqOwner n ≠ none) :
    freeLine params s = none := by
  rw [Option.eq_none_iff_forall_ne_some]
  intro n hn
  obtain ⟨hlt, hdevice, hfree⟩ := of_freeLine hn
  exact (h n hlt).elim (fun h2 => hdevice (h2 ▸ List.mem_singleton_self 2)) fun howned => howned hfree

section

variable {d : Device} {s : State}

theorem requestIRQNumber_again {n : Nat} {rest : List Nat} (h : linesOf s d = n :: rest) :
    requestIRQNumber params d s = (s, .ok (.line n)) := by
  rw [requestIRQNumber, h]

theorem requestIRQNumber_first {n : Nat} (h : linesOf s d = []) (hn : freeLine params s = some n) :
    requestIRQNumber params d s = ({ s with irqOwner := mapPut s.irqOwner n d }, .ok (.line n)) := by
  simp only [requestIRQNumber, h, hn]

theorem requestIRQNumber_exhausted (h : linesOf s d = []) (hn : freeLine params s = none) :
    requestIRQNumber params d s = raise (.irqExhausted d) (.line (-1)) s := by
  simp only [requestIRQNumber, h, hn]

theorem freeIRQNumber_of_nil (h : linesOf s d = []) : freeIRQNumber params d s = s := by
  rw [freeIRQNumber, h]
  rfl

end

end Sys2Proof.Machine

namespace Sys2Proof.Proofs

open Sys2Proof.Machine
open Sys2Proof.Config (params)

/-- Settles O15: the lines of a device stand in rising order, so its least one comes first (`linesOf_head`); a device
with none takes the least free line, where there is one. -/
theorem requestIRQNumber : Obligations.RequestIRQNumber := by
  refine fun d s hmaps => ⟨fun n hn hleast => ?again, fun hnone => ?another⟩
  case again =>
    obtain ⟨rest, hlines⟩ := linesOf_head hmaps.owners_wf hn hleast
    exact congrArg reply (requestIRQNumber_again hlines)
  case another =>
    have hlines := (linesOf_eq_nil hmaps.owners_wf d).mpr hnone
    refine ⟨fun n hlt hne hfree hleast => ?first, fun hall => ?exhausted⟩
    case first =>
      rw [exec_picRequestIRQNumber, requestIRQNumber_first hlines (freeLine_eq_some hlt hne hfree hleast)]
      exact ⟨_, rfl, rfl, mapGet_mapPut s.irqOwner n d⟩
    case exhausted => exact congrArg reply (requestIRQNumber_exhausted hlines (freeLine_eq_none hall))

/-- Settles O16: the lines given back are those the owner map has for the device (`mem_linesOf`), all of them device
lines, and `releaseLines` says what giving back such a list does. -/
theorem freeIRQNumber : Obligations.FreeIRQNumber := by
  intro d s hmaps
  have howned := mem_linesOf hmaps.owners_wf d
  refine ⟨fun hnone => ?nothing, ?released⟩
  case nothing =>
    rw [exec_picFreeIRQNumber, freeIRQNumber_of_nil ((linesOf_eq_nil hmaps.owners_wf d).mpr hnone)]
    rfl
  case released =>
    obtain ⟨hframe, hM, hS, ⟨-, hcascade⟩, howners, hlines⟩ :=
      releaseLines (linesOf s d) (fun n hn => hmaps.device_line ((howned n).mp hn)) s _ rfl
    simp only [howned] at howners hlines
    refine ⟨_, exec_picFreeIRQNumber d s, ?_, hM, hS, hcascade, howners, fun n hlt hne => ?_⟩
    · exact congrArg (fun u => { u with result := okUnit }) hframe
    · rw [linePin_result, lineIrr_result]
      exact hlines n hlt hne

end Sys2Proof.Proofs
end

section
/-! SUPPORT. The port level of the interrupt controllers (R180 to R202): what a data byte does in each state of the
initialisation sequence, what a read of a port answers polled and not polled, and that an access to one of the four ports
is the operation of its row. -/

namespace Sys2Proof.Machine

open Sys2Proof.Config (params)

/-! ### The meanings of the rows -/

section

variable (c : Ctrl) (b : Byte) (s : State)

theorem exec_picICW1 (ltim sngl ic4 : Bool) :
    exec (.picICW1 c ltim sngl ic4) s = reply (picCommand params c (applyICW1 ltim sngl ic4) s, okUnit) := rfl

theorem exec_picICW2 : exec (.picICW2 c b) s = reply (writeData params c b s, okUnit) := rfl

theorem exec_picICW3 : exec (.picICW3 c b) s = reply (writeData params c b s, okUnit) := rfl

theorem exec_picICW4 : exec (.picICW4 c b) s = reply (writeData params c b s, okUnit) := rfl

theorem exec_picOCW1 : exec (.picOCW1 c b) s = reply (writeData params c b s, okUnit) := rfl

/-- An OCW2 end of interrupt is the call of R150, its line taken only where SL is set (R191). -/
theorem exec_picOCW2EOI (r sl : Bool) (l : Fin 8) :
    exec (.picOCW2EOI c r sl l) s = exec (.picEndOfInterrupt c (if sl then some l else none) r) s := rfl

theorem exec_picOCW2RotAutoSet :
    exec (.picOCW2RotAutoSet c) s = reply (picCommand params c (setRotateOnAutoEOI true) s, okUnit) := rfl

theorem exec_picOCW2RotAutoClr :
    exec (.picOCW2RotAutoClr c) s = reply (picCommand params c (setRotateOnAutoEOI false) s, okUnit) := rfl

theorem exec_picOCW2SetPrio (l : Fin 8) :
    exec (.picOCW2SetPrio c l) s = reply (picCommand params c (setLowestPriority l) s, okUnit) := rfl

theorem exec_picOCW2Nop (l : Fin 8) : exec (.picOCW2Nop c l) s = reply (picCommand params c id s, okUnit) := rfl

theorem exec_picOCW3 (esmm smm p rr ris : Bool) :
    exec (.picOCW3 c esmm smm p rr ris) s = reply (picCommand params c (applyOCW3 esmm smm p rr ris) s, okUnit) := rfl

theorem exec_picRdCmd : exec (.picRdCmd c) s = reply ((readCmd params c s).2, portByte (readCmd params c s).1) := rfl

theorem exec_picRdData : exec (.picRdData c) s = reply ((readData params c s).2, portByte (readData params c s).1) := rfl

/-- The operation a command byte decodes to is the write of that byte to the command port (R182). -/
theorem exec_decodePicCmd : exec (decodePicCmd c b) s = reply (writeCmd params c b s, okUnit) := by
  unfold writeCmd decodePicCmd
  repeat' split
  all_goals rfl

end

/-! ### Settled changes -/

/-- One controller replaced and the pair settled, as the rules state it. -/
theorem settledAfter_setPic (c : Ctrl) (q : Pic) (r : Result) (s : State) :
    SettledAfter c q r s { settle params (setPic c q s) with result := r } :=
  settledAfter_picCommand c (fun _ => q) r s

/-- A write row that changes its controller to `q` answers so. -/
theorem reply_picCommand {c : Ctrl} {f : Pic → Pic} {q : Pic} {s : State} (h : f (picOf s c) = q) :
    ∃ t, reply (picCommand params c f s, okUnit) = .next t ∧ SettledAfter c q (.ok .unit) s t :=
  ⟨_, rfl, h ▸ settledAfter_picCommand c f okUnit s⟩

/-! ### A data byte by the state of the sequence (R185) -/

section

variable {b : Byte} {p : Pic}

theorem applyData_expectICW2 (h : p.initState = .expectICW2) : applyData b p = applyICW2 b p := by
  rw [applyData, h]

theorem applyData_expectICW3 (h : p.initState = .expectICW3) : applyData b p = applyICW3 b p := by
  rw [applyData, h]

theorem applyData_expectICW4 (h : p.initState = .expectICW4) : applyData b p = applyICW4 b p := by
  rw [applyData, h]

theorem applyData_ready (h : p.initState = .ready) : applyData b p = applyOCW1 b p := by
  rw [applyData, h]

end

/-- The polled flag is set by its enable bit and never cleared by an OCW3 (R193). -/
theorem applyOCW3_eq (esmm smm pl rr ris : Bool) (p : Pic) :
    applyOCW3 esmm smm pl rr ris p =
      { p with
        specialMask := if esmm = true then smm else p.specialMask
        polled := pl || p.polled
        readSelectISR := if rr = true then ris else p.readSelectISR } := by
  cases pl <;> rfl

/-! ### Reads (R194 to R196) -/

section

variable (P : Params) {c : Ctrl} {s : State}

theorem readCmd_unpolled (h : (picOf s c).polled = false) :
    readCmd P c s = (if (picOf s c).readSelectISR then (picOf s c).isr else (picOf s c).irr, s) := by
  simp only [readCmd, h, Bool.false_eq_true, if_false]

theorem readData_unpolled (h : (picOf s c).polled = false) : readData P c s = ((picOf s c).imr, s) := by
  simp only [readData, h, Bool.false_eq_true, if_false]

theorem readCmd_polled (h : (picOf s c).polled = true) : readCmd P c s = pollRead P c s := if_pos h

theorem readData_polled (h : (picOf s c).polled = true) : readData P c s = pollRead P c s := if_pos h

/-- Leaving poll mode selects no other line. -/
theorem selected_unpolled (p : Pic) : selected { p with polled := false } = selected p :=
  selected_congr rfl rfl rfl rfl rfl rfl

theorem pollRead_of_none (h : selected (picOf s c) = none) :
    pollRead P c s = (pollByte none, settle P (setPic c { picOf s c with polled := false } s)) := by
  simp only [pollRead, selected_unpolled, h]

theorem pollRead_of_some {l : Fin 8} (h : selected (picOf s c) = some l) :
    pollRead P c s =
      (pollByte (some l), settle P (setPic c (takeLine l { picOf s c with polled := false }) s)) := by
  simp only [pollRead, selected_unpolled, h]

end

/-- The poll byte of a line: bit 7 and the line's number (R106). -/
theorem setWidth_pollByte (l : Fin 8) : (pollByte (some l)).setWidth 32 = 0x80 + BitVec.ofNat 32 l.val := by
  revert l; decide

/-! ### Widths -/

/-- Every width holds bits 7:0. -/
theorem setWidth_filler (w : Width) : (filler w).setWidth 8 = BitVec.allOnes 8 := by
  cases w <;> rfl

theorem lowByte_clip (w : Width) (v : Long) : lowByte (clip w v) = v.setWidth 8 := by
  rw [lowByte, clip, BitVec.setWidth_and, setWidth_filler, BitVec.and_allOnes]

/-- Every width holds a byte. -/
theorem clip_byte (w : Width) (b : Byte) : clip w (b.setWidth 32) = b.setWidth 32 := by
  have hlow : filler w &&& (0xFF : Long) = 0xFF := by cases w <;> rfl
  have hbyte : b.setWidth 32 &&& (0xFF : Long) = b.setWidth 32 := by
    rw [show (0xFF : Long) = (BitVec.allOnes 8).setWidth 32 from rfl, ← BitVec.setWidth_and, BitVec.and_allOnes]
  rw [clip, ← hbyte, BitVec.and_assoc, BitVec.and_comm 0xFF, hlow]

/-- A widened byte has ones above it, up to the width (R77). -/
theorem clip_widen (w : Width) (b : Byte) : clip w (widen w b) = wideByte w (b.setWidth 32) := by
  have hbyte := clip_byte w b
  unfold widen clip at *
  rw [BitVec.and_assoc, BitVec.and_self, BitVec.and_or_distrib_right, hbyte]
  cases w <;> simp [wideByte, filler]

/-! ### Accesses to the four ports -/

theorem picPortAt_cmdPort (c : Ctrl) : picPortAt params (cmdPort params c) = some (.cmd c) := by
  cases c <;> rfl

theorem picPortAt_dataPort (c : Ctrl) : picPortAt params (dataPort params c) = some (.data c) := by
  cases c <;> rfl

section

variable {a : Half} {port : PicPort} {attr : Attr} {s : State}

/-- A read of a PIC port is the row that reads its register, the byte widened (R181). -/
theorem readsAs_picPort {row : Instr} (hport : picPortAt params a = some port)
    (h : portEntry s a = some { owner := .pic, attr := attr }) (hr : attr ≠ .writeOnly)
    (hrow : exec row s = reply ((picPortRead params port s).2, portByte (picPortRead params port s).1)) :
    ReadsAs a row s := by
  refine ⟨_, _, hrow, rfl, fun w => ?_⟩
  rw [exec_busReadPort, busRead_of_entry params h hr]
  simp only [deviceRead, hport, clip_widen]
  rfl

/-- A write to a PIC port is the port's write of bits 7:0 (R182). -/
theorem exec_busWritePort_pic (hport : picPortAt params a = some port)
    (h : portEntry s a = some { owner := .pic, attr := attr }) (hw : attr ≠ .readOnly) (w : Width) (v : Long) :
    exec (.busWritePort a w v) s = reply (picPortWrite params port (v.setWidth 8) s, okUnit) := by
  rw [exec_busWritePort, busWrite_of_entry params h hw]
  simp only [deviceWrite, hport, lowByte_clip]

end

end Sys2Proof.Machine

namespace Sys2Proof.Proofs

open Sys2Proof.Machine
open Sys2Proof.Config (params)

/-- Settles O7: `picPortAt` finds the register of each port, a read is its row (`readsAs_picPort`), a command byte is the
operation it decodes to (`exec_decodePicCmd`), and the four names of a data byte have one meaning. -/
theorem picPortAccess : Obligations.PicPortAccess := by
  refine ⟨rfl, rfl, rfl, rfl, fun c attr s => ⟨fun h => ⟨fun hr => ?readCmd, fun hw w v => ?writeCmd⟩,
    fun h => ⟨fun hr => ?readData, fun hw w v => ?writeData⟩⟩⟩
  case readCmd => exact readsAs_picPort (picPortAt_cmdPort c) h hr (exec_picRdCmd c s)
  case writeCmd =>
    exact (exec_busWritePort_pic (picPortAt_cmdPort c) h hw w v).trans (exec_decodePicCmd c _ s).symm
  case readData => exact readsAs_picPort (picPortAt_dataPort c) h hr (exec_picRdData c s)
  case writeData =>
    have hwrite : exec (.busWritePort (dataPort params c) w v) s =
        reply (writeData params c (v.setWidth 8) s, okUnit) :=
      exec_busWritePort_pic (picPortAt_dataPort c) h hw w v
    exact ⟨hwrite.trans (exec_picOCW1 c _ s).symm, hwrite.trans (exec_picICW2 c _ s).symm,
      hwrite.trans (exec_picICW3 c _ s).symm, hwrite.trans (exec_picICW4 c _ s).symm⟩

/-- Settles O18: each word is one settled change of its controller (`reply_picCommand`), and a data byte is the word the
sequence expects (`applyData_expectICW2` and its like). -/
theorem initialisationWords : Obligations.InitialisationWords := by
  refine fun c s => ⟨fun ltim sngl ic4 => ?icw1, fun b h => ?icw2, fun b h => ?icw3, fun b h => ?icw4,
    fun b h => ?ocw1⟩
  case icw1 => rw [exec_picICW1]; exact reply_picCommand rfl
  case icw2 => rw [exec_picICW2]; exact reply_picCommand (applyData_expectICW2 h)
  case icw3 => rw [exec_picICW3]; exact reply_picCommand (applyData_expectICW3 h)
  case icw4 => rw [exec_picICW4]; exact reply_picCommand (applyData_expectICW4 h)
  case ocw1 => rw [exec_picOCW1]; exact reply_picCommand (applyData_ready h)

/-- Settles O19: the end-of-interrupt form is the call itself, every other operation word one settled change of its
controller. -/
theorem operationWords : Obligations.OperationWords := by
  refine fun c s => ⟨fun r sl l => ?eoi, ?rotAutoSet, ?rotAutoClr, fun l => ?setPrio, fun l => ?nop,
    fun esmm smm p rr ris => ?ocw3⟩
  case eoi => exact ⟨_, exec_picOCW2EOI c s r sl l, exec_picEndOfInterrupt c _ r s⟩
  case rotAutoSet => rw [exec_picOCW2RotAutoSet]; exact reply_picCommand rfl
  case rotAutoClr => rw [exec_picOCW2RotAutoClr]; exact reply_picCommand rfl
  case setPrio => rw [exec_picOCW2SetPrio]; exact reply_picCommand rfl
  case nop => rw [exec_picOCW2Nop]; exact reply_picCommand rfl
  case ocw3 => rw [exec_picOCW3]; exact reply_picCommand (applyOCW3_eq esmm smm p rr ris _)

/-- Settles O20: not polled, a read changes nothing; polled, either port makes the poll read, which takes the selected
line of its controller with `takeLine` and settles. -/
theorem picReads : Obligations.PicReads := by
  refine fun c s => ⟨fun h => ⟨?cmd, ?data⟩, fun h => ⟨?either, fun hnone => ?nothing, fun l hl => ?line⟩⟩
  case cmd => rw [exec_picRdCmd, readCmd_unpolled params h]; rfl
  case data => rw [exec_picRdData, readData_unpolled params h]; rfl
  case either => rw [exec_picRdData, exec_picRdCmd, readData_polled params h, readCmd_polled params h]
  case nothing =>
    rw [exec_picRdCmd, readCmd_polled params h, pollRead_of_none params hnone]
    exact ⟨_, rfl, settledAfter_setPic c _ _ s⟩
  case line =>
    rw [exec_picRdCmd, readCmd_polled params h, pollRead_of_some params hl, portByte, setWidth_pollByte]
    exact ⟨_, _, rfl, lineTaken_takeLine l _, settledAfter_setPic c _ _ s⟩

end Sys2Proof.Proofs
end

section
/-! SUPPORT. The Clock's operations (R212 to R219): the table that registration and reconfiguration leave, one visit of
a pulse to one slot, the pulse as ten visits, and pulses on a table of one timer (R224). -/

namespace Sys2Proof.Machine

open Sys2Proof.Config (params)

/-! ### The meanings of the operations -/

theorem exec_clkRegisterDevice (d : Device) (us : Nat) (continuous : Bool) (s : State) :
    exec (.clkRegisterDevice d us continuous) s = reply (registerDevice params d us continuous s) := rfl

theorem exec_clkResetTimer (d : Device) (us : Nat) (s : State) :
    exec (.clkResetTimer d us) s = reply (resetTimer params d us s) := rfl

theorem exec_clkSetTimerActiveState (d : Device) (active : Bool) (s : State) :
    exec (.clkSetTimerActiveState d active) s = reply (setTimerActiveState d active s) := rfl

theorem exec_clkSignalPulse (s : State) : exec .clkSignalPulse s = reply (signalPulse params s, okUnit) := rfl

theorem exec_clkPulse (s : State) : exec .clkPulse s = .next { pulse params s with result := okUnit } := rfl

/-- The operation is the update that a pulse makes of the channel, an absent channel included (R115, R215). -/
theorem exec_ataUpdate (ch : Nat) (s : State) :
    exec (.ataUpdate ch) s = .next { updateDevice params (.ata ch) s with result := okUnit } := by
  show reply (if hasChannel s ch then (ataUpdate params ch s, okUnit) else (s, okUnit)) =
    reply (if hasChannel s ch then ataUpdate params ch s else s, okUnit)
  split <;> rfl

/-! ### Registration and reconfiguration (R213, R216 to R218) -/

section

variable {d : Device} {s : State}

theorem registerDevice_full (h : 10 ≤ s.clk.timers.length) (us : Nat) (continuous : Bool) :
    registerDevice params d us continuous s = fail (.timerCapacityExceeded d) s := if_pos h

theorem registerDevice_free (h : s.clk.timers.length < 10) (us : Nat) (continuous : Bool) :
    registerDevice params d us continuous s =
      (setTimers
        (s.clk.timers ++
          [{ owner := d, interval := pulsesOf params us s, countdown := pulsesOf params us s, active := true,
             continuous := continuous }]) s, success) := if_neg (Nat.not_le.mpr h)

theorem resetTimer_none (h : lookupTimer s d = none) (us : Nat) :
    resetTimer params d us s = fail (.noSuchTimer d) s := by
  rw [resetTimer, h]

theorem resetTimer_some {i : Nat} (h : lookupTimer s d = some i) (us : Nat) :
    resetTimer params d us s =
      (modTimer i (fun x => { x with interval := pulsesOf params us s, countdown := pulsesOf params us s }) s,
       success) := by
  rw [resetTimer, h]

theorem setTimerActiveState_none (h : lookupTimer s d = none) (active : Bool) :
    setTimerActiveState d active s = fail (.noSuchTimer d) s := by
  rw [setTimerActiveState, h]

theorem setTimerActiveState_some {i : Nat} (h : lookupTimer s d = some i) (active : Bool) :
    setTimerActiveState d active s = (modTimer i (setActive active) s, success) := by
  rw [setTimerActiveState, h]

end

theorem setActive_eq (active : Bool) (x : Timer) :
    setActive active x =
      { x with
        active := active
        countdown := if active = true ∧ x.countdown = 0 then x.interval else x.countdown } := by
  simp [setActive]

/-! ### One slot changed -/

section

variable {i : Nat} {s : State} {x : Timer}

theorem slotBecomes_modTimer (hx : s.clk.timers[i]? = some x) (f : Timer → Timer) :
    SlotBecomes i (f x) s (modTimer i f s) := by
  refine ⟨rfl, fun j => ?_⟩
  rw [modTimer_getElem?, hx]
  rfl

theorem modTimer_congr (hx : s.clk.timers[i]? = some x) {f g : Timer → Timer} (h : f x = g x) :
    modTimer i f s = modTimer i g s := by
  refine congrArg (setTimers · s) (modifyAt_congr fun y hy => ?_)
  obtain rfl : x = y := Option.some.inj (hx.symm.trans hy)
  exact h

theorem modTimer_id (i : Nat) (s : State) : modTimer i id s = s := by
  refine congrArg (setTimers · s) (List.ext_getElem? fun j => ?_)
  rw [modifyAt_getElem?, Option.map_id]
  split
  · next hji => rw [hji]; rfl
  · rfl

theorem modTimer_of_fixed (hx : s.clk.timers[i]? = some x) {f : Timer → Timer} (h : f x = x) : modTimer i f s = s :=
  (modTimer_congr hx h).trans (modTimer_id i s)

theorem modTimer_of_free (hfree : s.clk.timers[i]? = none) (f : Timer → Timer) : modTimer i f s = s := by
  have hid : modTimer i f s = modTimer i id s :=
    congrArg (setTimers · s) (modifyAt_congr fun y hy => nomatch hfree.symm.trans hy)
  exact hid.trans (modTimer_id i s)

theorem modTimer_lone (h : s.clk.timers = [x]) (f : Timer → Timer) : modTimer 0 f s = setTimers [f x] s := by
  rw [modTimer, h]
  rfl

/-- An answer that changes one slot, as the rules of the Clock state it. -/
theorem reply_modTimer (hx : s.clk.timers[i]? = some x) (f : Timer → Timer) (r : Result) :
    ∃ t, reply (modTimer i f s, r) = .next t ∧
      t = { s with clk := { s.clk with timers := t.clk.timers }, result := r } ∧
      ∀ j, t.clk.timers[j]? = if j = i then some (f x) else s.clk.timers[j]? :=
  ⟨_, rfl, rfl, (slotBecomes_modTimer hx f).2⟩

end

/-! ### One visit of a pulse (R214) -/

/-- A slot after the count of a visit, before any callback. -/
def counted (x : Timer) : Timer := if x.active then { x with countdown := x.countdown - 1 } else x

/-- A slot whose count runs out at this visit. -/
abbrev Due (x : Timer) : Prop := x.active = true ∧ x.countdown ≤ 1

theorem counted_of_inactive {x : Timer} (h : x.active = false) : counted x = x := by simp [counted, h]

theorem counted_of_active {x : Timer} (h : x.active = true) :
    counted x = { x with countdown := x.countdown - 1 } := if_pos h

section

variable (P : Params) {i : Nat} {s : State} {x : Timer}

theorem pulseSlot_of_free (h : s.clk.timers[i]? = none) : pulseSlot P i s = s := by
  rw [pulseSlot, h]

/-- A visit counts the slot, and where the count has run out has the owner updated and the slot re-armed. -/
theorem pulseSlot_of_some (hx : s.clk.timers[i]? = some x) :
    pulseSlot P i s =
      if Due x then modTimer i rearm (updateDevice P x.owner (modTimer i counted s)) else modTimer i counted s := by
  by_cases ha : x.active = true
  · have hcount : modTimer i (fun y => { y with countdown := y.countdown - 1 }) s = modTimer i counted s :=
      modTimer_congr hx (counted_of_active ha).symm
    have hdue : Due x ↔ x.countdown - 1 = 0 := by simp [Due, ha, Nat.sub_eq_zero_iff_le]
    simp [pulseSlot, hx, ha, hdue, hcount]
  · rw [Bool.not_eq_true] at ha
    have hcount : modTimer i counted s = s := modTimer_of_fixed hx (counted_of_inactive ha)
    have hdue : ¬Due x := fun h => nomatch ha.symm.trans h.1
    simp [pulseSlot, hx, ha, hdue, hcount]

/-- With no callback to run, a visit is the count alone. -/
theorem pulseSlot_of_not_due (h : ∀ x, s.clk.timers[i]? = some x → ¬Due x) :
    pulseSlot P i s = modTimer i counted s := by
  cases hx : s.clk.timers[i]? with
  | none => rw [pulseSlot_of_free P hx, modTimer_of_free hx]
  | some x => rw [pulseSlot_of_some P hx, if_neg (h x hx)]

end

/-- An update callback is the one that the rules of the pulse name (R215). -/
theorem updated_updateDevice (d : Device) (s : State) : Updated d s (updateDevice params d s) := by
  cases d with
  | ata ch =>
    have hresult : (updateDevice params (.ata ch) s).result = s.result :=
      (parts_result params s.result).updateDevice _ s rfl
    exact ⟨_, exec_ataUpdate ch s, by rw [← hresult]⟩
  | ext n => exact rfl
  | pic => exact trivial

/-- Each visit is the one of R214: the callback leaves the slot in the table, so there is one to re-arm. -/
theorem slotVisited_pulseSlot (i : Nat) (s : State) : SlotVisited i s (pulseSlot params i s) := by
  unfold SlotVisited
  split
  · next hfree => exact pulseSlot_of_free params hfree
  · next x hx =>
    refine ⟨fun ha => ?inactive, fun ha hcount => ?running, fun ha hcount => ?due⟩
    case inactive =>
      have hdue : ¬Due x := fun h => nomatch ha.symm.trans h.1
      rw [pulseSlot_of_some params hx, if_neg hdue]
      exact modTimer_of_fixed hx (counted_of_inactive ha)
    case running =>
      have hdue : ¬Due x := fun h => absurd hcount (Nat.not_le.mpr (Nat.lt_succ_of_le h.2))
      rw [pulseSlot_of_some params hx, if_neg hdue, ← counted_of_active ha]
      exact slotBecomes_modTimer hx counted
    case due =>
      have hzero : counted x = { x with countdown := 0 } := by rw [counted_of_active ha, hcount]
      have hcounted := slotBecomes_modTimer hx counted
      have hgrows := (grows_channels _).updateDevice x.owner _ (Grows.refl (modTimer i counted s))
      obtain ⟨y, hy, -, -⟩ := hgrows.slots i (counted x) (by rw [hcounted.2 i, if_pos rfl])
      rw [pulseSlot_of_some params hx, if_pos ⟨ha, hcount.le⟩]
      exact ⟨_, _, y, hzero ▸ hcounted, updated_updateDevice _ _, hy, slotBecomes_modTimer hy rearm⟩

/-! ### The pulse as its visits -/

/-- The state after the first `n` visits of a pulse. -/
def visits (s : State) (n : Nat) : State := (List.range n).foldl (fun s i => pulseSlot params i s) s

theorem pulse_eq_visits (s : State) : pulse params s = visits s 10 := rfl

@[simp] theorem visits_zero (s : State) : visits s 0 = s := rfl

theorem visits_succ (s : State) (n : Nat) : visits s (n + 1) = pulseSlot params n (visits s n) := by
  simp [visits, List.range_succ]

/-- Visits past the end of the table change nothing. -/
theorem visits_of_le {s : State} {n m : Nat} (hn : (visits s n).clk.timers.length ≤ n) (hm : n ≤ m) :
    visits s m = visits s n := by
  induction m, hm using Nat.le_induction with
  | base => rfl
  | succ m hm ih =>
    rw [visits_succ, ih, pulseSlot_of_free params]
    exact List.getElem?_eq_none (hn.trans hm)

/-- The table with its first `n` slots counted. -/
def countedUpTo (n : Nat) (ts : List Timer) : List Timer := ts.mapIdx fun i x => if i < n then counted x else x

theorem countedUpTo_getElem? (n : Nat) (ts : List Timer) (j : Nat) :
    (countedUpTo n ts)[j]? = if j < n then (ts[j]?).map counted else ts[j]? := by
  rw [countedUpTo, List.getElem?_mapIdx]
  split <;> simp

theorem countedUpTo_zero (ts : List Timer) : countedUpTo 0 ts = ts := by
  apply List.ext_getElem?
  simp [countedUpTo_getElem?]

theorem countedUpTo_succ (n : Nat) (ts : List Timer) :
    countedUpTo (n + 1) ts = modifyAt (countedUpTo n ts) n counted := by
  apply List.ext_getElem?
  intro j
  simp only [modifyAt_getElem?, countedUpTo_getElem?]
  rcases Nat.lt_trichotomy j n with hj | rfl | hj
  · simp [hj, hj.ne, Nat.lt_succ_of_lt hj]
  · simp
  · simp [hj.ne', hj.not_gt, show ¬j < n + 1 by omega]

theorem countedUpTo_of_length_le {n : Nat} {ts : List Timer} (h : ts.length ≤ n) :
    countedUpTo n ts = ts.map counted := by
  apply List.ext_getElem?
  intro j
  rw [countedUpTo_getElem?, List.getElem?_map]
  split
  · rfl
  · next hj => simp [List.getElem?_eq_none (show ts.length ≤ j by omega)]

/-- With no slot due, the visits so far have counted the slots so far. -/
theorem visits_of_not_due {s : State} (h : ∀ x ∈ s.clk.timers, ¬Due x) (n : Nat) :
    visits s n = setTimers (countedUpTo n s.clk.timers) s := by
  induction n with
  | zero => rw [countedUpTo_zero]; rfl
  | succ n ih =>
    rw [visits_succ, ih, pulseSlot_of_not_due, countedUpTo_succ]
    · rfl
    · intro x hx
      rw [setTimers_timers, countedUpTo_getElem?, if_neg (Nat.lt_irrefl n)] at hx
      exact h x (List.mem_of_getElem? hx)

/-- A pulse on a table with no slot due counts every slot. -/
theorem pulse_of_not_due {s : State} (hlen : s.clk.timers.length ≤ 10) (h : ∀ x ∈ s.clk.timers, ¬Due x) :
    pulse params s = setTimers (s.clk.timers.map counted) s := by
  rw [pulse_eq_visits, visits_of_not_due h, countedUpTo_of_length_le hlen]

/-! ### A timer alone in the table -/

theorem completeDrive_clk (P : Params) (ch : Nat) (k : Fin 2) (s : State) :
    (completeDrive P ch k s).1.clk = s.clk := by
  unfold completeDrive
  split <;> rfl

/-- A channel's update reaches no timer (R286). -/
theorem ataUpdate_clk (ch : Nat) (s : State) : (ataUpdate params ch s).clk = s.clk := by
  have hdrives : (completeDrive params ch 1 (completeDrive params ch 0 s).1).1.clk = s.clk :=
    (completeDrive_clk _ _ _ _).trans (completeDrive_clk _ _ _ _)
  unfold ataUpdate
  dsimp only
  split
  · rw [raiseIrq_does]
    split <;> exact hdrives
  · exact hdrives

theorem updateDevice_ata_clk (ch : Nat) (s : State) : (updateDevice params (.ata ch) s).clk = s.clk := by
  show (if hasChannel s ch then ataUpdate params ch s else s).clk = s.clk
  split
  · exact ataUpdate_clk ch s
  · rfl

/-- A channel with no command under way (R46). -/
def Quiet (c : Channel) : Prop := c.drive0.isBusy = false ∧ c.drive1.isBusy = false

theorem completeDrive_of_not_busy (P : Params) {ch : Nat} {k : Fin 2} {s : State}
    (h : (driveOf (chan s ch) k).isBusy = false) : completeDrive P ch k s = (s, false) := by
  unfold completeDrive
  unfold Drive.isBusy at h
  cases hp : (driveOf (chan s ch) k).phase with
  | busy plan => simp [hp] at h
  | idle => rfl
  | dataIn => rfl
  | dataOut n tag => rfl

/-- The update of a channel with nothing to complete does nothing (R286). -/
theorem updateDevice_of_quiet (P : Params) {ch : Nat} {s : State} (h : Quiet (chan s ch)) :
    updateDevice P (.ata ch) s = s := by
  obtain ⟨h0, h1⟩ := h
  have hupdate : ataUpdate P ch s = s := by
    simp [ataUpdate, completeDrive_of_not_busy P (k := 0) h0, completeDrive_of_not_busy P (k := 1) h1]
  show (if hasChannel s ch then ataUpdate P ch s else s) = s
  rw [hupdate, ite_self]

section

variable {s : State} {x : Timer} {ch : Nat}

/-- A pulse on a table of one slot that leaves it so visits that slot alone. -/
theorem pulse_of_one (h : (pulseSlot params 0 s).clk.timers.length = 1) : pulse params s = pulseSlot params 0 s := by
  have hone : visits s 1 = pulseSlot params 0 s := visits_succ s 0
  rw [pulse_eq_visits, ← hone]
  exact visits_of_le (hone ▸ h.le) (by decide)

/-- A channel's timer alone in the table and due: the update runs with the timer at zero, then the timer is re-armed. -/
theorem pulse_of_lone_due (htable : s.clk.timers = [x]) (hown : x.owner = .ata ch) (hdue : Due x) :
    pulse params s = setTimers [rearm (counted x)] (updateDevice params (.ata ch) (setTimers [counted x] s)) := by
  have hvisit : pulseSlot params 0 s =
      setTimers [rearm (counted x)] (updateDevice params (.ata ch) (setTimers [counted x] s)) := by
    rw [pulseSlot_of_some params (x := x) (by rw [htable]; rfl), if_pos hdue, hown, modTimer_lone htable]
    exact modTimer_lone (congrArg Clk.timers (updateDevice_ata_clk ch _)) rearm
  rw [← hvisit]
  exact pulse_of_one (by rw [hvisit]; rfl)

end

/-- A slot after a pulse whose callback leaves the table alone. -/
def pulsed (x : Timer) : Timer := if Due x then rearm (counted x) else counted x

/-- A pulse on a timer that is alone in the table and belongs to a quiet channel changes that timer alone. -/
theorem pulse_of_lone {s : State} {x : Timer} {ch : Nat} (htable : s.clk.timers = [x]) (hown : x.owner = .ata ch)
    (hquiet : Quiet (chan s ch)) : pulse params s = setTimers [pulsed x] s := by
  by_cases hdue : Due x
  · have hidle : updateDevice params (.ata ch) (setTimers [counted x] s) = setTimers [counted x] s :=
      updateDevice_of_quiet params hquiet
    rw [pulse_of_lone_due htable hown hdue, hidle, pulsed, if_pos hdue]
    rfl
  · rw [pulse_of_not_due (by simp [htable]) (by simpa [htable] using hdue), htable, pulsed, if_neg hdue]
    rfl

theorem pulsed_owner (x : Timer) : (pulsed x).owner = x.owner := by
  have hcounted : (counted x).owner = x.owner := by unfold counted; split <;> rfl
  unfold pulsed
  split
  · exact (sameClient_rearm _).1.trans hcounted
  · exact hcounted

/-! ### Many pulses (R118, R224) -/

theorem performAll_clkPulses_succ (k : Nat) (s : State) :
    performAll (pseudoClkPulses (k + 1)) s =
      performAll (pseudoClkPulses k) { pulse params s with result := okUnit } := rfl

theorem performAll_clkPulses_of_lone {ch : Nat} (k : Nat) {s : State} {x : Timer} (htable : s.clk.timers = [x])
    (hown : x.owner = .ata ch) (hquiet : Quiet (chan s ch)) :
    ∃ t, performAll (pseudoClkPulses k) s = .next t ∧ t.clk.timers = [pulsed^[k] x] := by
  induction k generalizing s x with
  | zero => exact ⟨s, rfl, htable⟩
  | succ k ih =>
    rw [performAll_clkPulses_succ, pulse_of_lone htable hown hquiet]
    exact ih rfl ((pulsed_owner x).trans hown) hquiet

/-- The timer of R224: interval `n`, and so many pulses still to go. -/
def lone (d : Device) (n countdown : Nat) (active continuous : Bool) : Timer :=
  { owner := d, interval := n, countdown := countdown, active := active, continuous := continuous }

section

variable (d : Device) {n c : Nat} {k : Bool}

theorem pulsed_running (h : 2 ≤ c) : pulsed (lone d n c true k) = lone d n (c - 1) true k :=
  if_neg fun hdue => Nat.not_le.mpr h hdue.2

theorem pulsed_last_continuous : pulsed (lone d n 1 true true) = lone d n n true true := rfl

theorem pulsed_last_oneShot : pulsed (lone d n 1 true false) = lone d n 0 false false := rfl

theorem pulsed_inactive : pulsed (lone d n c false k) = lone d n c false k := if_neg fun hdue => nomatch hdue.1

end

/-- After `k` pulses a continuous timer is `k mod n` pulses into its period. -/
theorem pulsed_iterate_continuous (d : Device) {n : Nat} (hn : 1 ≤ n) (k : Nat) :
    pulsed^[k] (lone d n n true true) = lone d n (n - k % n) true true := by
  induction k with
  | zero => rw [Nat.zero_mod]; rfl
  | succ k ih =>
    have hk : k % n < n := Nat.mod_lt k hn
    rw [Function.iterate_succ_apply', ih, ← Nat.mod_add_mod k n 1]
    rcases Nat.lt_or_eq_of_le (Nat.add_one_le_of_lt hk) with hruns | hlast
    · rw [pulsed_running d (by omega), Nat.mod_eq_of_lt hruns, Nat.sub_sub]
    · rw [show n - k % n = 1 by omega, pulsed_last_continuous, hlast, Nat.mod_self, Nat.sub_zero]

/-- A one-shot timer runs out at pulse `n` and rests at zero from then on. -/
theorem pulsed_iterate_oneShot (d : Device) {n : Nat} (hn : 1 ≤ n) (k : Nat) :
    pulsed^[k] (lone d n n true false) = lone d n (n - k) (decide (k < n)) false := by
  induction k with
  | zero => rw [decide_eq_true (Nat.zero_lt_of_lt hn)]; rfl
  | succ k ih =>
    rw [Function.iterate_succ_apply', ih]
    rcases Nat.lt_trichotomy (k + 1) n with hruns | hlast | hspent
    · rw [decide_eq_true (by omega), decide_eq_true hruns, pulsed_running d (by omega), Nat.sub_sub]
    · rw [decide_eq_true (by omega), decide_eq_false (by omega), show n - k = 1 by omega, pulsed_last_oneShot,
        show n - (k + 1) = 0 by omega]
    · rw [decide_eq_false (by omega), decide_eq_false (by omega), pulsed_inactive,
        show n - k = n - (k + 1) by omega]

end Sys2Proof.Machine

namespace Sys2Proof.Proofs

open Sys2Proof.Machine
open Sys2Proof.Config (params)

/-- Settles O24: the two branches of `registerDevice`; the interval is `pulsesOf` at the present rate. -/
theorem timerRegistration : Obligations.TimerRegistration := by
  intro d us continuous s quantumOf pulsesIn hquantum hpulses
  have hin : pulsesIn = pulsesOf params us s := by
    subst hquantum hpulses
    rfl
  rw [hin, exec_clkRegisterDevice]
  refine ⟨fun hfree => ?free, fun hfull => ?full⟩
  case free => rw [registerDevice_free hfree]; rfl
  case full => rw [registerDevice_full hfull]; exact reply_raise _ _ s

/-- Settles O25: the look-up finds the least slot of the device (`lookupTimer_eq_some`), and each operation changes that
slot alone (`reply_modTimer`). -/
theorem timerReconfiguration : Obligations.TimerReconfiguration := by
  refine fun d s => ⟨fun i x hx hown hleast => ?owned, fun hnone => ?unowned⟩
  case owned =>
    have hlookup := lookupTimer_eq_some hx hown hleast
    refine ⟨fun us => ?_, fun active => ?_⟩
    · rw [exec_clkResetTimer, resetTimer_some hlookup]
      exact reply_modTimer hx _ _
    · rw [exec_clkSetTimerActiveState, setTimerActiveState_some hlookup, ← setActive_eq]
      exact reply_modTimer hx _ _
  case unowned =>
    have hlookup := lookupTimer_eq_none.mpr hnone
    refine ⟨fun us => ?_, fun active => ?_⟩
    · rw [exec_clkResetTimer, resetTimer_none hlookup]
      exact reply_raise _ _ s
    · rw [exec_clkSetTimerActiveState, setTimerActiveState_none hlookup]
      exact reply_raise _ _ s

/-- Settles O26: the two branches of `signalPulse`. -/
theorem signalPulse : Obligations.SignalPulse := by
  intro s
  rw [exec_clkSignalPulse, Machine.signalPulse]
  split <;> rfl

/-- Settles O27: no slot is due, so each visit is the count of its slot (`pulse_of_not_due`). -/
theorem pulseCountsDown : Obligations.PulseCountsDown := by
  intro s hlen hruns
  have hdue : ∀ x ∈ s.clk.timers, ¬Due x := fun x hx ⟨hactive, hcount⟩ =>
    Nat.not_le.mpr (Nat.lt_succ_of_le hcount) (hruns x hx hactive)
  rw [exec_clkPulse, pulse_of_not_due hlen hdue]
  rfl

/-- Settles O28: a channel's update leaves the timer table alone, so the lone timer is re-armed as it stood at zero
(`pulse_of_lone_due`); on any table the states between are those of `visits`, each from the one before by a visit of
R214 (`slotVisited_pulseSlot`). -/
theorem pulseFires : Obligations.PulseFires := by
  refine ⟨fun ch x s hch htable hown hactive hcount => ?lone, fun s => ?visits⟩
  case lone =>
    have hcounted : counted x = { x with countdown := 0 } := by rw [counted_of_active hactive, hcount]
    refine ⟨_, exec_ataUpdate ch _, ?_⟩
    rw [exec_clkPulse, pulse_of_lone_due htable hown ⟨hactive, hcount.le⟩, hcounted]
    rfl
  case visits =>
    refine ⟨visits s, visits_zero s, fun i _ => ?_, exec_clkPulse s⟩
    rw [visits_succ]
    exact slotVisited_pulseSlot i _

/-- Settles O29: on a quiet channel `k` pulses are `k` changes of the one timer (`performAll_clkPulses_of_lone`), and
`pulsed_iterate_continuous` and `pulsed_iterate_oneShot` say what is left of its count. -/
theorem timerPeriod : Obligations.TimerPeriod := by
  refine fun ch N s _ hN h0 h1 => ⟨fun htable k => ?continuous, fun htable k => ?oneShot⟩
  case continuous =>
    obtain ⟨t, hrun, htimers⟩ := performAll_clkPulses_of_lone k htable rfl ⟨h0, h1⟩
    exact ⟨t, hrun, htimers.trans (congrArg ([·]) (pulsed_iterate_continuous (.ata ch) hN k))⟩
  case oneShot =>
    obtain ⟨t, hrun, htimers⟩ := performAll_clkPulses_of_lone k htable rfl ⟨h0, h1⟩
    exact ⟨t, hrun, htimers.trans (congrArg ([·]) (pulsed_iterate_oneShot (.ata ch) hN k))⟩

end Sys2Proof.Proofs
end

section
/-! SUPPORT. The drives of an ATA channel (R245, R247 to R249): selection, the slot that a selector names, and the checks
of attach and detach, each of which undoes the other on an empty slot. -/

namespace Sys2Proof.Machine

open Sys2Proof.Config (params)

/-! ### The meanings of the operations -/

theorem exec_ataSetSelectedDriveIndex (ch k : Nat) (s : State) :
    exec (.ataSetSelectedDriveIndex ch k) s = reply (setSelectedDriveIndex ch k s) := rfl

theorem exec_ataInsert (sel : DriveSel) (carrier : Carrier) (image : Nat) (wp : Bool) (s : State) :
    exec (.ataInsert sel carrier image wp) s = reply (ataInsert params sel carrier image wp s) := rfl

theorem exec_ataEject (sel : DriveSel) (s : State) : exec (.ataEject sel) s = reply (ataEject params sel s) := rfl

/-! ### Selection (R245) -/

section

variable {ch k : Nat} {s : State}

theorem setSelectedDriveIndex_of_lt (hch : ch < s.ata.length) (hk : k < 2) :
    setSelectedDriveIndex ch k s = (modChan ch (fun c => { c with selected := ⟨k, hk⟩ }) s, okUnit) := by
  rw [setSelectedDriveIndex, dif_pos hk, if_pos ((hasChannel_iff s ch).mpr hch)]

theorem setSelectedDriveIndex_of_ge (hk : 2 ≤ k) :
    setSelectedDriveIndex ch k s = raise (.noSuchDriveIndex ch k) .unit s := dif_neg (Nat.not_lt.mpr hk)

end

/-! ### Selectors (R249) -/

theorem resolveSel_index (P : Params) (n : Nat) (s : State) :
    resolveSel P (.index n) s = if n / 2 < s.ata.length then some (n / 2, selDrive n) else none :=
  if_congr (hasChannel_iff s (n / 2)) rfl rfl

theorem resolveSel_index_eq_some (P : Params) (n ch : Nat) (k : Fin 2) (s : State) :
    resolveSel P (.index n) s = some (ch, k) ↔ ch = n / 2 ∧ k.val = n % 2 ∧ n / 2 < s.ata.length := by
  have hk : selDrive n = k ↔ k.val = n % 2 := by rw [Fin.ext_iff]; exact eq_comm
  rw [resolveSel_index, Option.ite_none_right_eq_some, Option.some.injEq, Prod.mk.injEq, hk, eq_comm (a := n / 2)]
  tauto

theorem resolveSel_index_eq_none (P : Params) (n : Nat) (s : State) :
    resolveSel P (.index n) s = none ↔ s.ata.length ≤ n / 2 := by
  rw [resolveSel_index]
  simp

section

variable {P : Params} {bytes : List Byte} (s : State)

theorem resolveSel_name_of_none (h : P.driveNames bytes = none) : resolveSel P (.name bytes) s = none := by
  simp only [resolveSel, h]

theorem resolveSel_name_of_some {n : Nat} (h : P.driveNames bytes = some n) :
    resolveSel P (.name bytes) s = resolveSel P (.index n) s := by
  simp only [resolveSel, h]

end

/-- A selector resolves by the number of channels alone. -/
theorem resolveSel_congr {s t : State} (h : t.ata.length = s.ata.length) (P : Params) (sel : DriveSel) :
    resolveSel P sel t = resolveSel P sel s := by
  have hsame : hasChannel t = hasChannel s := funext fun ch => by rw [hasChannel, h, hasChannel]
  simp only [resolveSel, hsame]

/-- A selector that resolves names a channel of the machine. -/
theorem lt_length_of_resolveSel {P : Params} {sel : DriveSel} {s : State} {ch : Nat} {k : Fin 2}
    (h : resolveSel P sel s = some (ch, k)) : ch < s.ata.length := by
  have hindex : ∀ n, resolveSel P (.index n) s = some (ch, k) → ch < s.ata.length := fun n hn => by
    obtain ⟨rfl, -, hlt⟩ := (resolveSel_index_eq_some P n ch k s).mp hn
    exact hlt
  cases sel with
  | index n => exact hindex n h
  | name bytes =>
    cases hname : P.driveNames bytes with
    | none => exact nomatch (resolveSel_name_of_none s hname).symm.trans h
    | some n => exact hindex n ((resolveSel_name_of_some s hname).symm.trans h)

/-! ### Attach and detach (R247, R248) -/

section

variable {P : Params} {sel : DriveSel} {ch : Nat} {k : Fin 2} {s : State}

theorem ataInsert_unresolved (h : resolveSel P sel s = none) (carrier : Carrier) (image : Nat) (wp : Bool) :
    ataInsert P sel carrier image wp s = fail (.noSuchDrive sel) s := by
  rw [ataInsert, h]

theorem ataEject_unresolved (h : resolveSel P sel s = none) : ataEject P sel s = fail (.noSuchDrive sel) s := by
  rw [ataEject, h]

/-- The four checks of an attach in their order. -/
theorem ataInsert_resolved (h : resolveSel P sel s = some (ch, k)) (carrier : Carrier) (image : Nat) (wp : Bool) :
    ataInsert P sel carrier image wp s =
      if carrier = .none then fail (.attachInvalid sel) s
      else if (chan s ch).drive0.phase ≠ .idle ∨ (chan s ch).drive1.phase ≠ .idle then fail (.driveBusy sel) s
      else if (driveOf (chan s ch) k).type ≠ .none then fail (.slotOccupied sel) s
      else if P.imageAddressable s.world carrier (roleOf k) image = true then
        (modDrive ch k (attach carrier image wp) s, success)
      else fail (.attachInvalid sel) s := by
  simp only [ataInsert, h, Bool.not_eq_true', ← Bool.not_eq_true, ite_not]

/-- The two checks of an eject in their order. -/
theorem ataEject_resolved (h : resolveSel P sel s = some (ch, k)) :
    ataEject P sel s =
      if (driveOf (chan s ch) k).type = .none then fail (.driveAbsent sel) s
      else if (driveOf (chan s ch) k).phase ≠ .idle then fail (.driveBusy sel) s
      else (modDrive ch k detach s, success) := by
  rw [ataEject, h]

/-- On an empty slot of an idle channel only the image is in question. -/
theorem ataInsert_of_empty (h : resolveSel P sel s = some (ch, k)) {carrier : Carrier} (hcarrier : carrier ≠ .none)
    (h0 : (chan s ch).drive0.phase = .idle) (h1 : (chan s ch).drive1.phase = .idle)
    (hempty : (driveOf (chan s ch) k).type = .none) (image : Nat) (wp : Bool) :
    ataInsert P sel carrier image wp s =
      if P.imageAddressable s.world carrier (roleOf k) image = true then
        (modDrive ch k (attach carrier image wp) s, success)
      else fail (.attachInvalid sel) s := by
  rw [ataInsert_resolved h, if_neg hcarrier, if_neg (by simp [h0, h1]), if_neg (not_not.mpr hempty)]

theorem ataEject_of_idle (h : resolveSel P sel s = some (ch, k)) (hpresent : (driveOf (chan s ch) k).type ≠ .none)
    (hidle : (driveOf (chan s ch) k).phase = .idle) : ataEject P sel s = (modDrive ch k detach s, success) := by
  rw [ataEject_resolved h, if_neg hpresent, if_neg (not_not.mpr hidle)]

end

theorem driveState_ne_absent_iff (c : Channel) (k : Fin 2) : driveState c k ≠ .absent ↔ (driveOf c k).type ≠ .none := by
  unfold driveState
  split_ifs <;> simp_all

/-- Both drives of a channel are idle, so each is. -/
theorem driveOf_phase_idle {c : Channel} (h0 : c.drive0.phase = .idle) (h1 : c.drive1.phase = .idle) (k : Fin 2) :
    (driveOf c k).phase = .idle := by
  unfold driveOf
  split
  · exact h0
  · exact h1

/-- A drive slot with the fields an absent drive has (R49). -/
structure Vacant (d : Drive) : Prop where
  type : d.type = .none
  image : d.image = none
  writeProtected : d.writeProtected = false
  ready : d.ready = false
  seekComplete : d.seekComplete = false

theorem detach_attach {d : Drive} (h : Vacant d) (carrier : Carrier) (image : Nat) (wp : Bool) :
    detach (attach carrier image wp d) = d := by
  cases d
  obtain ⟨rfl, rfl, rfl, rfl, rfl⟩ := h
  rfl

/-! ### One drive of one channel changed -/

section

variable {ch : Nat} {k : Fin 2} {s : State}

theorem chan_modDrive (h : ch < s.ata.length) (f : Drive → Drive) :
    chan (modDrive ch k f s) ch = onDrive k f (chan s ch) := chan_modChan h _

theorem modDrive_modDrive (f g : Drive → Drive) : modDrive ch k g (modDrive ch k f s) = modDrive ch k (g ∘ f) s := by
  rw [modDrive, modDrive, modChan_modChan]
  exact congrArg (modChan ch · s) (funext (onDrive_onDrive k f g))

theorem onDrive_of_fixed {f : Drive → Drive} {c : Channel} (h : f (driveOf c k) = driveOf c k) : onDrive k f c = c := by
  refine (onDrive_congr (g := id) h).trans ?_
  unfold onDrive
  split <;> rfl

theorem modChan_of_fixed (hch : ch < s.ata.length) {f : Channel → Channel} (h : f (chan s ch) = chan s ch) :
    modChan ch f s = s := by
  have hata : modifyAt s.ata ch f = s.ata := List.ext_getElem? fun j => by
    rw [modifyAt_getElem?, getElem?_chan hch, Option.map_some, h]
    split
    · next hj => rw [hj, getElem?_chan hch]
    · rfl
  rw [modChan, hata]

theorem modDrive_of_fixed (hch : ch < s.ata.length) {f : Drive → Drive}
    (h : f (driveOf (chan s ch) k) = driveOf (chan s ch) k) : modDrive ch k f s = s :=
  modChan_of_fixed hch (onDrive_of_fixed h)

/-- An eject after an attach to a vacant slot. -/
theorem modDrive_detach_attach (hch : ch < s.ata.length) (h : Vacant (driveOf (chan s ch) k)) (carrier : Carrier)
    (image : Nat) (wp : Bool) : modDrive ch k detach (modDrive ch k (attach carrier image wp) s) = s :=
  (modDrive_modDrive _ _).trans (modDrive_of_fixed hch (detach_attach h carrier image wp))

end

end Sys2Proof.Machine

namespace Sys2Proof.Proofs

open Sys2Proof.Machine
open Sys2Proof.Config (params)

/-- Settles O32: the two branches of `setSelectedDriveIndex` on an existing channel. -/
theorem selectDrive : Obligations.SelectDrive := by
  refine fun ch k s => ⟨fun hch hk => ?slot, fun hk => ?refused⟩
  case slot =>
    rw [exec_ataSetSelectedDriveIndex, setSelectedDriveIndex_of_lt hch hk]
    exact ⟨_, rfl, rfl, onlyChannel_modChan hch fun c => { c with selected := ⟨k, hk⟩ }⟩
  case refused =>
    rw [exec_ataSetSelectedDriveIndex, setSelectedDriveIndex_of_ge hk]
    exact reply_raise _ _ s

/-- Settles O33: what a selector resolves to, and then the checks of `ataInsert_resolved` and `ataEject_resolved`, case by
case. -/
theorem attachDetach : Obligations.AttachDetach := by
  refine ⟨fun n s => ⟨fun ch k => resolveSel_index_eq_some params n ch k s, resolveSel_index_eq_none params n s⟩,
    fun bytes s => ⟨resolveSel_name_of_none s, fun n => resolveSel_name_of_some s⟩,
    fun sel s => ⟨fun hnone => ⟨fun carrier image wp => ?insertNone, ?ejectNone⟩,
      fun ch k hsome => ⟨fun carrier image wp => ?insert, ?eject⟩⟩⟩
  case insertNone => exact congrArg reply (ataInsert_unresolved hnone carrier image wp)
  case ejectNone => exact congrArg reply (ataEject_unresolved hnone)
  case insert =>
    rw [exec_ataInsert, ataInsert_resolved hsome]
    split_ifs <;> rfl
  case eject =>
    rw [exec_ataEject, ataEject_resolved hsome]
    split_ifs <;> rfl

/-- Settles O34: on a vacant slot of an idle channel an attach turns on the image alone (`ataInsert_of_empty`), and the
eject puts back each field that it wrote (`modDrive_detach_attach`). -/
theorem insertEjectRoundTrip : Obligations.InsertEjectRoundTrip := by
  intro sel ch k carrier image wp s hsel hcarrier h0 h1 htype himage hwp hready hseek
  have hch := lt_length_of_resolveSel hsel
  rw [exec_ataInsert, ataInsert_of_empty hsel hcarrier h0 h1 htype]
  split_ifs with hadmitted
  case pos =>
    refine ⟨_, rfl, rfl, ?_⟩
    generalize ht : ({ modDrive ch k (attach carrier image wp) s with result := success } : State) = t
    have hdrive : driveOf (chan t ch) k = attach carrier image wp (driveOf (chan s ch) k) := by
      rw [← ht]
      exact (congrArg (driveOf · k) (chan_modDrive hch _)).trans (driveOf_onDrive k _ _)
    have hpresent : (driveOf (chan t ch) k).type ≠ .none := by rwa [hdrive]
    have hidle : (driveOf (chan t ch) k).phase = .idle := by rw [hdrive]; exact driveOf_phase_idle h0 h1 k
    have hsel' : resolveSel params sel t = some (ch, k) := by
      rw [← ht]
      exact (resolveSel_congr (modifyAt_length _ _ _) params sel).trans hsel
    refine ⟨(driveState_ne_absent_iff _ _).mpr hpresent, ?_⟩
    rw [exec_ataEject, ataEject_of_idle hsel' hpresent hidle, ← ht]
    exact congrArg (fun u : State => Host.Outcome.next { u with result := success })
      (modDrive_detach_attach hch ⟨htype, himage, hwp, hready, hseek⟩ carrier image wp)
  case neg => exact ⟨_, rfl, rfl⟩

end Sys2Proof.Proofs
end

section
/-! SUPPORT. The reset of an ATA channel in its steps (R241 to R244): bases, line and ports, then the timer, then the
pending interrupt. Each step says what it changes, and the channel it leaves. -/

namespace Sys2Proof.Machine

open Sys2Proof.Config (params)

theorem exec_ataReset {ch : Nat} {s : State} (hch : ch < s.ata.length) :
    exec (.ataReset ch) s = reply (ataReset params ch s) := onChannel_of_lt hch _ _

/-- A change of a channel after changes of other things. -/
theorem onlyChannel_modChan_of_eq {ch : Nat} {s u : State} (hch : ch < s.ata.length) (hata : u.ata = s.ata)
    (f : Channel → Channel) : OnlyChannel ch (f (chan s ch)) s (modChan ch f u) := by
  intro j
  rw [modChan_ata, hata]
  exact onlyChannel_modChan hch f j

/-! ### The line requested (R152) -/

/-- A request reads the owner map alone. -/
theorem requestIRQNumber_modChan (P : Params) (d : Device) (ch : Nat) (f : Channel → Channel) (s : State) :
    requestIRQNumber P d (modChan ch f s) =
      (modChan ch f (requestIRQNumber P d s).1, (requestIRQNumber P d s).2) := by
  have hlines : linesOf (modChan ch f s) d = linesOf s d := rfl
  have hfree : freeLine P (modChan ch f s) = freeLine P s := rfl
  unfold requestIRQNumber
  rw [hlines, hfree]
  cases linesOf s d with
  | cons n rest => rfl
  | nil => cases freeLine P s <;> rfl

/-- A request logs exactly when it answers no line. -/
theorem requestIRQNumber_log (d : Device) (s : State) :
    (requestIRQNumber params d s).1.log =
      s.log ++ if lineResult (requestIRQNumber params d s).2 < 0 then [.irqExhausted d] else [] := by
  have hline : ∀ n : Nat, ¬lineResult (.ok (.line n)) < 0 := fun n => Int.not_lt.mpr (Int.natCast_nonneg n)
  cases hlines : linesOf s d with
  | cons n rest => rw [requestIRQNumber_again hlines, if_neg (hline n), List.append_nil]
  | nil =>
    cases hfree : freeLine params s with
    | some n => rw [requestIRQNumber_first hlines hfree, if_neg (hline n), List.append_nil]
    | none => rw [requestIRQNumber_exhausted hlines hfree]; rfl

/-- A line that a request answers is a device line. -/
theorem device_line_of_requestIRQNumber {d : Device} {s : State} (hs : MapsOk s) {n : Nat}
    (hn : lineResult (requestIRQNumber params d s).2 = n) : n < 16 ∧ n ≠ 2 := by
  have hrange := (lineOf_requestIRQNumber d hs).range (mapsOk_requestIRQNumber d s hs)
  omega

/-! ### Bases, line and ports (steps 1 to 3) -/

/-- The ten ports of the default channel (R242). -/
theorem channelPorts_default {c : Channel} (h1 : c.ioBase1 = 0x1F0) (h2 : c.ioBase2 = 0x3F0) :
    channelPorts params c = [0x1F0, 0x1F1, 0x1F2, 0x1F3, 0x1F4, 0x1F5, 0x1F6, 0x1F7, 0x3F6, 0x3F7] := by
  rw [channelPorts, h1, h2]
  rfl

/-- The default channel with its bases and the line it has been answered. -/
def rewired (line : Int) (c : Channel) : Channel := { c with ioBase1 := 0x1F0, ioBase2 := 0x3F0, irqNumber := line }

/-- The line number that the default channel's request answers. -/
def requestedLine (s : State) : Int := lineResult (requestIRQNumber params (.ata 0) s).2

theorem ataResetLine_default (s : State) :
    ataResetLine params 0 (ataResetBases params 0 s) =
      (modChan 0 (rewired (requestedLine s)) (requestIRQNumber params (.ata 0) s).1, decide (0 ≤ requestedLine s)) := by
  unfold ataResetLine ataResetBases
  rw [requestIRQNumber_modChan]
  dsimp only
  rw [modChan_modChan]
  rfl

theorem registerPorts_ata (ports : List Half) (d : Device) (s : State) : (registerPorts ports d s).ata = s.ata := by
  rw [registerPorts_eq]

/-- What steps 1 to 3 of the default channel's reset make of `s`. -/
structure PortsReset (s u : State) : Prop where
  frame : u = { s with
    bus := u.bus, irqOwner := (requestIRQNumber params (.ata 0) s).1.irqOwner, ata := u.ata,
    log := (requestIRQNumber params (.ata 0) s).1.log }
  channel : OnlyChannel 0 (rewired (requestedLine s) (chan s 0)) s u
  ports : ∀ a : Half, portEntry u a =
    if a ∈ [0x1F0, 0x1F1, 0x1F2, 0x1F3, 0x1F4, 0x1F5, 0x1F6, 0x1F7, 0x3F6, 0x3F7] then
      portAfter (portEntry s a) (.ata 0) .rw
    else portEntry s a

theorem portsReset {s : State} (hch : 0 < s.ata.length) :
    PortsReset s (ataResetPorts params 0 (ataResetLine params 0 (ataResetBases params 0 s)).1) := by
  rw [ataResetLine_default]
  have hframe := requestIRQNumber_eq params (.ata 0) s
  have hata : (requestIRQNumber params (.ata 0) s).1.ata = s.ata := by rw [hframe]
  have hchannel := onlyChannel_modChan_of_eq hch hata (rewired (requestedLine s))
  have hports := channelPorts_default (congrArg Channel.ioBase1 hchannel.chan_eq)
    (congrArg Channel.ioBase2 hchannel.chan_eq)
  rw [ataResetPorts, hports]
  refine ⟨?frame, ?channel, fun a => ?ports⟩
  case frame =>
    generalize (requestIRQNumber params (.ata 0) s).1 = r at hframe ⊢
    rw [registerPorts_eq]
    generalize (registerPorts _ _ _).bus = bus
    rw [hframe]
    rfl
  case channel =>
    intro j
    rw [registerPorts_ata]
    exact hchannel j
  case ports =>
    rw [portEntry_registerPorts]
    have hbus : (requestIRQNumber params (.ata 0) s).1.bus = s.bus := by rw [hframe]
    simp only [portEntry, modChan_bus, hbus]

/-! ### The timer (step 4, R244) -/

/-- A channel's one-shot timer as its registration adds it, for a command delay of so many pulses. -/
def commandTimer (ch pulses : Nat) : Timer :=
  { owner := .ata ch, interval := pulses, countdown := pulses, active := true, continuous := false }

/-- The timer added to the table and noted in the channel. -/
def timerAdded (ch : Nat) (s : State) : State :=
  modChan ch (fun c => { c with timerRegistered := true })
    (setTimers (s.clk.timers ++ [commandTimer ch (pulsesOf params params.ataCmdDelayUs s)]) s)

theorem lookupTimer_timerAdded (ch : Nat) (s : State) : lookupTimer (timerAdded ch s) (.ata ch) ≠ none := fun h =>
  lookupTimer_eq_none.mp h (commandTimer ch (pulsesOf params params.ataCmdDelayUs s))
    (List.mem_append_right _ (List.mem_singleton_self _)) rfl

section

variable {ch : Nat} {s : State}

theorem ataResetTimer_again (h : (chan s ch).timerRegistered = true) :
    ataResetTimer params ch s = (parkTimer ch s, true) := if_pos h

theorem ataResetTimer_first (h : (chan s ch).timerRegistered = false) (hfree : s.clk.timers.length < 10) :
    ataResetTimer params ch s = (parkTimer ch (timerAdded ch s), true) := by
  rw [ataResetTimer, h, registerDevice_free hfree]
  rfl

theorem ataResetTimer_full (h : (chan s ch).timerRegistered = false) (hfull : 10 ≤ s.clk.timers.length) :
    ataResetTimer params ch s = (logged (.timerCapacityExceeded (.ata ch)) s, false) := by
  rw [ataResetTimer, h, registerDevice_full hfull]
  rfl

end

/-- A table whose least slot of the channel has been made inactive, and every other slot kept. -/
def LeastParked (ch : Nat) (table table' : List Timer) : Prop :=
  ∀ i, table'[i]? =
    if table.findIdx? (fun x => x.owner == .ata ch) = some i then (table[i]?).map fun x => { x with active := false }
    else table[i]?

/-- What step 4 makes of the timer table, by whether the channel is registered already. -/
structure TimerTableReset (ch pulses : Nat) (registered : Bool) (table table' : List Timer) : Prop where
  first : registered = false → table.length < 10 → LeastParked ch (table ++ [commandTimer ch pulses]) table'
  full : registered = false → 10 ≤ table.length → table' = table
  again : registered = true → LeastParked ch table table'

/-- What step 4 logs. -/
def timerResetLog (ch : Nat) (registered : Bool) (table : List Timer) : List Diagnostic :=
  if registered = true then
    if table.findIdx? (fun x => x.owner == .ata ch) = none then [.noSuchTimer (.ata ch)] else []
  else if table.length < 10 then [] else [.timerCapacityExceeded (.ata ch)]

/-- What step 4 of a channel's reset makes of `s`, and whether the channel then has its timer. -/
structure TimerReset (ch : Nat) (s t : State) (had : Bool) : Prop where
  frame : t = { s with clk := { s.clk with timers := t.clk.timers }, ata := t.ata, log := t.log }
  channel : OnlyChannel ch { chan s ch with timerRegistered := had } s t
  had : had = ((chan s ch).timerRegistered || decide (s.clk.timers.length < 10))
  table : TimerTableReset ch (pulsesOf params params.ataCmdDelayUs s) (chan s ch).timerRegistered s.clk.timers
    t.clk.timers
  log : t.log = s.log ++ timerResetLog ch (chan s ch).timerRegistered s.clk.timers

theorem onlyChannel_of_ata_eq {ch : Nat} {s t : State} (hch : ch < s.ata.length) (hata : t.ata = s.ata) :
    OnlyChannel ch (chan s ch) s t := by
  intro j
  rw [hata]
  exact onlyChannel_self hch j

section

variable {ch : Nat} {s : State} (hch : ch < s.ata.length)

include hch

theorem timerReset_again (hreg : (chan s ch).timerRegistered = true) : TimerReset ch s (parkTimer ch s) true := by
  obtain ⟨hframe, htable, hlog⟩ := parkTimer_does ch s
  have hnot : ¬(chan s ch).timerRegistered = false := by rw [hreg]; exact Bool.true_eq_false.mp
  refine ⟨?frame, ?channel, ?had, ⟨fun h => absurd h hnot, fun h => absurd h hnot, fun _ => htable⟩, ?log⟩
  case frame => rw [hframe]
  case channel =>
    rw [← hreg]
    exact onlyChannel_of_ata_eq hch (by rw [hframe])
  case had => rw [hreg, Bool.true_or]
  case log => rw [hlog, timerResetLog, if_pos hreg]; rfl

theorem timerReset_first (hreg : (chan s ch).timerRegistered = false) (hfree : s.clk.timers.length < 10) :
    TimerReset ch s (parkTimer ch (timerAdded ch s)) true := by
  obtain ⟨hframe, htable, hlog⟩ := parkTimer_does ch (timerAdded ch s)
  have hnot : ¬(chan s ch).timerRegistered = true := Bool.not_eq_true _ ▸ hreg
  refine ⟨?frame, ?channel, ?had, ⟨fun _ _ => htable, fun _ hfull => ?full, fun h => absurd h hnot⟩, ?log⟩
  case frame => rw [hframe]; rfl
  case channel =>
    rw [hframe]
    exact onlyChannel_modChan hch fun c => { c with timerRegistered := true }
  case had => rw [decide_eq_true hfree, Bool.or_true]
  case full => exact absurd hfree (Nat.not_lt.mpr hfull)
  case log =>
    rw [hlog, if_neg (lookupTimer_timerAdded ch s), timerResetLog, if_neg hnot, if_pos hfree]
    rfl

theorem timerReset_full (hreg : (chan s ch).timerRegistered = false) (hfull : 10 ≤ s.clk.timers.length) :
    TimerReset ch s (logged (.timerCapacityExceeded (.ata ch)) s) false := by
  have hnot : ¬(chan s ch).timerRegistered = true := Bool.not_eq_true _ ▸ hreg
  have hused : ¬s.clk.timers.length < 10 := Nat.not_lt.mpr hfull
  refine ⟨rfl, ?channel, ?had, ⟨fun _ h => absurd h hused, fun _ _ => rfl, fun h => absurd h hnot⟩, ?log⟩
  case channel =>
    rw [← hreg]
    exact onlyChannel_of_ata_eq hch rfl
  case had => rw [hreg, decide_eq_false hused, Bool.or_false]
  case log => rw [timerResetLog, if_neg hnot, if_neg hused]; rfl

theorem timerReset : TimerReset ch s (ataResetTimer params ch s).1 (ataResetTimer params ch s).2 := by
  cases hreg : (chan s ch).timerRegistered with
  | true =>
    rw [ataResetTimer_again hreg]
    exact timerReset_again hch hreg
  | false =>
    rcases Nat.lt_or_ge s.clk.timers.length 10 with hfree | hfull
    · rw [ataResetTimer_first hreg hfree]
      exact timerReset_first hch hreg hfree
    · rw [ataResetTimer_full hreg hfull]
      exact timerReset_full hch hreg hfull

end

/-! ### The pending interrupt (step 5) -/

/-- The channel with its interrupt lowered and its flags clear (R241). -/
def quieted (c : Channel) : Channel := { c with irqRaised := false, nIEN := false, srst := false }

section

variable {ch : Nat} {s : State}

theorem ataResetIrq_raised (hraised : (chan s ch).irqRaised = true) {n : Nat} (hn : (chan s ch).irqNumber = n) :
    ataResetIrq params ch s = modChan ch quieted (clearIRQ params n s).1 := by
  simp only [ataResetIrq, irqLine, hraised, hn, Int.natCast_nonneg, decide_true, Bool.and_self, if_true,
    Int.toNat_natCast]
  rfl

theorem ataResetIrq_quiet (h : (chan s ch).irqRaised = false ∨ (chan s ch).irqNumber < 0) :
    ataResetIrq params ch s = modChan ch quieted s := by
  have hcond : ((chan s ch).irqRaised && decide (0 ≤ (chan s ch).irqNumber)) = false := by
    rcases h with h | h
    · rw [h, Bool.false_and]
    · rw [decide_eq_false (Int.not_le.mpr h), Bool.and_false]
  simp only [ataResetIrq, hcond, Bool.false_eq_true, if_false]
  rfl

end

/-- What step 5 of a channel's reset makes of `s`. -/
structure LineReset (ch : Nat) (s t : State) : Prop where
  frame : t = { s with picM := t.picM, picS := t.picS, ata := t.ata }
  channel : OnlyChannel ch (quieted (chan s ch)) s t
  quiet : (chan s ch).irqRaised = false ∨ (chan s ch).irqNumber < 0 → t.picM = s.picM ∧ t.picS = s.picS
  lowered : ∀ n : Nat, (chan s ch).irqRaised = true → (chan s ch).irqNumber = n →
    t.picM = (clearIRQ params n s).1.picM ∧ t.picS = (clearIRQ params n s).1.picS

theorem lineReset {ch : Nat} {s : State} (hch : ch < s.ata.length)
    (hline : ∀ n : Nat, (chan s ch).irqNumber = n → n < 16 ∧ n ≠ 2) :
    LineReset ch s (ataResetIrq params ch s) := by
  by_cases h : (chan s ch).irqRaised = false ∨ (chan s ch).irqNumber < 0
  · rw [ataResetIrq_quiet h]
    refine ⟨rfl, onlyChannel_modChan hch quieted, fun _ => ⟨rfl, rfl⟩, fun n hraised hn => ?lowered⟩
    case lowered =>
      rw [hraised, hn] at h
      exact absurd h (by simp)
  · rw [not_or, Bool.not_eq_false, Int.not_lt] at h
    obtain ⟨hraised, hnonneg⟩ := h
    obtain ⟨n, hn⟩ := Int.eq_ofNat_of_zero_le hnonneg
    obtain ⟨hlt, hne⟩ := hline n hn
    obtain ⟨-, hframe, -⟩ := clearIRQ_line hlt hne s _ rfl
    rw [ataResetIrq_raised hraised hn]
    have hata : (clearIRQ params n s).1.ata = s.ata := by rw [hframe]
    refine ⟨modChan_of_pics hframe ch quieted, onlyChannel_modChan_of_eq hch hata quieted, ?quiet,
      fun m _ hm => ?lowered⟩
    case quiet =>
      rw [hraised, hn]
      simp
    case lowered =>
      obtain rfl : n = m := Int.ofNat.inj (hn.symm.trans hm)
      exact ⟨rfl, rfl⟩

/-! ### The controllers on their own -/

section

variable {s t : State} (hM : t.picM = s.picM) (hS : t.picS = s.picS)

include hM hS

theorem picOf_congr (c : Ctrl) : picOf t c = picOf s c := by
  cases c
  · exact hM
  · exact hS

theorem linePin_congr (n : Nat) : linePin t n = linePin s n := by
  rw [linePin, picOf_congr hM hS, linePin]

theorem lineIrr_congr (n : Nat) : lineIrr t n = lineIrr s n := by
  rw [lineIrr, picOf_congr hM hS, lineIrr]

/-- What a clear does to the controllers depends on the controllers alone. -/
theorem clearIRQ_pics_congr (P : Params) (n : Nat) :
    (clearIRQ P n t).1.picM = (clearIRQ P n s).1.picM ∧ (clearIRQ P n t).1.picS = (clearIRQ P n s).1.picS := by
  unfold clearIRQ
  rw [picOf_congr hM hS]
  split
  · exact ⟨hM, hS⟩
  · cases ctrlOfLine n with
    | M => simp [hS]
    | S => simp [hM]

end

/-- A cleared line reads low, and with edge sensing keeps its request (R142). -/
theorem line_of_cleared {s t : State} {n : Nat} (hlt : n < 16) (hne : n ≠ 2)
    (hM : t.picM = (clearIRQ params n s).1.picM) (hS : t.picS = (clearIRQ params n s).1.picS) :
    linePin t n = false ∧ ((picOf s (ctrlOfLine n)).levelTriggered = false → lineIrr t n = lineIrr s n) := by
  obtain ⟨-, -, -, -, -, hlines⟩ := clearIRQ_line hlt hne s _ rfl
  obtain ⟨hpin, hirr⟩ := hlines n hlt hne
  refine ⟨?_, fun hedge => ?_⟩
  · rw [linePin_congr hM hS, hpin, if_pos rfl]
  · rw [lineIrr_congr hM hS, hirr, hedge, if_neg fun h => Bool.false_ne_true h.2]

/-! ### The whole reset -/

/-- The default channel as its reset leaves it, with the line it was answered and whether it has its timer. -/
def resetChannel (line : Int) (had : Bool) (c : Channel) : Channel :=
  { c with
    drive0 := driveResetOf c.drive0, drive1 := driveResetOf c.drive1, selected := 0, ioBase1 := 0x1F0,
    ioBase2 := 0x3F0, irqNumber := line, nIEN := false, srst := false, irqRaised := false, timerRegistered := had }

/-- The machine `u` after steps 1 to 3 of the default channel's reset, `v` after step 4 and `w` after step 5. -/
structure ResetSteps (s u v w : State) (had : Bool) : Prop where
  ports : PortsReset s u
  timer : TimerReset 0 u v had
  line : LineReset 0 v w

/-- What a reset answers, from the line and the timer it had (R241). -/
def resetResult (line : Int) (had : Bool) : Result := if decide (0 ≤ line) && had then success else .failed

theorem resetResult_eq_success_iff (line : Int) (had : Bool) :
    resetResult line had = success ↔ 0 ≤ line ∧ had = true := by
  simp [resetResult, success]

theorem resetResult_of_ne_success {line : Int} {had : Bool} (h : resetResult line had ≠ success) :
    resetResult line had = .failed := if_neg fun hboth => h (if_pos hboth)

/-- The default channel's reset is its steps, with the drives last. -/
theorem ataReset_steps {s : State} (hch : 0 < s.ata.length) (hmaps : MapsOk s) :
    ∃ u v w had, ResetSteps s u v w had ∧
      ataReset params 0 s = (ataResetDrives 0 w, resetResult (requestedLine s) had) := by
  have hports := portsReset hch
  have htimer := timerReset hports.channel.lt_length
  refine ⟨_, _, _, _, ⟨hports, htimer, lineReset htimer.channel.lt_length fun n hn => ?line⟩, ?steps⟩
  case line =>
    rw [htimer.channel.chan_eq, hports.channel.chan_eq] at hn
    exact device_line_of_requestIRQNumber hmaps hn
  case steps =>
    rw [ataReset, ataResetLine_default]
    rfl

section

variable {s u v w : State} {had : Bool} (h : ResetSteps s u v w had)

include h

/-- The whole machine after the reset, each field from the last step that changes it. -/
theorem ResetSteps.machine_eq :
    ∃ ata, ataResetDrives 0 w = { s with
      bus := u.bus, picM := w.picM, picS := w.picS, irqOwner := (requestIRQNumber params (.ata 0) s).1.irqOwner,
      clk := { s.clk with timers := v.clk.timers }, ata := ata, log := v.log } := by
  refine ⟨(ataResetDrives 0 w).ata, ?_⟩
  rw [ataResetDrives, modChan, h.line.frame, h.timer.frame, h.ports.frame]

theorem ResetSteps.clk_eq : u.clk = s.clk := by rw [h.ports.frame]

theorem ResetSteps.pics_eq : v.picM = s.picM ∧ v.picS = s.picS := by
  rw [h.timer.frame, h.ports.frame]
  exact ⟨rfl, rfl⟩

theorem ResetSteps.registered_eq : (chan u 0).timerRegistered = (chan s 0).timerRegistered := by
  rw [h.ports.channel.chan_eq]
  rfl

theorem ResetSteps.had_eq : had = ((chan s 0).timerRegistered || decide (s.clk.timers.length < 10)) := by
  rw [h.timer.had, h.registered_eq, h.clk_eq]

theorem ResetSteps.table : TimerTableReset 0 (pulsesOf params params.ataCmdDelayUs s) (chan s 0).timerRegistered
    s.clk.timers v.clk.timers := by
  have hpulses : pulsesOf params params.ataCmdDelayUs u = pulsesOf params params.ataCmdDelayUs s := by
    rw [h.ports.frame]
    rfl
  rw [← h.registered_eq, ← h.clk_eq, ← hpulses]
  exact h.timer.table

theorem ResetSteps.log :
    v.log = s.log ++ (if requestedLine s < 0 then [.irqExhausted (.ata 0)] else []) ++
      timerResetLog 0 (chan s 0).timerRegistered s.clk.timers := by
  have hlog : u.log = (requestIRQNumber params (.ata 0) s).1.log := by rw [h.ports.frame]
  rw [h.timer.log, hlog, requestIRQNumber_log, h.registered_eq, h.clk_eq]
  rfl

/-- The interrupt of the channel stands as before when step 5 comes to it, on the new line. -/
theorem ResetSteps.pending :
    (chan v 0).irqRaised = (chan s 0).irqRaised ∧ (chan v 0).irqNumber = requestedLine s := by
  rw [h.timer.channel.chan_eq, h.ports.channel.chan_eq]
  exact ⟨rfl, rfl⟩

theorem ResetSteps.channel : OnlyChannel 0 (resetChannel (requestedLine s) had (chan s 0)) s (ataResetDrives 0 w) := by
  have hdrives := onlyChannel_modChan h.line.channel.lt_length
    fun c => onBothDrives driveResetOf { c with selected := 0 }
  rw [h.line.channel.chan_eq, h.timer.channel.chan_eq, h.ports.channel.chan_eq] at hdrives
  exact h.ports.channel.trans (h.timer.channel.trans (h.line.channel.trans hdrives))

theorem ResetSteps.pics_of_quiet (hquiet : (chan s 0).irqRaised = false ∨ requestedLine s < 0) :
    w.picM = s.picM ∧ w.picS = s.picS := by
  obtain ⟨hraised, hnumber⟩ := h.pending
  rw [← hraised, ← hnumber] at hquiet
  obtain ⟨hM, hS⟩ := h.line.quiet hquiet
  exact ⟨hM.trans h.pics_eq.1, hS.trans h.pics_eq.2⟩

theorem ResetSteps.pics_of_raised {n : Nat} (hraised : (chan s 0).irqRaised = true) (hn : requestedLine s = n) :
    w.picM = (clearIRQ params n s).1.picM ∧ w.picS = (clearIRQ params n s).1.picS := by
  obtain ⟨hsame, hnumber⟩ := h.pending
  obtain ⟨hM, hS⟩ := h.line.lowered n (hsame.trans hraised) (hnumber.trans hn)
  obtain ⟨hMs, hSs⟩ := clearIRQ_pics_congr h.pics_eq.1 h.pics_eq.2 params n
  exact ⟨hM.trans hMs, hS.trans hSs⟩

end

end Sys2Proof.Machine

namespace Sys2Proof.Proofs

open Sys2Proof.Machine
open Sys2Proof.Config (params)

/-- Settles O30: the reset is its steps (`ataReset_steps`), and each clause is what the step that makes the change says of
it: the ports of steps 1 to 3, the timer table and its diagnostics of step 4, the line that step 5 lowers. -/
theorem ataReset : Obligations.AtaReset := by
  intro s hch hmaps _
  obtain ⟨u, v, w, had, hsteps, hreset⟩ := ataReset_steps hch hmaps
  obtain ⟨ata, hmachine⟩ := hsteps.machine_eq
  have hchannel := hsteps.channel
  rw [hmachine] at hreset hchannel
  have hnumber : (chan _ 0).irqNumber = requestedLine s := congrArg Channel.irqNumber hchannel.chan_eq
  have hflag : (chan _ 0).timerRegistered = had := congrArg Channel.timerRegistered hchannel.chan_eq
  refine ⟨_, (exec_ataReset hch).trans (congrArg reply hreset), rfl, ?channel, rfl, hsteps.ports.ports,
    fun hreg hfree table htable => ?first, hsteps.table.full, hsteps.table.again, fun hquiet => ?quiet,
    fun n hraised hn => ?lowered, ?log, ?success, resetResult_of_ne_success⟩
  case channel =>
    rw [hsteps.had_eq] at hchannel
    exact hchannel
  case first => exact htable ▸ hsteps.table.first hreg hfree
  case quiet => exact hsteps.pics_of_quiet (hquiet.imp_right hnumber.symm.trans_lt)
  case lowered =>
    have hline : requestedLine s = n := hnumber.symm.trans hn
    obtain ⟨hlt, hne⟩ := device_line_of_requestIRQNumber hmaps hline
    obtain ⟨hM, hS⟩ := hsteps.pics_of_raised hraised hline
    exact ⟨⟨_, exec_picClearIRQ n s, hM, hS⟩, line_of_cleared hlt hne hM hS⟩
  case log =>
    refine hsteps.log.trans ?_
    rw [← hnumber]
    rfl
  case success =>
    exact (resetResult_eq_success_iff _ _).trans
      (iff_of_eq (congrArg₂ (fun line flag => 0 ≤ line ∧ flag = true) hnumber hflag).symm)

end Sys2Proof.Proofs
end

section
/-! SUPPORT. The task registers of an ATA channel (R273 to R278, R283, R285, R288 to R290): what an operation means on a
channel the machine has, the bytes computed from flags, and the registers that a write sets on both drives. -/

namespace Sys2Proof.Machine

open Sys2Proof.Config (params)

/-! ### The meanings of the operations -/

section

variable {ch : Nat} {s : State} (hch : ch < s.ata.length)

include hch

theorem exec_ataRdError : exec (.ataRdError ch) s = reply (s, portByte (selectedDrive (chan s ch)).error) :=
  onChannel_of_lt hch _ _

theorem exec_ataRdParam (o : ParamReg) :
    exec (.ataRdParam ch o) s = reply (s, portByte (paramOf (selectedDrive (chan s ch)) o)) :=
  onChannel_of_lt hch _ _

theorem exec_ataRdDrvHead : exec (.ataRdDrvHead ch) s = reply (s, portByte (drvHeadByte (chan s ch))) :=
  onChannel_of_lt hch _ _

theorem exec_ataRdStatus : exec (.ataRdStatus ch) s = reply (lowerIrq params ch s, portByte (channelStatus s ch)) :=
  onChannel_of_lt hch _ _

theorem exec_ataRdAltStatus : exec (.ataRdAltStatus ch) s = reply (s, portByte (channelStatus s ch)) :=
  onChannel_of_lt hch _ _

theorem exec_ataRdDrvAddr : exec (.ataRdDrvAddr ch) s = reply (s, portByte 0xFF) := onChannel_of_lt hch _ _

theorem exec_ataRdData (w : Width) :
    exec (.ataRdData ch w) s = reply ((readDataReg ch w s).2, .ok (.port w (readDataReg ch w s).1)) :=
  onChannel_of_lt hch _ _

theorem exec_ataWrFeatures (b : Byte) : exec (.ataWrFeatures ch b) s = reply (writeFeatures ch b s, okUnit) :=
  onChannel_of_lt hch _ _

theorem exec_ataWrParam (o : ParamReg) (b : Byte) : exec (.ataWrParam ch o b) s = reply (writeParam ch o b s, okUnit) :=
  onChannel_of_lt hch _ _

theorem exec_ataWrDrvHead (lba drv : Bool) (head : BitVec 4) :
    exec (.ataWrDrvHead ch lba drv head) s = reply (writeDrvHead ch lba drv head s, okUnit) :=
  onChannel_of_lt hch _ _

theorem exec_ataWrCommand (b : Byte) : exec (.ataWrCommand ch b) s = reply (writeCommand params ch b s, okUnit) :=
  onChannel_of_lt hch _ _

theorem exec_ataWrDevCtl (srst nien : Bool) :
    exec (.ataWrDevCtl ch srst nien) s = reply (writeDevCtl params ch srst nien s, okUnit) :=
  onChannel_of_lt hch _ _

theorem exec_ataWrDrvAddr (b : Byte) : exec (.ataWrDrvAddr ch b) s = reply (s, okUnit) := onChannel_of_lt hch _ _

theorem exec_ataWrData (w : Width) (v : Long) :
    exec (.ataWrData ch w v) s = reply (writeDataReg params ch w (clip w v) s, okUnit) :=
  onChannel_of_lt hch _ _

theorem exec_ataUpdate_of_lt : exec (.ataUpdate ch) s = reply (ataUpdate params ch s, okUnit) :=
  onChannel_of_lt hch _ _

end

/-- An operation that leaves the machine as it was. -/
theorem reply_self (s : State) (r : Result) : reply (s, r) = .next { s with result := r } := rfl

/-- The frame of a change is the frame of the operation that answers with it. -/
theorem result_congr {s t : State} (h : t = s) (r : Result) :
    ({ t with result := r } : State) = { s with result := r } := congrArg (fun u : State => { u with result := r }) h

/-- An operation that changes its channel and nothing else. -/
theorem reply_modChan {ch : Nat} {s : State} (hch : ch < s.ata.length) (f : Channel → Channel) (r : Result) :
    ∃ t, reply (modChan ch f s, r) = .next t ∧ t = { s with ata := t.ata, result := r } ∧
      OnlyChannel ch (f (chan s ch)) s t :=
  ⟨_, rfl, rfl, onlyChannel_modChan hch f⟩

/-! ### Bytes computed from flags (R273, R278) -/

/-- The status bits are distinct, so their union is their sum. -/
theorem setWidth_statusByte (srst : Bool) (d : Drive) :
    (statusByte srst d).setWidth 32 = BitVec.ofNat 32 (statusSum srst d) := by
  have bits : ∀ bsy rdy dsc drq err : Bool,
      (flagBit 0x80 bsy ||| flagBit 0x40 rdy ||| flagBit 0x10 dsc ||| flagBit 0x08 drq |||
          flagBit 0x01 err).setWidth 32 =
        BitVec.ofNat 32
          (0x80 * bsy.toNat + 0x40 * rdy.toNat + 0x10 * dsc.toNat + 0x08 * drq.toNat + err.toNat) := by
    decide
  unfold statusByte statusSum
  split
  · rfl
  · exact bits _ _ _ _ _

/-- The drive/head byte's fields do not overlap, so their union is their sum. -/
theorem setWidth_drvHeadByte (c : Channel) :
    (drvHeadByte c).setWidth 32 =
      BitVec.ofNat 32
        (0xA0 + 0x40 * (selectedDrive c).lba.toNat + 0x10 * c.selected.val + (selectedDrive c).head.toNat) := by
  have fields : ∀ (lba : Bool) (k : Fin 2) (head : BitVec 4),
      (0xA0 ||| flagBit 0x40 lba ||| flagBit 0x10 (decide (k = 1)) ||| head.setWidth 8).setWidth 32 =
        BitVec.ofNat 32 (0xA0 + 0x40 * lba.toNat + 0x10 * k.val + head.toNat) := by
    decide
  exact fields _ _ _

/-! ### Writes of the command block (R274, R276, R277, R290) -/

theorem writeIgnored_iff (c : Channel) : writeIgnored c = true ↔ c.srst = true ∨ (selectedDrive c).isBusy = true := by
  rw [writeIgnored, Bool.or_eq_true]

theorem writeIgnored_eq_false {c : Channel} (hsrst : c.srst = false) (hbusy : (selectedDrive c).isBusy = false) :
    writeIgnored c = false := by
  rw [writeIgnored, hsrst, hbusy, Bool.or_false]

section

variable {ch : Nat} {s : State}

theorem writeBoth_ignored (h : writeIgnored (chan s ch) = true) (f : Drive → Drive) : writeBoth ch f s = s := if_pos h

theorem writeBoth_heeded (h : writeIgnored (chan s ch) = false) (f : Drive → Drive) :
    writeBoth ch f s = modChan ch (onBothDrives f) s := if_neg (Bool.eq_false_iff.mp h)

theorem writeDrvHead_ignored (h : writeIgnored (chan s ch) = true) (lba drv : Bool) (head : BitVec 4) :
    writeDrvHead ch lba drv head s = s := if_pos h

/-- Head and addressing reach both drives before the selection moves (R277). -/
theorem writeDrvHead_heeded (hch : ch < s.ata.length) (h : writeIgnored (chan s ch) = false) (lba drv : Bool)
    (head : BitVec 4) :
    writeDrvHead ch lba drv head s =
      modChan ch
        (fun c => { onBothDrives (fun d => { d with head := head, lba := lba }) c with selected := slotOfBool drv })
        s := by
  have hch' : ch < (modChan ch (onBothDrives fun d => { d with head := head, lba := lba }) s).ata.length := by
    rwa [modChan_ata, modifyAt_length]
  rw [writeDrvHead, if_neg (Bool.eq_false_iff.mp h), setSelectedDriveIndex_of_lt hch' (slotOfBool drv).isLt]
  exact modChan_modChan ch _ _ s

/-- A register set on both drives is the whole effect of its write. -/
theorem reply_writeBoth (hch : ch < s.ata.length) (h : writeIgnored (chan s ch) = false) (f : Drive → Drive) :
    ∃ t, reply (writeBoth ch f s, okUnit) = .next t ∧ t = { s with ata := t.ata, result := .ok .unit } ∧
      OnlyChannel ch (onBothDrives f (chan s ch)) s t := by
  rw [writeBoth_heeded h]
  exact reply_modChan hch _ _

end

end Sys2Proof.Machine

namespace Sys2Proof.Proofs

open Sys2Proof.Machine
open Sys2Proof.Config (params)

/-- Settles O39: each read answers a byte of the selected drive and leaves the machine alone; the two computed bytes are
sums because their bits are distinct (`setWidth_drvHeadByte`, `setWidth_statusByte`). -/
theorem taskRegisterReads : Obligations.TaskRegisterReads := by
  refine fun ch s hch => ⟨exec_ataRdError hch, exec_ataRdParam hch _, exec_ataRdParam hch _, exec_ataRdParam hch _,
    exec_ataRdParam hch _, ?drvHead, ?altStatus, exec_ataRdDrvAddr hch⟩
  case drvHead => rw [exec_ataRdDrvHead hch, portByte, setWidth_drvHeadByte, reply_self]
  case altStatus => rw [exec_ataRdAltStatus hch, portByte, channelStatus, setWidth_statusByte, reply_self]

/-- Settles O41: the gate of R274 decides between no change (`writeBoth_ignored`, `writeDrvHead_ignored`) and one change
of the channel (`reply_writeBoth`, `writeDrvHead_heeded`). -/
theorem taskRegisterWrites : Obligations.TaskRegisterWrites := by
  refine fun ch s hch => ⟨fun b => exec_ataWrDrvAddr hch b, fun hgate => ?ignored, fun hsrst hbusy => ?heeded⟩
  case ignored =>
    have h := (writeIgnored_iff _).mpr hgate
    refine ⟨fun b => ?_, fun o b => ?_, fun lba drv head => ?_⟩
    · rw [exec_ataWrFeatures hch, writeFeatures, writeBoth_ignored h, reply_self]; rfl
    · rw [exec_ataWrParam hch, writeParam, writeBoth_ignored h, reply_self]; rfl
    · rw [exec_ataWrDrvHead hch, writeDrvHead_ignored h, reply_self]; rfl
  case heeded =>
    have h := writeIgnored_eq_false hsrst hbusy
    have param (o : ParamReg) (b : Byte) : ∃ t, exec (.ataWrParam ch o b) s = .next t ∧
        t = { s with ata := t.ata, result := .ok .unit } ∧
          OnlyChannel ch (onBothDrives (setParam o b) (chan s ch)) s t := by
      rw [exec_ataWrParam hch]
      exact reply_writeBoth hch h _
    refine ⟨fun b => ?features, param .sectorCount, param .sectorNumber, param .cylLow, param .cylHigh,
      fun lba drv head => ?drvHead⟩
    case features =>
      rw [exec_ataWrFeatures hch]
      exact reply_writeBoth hch h _
    case drvHead =>
      rw [exec_ataWrDrvHead hch, writeDrvHead_heeded hch h]
      exact reply_modChan hch _ _

end Sys2Proof.Proofs
end

section
/-! SUPPORT. The interrupt line of an ATA channel under its registers: the status read (R279), and the two bits of
device control (R284), each bit with all that writing it does. -/

namespace Sys2Proof.Machine

open Sys2Proof.Config (params)

/-! ### Lowering the line (R287) -/

section

variable {ch : Nat} {s : State}

theorem loweredPics_of_lowered (h : (chan s ch).irqRaised = false) : loweredPics ch s = (s.picM, s.picS) := by
  rw [loweredPics, h]
  rfl

/-- What lowering a channel's line does to the controllers depends on them, on the line and on whether it is raised. -/
theorem loweredPics_congr {u : State} (hM : u.picM = s.picM) (hS : u.picS = s.picS)
    (hline : (chan u ch).irqNumber = (chan s ch).irqNumber) (hraised : (chan u ch).irqRaised = (chan s ch).irqRaised) :
    loweredPics ch u = loweredPics ch s := by
  obtain ⟨hclearM, hclearS⟩ := clearIRQ_pics_congr hM hS params (irqLine (chan s ch))
  have hoperand : irqLine (chan u ch) = irqLine (chan s ch) := congrArg Int.toNat hline
  rw [loweredPics, loweredPics, hraised, hoperand, hclearM, hclearS, hM, hS]

end

/-- The channel's line has been lowered: the controllers have followed, its channel has become `c`, and nothing else has
changed. -/
structure LineLowered (ch : Nat) (c : Channel) (s t : State) : Prop where
  frame : t = { s with picM := t.picM, picS := t.picS, ata := t.ata }
  pics : (t.picM, t.picS) = loweredPics ch s
  channel : OnlyChannel ch c s t

theorem lineLowered_lowerIrq {ch : Nat} {s : State} (hch : ch < s.ata.length) (hok : ChannelOk (chan s ch)) :
    LineLowered ch { chan s ch with irqRaised := false } s (lowerIrq params ch s) := by
  obtain ⟨hframe, hchannel⟩ := lowerIrq_does hch hok
  have hM : (lowerIrq params ch s).picM = (loweredPics ch s).1 := by rw [hframe]
  have hS : (lowerIrq params ch s).picS = (loweredPics ch s).2 := by rw [hframe]
  exact ⟨by rw [hM, hS]; exact hframe, Prod.ext hM hS, hchannel⟩

/-- The line lowered after a flag of the channel has been written. -/
theorem lineLowered_modChan {ch : Nat} {s : State} (hch : ch < s.ata.length) (hok : ChannelOk (chan s ch))
    {f : Channel → Channel} (hf : ∀ c, ChannelStep c (f c)) (hraised : ∀ c, (f c).irqRaised = c.irqRaised) :
    LineLowered ch { f (chan s ch) with irqRaised := false } s (lowerIrq params ch (modChan ch f s)) := by
  have hset := onlyChannel_modChan hch f
  obtain ⟨hline, hform⟩ := hf (chan s ch)
  have hlowered := lineLowered_lowerIrq hset.lt_length (by rw [hset.chan_eq]; exact hform hok)
  rw [hset.chan_eq] at hlowered
  have hpics : loweredPics ch (modChan ch f s) = loweredPics ch s :=
    loweredPics_congr rfl rfl (by rw [hset.chan_eq, hline]) (by rw [hset.chan_eq, hraised])
  exact ⟨hlowered.frame, hlowered.pics.trans hpics, hset.trans hlowered.channel⟩

/-! ### What device control reaches -/

/-- Nothing but the controllers, the channels, the timer table and the log has changed. -/
def DevCtlReach (s t : State) : Prop :=
  t = { s with
    picM := t.picM, picS := t.picS, ata := t.ata, clk := { s.clk with timers := t.clk.timers }, log := t.log }

theorem DevCtlReach.trans {s u t : State} (h : DevCtlReach s u) (h' : DevCtlReach u t) : DevCtlReach s t := by
  unfold DevCtlReach at *
  rw [h] at h'
  exact h'

theorem devCtlReach_modChan (ch : Nat) (f : Channel → Channel) (s : State) : DevCtlReach s (modChan ch f s) := rfl

/-! ### The interrupt disable bit (R284) -/

/-- The channel with its interrupt disable bit written. -/
def nienWritten (nien : Bool) (c : Channel) : Channel :=
  { c with nIEN := nien, irqRaised := if nien = true then false else c.irqRaised }

/-- What a write of the interrupt disable bit makes of `s`. -/
structure NIENWritten (ch : Nat) (nien : Bool) (s t : State) : Prop where
  frame : t = { s with picM := t.picM, picS := t.picS, ata := t.ata }
  pics : (t.picM, t.picS) = if nien = true then loweredPics ch s else (s.picM, s.picS)
  channel : OnlyChannel ch (nienWritten nien (chan s ch)) s t

theorem channelStep_nienWritten (nien : Bool) (c : Channel) : ChannelStep c (nienWritten nien c) := by
  cases nien with
  | false => exact ⟨rfl, id⟩
  | true => exact channelStep_lowered _

section

variable {ch : Nat} {s : State} (hch : ch < s.ata.length) (hok : ChannelOk (chan s ch))

include hch hok

theorem nienWritten_writeNIEN (nien : Bool) : NIENWritten ch nien s (writeNIEN params ch nien s) := by
  cases nien with
  | false => exact ⟨rfl, rfl, onlyChannel_modChan hch fun c => { c with nIEN := false }⟩
  | true =>
    have h := lineLowered_modChan hch hok (f := fun c => { c with nIEN := true }) (fun _ => ⟨rfl, id⟩) fun _ => rfl
    exact ⟨h.frame, h.pics, h.channel⟩

end

section

variable {ch : Nat} {nien : Bool} {s u : State} (h : NIENWritten ch nien s u)

include h

/-- Lowering the line after the disable bit is written comes to lowering it before: it is never lowered twice. -/
theorem NIENWritten.loweredPics_eq : loweredPics ch u = loweredPics ch s := by
  obtain ⟨-, hpics, hchannel⟩ := h
  have hchan := hchannel.chan_eq
  cases nien with
  | false =>
    obtain ⟨hM, hS⟩ := Prod.mk.inj hpics
    exact loweredPics_congr hM hS (by rw [hchan]; rfl) (by rw [hchan]; rfl)
  | true => exact (loweredPics_of_lowered (by rw [hchan]; rfl)).trans hpics

theorem NIENWritten.clk_eq : u.clk = s.clk := by rw [h.frame]

theorem NIENWritten.log_eq : u.log = s.log := by rw [h.frame]

theorem NIENWritten.reach : DevCtlReach s u := h.frame.trans (by rw [h.clk_eq, h.log_eq])

theorem NIENWritten.timersKept : TimersKept s u := ⟨by rw [h.clk_eq], h.log_eq⟩

end

/-! ### The software reset bit (R284) -/

section

variable {ch : Nat} {s : State} (hch : ch < s.ata.length) (hok : ChannelOk (chan s ch))

include hch hok

/-- A rising software reset has lowered the line and parked the timer, and its channel has become `c`. -/
structure ResetRisen (ch : Nat) (c : Channel) (s t : State) : Prop where
  reach : DevCtlReach s t
  pics : (t.picM, t.picS) = loweredPics ch s
  channel : OnlyChannel ch c s t
  timers : ∀ i, t.clk.timers[i]? =
    if lookupTimer s (.ata ch) = some i then (s.clk.timers[i]?).map fun x => { x with active := false }
    else s.clk.timers[i]?
  log : t.log = s.log ++ if lookupTimer s (.ata ch) = none then [.noSuchTimer (.ata ch)] else []

theorem resetRisen_writeSRST (hsrst : (chan s ch).srst = false) :
    ResetRisen ch (onBothDrives dropCommand { chan s ch with irqRaised := false, srst := true }) s
      (writeSRST params ch true s) := by
  have h := lineLowered_modChan hch hok (f := fun c => { c with srst := true }) (fun _ => ⟨rfl, id⟩) fun _ => rfl
  have hwrite : writeSRST params ch true s = modChan ch (onBothDrives dropCommand)
      (parkTimer ch (lowerIrq params ch (modChan ch (fun c => { c with srst := true }) s))) :=
    if_pos (by rw [hsrst]; rfl)
  rw [hwrite]
  generalize lowerIrq params ch (modChan ch (fun c => { c with srst := true }) s) = u at h
  obtain ⟨hframe, htimers, hlog⟩ := parkTimer_does ch u
  have hata : (parkTimer ch u).ata = u.ata := by rw [hframe]
  have hdropped := onlyChannel_modChan_of_eq h.channel.lt_length hata (onBothDrives dropCommand)
  rw [h.channel.chan_eq] at hdropped
  have hlookup : lookupTimer u (.ata ch) = lookupTimer s (.ata ch) := lookupTimer_congr (by rw [h.frame]) _
  have hclk : u.clk = s.clk := by rw [h.frame]
  have hlogu : u.log = s.log := by rw [h.frame]
  rw [hlookup, hclk] at htimers
  rw [hlookup, hlogu] at hlog
  refine ⟨?reach, ?pics, h.channel.trans hdropped, htimers, hlog⟩
  case reach =>
    unfold DevCtlReach
    rw [modChan, hframe, h.frame]
  case pics => rw [modChan_picM, modChan_picS, hframe]; exact h.pics

end

/-- A rise after the disable bit is written, seen from before that write. -/
theorem NIENWritten.risen {ch : Nat} {nien : Bool} {c : Channel} {s u t : State} (h : NIENWritten ch nien s u)
    (hrisen : ResetRisen ch c u t) : ResetRisen ch c s t := by
  obtain ⟨hreach, hpics, hchannel, htimers, hlog⟩ := hrisen
  have hlookup : lookupTimer u (.ata ch) = lookupTimer s (.ata ch) := lookupTimer_congr (by rw [h.clk_eq]) _
  rw [hlookup, h.clk_eq] at htimers
  rw [hlookup, h.log_eq] at hlog
  exact ⟨h.reach.trans hreach, hpics.trans h.loweredPics_eq, h.channel.trans hchannel, htimers, hlog⟩

/-- A falling software reset selects the master and resets both drives. -/
theorem writeSRST_fallen {ch : Nat} {s : State} (hsrst : (chan s ch).srst = true) :
    writeSRST params ch false s =
      modChan ch (fun c => onBothDrives driveResetOf { c with srst := false, selected := 0 }) s := by
  simp [writeSRST, hsrst]

/-- Without an edge the bit stands as it is written. -/
theorem writeSRST_same (ch : Nat) (s : State) : writeSRST params ch (chan s ch).srst s = s := by
  simp [writeSRST]

end Sys2Proof.Machine

namespace Sys2Proof.Proofs

open Sys2Proof.Machine
open Sys2Proof.Config (params)

/-- Settles O40: the status byte is the sum of its bits (`setWidth_statusByte`), and the read lowers the line as
`lowerIrq_does` says. -/
theorem readStatus : Obligations.ReadStatus := by
  intro ch s hch hok
  obtain ⟨hframe, hchannel⟩ := lowerIrq_does hch hok
  refine ⟨_, exec_ataRdStatus hch, ?_, hchannel⟩
  rw [channelStatus, portByte, setWidth_statusByte]
  exact result_congr hframe _

/-- Settles O42: the disable bit is written first (`nienWritten_writeNIEN`), then the reset bit, whose rise, fall and
rest are `resetRisen_writeSRST`, `writeSRST_fallen` and `writeSRST_same`. -/
theorem deviceControl : Obligations.DeviceControl := by
  intro ch srst nien s hch hok
  have hnien := nienWritten_writeNIEN hch hok nien
  refine ⟨_, exec_ataWrDevCtl hch srst nien, ?_⟩
  rw [writeDevCtl]
  generalize writeNIEN params ch nien s = u at hnien
  have hchu := hnien.channel.lt_length
  have hchan := hnien.channel.chan_eq
  have hsame : (chan u ch).srst = (chan s ch).srst := by rw [hchan]; rfl
  by_cases hrise : srst = true ∧ (chan s ch).srst = false
  case pos =>
    rw [if_pos (.inr hrise), if_pos hrise]
    obtain ⟨rfl, hlow⟩ := hrise
    have hoku : ChannelOk (chan u ch) := hchan ▸ (channelStep_nienWritten nien _).2 hok
    have h := hnien.risen (resetRisen_writeSRST hchu hoku (hsame.trans hlow))
    rw [hchan] at h
    exact ⟨result_congr h.reach _, h.pics, h.channel, h.timers, h.log⟩
  case neg =>
    have hpics : (u.picM, u.picS) =
        if nien = true ∨ (srst = true ∧ (chan s ch).srst = false) then loweredPics ch s else (s.picM, s.picS) := by
      rw [hnien.pics]
      simp only [hrise, or_false]
    rw [if_neg hrise]
    by_cases hfall : srst = false ∧ (chan s ch).srst = true
    · rw [if_pos hfall]
      obtain ⟨rfl, hhigh⟩ := hfall
      rw [writeSRST_fallen (hsame.trans hhigh)]
      have hreset := onlyChannel_modChan hchu fun c => onBothDrives driveResetOf { c with srst := false, selected := 0 }
      rw [hchan] at hreset
      exact ⟨result_congr (hnien.reach.trans (devCtlReach_modChan ch _ u)) _, hpics, hnien.channel.trans hreset,
        hnien.timersKept⟩
    · rw [if_neg hfall]
      have hrest : srst = (chan u ch).srst := by
        rw [hsame]
        cases srst with
        | false => exact (Bool.eq_false_iff.mpr fun hhigh => hfall ⟨rfl, hhigh⟩).symm
        | true => exact (Bool.eq_true_of_not_eq_false fun hlow => hrise ⟨rfl, hlow⟩).symm
      rw [hrest, writeSRST_same]
      exact ⟨result_congr hnien.reach _, hrest ▸ hpics, hnien.channel, hnien.timersKept⟩

end Sys2Proof.Proofs
end

section
/-! SUPPORT. The data register of an ATA channel (R281, R282): the bytes of a port value and the number that bytes join
to, what a data-in transfer hands out, and the timer armed after a change of the channel (R280). -/

namespace Sys2Proof.Machine

open Sys2Proof.Config (params)

/-! ### Bytes and numbers (R75) -/

theorem joinLE_lt (l : List Byte) : joinLE l < 256 ^ l.length := by
  induction l with
  | nil => exact Nat.one_pos
  | cons b rest ih =>
    have hb : b.toNat < 256 := b.isLt
    rw [joinLE, List.length_cons, Nat.pow_succ]
    omega

/-- Byte `j` of the number that bytes join to. -/
theorem joinLE_byte (l : List Byte) (j : Nat) : BitVec.ofNat 8 (joinLE l / 256 ^ j) = l.getD j 0 := by
  induction l generalizing j with
  | nil => rw [joinLE, Nat.zero_div]; rfl
  | cons b rest ih =>
    have hb : b.toNat < 256 := b.isLt
    cases j with
    | zero =>
      apply BitVec.eq_of_toNat_eq
      rw [joinLE, BitVec.toNat_ofNat, Nat.pow_zero, Nat.div_one]
      simp only [List.getD_cons_zero]
      omega
    | succ j =>
      have hrest : joinLE (b :: rest) / 256 ^ (j + 1) = joinLE rest / 256 ^ j := by
        rw [joinLE, Nat.pow_succ, Nat.mul_comm (256 ^ j), ← Nat.div_div_eq_div_mul]
        congr 1
        omega
      rw [hrest, ih, List.getD_cons_succ]

/-- Byte `j` of a number, within 32 bits. -/
theorem extractLsb'_byte (n : Nat) {j : Nat} (hj : j < 4) :
    (BitVec.ofNat 32 n).extractLsb' (8 * j) 8 = BitVec.ofNat 8 (n / 256 ^ j) := by
  apply BitVec.eq_of_toNat_eq
  rw [BitVec.extractLsb'_toNat, BitVec.toNat_ofNat, BitVec.toNat_ofNat, Nat.shiftRight_eq_div_pow]
  interval_cases j <;> omega

/-- The bytes of a value are its 8-bit fields from the low end. -/
theorem splitLE_eq_map (n m : Nat) :
    splitLE n m = (List.range n).map fun j => BitVec.ofNat 8 (m / 256 ^ j) := by
  induction n generalizing m with
  | zero => rfl
  | succ n ih =>
    rw [splitLE, ih, List.range_succ_eq_map, List.map_cons, List.map_map, Nat.pow_zero, Nat.div_one]
    congr 1
    apply List.map_congr_left
    intro j _
    rw [Function.comp_apply, Nat.pow_succ, Nat.mul_comm (256 ^ j), Nat.div_div_eq_div_mul]

theorem widthBytes_le (w : Width) : widthBytes w ≤ 4 := by cases w <;> decide

theorem width_bits (w : Width) : 2 ^ w.bits = 256 ^ widthBytes w := by cases w <;> rfl

/-- A byte within the width is kept by the width's mask. -/
theorem clip_extractLsb' (w : Width) (v : Long) {j : Nat} (hj : j < widthBytes w) :
    (clip w v).extractLsb' (8 * j) 8 = v.extractLsb' (8 * j) 8 := by
  have hones : (filler w).extractLsb' (8 * j) 8 = BitVec.allOnes 8 := by
    revert j
    cases w <;> decide
  rw [clip, BitVec.extractLsb'_and, hones, BitVec.and_allOnes]

/-- The bytes of a port value, low first. -/
theorem splitLE_clip (w : Width) (v : Long) :
    splitLE (widthBytes w) (clip w v).toNat =
      (List.range (widthBytes w)).map fun j => v.extractLsb' (8 * j) 8 := by
  rw [splitLE_eq_map]
  apply List.map_congr_left
  intro j hj
  have hj := List.mem_range.mp hj
  rw [← extractLsb'_byte _ (Nat.lt_of_lt_of_le hj (widthBytes_le w)), BitVec.ofNat_toNat, BitVec.setWidth_eq,
    clip_extractLsb' w v hj]

/-- A value of the width is not cut by the width's mask. -/
theorem clip_of_lt {w : Width} {v : Long} (h : v.toNat < 2 ^ w.bits) : clip w v = v := by
  have hmask : (filler w).toNat = 2 ^ w.bits - 1 := by cases w <;> rfl
  apply BitVec.eq_of_toNat_eq
  rw [clip, BitVec.toNat_and, hmask, Nat.and_two_pow_sub_one_eq_mod, Nat.mod_eq_of_lt h]

/-! ### The bytes a data-in transfer hands out (R281) -/

theorem takeBytes_length (n : Nat) (buffer : List Byte) (pos : Nat) : (takeBytes n buffer pos).1.length = n := by
  induction n generalizing pos with
  | zero => rfl
  | succ n ih =>
    unfold takeBytes
    split <;> rw [List.length_cons, ih]

/-- The position after a read, which stops at the end of the buffer. -/
theorem takeBytes_pos (n : Nat) {buffer : List Byte} {pos : Nat} (h : pos ≤ buffer.length) :
    (takeBytes n buffer pos).2 = min (pos + n) buffer.length := by
  induction n generalizing pos with
  | zero => rw [takeBytes]; omega
  | succ n ih =>
    unfold takeBytes
    split
    · next hb =>
      have := (List.getElem?_eq_some_iff.mp hb).1
      rw [ih this]
      omega
    · next hb =>
      have := List.getElem?_eq_none_iff.mp hb
      rw [ih h]
      omega

/-- A byte past the end of the buffer reads 0xFF. -/
theorem takeBytes_getD (n : Nat) (buffer : List Byte) (pos : Nat) {j : Nat} (hj : j < n) :
    (takeBytes n buffer pos).1.getD j 0 = buffer.getD (pos + j) 0xFF := by
  induction n generalizing pos j with
  | zero => omega
  | succ n ih =>
    unfold takeBytes
    split
    · next b hb =>
      cases j with
      | zero => simp [hb]
      | succ j => rw [List.getD_cons_succ, ih _ (by omega)]; congr 1; omega
    · next hb =>
      have hlen := List.getElem?_eq_none_iff.mp hb
      cases j with
      | zero => simp [hb]
      | succ j =>
        rw [List.getD_cons_succ, ih _ (by omega)]
        simp [hlen, Nat.le_add_right_of_le]

/-- The value a read of the data register gives in a data-in transfer. -/
def takenValue (w : Width) (d : Drive) : Long := BitVec.ofNat 32 (joinLE (takeBytes (widthBytes w) d.buffer d.bufPos).1)

theorem takenValue_lt (w : Width) (d : Drive) : (takenValue w d).toNat < 2 ^ w.bits := by
  have hlt := joinLE_lt (takeBytes (widthBytes w) d.buffer d.bufPos).1
  rw [takeBytes_length] at hlt
  rw [takenValue, BitVec.toNat_ofNat, width_bits]
  exact (Nat.mod_le _ _).trans_lt hlt

theorem takenValue_byte (w : Width) (d : Drive) {j : Nat} (hj : j < widthBytes w) :
    (takenValue w d).extractLsb' (8 * j) 8 = d.buffer.getD (d.bufPos + j) 0xFF := by
  rw [takenValue, extractLsb'_byte _ (Nat.lt_of_lt_of_le hj (widthBytes_le w)), joinLE_byte, takeBytes_getD _ _ _ hj]

section

variable {ch : Nat} {s : State}

theorem readDataReg_outside (h : (selectedDrive (chan s ch)).type = .none ∨ (selectedDrive (chan s ch)).phase ≠ .dataIn)
    (w : Width) : readDataReg ch w s = (filler w, s) := if_pos h

/-- A read within a transfer: its value, and the drive moved on. -/
theorem readDataReg_inside (htype : (selectedDrive (chan s ch)).type ≠ .none)
    (hphase : (selectedDrive (chan s ch)).phase = .dataIn) (w : Width) :
    readDataReg ch w s =
      (takenValue w (selectedDrive (chan s ch)),
        modDrive ch (chan s ch).selected
          (advanceTransfer
            (takeBytes (widthBytes w) (selectedDrive (chan s ch)).buffer (selectedDrive (chan s ch)).bufPos).2) s) :=
  if_neg (not_or.mpr ⟨htype, not_not_intro hphase⟩)

/-- A read of the data register has no bit above its width. -/
theorem clip_readDataReg (ch : Nat) (w : Width) (s : State) :
    clip w (readDataReg ch w s).1 = (readDataReg ch w s).1 := by
  by_cases h : (selectedDrive (chan s ch)).type = .none ∨ (selectedDrive (chan s ch)).phase ≠ .dataIn
  · rw [readDataReg_outside h, clip_filler]
  · obtain ⟨htype, hphase⟩ := not_or.mp h
    rw [readDataReg_inside htype (not_not.mp hphase), clip_of_lt (takenValue_lt _ _)]

end

theorem OnlyChannel.of_eq {ch : Nat} {c c' : Channel} {s t : State} (h : OnlyChannel ch c s t) (e : c = c') :
    OnlyChannel ch c' s t := e ▸ h

/-- The end of the buffer ends the transfer (R281). -/
theorem advanceTransfer_takeBytes (w : Width) {d : Drive} (h : d.bufPos ≤ d.buffer.length) :
    advanceTransfer (takeBytes (widthBytes w) d.buffer d.bufPos).2 d =
      if d.buffer.length ≤ d.bufPos + widthBytes w then { d with phase := .idle, buffer := [], bufPos := 0 }
      else { d with bufPos := d.bufPos + widthBytes w } := by
  rw [advanceTransfer, takeBytes_pos _ h]
  by_cases hend : d.buffer.length ≤ d.bufPos + widthBytes w
  · rw [if_pos hend, min_eq_right hend, if_pos rfl]
  · have hmin : min (d.bufPos + widthBytes w) d.buffer.length = d.bufPos + widthBytes w := by omega
    rw [if_neg hend, hmin, if_neg (by omega)]

/-! ### The timer armed after a change of the channel (R280, R282) -/

theorem armTimer_modChan {ch : Nat} {s : State} (hch : ch < s.ata.length) (f : Channel → Channel) :
    armTimer params ch (modChan ch f s) =
        { s with
          ata := (armTimer params ch (modChan ch f s)).ata
          clk := { s.clk with timers := (armTimer params ch (modChan ch f s)).clk.timers }
          log := (armTimer params ch (modChan ch f s)).log } ∧
      OnlyChannel ch (f (chan s ch)) s (armTimer params ch (modChan ch f s)) ∧
        TimersArmed ch s (armTimer params ch (modChan ch f s)) := by
  obtain ⟨hframe, harmed⟩ := armTimer_does ch (modChan ch f s)
  have hata : (armTimer params ch (modChan ch f s)).ata = (modChan ch f s).ata := by rw [hframe]
  refine ⟨?frame, ?channel, harmed.of_eq rfl rfl rfl⟩
  case frame => rw [hata]; exact hframe
  case channel =>
    intro j
    rw [hata]
    exact onlyChannel_modChan hch f j

/-! ### The data register written (R282) -/

section

variable {ch : Nat} {s : State}

theorem writeDataReg_ignored
    (h : (chan s ch).srst = true ∨ ∀ n tag, (selectedDrive (chan s ch)).phase ≠ .dataOut n tag) (w : Width)
    (v : Long) : writeDataReg params ch w v s = s := by
  unfold writeDataReg
  dsimp only
  split
  · rfl
  · next hgate =>
    rw [writeIgnored_iff, not_or] at hgate
    split
    · next n tag hphase => exact absurd hphase (h.resolve_left hgate.1 n tag)
    · rfl

/-- A write that the drive wants: the last byte wanted starts the command and arms the timer. -/
theorem writeDataReg_wanted {n tag : Nat} (hsrst : (chan s ch).srst = false)
    (hphase : (selectedDrive (chan s ch)).phase = .dataOut n tag) {w : Width} {v : Long} {bytes : List Byte}
    (hbytes : bytes = (selectedDrive (chan s ch)).buffer ++
      (splitLE (widthBytes w) v.toNat).take (n - (selectedDrive (chan s ch)).buffer.length)) :
    writeDataReg params ch w v s =
      if bytes.length = n then
        armTimer params ch
          (modDrive ch (chan s ch).selected (fun d => { d with buffer := bytes, phase := .busy (.finish tag bytes) }) s)
      else modDrive ch (chan s ch).selected (fun d => { d with buffer := bytes }) s := by
  have hbusy : (selectedDrive (chan s ch)).isBusy = false := by rw [Drive.isBusy, hphase]
  rw [writeDataReg, if_neg (Bool.eq_false_iff.mp (writeIgnored_eq_false hsrst hbusy))]
  simp only [hphase, ← hbytes]

end

end Sys2Proof.Machine

namespace Sys2Proof.Proofs

open Sys2Proof.Machine
open Sys2Proof.Config (params)

/-- Settles O36: outside a transfer `readDataReg_outside`; inside it the value's bytes are those of `takenValue_byte`,
and the drive moves on as `advanceTransfer_takeBytes` says. -/
theorem readData : Obligations.ReadData := by
  refine fun ch w s hch => ⟨fun h => ?outside, fun htype hphase hpos => ?inside⟩
  case outside => rw [exec_ataRdData hch, readDataReg_outside h, reply_self]
  case inside =>
    rw [exec_ataRdData hch, readDataReg_inside htype hphase]
    exact ⟨_, takenValue w (selectedDrive (chan s ch)), rfl, rfl, takenValue_lt w _, fun j hj => takenValue_byte w _ hj,
      (onlyChannel_modChan hch _).of_eq (onDrive_congr (advanceTransfer_takeBytes w hpos))⟩

/-- Settles O37: a write that is not wanted is ignored (`writeDataReg_ignored`); one that is (`writeDataReg_wanted`)
appends the value's bytes (`splitLE_clip`) and with the last of them arms the timer (`armTimer_modChan`). -/
theorem writeData : Obligations.WriteData := by
  refine fun ch w v s hch => ⟨fun h => ?ignored, fun n tag bytes hsrst hphase hbytes => ?wanted⟩
  case ignored => rw [exec_ataWrData hch, writeDataReg_ignored h, reply_self]; rfl
  case wanted =>
    rw [← splitLE_clip] at hbytes
    rw [exec_ataWrData hch, writeDataReg_wanted hsrst hphase hbytes]
    refine ⟨_, rfl, ?_⟩
    by_cases hlast : bytes.length = n
    · obtain ⟨hframe, hchannel, harmed⟩ := armTimer_modChan hch (onDrive (chan s ch).selected fun d =>
        { d with buffer := bytes, phase := .busy (.finish tag bytes) })
      rw [if_pos hlast, if_pos hlast]
      exact ⟨result_congr hframe _, hchannel, harmed⟩
    · rw [if_neg hlast, if_neg hlast]
      exact ⟨rfl, onlyChannel_modChan hch _, rfl, rfl⟩

end Sys2Proof.Proofs
end

section
/-! SUPPORT. Commands of an ATA channel: the start of one (R280), and the completion of both drives by the channel's
timer with its one interrupt (R286, R287). -/

namespace Sys2Proof.Machine

open Sys2Proof.Config (params)

/-! ### What a lowered line leaves alone -/

section

variable {ch : Nat} {c : Channel} {s u : State} (h : LineLowered ch c s u)

include h

theorem LineLowered.world_eq : u.world = s.world := by rw [h.frame]

theorem LineLowered.timersKept_iff (t : State) : TimersKept u t ↔ TimersKept s t := by
  have hclk : u.clk = s.clk := by rw [h.frame]
  have hlog : u.log = s.log := by rw [h.frame]
  rw [TimersKept, TimersKept, hclk, hlog]

theorem LineLowered.timersArmed_iff (t : State) : TimersArmed ch u t ↔ TimersArmed ch s t := by
  have hclk : u.clk = s.clk := by rw [h.frame]
  have hlog : u.log = s.log := by rw [h.frame]
  have hcpu : u.cpu = s.cpu := by rw [h.frame]
  exact ⟨fun harmed => harmed.of_eq hclk hlog hcpu, fun harmed => harmed.of_eq hclk.symm hlog.symm hcpu.symm⟩

end

/-! ### The start of a command (R280) -/

/-- A drive cleared for a command and put into the phase of its plan. -/
def started (plan : Plan) (d : Drive) : Drive := { clearForCommand d with phase := (planPhase plan).1 }

section

variable {ch : Nat} {s : State}

theorem writeCommand_ignored
    (h : (chan s ch).srst = true ∨ (selectedDrive (chan s ch)).isBusy = true ∨ (selectedDrive (chan s ch)).type = .none)
    (b : Byte) : writeCommand params ch b s = s := by
  refine if_pos ?_
  rw [Bool.or_eq_true, writeIgnored_iff, decide_eq_true_iff, or_assoc]
  exact h

theorem writeCommand_heeded (hsrst : (chan s ch).srst = false) (hbusy : (selectedDrive (chan s ch)).isBusy = false)
    (htype : (selectedDrive (chan s ch)).type ≠ .none) (b : Byte) :
    writeCommand params ch b s =
      startCommand params ch (chan s ch).selected b
        (modDrive ch (chan s ch).selected clearForCommand (lowerIrq params ch s)) := by
  refine if_neg ?_
  rw [writeIgnored_eq_false hsrst hbusy, decide_eq_false htype]
  exact Bool.false_ne_true

/-- The plan is asked for with the drive's registers as they stood before the command cleared its error state. -/
theorem startCommand_cleared (hch : ch < s.ata.length) {k : Fin 2} {b : Byte} {plan : Plan} {world : Nat}
    (hstart : params.ataStart s.world b (viewOf k (driveOf (chan s ch) k)) (taskRegsOf (driveOf (chan s ch) k)) =
      (plan, world)) :
    startCommand params ch k b (modDrive ch k clearForCommand s) =
      if (planPhase plan).2 then armTimer params ch (modDrive ch k (started plan) { s with world := world })
      else modDrive ch k (started plan) { s with world := world } := by
  have hdrive : driveOf (chan (modDrive ch k clearForCommand s) ch) k = clearForCommand (driveOf (chan s ch) k) := by
    rw [chan_modDrive hch, driveOf_onDrive]
  have hasked : params.ataStart (modDrive ch k clearForCommand s).world b
      (viewOf k (clearForCommand (driveOf (chan s ch) k))) (taskRegsOf (clearForCommand (driveOf (chan s ch) k))) =
      (plan, world) := hstart
  have hphase : modDrive ch k (fun d => { d with phase := (planPhase plan).1 })
      { modDrive ch k clearForCommand s with world := world } =
        modDrive ch k (started plan) { s with world := world } :=
    modDrive_modDrive (s := { s with world := world }) clearForCommand fun d => { d with phase := (planPhase plan).1 }
  rw [startCommand]
  simp only [hdrive, hasked, startPlan, hphase]

end

/-- What the start of a command with a plan makes of `s` beyond the channel's line: the drive put into its phase, and
the timer armed if the phase waits for it. -/
structure CommandStarted (ch : Nat) (k : Fin 2) (plan : Plan) (world : Nat) (s t : State) : Prop where
  frame : t = { s with
    ata := t.ata, clk := { s.clk with timers := t.clk.timers }, log := t.log, world := world }
  channel : OnlyChannel ch (onDrive k (started plan) (chan s ch)) s t
  timers : if (planPhase plan).2 = true then TimersArmed ch s t else TimersKept s t

theorem commandStarted_startCommand {ch : Nat} {s : State} (hch : ch < s.ata.length) {k : Fin 2} {b : Byte}
    {plan : Plan} {world : Nat}
    (hstart : params.ataStart s.world b (viewOf k (driveOf (chan s ch) k)) (taskRegsOf (driveOf (chan s ch) k)) =
      (plan, world)) :
    CommandStarted ch k plan world s (startCommand params ch k b (modDrive ch k clearForCommand s)) := by
  rw [startCommand_cleared hch hstart]
  have hch' : ch < ({ s with world := world } : State).ata.length := hch
  by_cases hwaits : (planPhase plan).2 = true
  · obtain ⟨hframe, hchannel, harmed⟩ := armTimer_modChan hch' (onDrive k (started plan))
    rw [if_pos hwaits]
    exact ⟨hframe, hchannel, by rw [if_pos hwaits]; exact harmed⟩
  · rw [if_neg hwaits]
    exact ⟨rfl, onlyChannel_modChan hch' _, by rw [if_neg hwaits]; exact ⟨rfl, rfl⟩⟩

/-! ### The completion of commands (R286) -/

/-- The completion of drive 0. -/
def completion0 (ch : Nat) (s : State) : Drive × Nat × Bool := completion params s.world 0 (chan s ch).drive0

/-- The completion of drive 1, from the hidden state that drive 0 leaves. -/
def completion1 (ch : Nat) (s : State) : Drive × Nat × Bool :=
  completion params (completion0 ch s).2.1 1 (chan s ch).drive1

/-- A channel with both drives completed as those of channel `ch` are. -/
def completedChannel (ch : Nat) (s : State) (c : Channel) : Channel :=
  { c with drive0 := (completion0 ch s).1, drive1 := (completion1 ch s).1 }

/-- The machine with both drives of a channel completed, and no interrupt yet. -/
def completed (ch : Nat) (s : State) : State :=
  modChan ch (completedChannel ch s) { s with world := (completion1 ch s).2.1 }

/-- The channel would raise an interrupt: interrupts are enabled and it has a line (R287). -/
def raisesIrq (c : Channel) : Bool := !c.nIEN && decide (0 ≤ c.irqNumber)

section

variable {ch : Nat} {s : State} (hch : ch < s.ata.length)

include hch

theorem onlyChannel_completed : OnlyChannel ch (completedChannel ch s (chan s ch)) s (completed ch s) :=
  onlyChannel_modChan (s := { s with world := (completion1 ch s).2.1 }) hch (completedChannel ch s)

theorem completeDrive_zero :
    completeDrive params ch 0 s =
      (modDrive ch 0 (fun _ => (completion0 ch s).1) { s with world := (completion0 ch s).2.1 },
        (completion0 ch s).2.2) := completeDrive_eq ch 0 s hch

/-- Drive 1 after drive 0: both are completed. -/
theorem completeDrive_one :
    completeDrive params ch 1
        (modDrive ch 0 (fun _ => (completion0 ch s).1) { s with world := (completion0 ch s).2.1 }) =
      (completed ch s, (completion1 ch s).2.2) := by
  generalize hu : modDrive ch 0 (fun _ => (completion0 ch s).1) { s with world := (completion0 ch s).2.1 } = u
  have honly : OnlyChannel ch (onDrive 0 (fun _ => (completion0 ch s).1) (chan s ch)) s u :=
    hu ▸ onlyChannel_modChan (s := { s with world := (completion0 ch s).2.1 }) hch _
  have hdrive : driveOf (chan u ch) 1 = (chan s ch).drive1 := by rw [honly.chan_eq]; rfl
  have hworld : u.world = (completion0 ch s).2.1 := by rw [← hu]; rfl
  have h := completeDrive_eq ch 1 u honly.lt_length
  rw [hdrive, hworld] at h
  rw [h, ← hu]
  exact congrArg (·, (completion1 ch s).2.2) (modChan_modChan ch _ _ { s with world := (completion1 ch s).2.1 })

/-- The update is both completions, and one interrupt if either drive had a command (R286, R287). -/
theorem ataUpdate_eq :
    ataUpdate params ch s =
      if (completion0 ch s).2.2 || (completion1 ch s).2.2 then raiseIrq params ch (completed ch s)
      else completed ch s := by
  rw [ataUpdate]
  simp only [completeDrive_zero hch, completeDrive_one hch]

/-- The interrupt after a completion: the line is asserted as it would have been before it. -/
theorem raiseIrq_completed :
    raiseIrq params ch (completed ch s) =
      if raisesIrq (chan s ch) then
        { completed ch s with
          picM := (assertIRQ params (irqLine (chan s ch)) s).1.picM
          picS := (assertIRQ params (irqLine (chan s ch)) s).1.picS
          log := (assertIRQ params (irqLine (chan s ch)) s).1.log
          ata := modifyAt (completed ch s).ata ch fun c => { c with irqRaised := true } }
      else completed ch s := by
  have hassert : (assertIRQ params (irqLine (chan s ch)) (completed ch s)).1 =
      { (assertIRQ params (irqLine (chan s ch)) s).1 with
        ata := (completed ch s).ata, world := (completed ch s).world } := assertIRQ_ata params _ s _ _
  have hline : irqLine (completedChannel ch s (chan s ch)) = irqLine (chan s ch) := rfl
  rw [raiseIrq_does, (onlyChannel_completed hch).chan_eq, hline, hassert]
  rfl

theorem ataUpdate_raises
    (h : (((completion0 ch s).2.2 || (completion1 ch s).2.2) && raisesIrq (chan s ch)) = true) :
    ataUpdate params ch s =
      { completed ch s with
        picM := (assertIRQ params (irqLine (chan s ch)) s).1.picM
        picS := (assertIRQ params (irqLine (chan s ch)) s).1.picS
        log := (assertIRQ params (irqLine (chan s ch)) s).1.log
        ata := modifyAt (completed ch s).ata ch fun c => { c with irqRaised := true } } := by
  obtain ⟨hdone, hraises⟩ := Bool.and_eq_true_iff.mp h
  rw [ataUpdate_eq hch, if_pos hdone, raiseIrq_completed hch, if_pos hraises]

theorem ataUpdate_quiet
    (h : ¬(((completion0 ch s).2.2 || (completion1 ch s).2.2) && raisesIrq (chan s ch)) = true) :
    ataUpdate params ch s = completed ch s := by
  rw [ataUpdate_eq hch]
  split
  · next hdone =>
    rw [raiseIrq_completed hch, if_neg]
    rwa [hdone, Bool.true_and] at h
  · rfl

end

end Sys2Proof.Machine

namespace Sys2Proof.Proofs

open Sys2Proof.Machine
open Sys2Proof.Config (params)

/-- Settles O38: a command that is heeded lowers the line (`lineLowered_lowerIrq`) and then starts as its plan says
(`commandStarted_startCommand`); the plan decides between an armed and an untouched timer. -/
theorem writeCommand : Obligations.WriteCommand := by
  refine fun ch b s hch hok => ⟨fun h => ?ignored, fun hsrst hbusy htype => ?heeded⟩
  case ignored => rw [exec_ataWrCommand hch, writeCommand_ignored h, reply_self]; rfl
  case heeded =>
    have hlow := lineLowered_lowerIrq hch hok
    rw [exec_ataWrCommand hch, writeCommand_heeded hsrst hbusy htype]
    generalize lowerIrq params ch s = u at hlow
    have hchan := hlow.channel.chan_eq
    obtain ⟨plan, world, hstart⟩ : ∃ plan world, params.ataStart s.world b
        (viewOf (chan s ch).selected (selectedDrive (chan s ch))) (taskRegsOf (selectedDrive (chan s ch))) =
          (plan, world) := ⟨_, _, rfl⟩
    have hasked : params.ataStart u.world b (viewOf (chan s ch).selected (driveOf (chan u ch) (chan s ch).selected))
        (taskRegsOf (driveOf (chan u ch) (chan s ch).selected)) = (plan, world) := by
      rw [hlow.world_eq, hchan]
      exact hstart
    obtain ⟨hframe, hchannel, htimers⟩ := commandStarted_startCommand hlow.channel.lt_length hasked
    generalize startCommand params ch (chan s ch).selected b (modDrive ch (chan s ch).selected clearForCommand u) = t
      at hframe hchannel htimers
    rw [hlow.frame] at hframe
    rw [hlow.timersArmed_iff, hlow.timersKept_iff] at htimers
    rw [hchan] at hchannel
    refine ⟨plan, world, _, rfl, hstart, ?frame, ?effects⟩
    case frame =>
      rw [← hlow.pics]
      exact result_congr hframe _
    case effects =>
      have hchannel := hlow.channel.trans hchannel
      match plan with
      | .abort | .done _ | .dataIn _ _ | .dataOut 0 _ | .dataOut (_ + 1) _ => exact ⟨hchannel, htimers⟩

/-- Settles O35: the update is both completions in turn, and where it raises the interrupt it asserts the line once
(`ataUpdate_raises`, `ataUpdate_quiet`). -/
theorem ataUpdate : Obligations.AtaUpdate := by
  intro ch s hch
  rw [exec_ataUpdate_of_lt hch]
  refine ⟨_, rfl, ?_⟩
  by_cases h : (((completion0 ch s).2.2 || (completion1 ch s).2.2) && raisesIrq (chan s ch)) = true
  · have honly := onlyChannel_completed hch
    have hraised := honly.trans (onlyChannel_modChan honly.lt_length fun c => { c with irqRaised := true })
    rw [honly.chan_eq] at hraised
    rw [ataUpdate_raises hch h, if_pos (by rwa [Bool.and_assoc])]
    exact ⟨rfl, rfl, hraised, rfl, rfl, rfl⟩
  · rw [ataUpdate_quiet hch h, if_neg (by rwa [Bool.and_assoc])]
    exact ⟨rfl, rfl, onlyChannel_completed hch, rfl, rfl, rfl⟩

end Sys2Proof.Proofs
end

section
/-! SUPPORT. The ports of an ATA channel (R271, R272): the register at each offset, and an access to it as the operation
of that register. -/

namespace Sys2Proof.Machine

open Sys2Proof.Config (params)

/-! ### The register at an offset -/

section

variable {c : Channel} {a : Half}

theorem ataPortAt_command {o : Half} {port : AtaPort} (h : a - c.ioBase1 = o)
    (hport : commandPort o.toNat = some port) :
    ataPortAt c a = some port := by
  simp only [ataPortAt, h, hport]

theorem commandPort_of_gt {n : Nat} (h : 7 < n) : commandPort n = none := by
  obtain ⟨k, rfl⟩ : ∃ k, n = k + 8 := ⟨n - 8, by omega⟩
  rfl

/-- The control block is reached only from outside the command block. -/
theorem ataPortAt_control {o : Half} {port : AtaPort} (hout : 7 < (a - c.ioBase1).toNat) (h : a - c.ioBase2 = o)
    (hport : controlPort o.toNat = some port) : ataPortAt c a = some port := by
  simp only [ataPortAt, commandPort_of_gt hout, h, hport]

end

/-! ### The operation of a register -/

/-- The operation that reads a register (R271); the data register is also read at larger widths. -/
def readRow (ch : Nat) : AtaPort → Instr
  | .data => .ataRdData ch .byte
  | .errorFeatures => .ataRdError ch
  | .param o => .ataRdParam ch o
  | .drvHead => .ataRdDrvHead ch
  | .statusCommand => .ataRdStatus ch
  | .altStatusDevCtl => .ataRdAltStatus ch
  | .drvAddr => .ataRdDrvAddr ch

/-- The operation that writes a register from a port value (R272). -/
def writeRow (ch : Nat) (w : Width) (v : Long) : AtaPort → Instr
  | .data => .ataWrData ch w v
  | .errorFeatures => .ataWrFeatures ch (v.setWidth 8)
  | .param o => .ataWrParam ch o (v.setWidth 8)
  | .drvHead => .ataWrDrvHead ch (v.getLsbD 6) (v.getLsbD 4) (v.extractLsb' 0 4)
  | .statusCommand => .ataWrCommand ch (v.setWidth 8)
  | .altStatusDevCtl => .ataWrDevCtl ch (v.getLsbD 2) (v.getLsbD 1)
  | .drvAddr => .ataWrDrvAddr ch (v.setWidth 8)

/-! ### Accesses to a port of an existing channel -/

section

variable {ch : Nat} {a : Half} {attr : Attr} {s : State} (hch : ch < s.ata.length)
  (h : portEntry s a = some { owner := .ata ch, attr := attr })

include hch h

theorem exec_busReadPort_ata (hr : attr ≠ .writeOnly) (w : Width) :
    exec (.busReadPort a w) s =
      reply ((ataPortRead params ch a w s).2, .ok (.port w (clip w (ataPortRead params ch a w s).1))) := by
  rw [exec_busReadPort, busRead_of_entry params h hr]
  simp only [deviceRead, (hasChannel_iff s ch).mpr hch, if_true]

theorem exec_busWritePort_ata (hw : attr ≠ .readOnly) (w : Width) (v : Long) :
    exec (.busWritePort a w v) s = reply (ataPortWrite params ch a w (clip w v) s, okUnit) := by
  rw [exec_busWritePort, busWrite_of_entry params h hw]
  simp only [deviceWrite, (hasChannel_iff s ch).mpr hch, if_true]

/-- A read of the data port is a read of the data register at the same width (R281). -/
theorem exec_busReadPort_data (hr : attr ≠ .writeOnly) (hport : ataPortAt (chan s ch) a = some .data) (w : Width) :
    exec (.busReadPort a w) s = exec (.ataRdData ch w) s := by
  have hread : ataPortRead params ch a w s = readDataReg ch w s := by simp only [ataPortRead, hport]
  rw [exec_busReadPort_ata hch h hr, hread, clip_readDataReg, exec_ataRdData hch]

/-- A read of a byte-wide register is the operation that reads it, its byte widened (R77). -/
theorem readsAs_ataPort {row : Instr} {b : Byte} {t : State} (hr : attr ≠ .writeOnly)
    (hread : ∀ w, ataPortRead params ch a w s = (widen w b, t)) (hrow : exec row s = reply (t, portByte b)) :
    ReadsAs a row s := by
  refine ⟨_, _, hrow, rfl, fun w => ?_⟩
  rw [exec_busReadPort_ata hch h hr, hread, clip_widen]
  rfl

/-- Each byte-wide port is read by the operation of its register (R271). -/
theorem readsAs_readRow (hr : attr ≠ .writeOnly) {port : AtaPort} (hport : ataPortAt (chan s ch) a = some port)
    (hbyte : port ≠ .data) : ReadsAs a (readRow ch port) s := by
  cases port with
  | data => exact absurd rfl hbyte
  | errorFeatures => exact readsAs_ataPort hch h hr (fun w => by simp only [ataPortRead, hport]) (exec_ataRdError hch)
  | param o => exact readsAs_ataPort hch h hr (fun w => by simp only [ataPortRead, hport]) (exec_ataRdParam hch o)
  | drvHead => exact readsAs_ataPort hch h hr (fun w => by simp only [ataPortRead, hport]) (exec_ataRdDrvHead hch)
  | statusCommand =>
    exact readsAs_ataPort hch h hr (fun w => by simp only [ataPortRead, hport, readStatus]) (exec_ataRdStatus hch)
  | altStatusDevCtl =>
    exact readsAs_ataPort hch h hr (fun w => by simp only [ataPortRead, hport]) (exec_ataRdAltStatus hch)
  | drvAddr => exact readsAs_ataPort hch h hr (fun w => by simp only [ataPortRead, hport]) (exec_ataRdDrvAddr hch)

/-- Each port is written by the operation of its register (R272). -/
theorem exec_busWritePort_writeRow (hw : attr ≠ .readOnly) {port : AtaPort}
    (hport : ataPortAt (chan s ch) a = some port) (w : Width) (v : Long) :
    exec (.busWritePort a w v) s = exec (writeRow ch w v port) s := by
  rw [exec_busWritePort_ata hch h hw]
  cases port with
  | data => simp only [ataPortWrite, hport, writeRow, exec_ataWrData hch]
  | errorFeatures => simp only [ataPortWrite, hport, writeRow, exec_ataWrFeatures hch, lowByte_clip]
  | param o => simp only [ataPortWrite, hport, writeRow, exec_ataWrParam hch, lowByte_clip]
  | drvHead =>
    have hhead : (v.setWidth 8).extractLsb' 0 4 = v.extractLsb' 0 4 := by
      apply BitVec.eq_of_toNat_eq
      simp only [BitVec.extractLsb'_toNat, BitVec.toNat_setWidth, Nat.shiftRight_zero]
      omega
    simp [ataPortWrite, hport, writeRow, exec_ataWrDrvHead hch, lowByte_clip, hhead]
  | statusCommand => simp only [ataPortWrite, hport, writeRow, exec_ataWrCommand hch, lowByte_clip]
  | altStatusDevCtl => simp [ataPortWrite, hport, writeRow, exec_ataWrDevCtl hch, lowByte_clip]
  | drvAddr => simp only [ataPortWrite, hport, writeRow, exec_ataWrDrvAddr hch]

end

end Sys2Proof.Machine

namespace Sys2Proof.Proofs

open Sys2Proof.Machine
open Sys2Proof.Config (params)

/-- Settles O8: `ataPortAt` finds the register at each offset, and an access to it is the row of that register
(`exec_busReadPort_data`, `readsAs_readRow`, `exec_busWritePort_writeRow`). -/
theorem ataPortAccess : Obligations.AtaPortAccess := by
  refine fun ch a attr s hch h => ⟨fun hr => ?read, fun hw w v => ?write⟩
  case read =>
    have byteRead {port : AtaPort} (hport : ataPortAt (chan s ch) a = some port) (hbyte : port ≠ .data) :
        ReadsAs a (readRow ch port) s := readsAs_readRow hch h hr hport hbyte
    exact ⟨fun ho => exec_busReadPort_data hch h hr (ataPortAt_command ho rfl),
      fun ho => byteRead (ataPortAt_command ho rfl) nofun, fun ho => byteRead (ataPortAt_command ho rfl) nofun,
      fun ho => byteRead (ataPortAt_command ho rfl) nofun, fun ho => byteRead (ataPortAt_command ho rfl) nofun,
      fun ho => byteRead (ataPortAt_command ho rfl) nofun, fun ho => byteRead (ataPortAt_command ho rfl) nofun,
      fun ho => byteRead (ataPortAt_command ho rfl) nofun,
      fun hout ho => byteRead (ataPortAt_control hout ho rfl) nofun,
      fun hout ho => byteRead (ataPortAt_control hout ho rfl) nofun⟩
  case write =>
    have written {port : AtaPort} (hport : ataPortAt (chan s ch) a = some port) :
        exec (.busWritePort a w v) s = exec (writeRow ch w v port) s := exec_busWritePort_writeRow hch h hw hport w v
    exact ⟨fun ho => written (ataPortAt_command ho rfl), fun ho => written (ataPortAt_command ho rfl),
      fun ho => written (ataPortAt_command ho rfl), fun ho => written (ataPortAt_command ho rfl),
      fun ho => written (ataPortAt_command ho rfl), fun ho => written (ataPortAt_command ho rfl),
      fun ho => written (ataPortAt_command ho rfl), fun ho => written (ataPortAt_command ho rfl),
      fun hout ho => written (ataPortAt_control hout ho rfl), fun hout ho => written (ataPortAt_control hout ho rfl)⟩

end Sys2Proof.Proofs
end

section
/-! SUPPORT. The CPU's own operations outside its step: the stop and the hold that a step tests first (R301, R302), the
hold set (R309), and the registers by name (R310, R311). -/

namespace Sys2Proof.Machine

open Sys2Proof.Config (params)

/-! ### The meanings of the operations -/

theorem exec_cpuStep (s : State) : exec .cpuStep s = reply (cpuStep params s) := rfl

theorem exec_cpuGetRegister (name : List Byte) (s : State) :
    exec (.cpuGetRegister name) s = reply (getRegister name s) := rfl

theorem exec_cpuSetRegister (name bytes : List Byte) (s : State) :
    exec (.cpuSetRegister name bytes) s = reply (setRegister params name bytes s) := rfl

theorem exec_cpuSetHoldRequest (d : Device) (on : Bool) (s : State) :
    exec (.cpuSetHoldRequest d on) s = reply (setHold d on s, okUnit) := rfl

theorem exec_cpuStart (s : State) : exec .cpuStart s = reply (setRunning true s, okUnit) := rfl

theorem exec_cpuStop (s : State) : exec .cpuStop s = reply (setRunning false s, okUnit) := rfl

theorem exec_cpuReset (s : State) : exec .cpuReset s = reply (cpuReset s, success) := rfl

/-! ### A step that executes nothing (R301) -/

section

variable (P : Params) {s : State}

theorem cpuStep_of_stopped (hstopped : s.cpu.running = false) : cpuStep P s = (s, .ok .stopped) := by
  simp [cpuStep, hstopped]

theorem cpuStep_of_held (hrunning : s.cpu.running = true) (hheld : s.cpu.holdSet ≠ []) :
    cpuStep P s = (s, .ok .stalled) := by
  simp [cpuStep, hrunning, hheld]

end

/-! ### The hold set (R309) -/

theorem setHold_eq (d : Device) (on : Bool) (s : State) :
    setHold d on s = { s with cpu := { s.cpu with holdSet := (setHold d on s).cpu.holdSet } } := rfl

theorem mem_setHold (d : Device) (on : Bool) (s : State) (e : Device) :
    e ∈ (setHold d on s).cpu.holdSet ↔ if e = d then on = true else e ∈ s.cpu.holdSet := by
  cases on with
  | false =>
    have hrelease : (setHold d false s).cpu.holdSet = s.cpu.holdSet.filter fun e => e != d := rfl
    by_cases he : e = d <;> simp [hrelease, he]
  | true =>
    have hrequest : (setHold d true s).cpu.holdSet =
        if s.cpu.holdSet.contains d then s.cpu.holdSet else s.cpu.holdSet ++ [d] := rfl
    by_cases hd : d ∈ s.cpu.holdSet <;> by_cases he : e = d <;> simp [hrequest, hd, he]

/-! ### Registers by name (R76, R310, R311) -/

theorem regOfName_regName (r : Reg) : regOfName (regName r) = some r := by cases r <;> rfl

theorem regOfName_eq_none {name : List Byte} (h : ∀ r : Reg, name ≠ regName r) : regOfName name = none := by
  rw [regOfName, List.find?_eq_none]
  exact fun r _ he => h r (beq_iff_eq.mp he).symm

theorem regGet_regSet (x : Regs) (r k : Reg) (v : Half) :
    regGet (regSet x r v) k = if k = r then v else regGet x k := by
  cases r <;> cases k <;> rfl

/-- Two bytes make a register's value with the first as the high one. -/
theorem regOfBytes_pair (h l : Byte) : regOfBytes [h, l] = h ++ l := by
  apply BitVec.eq_of_toNat_eq
  have hhigh := h.isLt
  have hlow := l.isLt
  rw [BitVec.toNat_append, ← Nat.shiftLeft_add_eq_or_of_lt hlow, Nat.shiftLeft_eq, regOfBytes, BitVec.toNat_ofNat]
  simp only [List.foldl_cons, List.foldl_nil]
  omega

theorem getRegister_regName (r : Reg) (s : State) :
    getRegister (regName r) s = (s, .ok (.bytes (regBytes (regGet s.cpu.x r)))) := by
  rw [getRegister, regOfName_regName]

theorem setRegister_pair (r : Reg) (h l : Byte) (s : State) :
    setRegister params (regName r) [h, l] s = (setRegs (regSet s.cpu.x r (h ++ l)) s, okUnit) := by
  rw [setRegister, regOfName_regName, ← regOfBytes_pair]
  rfl

theorem setRegister_of_length (r : Reg) {bytes : List Byte} (hlength : bytes.length ≠ 2) (s : State) :
    setRegister params (regName r) bytes s = raise (.writeDisallowed (regName r)) .unit s := by
  simp [setRegister, regOfName_regName, regWidth, hlength]

section

variable {name : List Byte} (h : ∀ r : Reg, name ≠ regName r) (s : State)

include h

theorem getRegister_unknown : getRegister name s = raise (.unknownRegister name) (.bytes []) s := by
  rw [getRegister, regOfName_eq_none h]

theorem setRegister_unknown (bytes : List Byte) :
    setRegister params name bytes s = raise (.unknownRegister name) .unit s := by
  rw [setRegister, regOfName_eq_none h]

end

end Sys2Proof.Machine

namespace Sys2Proof.Proofs

open Sys2Proof.Machine
open Sys2Proof.Config (params)

/-- Settles O44: the run flag is tested first, then the hold set, and neither answer comes with a change. -/
theorem cpuStoppedOrStalled : Obligations.CpuStoppedOrStalled := by
  refine fun s => ⟨fun hstopped => ?stopped, fun hrunning hheld => ?held⟩
  case stopped => rw [exec_cpuStep, cpuStep_of_stopped params hstopped, reply_self]
  case held => rw [exec_cpuStep, cpuStep_of_held params hrunning hheld, reply_self]

/-- Settles O47: a name of the table finds its register (`regOfName_regName`), and no other name finds one
(`regOfName_eq_none`). -/
theorem registerAccess : Obligations.RegisterAccess := by
  refine ⟨fun r s => ⟨?get, fun h l => ?set, fun bytes hlength => ?disallowed⟩,
    fun name s h => ⟨?unknownGet, fun bytes => ?unknownSet⟩⟩
  case get =>
    rw [exec_cpuGetRegister, getRegister_regName, reply_self]
    rfl
  case set =>
    rw [exec_cpuSetRegister, setRegister_pair]
    exact ⟨_, rfl, rfl, fun k => regGet_regSet s.cpu.x r k (h ++ l)⟩
  case disallowed =>
    rw [exec_cpuSetRegister, setRegister_of_length r hlength, reply_raise]
    rfl
  case unknownGet =>
    rw [exec_cpuGetRegister, getRegister_unknown h, reply_raise]
    rfl
  case unknownSet =>
    rw [exec_cpuSetRegister, setRegister_unknown h, reply_raise]
    rfl

/-- Settles O48: the hold set by `mem_setHold`; each of the other operations writes the fields its meaning names. -/
theorem cpuControl : Obligations.CpuControl := by
  refine fun s => ⟨fun d on => ?hold, exec_cpuStart s, exec_cpuStop s, exec_cpuReset s⟩
  refine ⟨_, exec_cpuSetHoldRequest d on s, result_congr (setHold_eq d on s) okUnit, fun e => ?_⟩
  exact mem_setHold d on s e

end Sys2Proof.Proofs
end

section
/-! SUPPORT. `CPU.step` of a running CPU (R301): the accesses of a guest instruction (R304, R305), the pulses before and
after it (R220, R308), and what no part of the step writes. -/

namespace Sys2Proof.Machine

open Sys2Proof.Config (params)

/-! ### One instruction, access by access (R304) -/

section

variable (P : Params) (s : State)

theorem runGuest_done (x : Regs) : runGuest P (.done x) s = setRegs x s := rfl

theorem runGuest_memRead (addr n : Nat) (k : Nat → Guest) :
    runGuest P (.memRead addr n k) s = runGuest P (k (memRead P addr n s).1) (memRead P addr n s).2 := rfl

theorem runGuest_memWrite (addr n v : Nat) (k : Guest) :
    runGuest P (.memWrite addr n v k) s = runGuest P k (memWrite P addr n v s) := rfl

theorem runGuest_portRead (a : Half) (w : Width) (k : Long → Guest) :
    runGuest P (.portRead a w k) s = runGuest P (k (portRead P a w s).1) (portRead P a w s).2 := rfl

theorem runGuest_portWrite (a : Half) (w : Width) (v : Long) (k : Guest) :
    runGuest P (.portWrite a w v k) s = runGuest P k (portWrite P a w v s) := rfl

/-- The instruction is one program: the read of the fetched byte, then what `ExecOne` makes of it. -/
theorem execInstruction_eq_runGuest :
    execInstruction P s =
      runGuest P (.memRead (fetchAddress s.cpu.x) 1 fun fetched => P.execOne s.cpu.x (BitVec.ofNat 8 fetched)) s := by
  rw [runGuest_memRead, memRead_one]
  simp only [BitVec.ofNat_toNat, BitVec.setWidth_eq]
  rfl

end

/-! ### A byte of memory (R72) -/

section

variable {P : Params} {addr : Nat} (s : State)

theorem readByte_within (h : addr < P.memSize) : readByte P addr s = (memByte s.mem addr, s) := if_pos h

theorem readByte_beyond (h : P.memSize ≤ addr) :
    readByte P addr s = ((P.outsideRead s.world addr).1, { s with world := (P.outsideRead s.world addr).2 }) :=
  if_neg h.not_gt

theorem writeByte_within (h : addr < P.memSize) (b : Byte) :
    writeByte P addr b s = { s with mem := memStore s.mem addr b } := if_pos h

theorem writeByte_beyond (h : P.memSize ≤ addr) (b : Byte) :
    writeByte P addr b s =
      { s with
        mem := memOfCells (P.outsideWrite s.world addr b s.mem).1
        world := (P.outsideWrite s.world addr b s.mem).2 } := if_neg h.not_gt

end

/-- A guest's memory accesses are performed byte by byte, and a byte beyond the memory is open. -/
theorem guestMemory (P : Params) : GuestMemory P := by
  refine fun addr n v s => ⟨fun k => rfl, fun k => ?readMore, fun h k => ?readWithin, fun h => ?readBeyond,
    fun k => rfl, fun k => ?writeMore, fun h hwf => ?writeWithin, fun h => ?writeBeyond⟩
  case readMore => simp only [runGuest_memRead, memRead_succ, memRead_zero, Nat.mul_zero, Nat.add_zero]
  case readWithin => rw [runGuest_memRead, memRead_one, readByte_within s h]
  case readBeyond =>
    refine ⟨(P.outsideRead s.world addr).1, (P.outsideRead s.world addr).2, fun k => ?_⟩
    rw [runGuest_memRead, memRead_one, readByte_beyond s h]
  case writeMore => simp only [runGuest_memWrite, memWrite_succ, memWrite_zero]
  case writeWithin =>
    refine ⟨memStore s.mem addr (BitVec.ofNat 8 v), memStore_wf hwf _ _, memByte_memStore hwf _ _, fun k => ?_⟩
    rw [runGuest_memWrite, memWrite_one, writeByte_within s h]
  case writeBeyond =>
    refine ⟨memOfCells (P.outsideWrite s.world addr (BitVec.ofNat 8 v) s.mem).1,
      (P.outsideWrite s.world addr (BitVec.ofNat 8 v) s.mem).2, memOfCells_wf _, fun k => ?_⟩
    rw [runGuest_memWrite, memWrite_one, writeByte_beyond s h]

/-! ### Port accesses (R126, R305) -/

/-- A port that nothing answers reads as a byte-wide register of all ones. -/
theorem wideByte_ones (w : Width) : wideByte w 0xFF = filler w := by cases w <;> rfl

/-- A guest's read of an unmapped port gets the filler, and the condition is only in the log. -/
theorem portRead_unmapped (P : Params) {a : Half} {s : State} (h : portEntry s a = none) (w : Width) :
    portRead P a w s = (filler w, logged (.unknownPort .R a w) s) := by
  rw [portRead, busRead_unmapped P h]
  rfl

/-- A guest's port accesses are those of the bus, their results reduced to the value read. -/
theorem guestPorts : GuestPorts := by
  refine fun a w s => ⟨?read, fun h k => ?unmapped, fun v => ?write⟩
  case read =>
    obtain ⟨hanswer, hstate⟩ := busRead_answer params a w s
    refine ⟨_, (portRead params a w s).1, exec_busReadPort a w s, hanswer, fun k => ?_⟩
    rw [runGuest_portRead, hstate]
  case unmapped =>
    rw [runGuest_portRead, portRead_unmapped params h, wideByte_ones]
    rfl
  case write =>
    refine ⟨_, exec_busWritePort a w v s, fun k => ?_⟩
    rw [runGuest_portWrite, portWrite_result]

/-! ### Pulses (R214, R220, R301) -/

/-- One more pulse may be taken as the last. -/
theorem pulses_succ_last (P : Params) (n : Nat) (s : State) : pulses P (n + 1) s = pulse P (pulses P n s) := by
  induction n generalizing s with
  | zero => rfl
  | succ n ih => exact ih (pulse P s)

theorem exec_clkPulse_pulses (k : Nat) (s : State) :
    exec .clkPulse (pulses params k s) = .next { pulses params (k + 1) s with result := .ok .unit } := by
  rw [exec_clkPulse, pulses_succ_last]
  rfl

section

variable {P : Params} (s : State)

theorem drainPulses_of_instructionCount (h : P.pulseSource = .instructionCount) : drainPulses P s = s := by
  simp [drainPulses, h]

theorem drainPulses_of_realTime (h : P.pulseSource = .realTime) :
    drainPulses P s = pulses P s.clk.pendingRtPulses { s with clk := { s.clk with pendingRtPulses := 0 } } := if_pos h

end

section

variable {s : State}

theorem quantum_of_none (h : s.cpu.minPulsePeriodUs = none) : quantum s = 1 := by
  rw [quantum, h]
  rfl

theorem quantum_of_some {m : Nat} (h : s.cpu.minPulsePeriodUs = some m) :
    quantum s = max 1 ((m * s.cpu.ips + (10 ^ 6 - 1)) / 10 ^ 6) := by
  rw [quantum, h]
  rfl

end

/-- The pulse after an instruction is due exactly at the multiples of the quantum. -/
theorem instructionPulse_eq (P : Params) (s : State) :
    instructionPulse P s =
      if P.pulseSource = .instructionCount ∧ s.cpu.instrCounter % quantum s = 0 then pulse P s else s := by
  simp only [instructionPulse, pulseDue, beq_iff_eq]

/-! ### The interrupt of a boundary (R303) -/

theorem interruptDue_iff (s : State) :
    interruptDue s = true ↔ (∃ l, selected s.picM = some l) ∧ s.cpu.x.flags.getLsbD 9 = true := by
  rw [interruptDue, Bool.and_eq_true, intReq_iff_selected]
  rfl

theorem pollInterrupt_fst (P : Params) (s : State) :
    (pollInterrupt P s).1 =
      if interruptDue s then interruptEntry P (acknowledge P s).1 (acknowledge P s).2 else s := by
  rw [pollInterrupt, apply_ite Prod.fst]

theorem pollInterrupt_snd (P : Params) (s : State) :
    (pollInterrupt P s).2 = if interruptDue s then some (acknowledge P s).1 else none := by
  rw [pollInterrupt, apply_ite Prod.snd]

/-! ### The whole step (R55, R301) -/

/-- The instruction counter and the packets waiting have not changed. -/
def CounterKept (s u : State) : Prop := u.cpu.instrCounter = s.cpu.instrCounter ∧ u.inbox = s.inbox

theorem counterKept_channels (s : State) : KeepsChannels (CounterKept s) where
  devOp op u h := by
    rw [runDevOp_eq]
    exact h
  channel _ _ _ _ h := h
  world _ _ h := h
  log _ _ h := h

theorem counterKept_ops (s : State) : KeepsOps (CounterKept s) :=
  (counterKept_channels s).ops (fun _ _ _ h => h) ((counterKept_channels s).pulseSlot fun _ _ _ _ h => h)
    (fun _ _ h => h) (fun _ _ _ h => h)

/-- No part of a step but the count itself writes the counter. -/
theorem counterKept_guest (s : State) : KeepsGuest params (CounterKept s) :=
  { (counterKept_ops s).access with
    regs := fun _ _ h => h
    memory := fun _ _ _ h => h
    acknowledge := (counterKept_ops s).acknowledge
    takePending := fun _ h => h }

/-- The state after the instruction of a step that executes one, before the count. -/
def stepExecuted (s : State) : State := execInstruction params (pollInterrupt params (drainPulses params s)).1

theorem counterKept_stepExecuted (s : State) : CounterKept s (stepExecuted s) := by
  have guest := counterKept_guest s
  exact guest.execInstruction _ (guest.pollInterrupt _ (guest.drainPulses s ⟨rfl, rfl⟩))

section

variable {s : State} (hrunning : s.cpu.running = true) (hfree : s.cpu.holdSet = [])

include hrunning hfree

theorem cpuStep_of_running :
    cpuStep params s =
      (instructionPulse params (countInstruction (stepExecuted s)),
        .ok (.executed (pollInterrupt params (drainPulses params s)).2)) := by
  simp [cpuStep, stepExecuted, hrunning, hfree]

/-- A step that executes an instruction counts exactly one and takes no packet. -/
theorem cpuStep_counts_one :
    (cpuStep params s).1.cpu.instrCounter = s.cpu.instrCounter + 1 ∧ (cpuStep params s).1.inbox = s.inbox := by
  obtain ⟨hcounter, hinbox⟩ := counterKept_stepExecuted s
  obtain ⟨hcounter', hinbox'⟩ := (counterKept_guest _).instructionPulse
    (countInstruction (stepExecuted s)) ⟨rfl, rfl⟩
  rw [cpuStep_of_running hrunning hfree]
  refine ⟨hcounter'.trans ?_, hinbox'.trans hinbox⟩
  rw [countInstruction_instrCounter, hcounter]

end

end Sys2Proof.Machine

namespace Sys2Proof.Proofs

open Sys2Proof.Machine
open Sys2Proof.Config (params)

/-- Settles O45: a step of a running CPU is its parts in turn (`cpuStep_of_running`), the accesses of its instruction
are `guestMemory` and `guestPorts`, and no part but the count writes the counter. -/
theorem cpuStepExecutes : Obligations.CpuStepExecutes := by
  refine ⟨guestMemory, guestPorts, fun s hrunning hfree => ?step, fun s => ⟨drainPulses_of_instructionCount s,
    fun h => ?drain, interruptDue_iff s, exec_picAcknowledge s, execInstruction_eq_runGuest params s,
    runGuest_done params s, rfl, fun q hq => ?pulse⟩⟩
  case step =>
    obtain ⟨hkept, hips, hmin, hrom⟩ := ratesKept_cpuStep s
    obtain ⟨hcounter, hinbox⟩ := cpuStep_counts_one hrunning hfree
    refine ⟨_, _, exec_cpuStep s, pollInterrupt_fst params _, ?_, hcounter, hkept.trans hrunning, hips, hmin, hrom,
      hinbox⟩
    rw [cpuStep_of_running hrunning hfree, pollInterrupt_snd]
    rfl
  case drain =>
    exact ⟨fun k => pulses params k { s with clk := { s.clk with pendingRtPulses := 0 } }, rfl,
      fun k _ => exec_clkPulse_pulses k _, drainPulses_of_realTime s h⟩
  case pulse =>
    have hquantum : q = quantum s := by
      cases hmin : s.cpu.minPulsePeriodUs with
      | none => rw [hq, quantum_of_none hmin, hmin]
      | some m => rw [hq, quantum_of_some hmin, hmin]
    rw [hquantum, instructionPulse_eq]
    split
    · exact exec_clkPulse s
    · rfl

end Sys2Proof.Proofs
end

section
/-! SUPPORT. The module lifecycle (R341 to R346) and the ROM store (R350, R351): the component that each operation of a
module reaches, and what the store takes and gives back. -/

namespace Sys2Proof.Machine

open Sys2Proof.Config (params)

/-! ### The meanings of the operations -/

theorem exec_modReset (m : Module) (s : State) : exec (.modReset m) s = reply (moduleReset params m s) := rfl

theorem exec_modStart (m : Module) (s : State) : exec (.modStart m) s = reply (moduleStart params m s, okUnit) := rfl

theorem exec_modStop (m : Module) (s : State) : exec (.modStop m) s = reply (moduleStop params m s, okUnit) := rfl

theorem exec_modGetDump (m : Module) (s : State) :
    exec (.modGetDump m) s = reply (s, .ok (.text (Config.dumpText (moduleView m s)))) := rfl

theorem exec_modIsConnected (m : Module) (s : State) :
    exec (.modIsConnected m) s = reply (s, .ok (.bool (moduleConnected params m s))) := rfl

theorem exec_picReset (s : State) : exec .picReset s = reply (picReset params s, success) := rfl

theorem exec_romSetSystemBIOS (bytes : List Byte) (s : State) :
    exec (.romSetSystemBIOS bytes) s = reply (setSystemBIOS params bytes s) := rfl

theorem exec_romReadSystemBIOS (s : State) : exec .romReadSystemBIOS s = reply (readSystemBIOS s) := rfl

/-! ### The component a module operation reaches (R341 to R346) -/

section

variable (P : Params) (s : State)

theorem moduleReset_bus : moduleReset P .bus s = (s, success) := rfl

theorem moduleReset_pic : moduleReset P .pic s = (picReset P s, success) := rfl

theorem moduleReset_clk : moduleReset P .clk s = (s, success) := rfl

theorem moduleReset_cpu : moduleReset P .cpu s = (cpuReset s, success) := rfl

theorem moduleReset_ext (n : Nat) : moduleReset P (.ext n) s = extReset P (.ext n) s := rfl

theorem moduleStart_clk : moduleStart P .clk s = setClockRunning true s := rfl

theorem moduleStart_cpu : moduleStart P .cpu s = setRunning true s := rfl

theorem moduleStart_ext (n : Nat) : moduleStart P (.ext n) s = extStart P (.ext n) s := rfl

theorem moduleStop_clk : moduleStop P .clk s = setClockRunning false s := rfl

theorem moduleStop_cpu : moduleStop P .cpu s = setRunning false s := rfl

theorem moduleStop_ext (n : Nat) : moduleStop P (.ext n) s = extStop P (.ext n) s := rfl

end

section

variable (P : Params) {s : State} {ch : Nat} {m : Module}

theorem moduleReset_ata_of_lt (h : ch < s.ata.length) : moduleReset P (.ata ch) s = ataReset P ch s :=
  if_pos ((hasChannel_iff s ch).mpr h)

/-- The modules without a run flag: a start and a stop pass them by (R346). -/
theorem moduleStart_moduleStop_of_no_run_flag (hm : m ∈ [Module.bus, .pic, .ata ch]) :
    moduleStart P m s = s ∧ moduleStop P m s = s := by
  simp only [List.mem_cons, List.not_mem_nil, or_false] at hm
  rcases hm with rfl | rfl | rfl <;> exact ⟨rfl, rfl⟩

/-- A channel is a component of the block where the machine has it; the others always are (R345). -/
theorem moduleConnected_of_component (h : ch < s.ata.length) (hm : m ∈ [Module.bus, .pic, .clk, .ata ch, .cpu]) :
    moduleConnected P m s = true := by
  simp only [List.mem_cons, List.not_mem_nil, or_false] at hm
  rcases hm with rfl | rfl | rfl | rfl | rfl
  case inr.inr.inr.inl => rw [moduleConnected, (hasChannel_iff s ch).mpr h, Bool.true_or]
  all_goals rfl

end

/-! ### The ROM store (R350, R351) -/

theorem setSystemBIOS_of_length {P : Params} {bytes : List Byte} (h : bytes.length = P.biosSize) (s : State) :
    setSystemBIOS P bytes s = ({ s with rom := some bytes }, success) := if_neg (not_not.mpr h)

theorem setSystemBIOS_of_length_ne {P : Params} {bytes : List Byte} (h : bytes.length ≠ P.biosSize) (s : State) :
    setSystemBIOS P bytes s = raise (.romSizeMismatch bytes.length) .failure s := if_pos h

theorem readSystemBIOS_of_none {s : State} (h : s.rom = none) : readSystemBIOS s = (s, .ok (.bytes [])) := by
  rw [readSystemBIOS, h, Option.getD_none]

theorem readSystemBIOS_of_some {s : State} {image : List Byte} (h : s.rom = some image) :
    readSystemBIOS s = (s, .ok (.bytes image)) := by
  rw [readSystemBIOS, h, Option.getD_some]

end Sys2Proof.Machine

namespace Sys2Proof.Proofs

open Sys2Proof.Machine
open Sys2Proof.Config (params)

/-- Settles O49, module by module: each operation is the one of the component it reaches, and the modules that a start
or a stop passes by are those of `moduleStart_moduleStop_of_no_run_flag`. -/
theorem moduleLifecycle : Obligations.ModuleLifecycle := by
  refine fun s => ⟨?resetBus, ?resetClk, ?resetPic, ?resetCpu, fun ch h => ?resetAta, fun n => ?resetExt, ?startCpu,
    ?startClk, ?stopCpu, ?stopClk, fun ch h m hm => ?idle, fun n => ⟨?startExt, ?stopExt⟩, fun m => ?dump,
    fun ch h m hm => ?connected⟩
  case resetBus => rw [exec_modReset, moduleReset_bus, reply_self, success]
  case resetClk => rw [exec_modReset, moduleReset_clk, reply_self, success]
  case resetPic => rw [exec_modReset, moduleReset_pic, exec_picReset]
  case resetCpu => rw [exec_modReset, moduleReset_cpu, exec_cpuReset]
  case resetAta => rw [exec_modReset, moduleReset_ata_of_lt params h, exec_ataReset h]
  case resetExt =>
    rw [exec_modReset, moduleReset_ext]
    rfl
  case startCpu => rw [exec_modStart, moduleStart_cpu, exec_cpuStart]
  case startClk =>
    rw [exec_modStart, moduleStart_clk]
    rfl
  case stopCpu => rw [exec_modStop, moduleStop_cpu, exec_cpuStop]
  case stopClk =>
    rw [exec_modStop, moduleStop_clk]
    rfl
  case idle =>
    obtain ⟨hstart, hstop⟩ := moduleStart_moduleStop_of_no_run_flag params (s := s) hm
    rw [exec_modStart, exec_modStop, hstart, hstop, reply_self, okUnit]
    exact ⟨rfl, rfl⟩
  case startExt =>
    rw [exec_modStart, moduleStart_ext]
    rfl
  case stopExt =>
    rw [exec_modStop, moduleStop_ext]
    rfl
  case dump => rw [exec_modGetDump, reply_self]
  case connected => rw [exec_modIsConnected, moduleConnected_of_component params h hm, reply_self]

/-- Settles O50: the store takes a list of `params.biosSize` bytes and no other, and a read gives what stands in it. -/
theorem biosImage : Obligations.BiosImage := by
  refine fun bytes s => ⟨fun hlength => ?stored, fun hlength => ?refused, fun hrom => ?unset, fun image hrom => ?set⟩
  case stored =>
    refine ⟨{ s with rom := some bytes, result := .ok .success }, ?_, rfl, ?_⟩
    · rw [exec_romSetSystemBIOS, setSystemBIOS_of_length (hlength.trans params_biosSize.symm)]
      rfl
    · rw [exec_romReadSystemBIOS, readSystemBIOS_of_some rfl, reply_self]
  case refused =>
    rw [← params_biosSize] at hlength
    rw [exec_romSetSystemBIOS, setSystemBIOS_of_length_ne hlength, reply_raise]
    rfl
  case unset => rw [exec_romReadSystemBIOS, readSystemBIOS_of_none hrom, reply_self]
  case set => rw [exec_romReadSystemBIOS, readSystemBIOS_of_some hrom, reply_self]

end Sys2Proof.Proofs
end

section
/-! SUPPORT. Conditions (R11, R360, R361): an answer that carries one is that of `raise`, in every operation's meaning. -/

namespace Sys2Proof.Machine

open Sys2Proof.Config (params)

/-- An answer to `s` that carries a condition is that condition raised in `s`, and nothing else (R11, R360). -/
def RaisesOnly (s : State) (r : Answer) : Prop := ∀ k v, r.2 = .cond k v → ∃ d, condOf d = k ∧ r.1 = logged d s

section

variable (P : Params) (s : State)

theorem raisesOnly_ok (t : State) (v : Value) : RaisesOnly s (t, .ok v) := nofun

theorem raisesOnly_failed (t : State) : RaisesOnly s (t, .failed) := nofun

theorem raisesOnly_raise (d : Diagnostic) (v : Value) : RaisesOnly s (raise d v s) := by
  intro k v' h
  cases h
  exact ⟨d, rfl, rfl⟩

variable {s}

theorem RaisesOnly.ite {p : Prop} [Decidable p] {q r : Answer} (hq : RaisesOnly s q) (hr : RaisesOnly s r) :
    RaisesOnly s (if p then q else r) := by
  split <;> assumption

/-- The two answers an operation of a channel has, by whether the machine has the channel (R115). -/
theorem raisesOnly_onChannel (t : State) (v absent : Value) (ch : Nat) :
    RaisesOnly s (if hasChannel s ch then (t, .ok v) else (s, .ok absent)) :=
  .ite (raisesOnly_ok s t v) (raisesOnly_ok s s absent)

variable (s)

/-! ### Bus and interrupt controllers -/

theorem raisesOnly_busRead (a : Half) (w : Width) : RaisesOnly s (busRead P a w s) := by
  unfold busRead
  split
  · exact raisesOnly_raise s _ _
  · exact .ite (raisesOnly_raise s _ _) (raisesOnly_ok s _ _)

theorem raisesOnly_busWrite (a : Half) (w : Width) (v : Long) : RaisesOnly s (busWrite P a w v s) := by
  unfold busWrite
  split
  · exact raisesOnly_raise s _ _
  · exact .ite (raisesOnly_raise s _ _) (raisesOnly_ok s _ _)

theorem raisesOnly_assertIRQ (n : Nat) : RaisesOnly s (assertIRQ P n s) :=
  .ite (raisesOnly_raise s _ _) (raisesOnly_ok s _ _)

theorem raisesOnly_clearIRQ (n : Nat) : RaisesOnly s (clearIRQ P n s) :=
  .ite (raisesOnly_raise s _ _) (raisesOnly_ok s _ _)

theorem raisesOnly_requestIRQNumber (d : Device) : RaisesOnly s (requestIRQNumber P d s) := by
  unfold requestIRQNumber
  split
  · exact raisesOnly_ok s _ _
  · split
    · exact raisesOnly_ok s _ _
    · exact raisesOnly_raise s _ _

/-! ### Clock -/

theorem raisesOnly_registerDevice (d : Device) (us : Nat) (continuous : Bool) :
    RaisesOnly s (registerDevice P d us continuous s) := .ite (raisesOnly_raise s _ _) (raisesOnly_ok s _ _)

theorem raisesOnly_resetTimer (d : Device) (us : Nat) : RaisesOnly s (resetTimer P d us s) := by
  unfold resetTimer
  split
  · exact raisesOnly_raise s _ _
  · exact raisesOnly_ok s _ _

theorem raisesOnly_setTimerActiveState (d : Device) (active : Bool) :
    RaisesOnly s (setTimerActiveState d active s) := by
  unfold setTimerActiveState
  split
  · exact raisesOnly_raise s _ _
  · exact raisesOnly_ok s _ _

/-! ### ATA channel -/

theorem raisesOnly_setSelectedDriveIndex (ch k : Nat) : RaisesOnly s (setSelectedDriveIndex ch k s) := by
  unfold setSelectedDriveIndex
  split
  · exact .ite (raisesOnly_ok s _ _) (raisesOnly_raise s _ _)
  · exact raisesOnly_raise s _ _

theorem raisesOnly_ataInsert (sel : DriveSel) (carrier : Carrier) (image : Nat) (writeProtected : Bool) :
    RaisesOnly s (ataInsert P sel carrier image writeProtected s) := by
  unfold ataInsert
  split
  · exact raisesOnly_raise s _ _
  · exact .ite (raisesOnly_raise s _ _) <| .ite (raisesOnly_raise s _ _) <| .ite (raisesOnly_raise s _ _) <|
      .ite (raisesOnly_raise s _ _) (raisesOnly_ok s _ _)

theorem raisesOnly_ataEject (sel : DriveSel) : RaisesOnly s (ataEject P sel s) := by
  unfold ataEject
  split
  · exact raisesOnly_raise s _ _
  · exact .ite (raisesOnly_raise s _ _) <| .ite (raisesOnly_raise s _ _) (raisesOnly_ok s _ _)

/-- A channel's reset that lacks a line or a timer has failed, with no condition of its own (R241, R360). -/
theorem raisesOnly_ataReset (ch : Nat) : RaisesOnly s (ataReset P ch s) := by
  intro k v h
  unfold ataReset at h
  dsimp only at h
  split at h <;> cases h

/-! ### CPU, modules and ROM store -/

theorem raisesOnly_cpuStep : RaisesOnly s (cpuStep P s) :=
  .ite (raisesOnly_ok s _ _) <| .ite (raisesOnly_ok s _ _) (raisesOnly_ok s _ _)

theorem raisesOnly_getRegister (name : List Byte) : RaisesOnly s (getRegister name s) := by
  unfold getRegister
  split
  · exact raisesOnly_raise s _ _
  · exact raisesOnly_ok s _ _

theorem raisesOnly_setRegister (name bytes : List Byte) : RaisesOnly s (setRegister P name bytes s) := by
  unfold setRegister
  split
  · exact raisesOnly_raise s _ _
  · exact .ite (raisesOnly_raise s _ _) (raisesOnly_ok s _ _)

theorem raisesOnly_moduleReset (m : Module) : RaisesOnly s (moduleReset P m s) := by
  cases m with
  | bus | pic | clk | cpu => exact raisesOnly_ok s _ _
  | ata ch => exact .ite (raisesOnly_ataReset P s ch) (raisesOnly_failed s s)
  | ext n =>
    intro k v h
    unfold moduleReset extReset at h
    dsimp only at h
    split at h <;> cases h

theorem raisesOnly_setSystemBIOS (bytes : List Byte) : RaisesOnly s (setSystemBIOS P bytes s) :=
  .ite (raisesOnly_raise s _ _) (raisesOnly_ok s _ _)

end

/-- Every operation's answer raises a condition or carries none: those that test something by the lemmas above, the others
always complete. -/
theorem exec_raisesOnly (i : Instr) (s : State) : ∃ r, exec i s = reply r ∧ RaisesOnly s r := by
  cases i with
  | busReadPort a w => exact ⟨_, rfl, raisesOnly_busRead params s a w⟩
  | busWritePort a w v => exact ⟨_, rfl, raisesOnly_busWrite params s a w v⟩
  | picAssertIRQ n => exact ⟨_, rfl, raisesOnly_assertIRQ params s n⟩
  | picClearIRQ n => exact ⟨_, rfl, raisesOnly_clearIRQ params s n⟩
  | picRequestIRQNumber d => exact ⟨_, rfl, raisesOnly_requestIRQNumber params s d⟩
  | clkRegisterDevice d us k => exact ⟨_, rfl, raisesOnly_registerDevice params s d us k⟩
  | clkResetTimer d us => exact ⟨_, rfl, raisesOnly_resetTimer params s d us⟩
  | clkSetTimerActiveState d on => exact ⟨_, rfl, raisesOnly_setTimerActiveState s d on⟩
  | ataReset ch => exact ⟨_, rfl, .ite (raisesOnly_ataReset params s ch) (raisesOnly_failed s s)⟩
  | ataSetSelectedDriveIndex ch k => exact ⟨_, rfl, raisesOnly_setSelectedDriveIndex s ch k⟩
  | ataInsert sel carrier image wp => exact ⟨_, rfl, raisesOnly_ataInsert params s sel carrier image wp⟩
  | ataEject sel => exact ⟨_, rfl, raisesOnly_ataEject params s sel⟩
  | cpuStep => exact ⟨_, rfl, raisesOnly_cpuStep params s⟩
  | cpuGetRegister name => exact ⟨_, rfl, raisesOnly_getRegister s name⟩
  | cpuSetRegister name bytes => exact ⟨_, rfl, raisesOnly_setRegister params s name bytes⟩
  | modReset m => exact ⟨_, rfl, raisesOnly_moduleReset params s m⟩
  | romSetSystemBIOS bytes => exact ⟨_, rfl, raisesOnly_setSystemBIOS params s bytes⟩
  | ataUpdate ch | ataRdData ch _ | ataWrData ch _ _ | ataRdError ch | ataWrFeatures ch _ | ataRdParam ch _
  | ataWrParam ch _ _ | ataRdDrvHead ch | ataWrDrvHead ch _ _ _ | ataRdStatus ch | ataWrCommand ch _
  | ataRdAltStatus ch | ataWrDevCtl ch _ _ | ataRdDrvAddr ch | ataWrDrvAddr ch _ =>
    exact ⟨_, rfl, raisesOnly_onChannel _ _ _ ch⟩
  | _ => exact ⟨_, rfl, raisesOnly_ok s _ _⟩

end Sys2Proof.Machine

namespace Sys2Proof.Proofs

open Sys2Proof.Machine

/-- Settles O58: every meaning is the reply of an answer that `exec_raisesOnly` describes, and a raised condition is one
diagnostic in the log. -/
theorem conditionsOnlyLog : Obligations.ConditionsOnlyLog := by
  intro i s t k v ht hcond
  obtain ⟨r, hreply, hraises⟩ := exec_raisesOnly i s
  obtain rfl := eq_of_reply (hreply.symm.trans ht)
  obtain ⟨d, hd, hlogged⟩ := hraises k v hcond
  refine ⟨d, hd, ?_⟩
  rw [hlogged, show r.2 = .cond k v from hcond]
  rfl

end Sys2Proof.Proofs
end

section
/-! SUPPORT. Interrupt entry (R307): a pushed word and a word of the vector table within memory, and the machine after the
whole entry. -/

namespace Sys2Proof.Machine

/-! ### Words of memory (R75) -/

/-- Memory with a word stored at an address, low byte first (R75; log entry 26). -/
def storeWord (m : Memory) (addr : Nat) (u : Half) : Memory :=
  memStore (memStore m addr (u.extractLsb' 0 8)) (addr + 1) (u.extractLsb' 8 8)

theorem storeWord_wf {m : Memory} (hm : Memory.wf m = true) (addr : Nat) (u : Half) :
    Memory.wf (storeWord m addr u) = true := memStore_wf (memStore_wf hm _ _) _ _

theorem memByte_storeWord {m : Memory} (hm : Memory.wf m = true) (addr : Nat) (u : Half) (a : Nat) :
    memByte (storeWord m addr u) a =
      if a = addr + 1 then u.extractLsb' 8 8 else if a = addr then u.extractLsb' 0 8 else memByte m a := by
  rw [storeWord, memByte_memStore (memStore_wf hm _ _), memByte_memStore hm]

/-- A word is its two bytes joined least significant first. -/
theorem ofNat_bytes (low high : Byte) : BitVec.ofNat 16 (low.toNat + 256 * high.toNat) = high ++ low := by
  apply BitVec.eq_of_toNat_eq
  rw [BitVec.toNat_append, ← Nat.shiftLeft_add_eq_or_of_lt low.isLt, Nat.shiftLeft_eq, BitVec.toNat_ofNat]
  omega

section

variable {P : Params} {addr : Nat} (s : State)

theorem memWrite_word (h : addr + 1 < P.memSize) (u : Half) :
    memWrite P addr 2 u.toNat s = { s with mem := storeWord s.mem addr u } := by
  have hlow : BitVec.ofNat 8 u.toNat = u.extractLsb' 0 8 := by simp [BitVec.extractLsb']
  have hhigh : BitVec.ofNat 8 (u.toNat / 256) = u.extractLsb' 8 8 := by
    simp [BitVec.extractLsb', Nat.shiftRight_eq_div_pow]
  rw [memWrite_succ, memWrite_one, writeByte_within s (Nat.lt_of_succ_lt h), writeByte_within _ h, hlow, hhigh]
  rfl

theorem memRead_word (h : addr + 1 < P.memSize) :
    memRead P addr 2 s = ((memByte s.mem addr).toNat + 256 * (memByte s.mem (addr + 1)).toNat, s) := by
  rw [memRead_succ, memRead_one, readByte_within s (Nat.lt_of_succ_lt h), readByte_within s h]

end

/-! ### The entry -/

theorem linear_lt (seg off : Half) : linear seg off < 2 ^ 20 := Nat.mod_lt _ (by decide)

/-- FLAGS after an entry have lost their enable and trap bits, 9 and 8, and no other (R307). -/
theorem getLsbD_entryFlags (f : Half) (k : Nat) :
    (entryFlags f).getLsbD k = (f.getLsbD k && decide (k ≠ 9) && decide (k ≠ 8)) := by
  have hmask : ∀ j : Fin 16, (0xFCFF : Half).getLsbD j.val = (decide (j.val ≠ 9) && decide (j.val ≠ 8)) := by decide
  rw [entryFlags, BitVec.getLsbD_and, Bool.and_assoc]
  by_cases hk : k < 16
  · rw [hmask ⟨k, hk⟩]
  · rw [BitVec.getLsbD_of_ge f k (Nat.le_of_not_lt hk), Bool.false_and, Bool.false_and]

/-- Memory after an entry's pushes: FLAGS, CS and IP below SS:SP (R307). -/
def entryMemory (s : State) : Memory :=
  storeWord
    (storeWord (storeWord s.mem (linear s.cpu.x.ss (s.cpu.x.sp - 2)) s.cpu.x.flags)
      (linear s.cpu.x.ss (s.cpu.x.sp - 4)) s.cpu.x.cs)
    (linear s.cpu.x.ss (s.cpu.x.sp - 6)) s.cpu.x.ip

/-- The registers after an entry through a table entry of memory `m` (R307). -/
def entryRegs (v : Byte) (m : Memory) (x : Regs) : Regs :=
  { x with
    sp := x.sp - 6, flags := entryFlags x.flags
    ip := memByte m (4 * v.toNat + 1) ++ memByte m (4 * v.toNat)
    cs := memByte m (4 * v.toNat + 3) ++ memByte m (4 * v.toNat + 2) }

section

variable {P : Params} (hsize : 2 ^ 20 < P.memSize) (s : State)

include hsize

theorem push_within (u : Half) :
    push P u s =
      { s with
        mem := storeWord s.mem (linear s.cpu.x.ss (s.cpu.x.sp - 2)) u
        cpu := { s.cpu with x := { s.cpu.x with sp := s.cpu.x.sp - 2 } } } := by
  have haddr := linear_lt s.cpu.x.ss (s.cpu.x.sp - 2)
  unfold push
  rw [memWrite_word _ (by omega)]
  rfl

/-- The three pushes, with FLAGS changed after the first. -/
theorem entryPushes_within :
    entryPushReturn P (entryPushFlags P s) =
      { s with
        mem := entryMemory s
        cpu := { s.cpu with x := { s.cpu.x with sp := s.cpu.x.sp - 6, flags := entryFlags s.cpu.x.flags } } } := by
  have hsp4 : s.cpu.x.sp - 2 - 2 = s.cpu.x.sp - 4 := by bv_omega
  have hsp6 : s.cpu.x.sp - 4 - 2 = s.cpu.x.sp - 6 := by bv_omega
  simp only [entryPushReturn, entryPushFlags, push_within hsize, setRegs, hsp4, hsp6]
  rfl

theorem entryLoadVector_within (v : Byte) :
    entryLoadVector P v s =
      { s with
        cpu := { s.cpu with
          x := { s.cpu.x with
            ip := memByte s.mem (4 * v.toNat + 1) ++ memByte s.mem (4 * v.toNat)
            cs := memByte s.mem (4 * v.toNat + 3) ++ memByte s.mem (4 * v.toNat + 2) } } } := by
  have hv := v.isLt
  unfold entryLoadVector
  dsimp only
  rw [memRead_word s (by omega), memRead_word _ (by omega), ofNat_bytes, ofNat_bytes]
  rfl

/-- The whole entry, in a memory that holds every real-mode address. -/
theorem interruptEntry_within (v : Byte) :
    interruptEntry P v s =
      { s with mem := entryMemory s, cpu := { s.cpu with x := entryRegs v (entryMemory s) s.cpu.x } } := by
  rw [interruptEntry, entryPushes_within hsize, entryLoadVector_within hsize]
  rfl

end

end Sys2Proof.Machine

namespace Sys2Proof.Proofs

open Sys2Proof.Machine

/-- Settles O46: the machine after the entry is that of `interruptEntry_within`; each byte is read through the three words
pushed, the last one first. -/
theorem interruptEntry : Obligations.InterruptEntry := by
  rintro P v s a1 a2 a3 hsize hwf rfl rfl rfl
  refine ⟨_, interruptEntry_within hsize s v, rfl, rfl, getLsbD_entryFlags s.cpu.x.flags, fun a => ?_⟩
  have hflags := storeWord_wf hwf (linear s.cpu.x.ss (s.cpu.x.sp - 2)) s.cpu.x.flags
  have hcs := storeWord_wf hflags (linear s.cpu.x.ss (s.cpu.x.sp - 4)) s.cpu.x.cs
  exact (memByte_storeWord hcs _ _ a).trans (by rw [memByte_storeWord hflags, memByte_storeWord hwf])

end Sys2Proof.Proofs
end

section
/-! SUPPORT. The order of all lines under the reset rotation (R365): the master's, with the slave's in the place of its
cascade input. -/

namespace Sys2Proof.Machine

open Sys2Proof.Config (params)

/-- With the reset rotation, nothing masked and nothing in service, the least requested line is selected. -/
theorem selected_of_resetRotation {p : Pic} (hrotation : p.lowestPriorityIRQ = 7) (hisr : p.isr = 0) (himr : p.imr = 0)
    (hmask : p.specialMask = false) : selected p = allLines.find? (lineBit p.irr) := by
  have horder : priorityOrder p = allLines := by
    have hline : lineAt p = fun k => 7 + 1 + k := by
      funext k
      rw [lineAt, hrotation]
    rw [priorityOrder, hline]
    decide
  have heligible : eligible p = lineBit p.irr := by
    funext l
    rw [eligible, lineBit_pendingSet, himr, lineBit_zero, hmask, hisr]
    simp
  rw [selected, horder, heligible]

section

variable (s : State)

theorem ctrlOfLine_master (l : Fin 8) : ctrlOfLine l.val = .M := if_pos l.isLt

theorem ctrlOfLine_slave (l : Fin 8) : ctrlOfLine (8 + l.val) = .S := if_neg (Nat.not_lt.mpr (Nat.le_add_right 8 _))

theorem localLine_master (l : Fin 8) : localLine l.val = l := Fin.ext (Nat.mod_eq_of_lt l.isLt)

theorem localLine_slave (l : Fin 8) : localLine (8 + l.val) = l :=
  Fin.ext ((Nat.add_mod_left 8 _).trans (Nat.mod_eq_of_lt l.isLt))

/-- A search among lines of the master is one in its request register. -/
theorem find_lineIrr_master (ls : List (Fin 8)) :
    (ls.map fun l => l.val).find? (lineIrr s) = (ls.find? (lineBit s.picM.irr)).map fun l => l.val := by
  rw [List.find?_map]
  congr 2
  funext l
  simp only [Function.comp, lineIrr, ctrlOfLine_master, localLine_master, picOf_M]

/-- A search among lines of the slave is one in its request register. -/
theorem find_lineIrr_slave (ls : List (Fin 8)) :
    (ls.map fun l => 8 + l.val).find? (lineIrr s) = (ls.find? (lineBit s.picS.irr)).map fun l => 8 + l.val := by
  rw [List.find?_map]
  congr 2
  funext l
  simp only [Function.comp, lineIrr, ctrlOfLine_slave, localLine_slave, picOf_S]

/-- The vector of a global line, from its controller and local line (R148). -/
def lineVector (n : Nat) : Byte := (picOf s (ctrlOfLine n)).interruptOffset + BitVec.ofNat 8 (localLine n).val

theorem lineVector_master (l : Fin 8) : lineVector s l.val = vectorOf s.picM l := by
  rw [lineVector, ctrlOfLine_master, localLine_master, vectorOf, picOf_M]

theorem lineVector_slave (l : Fin 8) : lineVector s (8 + l.val) = vectorOf s.picS l := by
  rw [lineVector, ctrlOfLine_slave, localLine_slave, vectorOf, picOf_S]

end

/-- The order of R365 in its parts: the master's lines above its cascade input, the slave's, the master's below. -/
theorem find_globalOrder (s : State) :
    [0, 1, 8, 9, 10, 11, 12, 13, 14, 15, 3, 4, 5, 6, 7].find? (lineIrr s) =
      ((([0, 1] : List (Fin 8)).find? (lineBit s.picM.irr)).map fun l => l.val).or
        (((allLines.find? (lineBit s.picS.irr)).map fun l => 8 + l.val).or
          ((([3, 4, 5, 6, 7] : List (Fin 8)).find? (lineBit s.picM.irr)).map fun l => l.val)) := by
  rw [← find_lineIrr_master, ← find_lineIrr_slave, ← find_lineIrr_master, ← List.find?_append, ← List.find?_append]
  rfl

/-- The same parts of the master's own order, with the cascade input between them. -/
theorem find_masterOrder (f : Fin 8 → Bool) :
    allLines.find? f =
      (([0, 1] : List (Fin 8)).find? f).or ((([2] : List (Fin 8)).find? f).or
        (([3, 4, 5, 6, 7] : List (Fin 8)).find? f)) := by
  rw [← List.find?_append, ← List.find?_append]
  rfl

/-- With the cascade request pending exactly when the slave requests, an acknowledge answers the vector of the first line
of the global order. -/
theorem acknowledge_of_globalOrder {n : Nat} {s : State} (hM : selected s.picM = allLines.find? (lineBit s.picM.irr))
    (hS : selected s.picS = allLines.find? (lineBit s.picS.irr)) (hcascade : s.picM.cascadeMode = true)
    (hrequest : lineBit s.picM.irr 2 = intReq s.picS)
    (hn : [0, 1, 8, 9, 10, 11, 12, 13, 14, 15, 3, 4, 5, 6, 7].find? (lineIrr s) = some n) :
    (acknowledge params s).1 = lineVector s n := by
  rw [find_globalOrder, ← hS] at hn
  rw [find_masterOrder] at hM
  cases hhigh : ([0, 1] : List (Fin 8)).find? (lineBit s.picM.irr) with
  | some l =>
    rw [hhigh] at hn hM
    obtain rfl : l.val = n := Option.some.inj hn
    have hl : l ≠ 2 := by
      rintro rfl
      exact absurd (List.mem_of_find?_eq_some hhigh) (by decide)
    rw [acknowledge_of_line hM fun h => hl h.1, lineVector_master]
  | none =>
    rw [hhigh, Option.map_none, Option.none_or] at hn
    rw [hhigh, Option.none_or] at hM
    cases hslave : selected s.picS with
    | some l =>
      rw [hslave] at hn
      obtain rfl : 8 + l.val = n := Option.some.inj hn
      rw [(intReq_iff_selected s.picS).mpr ⟨l, hslave⟩] at hrequest
      have htwo : selected s.picM = some 2 := by
        rw [hM, List.find?_cons_of_pos hrequest, Option.some_or]
      rw [acknowledge_of_cascade htwo hcascade hslave, lineVector_slave]
    | none =>
      rw [intReq_of_selected_none hslave] at hrequest
      rw [hslave, Option.map_none, Option.none_or] at hn
      obtain ⟨l, hlow, rfl⟩ := Option.map_eq_some_iff.mp hn
      have hl : l ≠ 2 := by
        rintro rfl
        exact absurd (List.mem_of_find?_eq_some hlow) (by decide)
      rw [List.find?_cons_of_neg (by rw [hrequest]; exact Bool.false_ne_true), List.find?_nil, Option.none_or,
        hlow] at hM
      rw [acknowledge_of_line hM fun h => hl h.1, lineVector_master]

end Sys2Proof.Machine

namespace Sys2Proof.Proofs

open Sys2Proof.Machine

/-- Settles O22: both controllers select in the order of their lines (`selected_of_resetRotation`), and the slave's lines
stand in the master's order where its cascade input is (`acknowledge_of_globalOrder`). -/
theorem globalPriorityOrder : Obligations.GlobalPriorityOrder := by
  intro n s hreset hcascade hrequest hn
  have hselected : ∀ c, selected (picOf s c) = allLines.find? (lineBit (picOf s c).irr) := fun c => by
    obtain ⟨hrotation, hisr, himr, hmask⟩ := hreset c
    exact selected_of_resetRotation hrotation hisr himr hmask
  have hvector := acknowledge_of_globalOrder (hselected .M) (hselected .S) hcascade hrequest hn
  exact ⟨_, exec_picAcknowledge s, congrArg (fun v => Result.ok (.vector v)) hvector⟩

end Sys2Proof.Proofs
end

section
/-! SUPPORT. Nesting (R369, R370): what a line in service keeps out, and the service registers of the pair across every
operation but `CPU.step` (what holds of R34 (a), log entry 17). -/

namespace Sys2Proof.Machine

open Sys2Proof.Config (params)

/-! ### Lines in service -/

theorem isr_ne_zero_of_lineBit {p : Pic} {k : Fin 8} (h : lineBit p.isr k = true) : p.isr ≠ 0 := fun h0 =>
  Bool.false_ne_true (((eq_zero_iff_lineBit p.isr).mp h0 k).symm.trans h)

/-- Outside both special modes a line is eligible only with nothing in service (R143). -/
theorem isr_of_eligible {p : Pic} {l : Fin 8} (hsfnm : p.sfnm = false) (hmask : p.specialMask = false)
    (h : eligible p l = true) : p.isr = 0 := by
  rw [eligible_iff, hsfnm, hmask] at h
  obtain ⟨-, -, hservice⟩ := h
  simpa using hservice

theorem intReq_of_inService {p : Pic} (hisr : p.isr ≠ 0) (hsfnm : p.sfnm = false) (hmask : p.specialMask = false) :
    intReq p = false := by
  rw [← Bool.not_eq_true, intReq_iff]
  rintro ⟨l, hl⟩
  exact hisr (isr_of_eligible hsfnm hmask hl)

/-- A poll for interrupts takes none where the master requests none (R303). -/
theorem pollInterrupt_of_quiet (P : Params) {s : State} (h : intReq s.picM = false) :
    pollInterrupt P s = (s, none) := by
  rw [pollInterrupt, interruptDue, h]
  rfl

/-! ### One line in service -/

theorem oneInService_of_isr_zero {p : Pic} (h : p.isr = 0) : OneInService p := fun _ _ hk _ =>
  absurd h (isr_ne_zero_of_lineBit hk)

/-- What C3 leaves of R34 (a) for a change of one controller from `p` to `q`: a controller outside both special modes gets
no second line in service (log entry 17). -/
def SingleKept (p q : Pic) : Prop := p.sfnm = false → p.specialMask = false → OneInService p → OneInService q

theorem SingleKept.of_isr {p q : Pic} (h : q.isr = p.isr) : SingleKept p q := fun _ _ hone k l hk hl =>
  hone k l (h ▸ hk) (h ▸ hl)

theorem SingleKept.refl (p : Pic) : SingleKept p p := .of_isr rfl

theorem SingleKept.of_isr_zero {p q : Pic} (h : q.isr = 0) : SingleKept p q := fun _ _ _ => oneInService_of_isr_zero h

theorem singleKept_takeLine {p : Pic} {l : Fin 8} (h : selected p = some l) : SingleKept p (takeLine l p) := by
  intro hsfnm hmask _ j k hj hk
  have hisr := isr_of_eligible hsfnm hmask (eligible_of_selected h)
  obtain ⟨-, htaken, -⟩ := lineTaken_takeLine l p
  have hline : ∀ i, lineBit (takeLine l p).isr i = true → i = l := by
    intro i hi
    rw [htaken i, hisr, lineBit_zero] at hi
    by_contra hne
    rw [if_neg hne] at hi
    cases hi
  rw [hline j hj, hline k hk]

theorem singleKept_endLine (l : Fin 8) (rotate : Bool) (p : Pic) : SingleKept p (endLine l rotate p) := by
  intro _ _ hone j k hj hk
  obtain ⟨-, hended⟩ := lineEnded_endLine l rotate p
  have hstill : ∀ i, lineBit (endLine l rotate p).isr i = true → lineBit p.isr i = true := by
    intro i hi
    rw [hended i] at hi
    split at hi
    · cases hi
    · exact hi
  exact hone j k (hstill j hj) (hstill k hk)

theorem isr_inputRaise (l : Fin 8) (p : Pic) : (inputRaise l p).isr = p.isr := by rw [sameButInputs_inputRaise l p]

theorem isr_inputLower (l : Fin 8) (p : Pic) : (inputLower l p).isr = p.isr := by rw [sameButInputs_inputLower l p]

theorem isr_followSlave (lvl : Bool) (p : Pic) : (followSlave params lvl p).isr = p.isr := by
  obtain ⟨hsame, -⟩ := masterFollows_followSlave lvl p
  rw [hsame]

theorem isr_applyData (b : Byte) (p : Pic) : (applyData b p).isr = p.isr := by
  unfold applyData
  split <;> rfl

theorem SingleKept.congr_isr {p q r : Pic} (h : SingleKept p q) (e : r.isr = q.isr) : SingleKept p r :=
  fun hsfnm hmask hone j k hj hk => h hsfnm hmask hone j k (e ▸ hj) (e ▸ hk)

/-! ### The service registers of the pair -/

/-- Both controllers have the lines in service that they had. -/
def ServiceKept (s u : State) : Prop := u.picM.isr = s.picM.isr ∧ u.picS.isr = s.picS.isr

/-- Neither controller outside both special modes has got a second line in service. -/
def PairSingle (s u : State) : Prop := SingleKept s.picM u.picM ∧ SingleKept s.picS u.picS

theorem ServiceKept.refl (s : State) : ServiceKept s s := ⟨rfl, rfl⟩

theorem ServiceKept.trans {s u t : State} (h : ServiceKept s u) (h' : ServiceKept u t) : ServiceKept s t :=
  ⟨h'.1.trans h.1, h'.2.trans h.2⟩

theorem ServiceKept.pairSingle {s u : State} (h : ServiceKept s u) : PairSingle s u := ⟨.of_isr h.1, .of_isr h.2⟩

theorem PairSingle.refl (s : State) : PairSingle s s := (ServiceKept.refl s).pairSingle

theorem PairSingle.singleKept {s u : State} (h : PairSingle s u) (c : Ctrl) : SingleKept (picOf s c) (picOf u c) := by
  cases c with
  | M => exact h.1
  | S => exact h.2

/-- One controller's inputs changed and settled. -/
theorem serviceKept_settle {s : State} (c : Ctrl) {q : Pic} (h : q.isr = (picOf s c).isr) :
    ServiceKept s (settle params (setPic c q s)) := by
  cases c with
  | M => exact ⟨(isr_followSlave (intReq s.picS) q).trans h, rfl⟩
  | S => exact ⟨isr_followSlave (intReq q) s.picM, h⟩

theorem serviceKept_assertIRQ (n : Nat) (s : State) : ServiceKept s (assertIRQ params n s).1 := by
  unfold assertIRQ
  split
  · exact .refl s
  · exact serviceKept_settle _ (isr_inputRaise _ _)

theorem serviceKept_clearIRQ (n : Nat) (s : State) : ServiceKept s (clearIRQ params n s).1 := by
  unfold clearIRQ
  split
  · exact .refl s
  · exact serviceKept_settle _ (isr_inputLower _ _)

/-- A device operation reaches the controllers' inputs alone (R390). -/
theorem serviceKept_runDevOp (op : DevOp) (s : State) : ServiceKept s (runDevOp params op s).1 := by
  cases op with
  | registerPort a d attr =>
    simp only [runDevOp]
    rw [registerPort_eq]
    exact .refl s
  | assertIRQ n => exact serviceKept_assertIRQ n s
  | clearIRQ n => exact serviceKept_clearIRQ n s
  | requestIRQNumber d =>
    simp only [runDevOp]
    rw [requestIRQNumber_eq]
    exact .refl s
  | freeIRQNumber d =>
    exact List.foldlRecOn (motive := ServiceKept s) _ _ (.refl s) fun u hu n _ => hu.trans (serviceKept_clearIRQ n u)
  | registerDevice d us k =>
    simp only [runDevOp]
    rw [registerDevice_eq]
    exact .refl s
  | resetTimer d us =>
    simp only [runDevOp]
    rw [resetTimer_eq]
    exact .refl s
  | setTimerActiveState d k =>
    simp only [runDevOp]
    rw [setTimerActiveState_eq]
    exact .refl s
  | setHoldRequest d k => exact .refl s

theorem serviceKept_parts (s : State) : KeepsParts params (ServiceKept s) where
  devOp op u hu := hu.trans (serviceKept_runDevOp op u)
  channel _ _ _ hu := hu
  world _ _ hu := hu
  log _ _ hu := hu

/-- A pulse reaches the controllers only through the update callbacks of devices (R214, R215). -/
theorem serviceKept_pulse (s : State) : ServiceKept s (pulse params s) := by
  have hchannels : KeepsChannels (ServiceKept s) :=
    { serviceKept_parts s with channel := fun _ _ _ _ hu => hu }
  exact List.foldlRecOn (motive := ServiceKept s) _ _ (.refl s) fun u hu i _ =>
    hchannels.pulseSlot (fun _ _ _ _ hu => hu) i u hu

theorem serviceKept_devProg {α : Type} (p : DevProg α) (s : State) : ServiceKept s (runDevProg params p s).2 :=
  runDevProg_keeps (serviceKept_parts s).devOp (serviceKept_parts s).world p s (.refl s)

/-! ### Operations of the pair -/

section

variable (s : State)

/-- Both controllers changed and settled. -/
theorem pairSingle_settle {p q : Pic} (hM : SingleKept s.picM p) (hS : SingleKept s.picS q) :
    PairSingle s (settle params { s with picM := p, picS := q }) := ⟨hM.congr_isr (isr_followSlave (intReq q) p), hS⟩

theorem pairSingle_setPic (c : Ctrl) {q : Pic} (h : SingleKept (picOf s c) q) :
    PairSingle s (settle params (setPic c q s)) := by
  cases c with
  | M => exact pairSingle_settle s h (.refl s.picS)
  | S => exact pairSingle_settle s (.refl s.picM) h

theorem pairSingle_endOfInterrupt (c : Ctrl) (line : Option (Fin 8)) (rotate : Bool) :
    PairSingle s (endOfInterrupt params c line rotate s) := by
  unfold endOfInterrupt
  split
  · exact pairSingle_setPic s c (singleKept_endLine _ rotate _)
  · split
    · exact .refl s
    · exact pairSingle_setPic s c (singleKept_endLine _ rotate _)

theorem pairSingle_picCommand (c : Ctrl) (f : Pic → Pic) (h : SingleKept (picOf s c) (f (picOf s c))) :
    PairSingle s (picCommand params c f s) := pairSingle_setPic s c h

theorem pairSingle_writeData (c : Ctrl) (b : Byte) : PairSingle s (writeData params c b s) :=
  pairSingle_setPic s c (.of_isr (isr_applyData b _))

/-- ICW1 empties the service register; every other command but an end of interrupt leaves it as it is (R197). -/
theorem pairSingle_writeCmd (c : Ctrl) (b : Byte) : PairSingle s (writeCmd params c b s) := by
  unfold writeCmd performCmd
  split
  · exact pairSingle_setPic s _ (.of_isr_zero rfl)
  · exact pairSingle_endOfInterrupt s _ _ _
  · exact pairSingle_setPic s _ (.of_isr rfl)
  · exact pairSingle_setPic s _ (.of_isr rfl)
  · exact pairSingle_setPic s _ (.of_isr rfl)
  · exact pairSingle_setPic s _ (.of_isr rfl)
  · exact pairSingle_setPic s _ (.refl _)
  · exact .refl s

/-- A poll takes the selected line of its controller, the end of polling apart (R196). -/
theorem pairSingle_pollRead (c : Ctrl) : PairSingle s (pollRead params c s).2 := by
  unfold pollRead
  dsimp only
  split
  · exact pairSingle_setPic s c (.of_isr rfl)
  · next l hl => exact pairSingle_setPic s c (singleKept_takeLine (p := { picOf s c with polled := false }) hl)

theorem pairSingle_readCmd (c : Ctrl) : PairSingle s (readCmd params c s).2 := by
  unfold readCmd
  split
  · exact pairSingle_pollRead s c
  · exact .refl s

theorem pairSingle_readData (c : Ctrl) : PairSingle s (readData params c s).2 := by
  unfold readData
  split
  · exact pairSingle_pollRead s c
  · exact .refl s

/-- An acknowledge takes the master's selected line, and the slave's where that is the cascade request (R147). -/
theorem pairSingle_acknowledge : PairSingle s (Machine.acknowledge params s).2 := by
  cases hM : selected s.picM with
  | none =>
    rw [acknowledge_of_none hM]
    exact pairSingle_settle s (.refl _) (.refl _)
  | some l =>
    have htaken := singleKept_takeLine hM
    by_cases hl : l = 2 ∧ s.picM.cascadeMode = true
    · obtain ⟨rfl, hcascade⟩ := hl
      have hlowered := htaken.congr_isr (isr_inputLower 2 _)
      cases hS : selected s.picS with
      | none =>
        rw [acknowledge_of_withdrawn hM hcascade hS]
        exact pairSingle_settle s hlowered (.refl _)
      | some k =>
        rw [acknowledge_of_cascade hM hcascade hS]
        exact pairSingle_settle s hlowered (singleKept_takeLine hS)
    · rw [acknowledge_of_line hM hl]
      exact pairSingle_settle s htaken (.refl _)

theorem pairSingle_picReset : PairSingle s (Machine.picReset params s) := by
  rw [picReset_eq]
  exact ⟨.of_isr_zero rfl, .of_isr_zero rfl⟩

/-! ### Port accesses -/

theorem pairSingle_deviceRead (d : Device) (a : Half) (w : Width) : PairSingle s (deviceRead params d a w s).2 := by
  cases d with
  | pic =>
    unfold deviceRead
    dsimp only
    split
    · next port _ =>
      cases port with
      | cmd c => exact pairSingle_readCmd s c
      | data c => exact pairSingle_readData s c
    · exact (serviceKept_devProg _ s).pairSingle
  | ata ch =>
    unfold deviceRead
    dsimp only
    split
    · exact ((serviceKept_parts s).ataPortRead ch a w s (.refl s)).pairSingle
    · exact .refl s
  | ext n => exact (serviceKept_devProg ((params.device (.ext n)).portRead s.world a w) s).pairSingle

theorem pairSingle_deviceWrite (d : Device) (a : Half) (w : Width) (v : Long) :
    PairSingle s (deviceWrite params d a w v s) := by
  cases d with
  | pic =>
    unfold deviceWrite
    dsimp only
    split
    · next port _ =>
      cases port with
      | cmd c => exact pairSingle_writeCmd s c _
      | data c => exact pairSingle_writeData s c _
    · exact (serviceKept_devProg _ s).pairSingle
  | ata ch =>
    unfold deviceWrite
    dsimp only
    split
    · exact ((serviceKept_parts s).ataPortWrite ch a w v s (.refl s)).pairSingle
    · exact .refl s
  | ext n => exact (serviceKept_devProg ((params.device (.ext n)).portWrite s.world a w v) s).pairSingle

theorem pairSingle_busRead (a : Half) (w : Width) : PairSingle s (busRead params a w s).1 := by
  unfold busRead
  split
  · exact .refl s
  · split
    · exact .refl s
    · exact pairSingle_deviceRead s _ a w

theorem pairSingle_busWrite (a : Half) (w : Width) (v : Long) : PairSingle s (busWrite params a w v s).1 := by
  unfold busWrite
  split
  · exact .refl s
  · split
    · exact .refl s
    · exact pairSingle_deviceWrite s _ a w _

/-! ### Every operation -/

theorem pairSingle_moduleReset (m : Module) : PairSingle s (moduleReset params m s).1 := by
  cases m with
  | bus | clk | cpu => exact .refl s
  | pic => exact pairSingle_picReset s
  | ext n => exact (serviceKept_devProg ((params.device (.ext n)).reset s.world) s).pairSingle
  | ata ch =>
    unfold moduleReset
    dsimp only
    split
    · exact ((serviceKept_parts s).ataReset ch s (.refl s)).pairSingle
    · exact .refl s

theorem serviceKept_signalPulse : ServiceKept s (signalPulse params s) := by
  unfold signalPulse
  split <;> exact .refl s

theorem serviceKept_getRegister (name : List Byte) : ServiceKept s (getRegister name s).1 := by
  unfold getRegister
  split <;> exact .refl s

theorem serviceKept_setRegister (name bytes : List Byte) : ServiceKept s (setRegister params name bytes s).1 := by
  unfold setRegister
  split
  · exact .refl s
  · split <;> exact .refl s

theorem serviceKept_setSystemBIOS (bytes : List Byte) : ServiceKept s (setSystemBIOS params bytes s).1 := by
  unfold setSystemBIOS
  split <;> exact .refl s

theorem serviceKept_moduleStart (m : Module) : ServiceKept s (moduleStart params m s) := by
  cases m with
  | ext n => exact serviceKept_devProg ((params.device (.ext n)).start s.world) s
  | _ => exact .refl s

theorem serviceKept_moduleStop (m : Module) : ServiceKept s (moduleStop params m s) := by
  cases m with
  | ext n => exact serviceKept_devProg ((params.device (.ext n)).stop s.world) s
  | _ => exact .refl s

end

section

variable {s t : State} {r : Answer}

theorem PairSingle.reply {u : State} {a : Result} (h : PairSingle s u) (ht : Machine.reply (u, a) = .next t) :
    PairSingle s t := by
  obtain rfl := eq_of_reply ht
  exact h

theorem ServiceKept.onChannel {ch : Nat} {absent : Result} (h : ServiceKept s r.1)
    (ht : Machine.onChannel ch s absent r = .next t) : PairSingle s t := by
  rcases eq_of_onChannel ht with rfl | rfl
  · exact ServiceKept.pairSingle h
  · exact .refl s

end

/-- No operation but `CPU.step` puts a second line in service on a controller outside both special modes. -/
theorem exec_pairSingle (i : Instr) (hi : i ≠ .cpuStep) {s t : State} (ht : exec i s = .next t) : PairSingle s t := by
  have parts := serviceKept_parts s
  have kept := ServiceKept.refl s
  have device : ∀ op, Machine.reply (runDevOp params op s) = .next t → PairSingle s t := fun op =>
    (serviceKept_runDevOp op s).pairSingle.reply
  cases i with
  | cpuStep => exact absurd rfl hi
  | busReadPort a w => exact (pairSingle_busRead s a w).reply ht
  | busWritePort a w v => exact (pairSingle_busWrite s a w v).reply ht
  | busRegisterPort a d attr => exact device (.registerPort a d attr) ht
  | picAssertIRQ n => exact device (.assertIRQ n) ht
  | picClearIRQ n => exact device (.clearIRQ n) ht
  | picRequestIRQNumber d => exact device (.requestIRQNumber d) ht
  | picFreeIRQNumber d => exact device (.freeIRQNumber d) ht
  | clkRegisterDevice d us k => exact device (.registerDevice d us k) ht
  | clkResetTimer d us => exact device (.resetTimer d us) ht
  | clkSetTimerActiveState d on => exact device (.setTimerActiveState d on) ht
  | cpuSetHoldRequest d on => exact device (.setHoldRequest d on) ht
  | picAcknowledge => exact (pairSingle_acknowledge s).reply ht
  | picEndOfInterrupt c line rotate => exact (pairSingle_endOfInterrupt s c line rotate).reply ht
  | picReset => exact (pairSingle_picReset s).reply ht
  | picICW1 c ltim sngl ic4 => exact (pairSingle_picCommand s c (applyICW1 ltim sngl ic4) (.of_isr_zero rfl)).reply ht
  | picICW2 c b | picICW3 c b | picICW4 c b | picOCW1 c b => exact (pairSingle_writeData s c b).reply ht
  | picOCW2EOI c r sl l => exact (pairSingle_endOfInterrupt s c (if sl then some l else none) r).reply ht
  | picOCW2RotAutoSet c => exact (pairSingle_picCommand s c (setRotateOnAutoEOI true) (.of_isr rfl)).reply ht
  | picOCW2RotAutoClr c => exact (pairSingle_picCommand s c (setRotateOnAutoEOI false) (.of_isr rfl)).reply ht
  | picOCW2SetPrio c l => exact (pairSingle_picCommand s c (setLowestPriority l) (.of_isr rfl)).reply ht
  | picOCW2Nop c l => exact (pairSingle_picCommand s c id (.refl _)).reply ht
  | picOCW3 c esmm smm p rr ris =>
    exact (pairSingle_picCommand s c (applyOCW3 esmm smm p rr ris) (.of_isr rfl)).reply ht
  | picRdCmd c => exact (pairSingle_readCmd s c).reply ht
  | picRdData c => exact (pairSingle_readData s c).reply ht
  | clkPulse =>
    have hpulse := (serviceKept_pulse s).pairSingle
    have hreply : Machine.reply (pulse params s, okUnit) = .next t := ht
    generalize pulse params s = u at hpulse hreply
    exact hpulse.reply hreply
  | clkSignalPulse => exact (serviceKept_signalPulse s).pairSingle.reply ht
  | ataReset ch => exact (parts.ataReset ch s kept).onChannel ht
  | ataSetSelectedDriveIndex ch k => exact (parts.setSelectedDriveIndex ch k s kept).pairSingle.reply ht
  | ataInsert sel carrier image wp => exact (parts.ataInsert sel carrier image wp s kept).pairSingle.reply ht
  | ataEject sel => exact (parts.ataEject sel s kept).pairSingle.reply ht
  | ataUpdate ch => exact (parts.ataUpdate ch s kept).onChannel ht
  | ataRdData ch w => exact (parts.readDataReg ch w s kept).onChannel ht
  | ataWrData ch w v => exact (parts.writeDataReg ch w _ s kept).onChannel ht
  | ataWrFeatures ch b => exact (parts.writeBoth ch _ s kept).onChannel ht
  | ataWrParam ch o b => exact (parts.writeBoth ch _ s kept).onChannel ht
  | ataWrDrvHead ch lba drv head => exact (parts.writeDrvHead ch lba drv head s kept).onChannel ht
  | ataRdStatus ch => exact (parts.lowerIrq ch s kept).onChannel ht
  | ataWrCommand ch b => exact (parts.writeCommand ch b s kept).onChannel ht
  | ataWrDevCtl ch srst nien => exact (parts.writeDevCtl ch srst nien s kept).onChannel ht
  | ataRdError ch | ataRdParam ch _ | ataRdDrvHead ch | ataRdAltStatus ch | ataRdDrvAddr ch | ataWrDrvAddr ch _ =>
    exact kept.onChannel ht
  | cpuGetRegister name => exact (serviceKept_getRegister s name).pairSingle.reply ht
  | cpuSetRegister name bytes => exact (serviceKept_setRegister s name bytes).pairSingle.reply ht
  | romSetSystemBIOS bytes => exact (serviceKept_setSystemBIOS s bytes).pairSingle.reply ht
  | cpuStart => exact PairSingle.reply (u := setRunning true s) kept.pairSingle ht
  | cpuStop => exact PairSingle.reply (u := setRunning false s) kept.pairSingle ht
  | cpuReset => exact PairSingle.reply (u := Machine.cpuReset s) kept.pairSingle ht
  | modGetDump _ | modIsConnected _ | romReadSystemBIOS => exact kept.pairSingle.reply ht
  | modReset m => exact (pairSingle_moduleReset s m).reply ht
  | modStart m => exact (serviceKept_moduleStart s m).pairSingle.reply ht
  | modStop m => exact (serviceKept_moduleStop s m).pairSingle.reply ht

end Sys2Proof.Machine

namespace Sys2Proof.Proofs

open Sys2Proof.Machine
open Sys2Proof.Config (params)

/-- Settles O21: the gates are the resolver's (`eligible_iff`); an acknowledge and every operation but `CPU.step` put no
second line in service by `exec_pairSingle`. -/
theorem nesting : Obligations.Nesting := by
  refine ⟨fun p => intReq_of_inService, fun s hisr hsfnm hmask => ?poll, fun p l k hsfnm hmask hl hk => ?fully,
    fun p l hmask hl => ?special, fun s hmodes => ?acknowledge, fun i s t c hi ht => ?operation⟩
  case poll => exact pollInterrupt_of_quiet params (intReq_of_inService hisr hsfnm hmask)
  case fully =>
    obtain ⟨-, -, hservice⟩ := (eligible_iff p l).mp (eligible_of_selected hl)
    rw [hmask, hsfnm, if_neg Bool.false_ne_true, if_neg (isr_ne_zero_of_lineBit hk), if_pos rfl] at hservice
    exact hservice k hk
  case special =>
    obtain ⟨-, -, hservice⟩ := (eligible_iff p l).mp (eligible_of_selected hl)
    rwa [if_pos hmask] at hservice
  case acknowledge =>
    refine ⟨_, exec_picAcknowledge s, fun c => ?_⟩
    obtain ⟨hsfnm, hmask, hone⟩ := hmodes c
    exact (exec_pairSingle .picAcknowledge nofun (exec_picAcknowledge s)).singleKept c hsfnm hmask hone
  case operation => exact (exec_pairSingle i hi ht).singleKept c

end Sys2Proof.Proofs
end

section
/-! SUPPORT. The reset of the whole machine: MACHINE.reset module by module (R401), the machine built and reset once and
again with no external device (R400, R402, R404), and the drives it resets (R246). -/

namespace Sys2Proof.Machine

open Sys2Proof.Config (params noExternals)

/-! ### The modules in turn (R401) -/

section

variable (P : Params) (ms : List Module) (s : State)

/-- The machine after the first `k` modules of a list have been reset. -/
def afterResets (k : Nat) : State := (ms.take k).foldl (fun u m => (moduleReset P m u).1) s

/-- The answer of the module at place `k` of the list, reset in its turn. -/
def resetAnswer (k : Nat) : Result := (ms[k]?).elim success fun m => (moduleReset P m (afterResets P ms s k)).2

theorem moduleReset_afterResets {k : Nat} {m : Module} (h : ms[k]? = some m) :
    moduleReset P m (afterResets P ms s k) = (afterResets P ms s (k + 1), resetAnswer P ms s k) := by
  rw [resetAnswer, h, afterResets, afterResets, List.take_add_one, h, List.foldl_append]
  rfl

theorem resetModules_afterResets : (resetModules P ms s).1 = afterResets P ms s ms.length := by
  rw [afterResets, List.take_length]
  induction ms generalizing s with
  | nil => rfl
  | cons m rest ih => exact ih _

theorem resetModules_succeeds :
    (resetModules P ms s).2 = true ↔ ∀ k, k < ms.length → resetAnswer P ms s k = success := by
  induction ms generalizing s with
  | nil => exact iff_of_true rfl nofun
  | cons m rest ih =>
    rw [List.length_cons, Nat.forall_lt_succ_left]
    exact (Bool.and_eq_true_iff).trans (and_congr decide_eq_true_iff (ih _))

theorem machineReset_afterResets : (machineReset P s).1 = afterResets P P.resetOrder s P.resetOrder.length :=
  resetModules_afterResets P P.resetOrder s

theorem machineReset_succeeds :
    (machineReset P s).2 = success ↔ ∀ k, k < P.resetOrder.length → resetAnswer P P.resetOrder s k = success := by
  rw [← resetModules_succeeds, machineReset]
  cases (resetModules P P.resetOrder s).2 <;> simp [success]

theorem machineReset_fails (h : (machineReset P s).2 ≠ success) : (machineReset P s).2 = .failed :=
  if_neg fun hall => h (if_pos hall)

end

/-! ### The machine built and reset (R400, R402) -/

/-- The machine as built, with the ports of the interrupt controllers registered: what the BUS, PIC and CLK resets make
of it, and the ATA reset finds. -/
def builtWithPic : State :=
  { constructed params with bus := [0x20, 0x21, 0xA0, 0xA1].map (rwPort .pic), result := success }

/-- The reset machine after an operation that has succeeded. -/
def resetMachine : State := { State.reset with result := success }

theorem moduleReset_pic_constructed :
    moduleReset params .pic { constructed params with result := success } = (builtWithPic, success) := rfl

theorem moduleReset_ata_builtWithPic : moduleReset params (.ata 0) builtWithPic = (resetMachine, success) := rfl

/-- A module of the reset machine is reset already (R404). -/
theorem moduleReset_resetMachine {m : Module} (hm : m ∈ noExternals.resetOrder) :
    moduleReset params m resetMachine = (resetMachine, success) := by
  simp only [noExternals_resetOrder, List.mem_cons, List.not_mem_nil, or_false] at hm
  rcases hm with rfl | rfl | rfl | rfl | rfl
  · exact moduleReset_bus params resetMachine
  · rfl
  · exact moduleReset_clk params resetMachine
  · rfl
  · rfl

theorem performAll_modReset {m : Module} {s u : State} (h : moduleReset params m s = (u, success)) (rest : List Instr) :
    performAll (.modReset m :: rest) s = performAll rest { u with result := success } := by
  rw [performAll, exec_modReset, h]
  rfl

/-- Resets of modules of the reset machine change nothing more. -/
theorem performAll_modReset_resetMachine {ms : List Module} (hms : ∀ m ∈ ms, m ∈ noExternals.resetOrder) :
    performAll (ms.map .modReset) resetMachine = .next resetMachine := by
  induction ms with
  | nil => rfl
  | cons m rest ih =>
    rw [List.map_cons, performAll_modReset (moduleReset_resetMachine (hms m List.mem_cons_self))]
    exact ih fun k hk => hms k (List.mem_cons_of_mem _ hk)

/-- The machine built and reset once is the reset machine (R402). -/
theorem machineReset_constructed :
    performAll (pseudoMachineReset noExternals) (constructed noExternals) = .next resetMachine := by
  rw [pseudoMachineReset, noExternals_resetOrder, constructed_noExternals]
  calc performAll ([Module.bus, .pic, .clk, .ata 0, .cpu].map .modReset) (constructed params)
    _ = performAll ([Module.pic, .clk, .ata 0, .cpu].map .modReset) { constructed params with result := success } :=
      performAll_modReset (moduleReset_bus params _) _
    _ = performAll ([Module.clk, .ata 0, .cpu].map .modReset) builtWithPic :=
      performAll_modReset moduleReset_pic_constructed _
    _ = performAll ([Module.ata 0, .cpu].map .modReset) builtWithPic := performAll_modReset (moduleReset_clk params _) _
    _ = performAll ([Module.cpu].map .modReset) resetMachine := performAll_modReset moduleReset_ata_builtWithPic _
    _ = .next resetMachine := performAll_modReset_resetMachine (by simp)

/-- A second reset gives the reset machine again (R404). -/
theorem machineReset_reset : performAll (pseudoMachineReset noExternals) State.reset = .next resetMachine := by
  rw [pseudoMachineReset, noExternals_resetOrder, List.map_cons, performAll_modReset (moduleReset_bus params State.reset)]
  exact performAll_modReset_resetMachine (by simp)

/-! ### The fields of the reset machine (R402) -/

theorem mapGet_rwPorts (ports : List Nat) (d : Device) (rest : List (Nat × PortEntry)) (a : Nat) :
    mapGet (ports.map (rwPort d) ++ rest) a =
      if a ∈ ports then some { owner := d, attr := .rw } else mapGet rest a := by
  induction ports with
  | nil => simp
  | cons p ports ih =>
    rw [List.map_cons, List.cons_append, rwPort, mapGet, ih]
    by_cases hp : p = a
    · simp [hp]
    · simp [hp, eq_comm (a := a)]

/-- The ports of the reset machine: the interrupt controllers' four and the channel's ten. -/
theorem portEntry_reset (a : Half) :
    portEntry State.reset a =
      if a ∈ [0x20, 0x21, 0xA0, 0xA1] then some { owner := .pic, attr := .rw }
      else if a ∈ [0x1F0, 0x1F1, 0x1F2, 0x1F3, 0x1F4, 0x1F5, 0x1F6, 0x1F7, 0x3F6, 0x3F7] then
        some { owner := .ata 0, attr := .rw }
      else none := by
  have hport : portEntry State.reset a =
      mapGet ([0x20, 0x21, 0xA0, 0xA1].map (rwPort .pic) ++
        ([0x1F0, 0x1F1, 0x1F2, 0x1F3, 0x1F4, 0x1F5, 0x1F6, 0x1F7, 0x3F6, 0x3F7].map (rwPort (.ata 0)) ++ []))
        a.toNat := rfl
  rw [hport, mapGet_rwPorts, mapGet_rwPorts]
  simp only [List.mem_cons, List.not_mem_nil, or_false, ← BitVec.toNat_inj]
  rfl

/-! ### The invariants of the reset machine -/

theorem driveOk_emptyDrive : DriveOk emptyDrive := ⟨by decide, nofun, nofun⟩

theorem channelsOk_reset : ChannelsOk State.reset := by
  intro c hc
  obtain rfl := List.mem_singleton.mp hc
  exact ⟨driveOk_emptyDrive, driveOk_emptyDrive, by decide, by decide, by decide, nofun⟩

theorem timersOk_reset : TimersOk State.reset := by
  refine ⟨(by decide : 1 ≤ 10), fun x hx => ?_⟩
  obtain rfl := List.mem_singleton.mp hx
  exact ⟨one_le_pulsesOf params params.ataCmdDelayUs State.reset, le_rfl, nofun⟩

/-- The only channel of the reset machine owns line 0. -/
theorem linesOwned_reset : LinesOwned State.reset := by
  intro ch c hc
  obtain ⟨hch, rfl⟩ := List.getElem?_eq_some_iff.mp hc
  obtain rfl : ch = 0 := Nat.lt_one_iff.mp hch
  exact .inr ⟨0, rfl, rfl⟩

/-! ### The lines the builder has wired (R33) -/

/-- A map that gives each of some keys its own value, where it has one. -/
theorem mapGet_filterMap {α : Type} (f : Nat → Option α) (keys : List Nat) (n : Nat) :
    mapGet (keys.filterMap fun k => (f k).map fun x => (k, x)) n = if n ∈ keys then f n else none := by
  induction keys with
  | nil => rfl
  | cons k rest ih =>
    by_cases hk : k = n
    · subst hk
      cases hf : f k <;> simp [hf, ih, mapGet]
    · cases hf : f k <;> simp [hf, ih, mapGet, hk, Ne.symm hk]

theorem mapGet_wiredLines (P : Params) (n : Nat) :
    mapGet (wiredLines P) n = if n < 16 ∧ n ∉ P.irqReserved then P.irqWired n else none := by
  have hwired : wiredLines P = (List.range 16).filterMap fun k =>
      (if k ∈ P.irqReserved then none else P.irqWired k).map fun d => (k, d) := by
    unfold wiredLines
    congr 1
    funext k
    by_cases hk : k ∈ P.irqReserved <;> simp [hk]
  rw [hwired, mapGet_filterMap]
  by_cases hn : n ∈ P.irqReserved <;> simp [hn]

end Sys2Proof.Machine

namespace Sys2Proof.Proofs

open Sys2Proof.Machine
open Sys2Proof.Config (params)

/-- Settles O51: MACHINE.reset goes through `afterResets`, one `MOD.reset` after the other; the machine built and reset is
`State.reset` (`machineReset_constructed`). -/
theorem firstMachineReset : Obligations.FirstMachineReset := by
  refine ⟨params_resetOrder, fun s => ?inTurn, ?first⟩
  case inTurn =>
    refine ⟨afterResets params params.resetOrder s, resetAnswer params params.resetOrder s, rfl, fun k m hm => ?_,
      machineReset_afterResets params s, machineReset_succeeds params s, machineReset_fails params s⟩
    rw [exec_modReset, moduleReset_afterResets params _ s hm]
    rfl
  case first =>
    exact ⟨_, machineReset_constructed, rfl, intReq_picResetOf (constructedPic 0x08),
      intReq_picResetOf (constructedPic 0x70), portEntry_reset, fun c => by cases c <;> rfl, rfl, rfl,
      ⟨emptyDrive, emptyDrive, rfl, by simp [emptyDrive]⟩, rfl, rfl, rfl⟩

/-- Settles O52: `machineReset_constructed`, `machineReset_reset`, and each invariant of the reset machine by its own
lemma. -/
theorem resetState : Obligations.ResetState := by
  refine ⟨machineReset_constructed, machineReset_reset, picOk_reset State.reset, timersOk_reset, ?maps, channelsOk_reset,
    linesOwned_reset, nofun, rfl, mapGet_wiredLines⟩
  case maps => exact ⟨by decide, by decide, by decide, by decide⟩

/-- Settles O43: the reset of a drive is its signature, field by field. -/
theorem driveReset : Obligations.DriveReset := fun _ => rfl

end Sys2Proof.Proofs
end
